-- ==== Sys2Proof/Word.lean ====
section
/-! DEFINITION. The word types of the META 4A (R3, R6, R16): a register or halfword is 16 bits, a byte 8,
a register number 4, a displacement 12. Manual bit `i` of a value (bit 0 leftmost) is `getMsbD i`. -/

namespace Sys2Proof

/-- A halfword: the size of registers and fixed-point numbers (R3). -/
abbrev Word := BitVec 16

/-- A byte, the unit of addressing (R46). -/
abbrev Byte := BitVec 8

/-- A 4-bit field: a register number 0 to 15 (R16), a hex digit, a shift count, a mask or a device number (R90). -/
abbrev Reg := BitVec 4

/-- A 12-bit displacement D1 or D2 (R83). -/
abbrev Disp := BitVec 12

/-- An address whose bit 15 is on: no halfword may stand there (R52). -/
def odd (a : Word) : Bool := a.getLsbD 0

end Sys2Proof
end

