-- ==== Sys2Proof/Machine/Flags.lean ====
section
/-! DEFINITION. The flags: the bits of the MSR (R24), writes to the condition code, and every flag and result computation of
the instructions, as functions of the operands. Numbers are computed exactly and narrowed at the end (R126, R161, R167). -/

namespace Sys2Proof.Machine

/-- What an instruction writes to the condition code: for each of C0, C1, C2 the new bit, or none where it leaves it (R25). -/
structure CcWrite where
  c0 : Option Bool
  c1 : Option Bool
  c2 : Option Bool
  deriving DecidableEq, Repr

/-- `setCC(a,b,c)`: all three bits written. -/
def CcWrite.all (a b c : Bool) : CcWrite := { c0 := some a, c1 := some b, c2 := some c }

/-- Writes of one bit, or of C1 and C2. -/
def CcWrite.c0Only (b : Bool) : CcWrite := { c0 := some b, c1 := none, c2 := none }
def CcWrite.c1Only (b : Bool) : CcWrite := { c0 := none, c1 := some b, c2 := none }
def CcWrite.c2Only (b : Bool) : CcWrite := { c0 := none, c1 := none, c2 := some b }
def CcWrite.c1c2 (a b : Bool) : CcWrite := { c0 := none, c1 := some a, c2 := some b }

/-- Nothing written. -/
def CcWrite.nothing : CcWrite := { c0 := none, c1 := none, c2 := none }

/-- Bit `i` of a halfword, bit 0 leftmost, set to `b`. -/
def putBit (w : Word) (i : Nat) (b : Bool) : Word :=
  if b then w ||| (0x8000#16 >>> i) else w &&& ~~~(0x8000#16 >>> i)

/-- Bit `i` set to `b` where there is one to set. -/
def putBit? (w : Word) (i : Nat) : Option Bool → Word
  | some b => putBit w i b
  | none => w

/-- The MSR with the condition-code bits written: C0, C1, C2 are bits 0, 1, 2 (R24). -/
def CcWrite.apply (c : CcWrite) (m : Word) : Word := putBit? (putBit? (putBit? m 0 c.c0) 1 c.c1) 2 c.c2

/-- The MSR with ILC, bits 4 and 5, replaced (R27). -/
def withIlc (m : Word) (ilc : BitVec 2) : Word := (m &&& 0xF3FF#16) ||| (ilc.setWidth 16 <<< 10)

/-- Whether an integer is a 16-bit two's complement number. -/
def fits16 (n : Int) : Bool := decide (-32768 ≤ n ∧ n ≤ 32767)

/-- Arithmetic overflow of a sum and of a difference (R126). -/
def addOverflows (a b : Word) : Bool := !fits16 (a.toInt + b.toInt)
def subOverflows (a b : Word) : Bool := !fits16 (a.toInt - b.toInt)

/-- Carry out of the logical sum, and of the logical difference, where it is the complement of borrow (R152). -/
def addCarry (a b : Word) : Bool := decide (65536 ≤ a.toNat + b.toNat)
def subCarry (a b : Word) : Bool := decide (b.toNat ≤ a.toNat)

/-- Complement, positive and negative of a halfword (R111, R113, R115): only 8000 overflows, in the first two. -/
def complement (v : Word) : Word := 0 - v
def positive (v : Word) : Word := if v.toInt < 0 then 0 - v else v
def negative (v : Word) : Word := if 0 < v.toInt then 0 - v else v
def complementOverflows (v : Word) : Bool := v == 0x8000

/-- The outcome of a comparison: C0 equal, C1 first greater, C2 first less (R146, R216). -/
def compareCc (equal greater : Bool) : CcWrite :=
  if equal then .all true false false else if greater then .all false true false else .all false false true

/-- Algebraic and logical comparison (R146, R216). -/
def compareSigned (a b : Word) : CcWrite := compareCc (decide (a.toInt = b.toInt)) (decide (b.toInt < a.toInt))
def compareLogical {w : Nat} (a b : BitVec w) : CcWrite := compareCc (a == b) (decide (b.toNat < a.toNat))

/-- Test under mask: C0 all selected bits 0 or no bit selected, C1 all 1, C2 mixed (R260). -/
def testUnderMask {w : Nat} (a m : BitVec w) : CcWrite :=
  if a &&& m = 0 then .all true false false
  else if a &&& m = m then .all false true false
  else .all false false true

/-- The exact product, its 32-bit form, and whether it requires more than 16 bits (R161). -/
def product (a b : Word) : BitVec 32 := BitVec.ofInt 32 (a.toInt * b.toInt)
def productLarge (a b : Word) : Bool := !fits16 (a.toInt * b.toInt)

/-- The 32-bit number of a register or halfword pair, the first the high-order half (R19). -/
def pair (hi lo : Word) : BitVec 32 := hi ++ lo
def highHalf (v : BitVec 32) : Word := v.extractLsb' 16 16
def lowHalf (v : BitVec 32) : Word := v.extractLsb' 0 16

/-- Quotient rounded toward zero and remainder with the dividend's sign (R167; PRESUMED, log 24). -/
def quotient (n : BitVec 32) (d : Word) : Int := n.toInt.tdiv d.toInt
def remainder (n : BitVec 32) (d : Word) : Int := n.toInt.tmod d.toInt

/-- What a shift leaves: the value, whether it overflowed, and the last bit shifted out, none for a count of 0. -/
structure Shifted (w : Nat) where
  value : BitVec w
  overflow : Bool
  out : Option Bool
  deriving DecidableEq, Repr

/-- Left algebraic shift (R197): the sign stays, a bit leaves from bit position 1, a zero enters at the right
(PRESUMED, log 24). `first` is what has happened so far. -/
def shiftLeftAlgebraic {w : Nat} (first : Shifted w) : Nat → Shifted w
  | 0 => first
  | n + 1 =>
    let v := first.value
    shiftLeftAlgebraic
      { value := if v.msb then (v <<< 1) ||| BitVec.intMin w else (v <<< 1) &&& ~~~(BitVec.intMin w)
        overflow := first.overflow || v.getMsbD 1 != v.msb
        out := some (v.getMsbD 1) } n

/-- Right algebraic shift (R198): copies of the sign enter at the left. -/
def shiftRightAlgebraic {w : Nat} (first : Shifted w) : Nat → Shifted w
  | 0 => first
  | n + 1 =>
    shiftRightAlgebraic
      { value := first.value.sshiftRight 1, overflow := first.overflow, out := some (first.value.getLsbD 0) } n

/-- Logical shifts (R301): every bit takes part and zeros enter (PRESUMED, log 24). -/
def shiftLeftLogical {w : Nat} (first : Shifted w) : Nat → Shifted w
  | 0 => first
  | n + 1 =>
    shiftLeftLogical { value := first.value <<< 1, overflow := first.overflow, out := some first.value.msb } n

def shiftRightLogical {w : Nat} (first : Shifted w) : Nat → Shifted w
  | 0 => first
  | n + 1 =>
    shiftRightLogical
      { value := first.value >>> 1, overflow := first.overflow, out := some (first.value.getLsbD 0) } n

/-- A value no bit of which has been shifted yet. -/
def unshifted {w : Nat} (v : BitVec w) : Shifted w := { value := v, overflow := false, out := none }

/-- The sign classes of test and branch (R339). -/
def isPositive (v : Word) : Bool := decide (0 < v.toInt)
def isMinus (v : Word) : Bool := v.msb
def isZero (v : Word) : Bool := v == 0

/-- The condition-code bits and F selected by a mask (R352), and whether BCZ and BCO branch. A mask of 0 always branches
(decision D28, log 27). -/
def selectedConditions (mask : Reg) (msr : Word) : Reg := mask &&& msr.extractLsb' 12 4
def conditionsZero (mask : Reg) (msr : Word) : Bool := selectedConditions mask msr == 0
def conditionOne (mask : Reg) (msr : Word) : Bool := selectedConditions mask msr != 0 || mask == 0

end Sys2Proof.Machine
end

