-- ==== Sys2Proof/Config.lean ====
section
/-! DEFINITION. What an implementation fixes (the parameters of 92_eei_decisions.md, with the spec's defaults), and the
free values: opaque constants with no body, applied to the state's free-value counter, of which nothing can be proved. -/

namespace Sys2Proof.Config

/-- Bytes of installed memory, 32768 by default (R4, R47). -/
def memSize : Nat := 32768

/-- What a byte of memory that nothing has written reads as. DESIGN CHOICE, unsafe: the spec gives no value (R45, R59);
zero is what the panel's memory clear leaves (R475). Log 1. -/
def initialByte : Byte := 0

/-- MVBI's operation code, a parameter (R231, decision D8). Log 20. -/
def opcMvbi : Byte := 0x8C

/-- MVA's operation code, a parameter (R277, decision D9). Log 20. -/
def opcMva : Byte := 0xF2

/-- The list bit of the EDB flag byte (R323, decision D16). Log 21. -/
def edbList : Byte := 0x80

/-- The T bit of the EDB flag byte: 1 tests under mask, 0 compares logically (R323). Log 21. -/
def edbT : Byte := 0x08

/-- The bits of CCC that select the outcomes C0, C1, C2 (R323). Log 21. -/
def edbC0 : Byte := 0x04
def edbC1 : Byte := 0x02
def edbC2 : Byte := 0x01

/-- In SRCH's logical compare the key is the first operand (R328). Log 21. -/
def srchKeyFirst : Bool := true

/-- The last register RET reloads and branches through (R378, conflict C6). Log 22. -/
def retLast : Reg := 13

/-- EBCDIC blank, minus sign and digit 0. PRESUMED (R173). Log 23. -/
def chBlank : Byte := 0x40
def chMinus : Byte := 0x60
def chZero : Byte := 0xF0

/-- The local unit addresses at which a unit is installed (parameter table of 92_eei_decisions.md). -/
def installed : List Nat := [1, 2, 3, 4, 5, 6]

/-- The operation bits of the No Operation IOCC, which the source has lost (R420, N13). Log 37. -/
opaque ioccNop : Byte

/-- The offsets of the fields of the S/360 UCB, which the source has lost (R424, N11). Log 38. -/
opaque ucbCommand : Word
opaque ucbStatus : Word
opaque ucbDataAddress : Word
opaque ucbCount : Word
opaque ucbFinalAddress : Word
opaque ucbResidual : Word
opaque ucbSense : Word
opaque ucbStatusTable : Word

/-- The status bytes "busy" and "unit exception" of R424, whose bits the spec does not give. Log 38. -/
opaque statusBusy : Byte
opaque statusUnitException : Byte

/-- Which bits of the card reader's USH its five flags are, whose positions are lost (R430, N14): the choice of the `n`-th among
the bits left. Log 34. -/
opaque cardPick : Nat → Nat

/-- Whether ENT takes the Stack Frame Overflow when only the new free-space header does not fit (U18). Log 16. -/
opaque entTightOverflows : Bool

/-- Whether the panel's NSI is a window on memory (N46). Log 31. -/
opaque nsiIsWindow : Bool

/-- Whether MSR.I/O and the mask gate the interrupts of INT RUN mode, which the spec does not say (R436). Log 43. -/
opaque intRunGated : Bool

/-- A free halfword, byte, bit: what the spec calls unspecified while the machine goes on. -/
opaque freeWord : Nat → Word
opaque freeByte : Nat → Byte
opaque freeBit : Nat → Bool

/-- Free ILC bits (U1, U14). Logs 3 and 12. -/
opaque freeIlc : Nat → BitVec 2

/-- For each of C0, C1, C2, whether the condition-code write survives when the same instruction also writes
register 0 (U2). Log 4. -/
opaque freeMerge : Nat → BitVec 3

/-- What the channel does in a transfer: its bytes, how many it takes, how it ends (R385), and its answer to a
status byte (R387). Log 39. -/
opaque channelByte : Nat → Byte
opaque channelLength : Nat → Nat
opaque channelEnding : Nat → BitVec 2
opaque channelAnswer : Nat → BitVec 2

/-- What the S and T interface registers hold when read (R42, R388, N44). Log 40. -/
opaque interfaceS : Nat → Word
opaque interfaceT : Nat → Word

end Sys2Proof.Config
end

