-- ==== Sys2Proof/Machine/State.lean ====
section
/-! DEFINITION. The state of the META 4A (10_state.md), as plain data, the reasons a step can stop, and the state after reset. -/

namespace Sys2Proof.Machine

/-- Main memory (R46), or the disk cartridge: the bytes that differ from what an unlisted address reads as, addresses
strictly rising. Operations and the canonical form stand in Memory.lean. -/
structure Memory where
  cells : List Host.Cell
  deriving DecidableEq, Repr

/-- The first halfword of the next sequential instruction as the processor may have read it ahead (R64, R44): its
address in memory and the halfword. -/
structure Nsi where
  addr : Nat
  half : Word
  /-- Loaded from the panel: it is what runs next (N46, log 31). -/
  loaded : Bool := false
  deriving DecidableEq, Repr

/-- An Input/Output Control Command (R384): address field, unit address, operation bits, modifier. -/
structure Iocc where
  address : Word
  unit : BitVec 4
  op : Byte
  modifier : BitVec 3
  deriving DecidableEq, Repr

/-- An operation a unit has begun: its command, how many halfwords its buffer gives it (R430, R433), and the halfwords of
data it has already moved, by their places in the buffer (R61). -/
structure Operation where
  iocc : Iocc
  count : Nat
  moved : List (Nat × Word)
  deriving DecidableEq, Repr

/-- A local I/O unit as the CPU sees it (R410): its interrupt request (R41), whether it is offline, its Unit Status
Halfword (R43), and the operation in progress. -/
structure LocalUnit where
  request : Bool
  offline : Bool
  ush : Word
  operation : Option Operation
  deriving DecidableEq, Repr

/-- A terminal interface (R431, R432): the status codes of its last Control, and the character it has received. -/
structure Terminal where
  codes : Word
  input : Word
  deriving DecidableEq, Repr

/-- The 1444 disk (R433): where the carriage is, and the cartridge, sector by sector. -/
structure Disk where
  cylinder : Nat
  cells : Memory
  deriving DecidableEq, Repr

/-- What the REGISTER SELECT dial points at (R477). -/
inductive RegisterSelect where
  | msr | pc | nsi | displayCounter | memoryData | registerData
  deriving DecidableEq, Repr

/-- The positions of the MODE SELECT dial (R475, R477, R479). -/
inductive Mode where
  | run | step | intRun | load | display
  deriving DecidableEq, Repr

/-- The control panel (R44, R436, R471 to R479). `runMode` is the mode the machine runs in: the one the dial had when START was
pressed, so that the dial turned while the machine runs counts at the next START only, of which R479 says nothing (DESIGN CHOICE, log
43). `ipl` is the bytes that an IPL under way has still to load (R473). -/
structure Panel where
  switches : Word
  upper : Word
  lower : Word
  displayCounter : Word
  registerSelect : RegisterSelect
  modeSelect : Mode
  runMode : Mode
  stopped : Bool
  iplLight : Bool
  parStopLight : Bool
  ipl : Option (List Byte)
  deriving DecidableEq, Repr

/-- An initial selection by the S/360 channel: the device, 0 to 15 for 050 to 05F, and the command byte (R423, R424). -/
structure Selection where
  device : BitVec 4
  command : Byte
  deriving DecidableEq, Repr

/-- The S/360 interface (R42, R422): the S and T registers, whether the machine is online to the channel (R478), the
initial selection not yet handled (R41), and whether a System or Selective Reset is signalled (R427). -/
structure Interface where
  sReg : Word
  tReg : Word
  online : Bool
  selection : Option Selection
  resetSignal : Bool
  deriving DecidableEq, Repr

/-- What the machine sends out. -/
inductive Output where
  /-- A character, and the status codes, to the terminal, or to the /360 as a terminal when `host` (R431, R432). -/
  | terminalWrite (host : Bool) (char : Word)
  | terminalControl (host : Bool) (codes : Word)
  /-- A BREAK to the /360 (R432). -/
  | hostBreak
  /-- To the META 4B: an interrupt request with the address field of the Write, the USH bits to clear, the signal to stop
  (R437, R478). -/
  | interruptB (address : Word)
  | clearB (bits : Word)
  | stopB
  /-- To the channel: an initial status byte (R424), a data byte (R385, R386), a status byte (R387). -/
  | initialStatus (device : BitVec 4) (status : Byte)
  | channelData (device : BitVec 4) (data : Byte)
  | channelStatus (device : BitVec 4) (status : Byte)
  /-- A value written to the S or the T register (R388). -/
  | interfaceS (value : Word)
  | interfaceT (value : Word)
  /-- The halfword the panel displays (R477). -/
  | panelDisplay (value : Word)
  deriving DecidableEq, Repr

/-- What the outside world does to the machine. -/
inductive Event where
  /-- A unit presents a status and requests an interrupt (R416), or only changes its status. -/
  | request (u : Fin 11) (ush : Word)
  | status (u : Fin 11) (ush : Word) (offline : Bool)
  /-- A unit completes its operation (R416); `columns` are the card's, where it is the card reader, and `lastCard` whether it was
  the last (R430); `checkFails` is the outcome of the card's check or of a disk's Read-Check (R433), or that a disk's Initiate Read or
Write fails (DESIGN CHOICE, log 36). -/
  | complete (u : Fin 11) (columns : List (BitVec 12)) (checkFails lastCard : Bool)
  /-- A unit moves halfword `k` of its buffer before it completes (R61); `column` is the card's. -/
  | transfer (u : Fin 11) (k : Nat) (column : BitVec 12)
  /-- A terminal receives a character, `parity` where it has a parity error; its Break; its Attention button (R431, R432). -/
  | terminalInput (host : Bool) (char : Word) (parity : Bool)
  | terminalBreak (host : Bool)
  | terminalAttention (host : Bool)
  /-- The META 4B clears bits of the META 4A's own USH (R437). -/
  | clearedByB (bits : Word)
  /-- A unit's cycle-stealing store (R61), or one of the firmware into its reserved cells (R58). -/
  | memoryWrite (a : Word) (bytes : List Byte)
  /-- A parity check is detected (R436). -/
  | parityCheck
  /-- The channel selects a device (R424), signals a System or Selective Reset (R427), is switched on or off line. -/
  | select (device : BitVec 4) (command : Byte)
  | s360Reset
  | s360Online (on : Bool)
  /-- The panel's buttons, dials and switches (R471 to R479). `panelIpl` carries the record the S/360 would
  supply; `panelIplFails` is an IPL that ends in an error (R473). -/
  | panelReset
  | panelIpl (record : List Byte)
  | panelIplFails
  | panelClearMemory
  | panelStop
  | panelStart
  | panelClear
  | panelInterrupt
  | panelSwitches (w : Word)
  | panelRegisterSelect (r : RegisterSelect)
  | panelModeSelect (m : Mode)
  deriving DecidableEq, Repr

/-- Where an event falls (R56, R61; log 50): between two turns of the CPU, or within a turn, after that many more of its numbered
accesses, which are reads but for the stores between them, or, those done, after that many more of its other stores, of the reads of
what they copy and of its interrupt's loads. -/
inductive Moment where
  | between
  | reading (reads : Nat)
  | storing (stores : Nat)
  deriving DecidableEq, Repr

/-- An event, how many turns of the CPU come before it, and where it falls then. -/
structure Due where
  turns : Nat
  event : Event
  moment : Moment := .between
  deriving DecidableEq, Repr

/-- One byte of a store of the turn: its address, what was there and what is there now; and of a byte copied within memory where
from, and the bits then put on (log 50). -/
structure Stored where
  addr : Word
  old : Byte
  new : Byte
  source : Option Word := none
  ored : Byte := 0
  deriving DecidableEq, Repr

/-- An access to memory that a unit may come before or after when the turn's numbered accesses are done (log 50). -/
inductive Access where
  /-- A store: the bytes it puts into memory at once (D3). -/
  | store (bytes : List Stored)
  /-- The read of what the next store copies: the bytes as they were read. -/
  | read (bytes : List (Word × Byte))
  deriving DecidableEq, Repr

/-- What a numbered access of the turn finds, where units access memory after it: the memory, the units, and the units' accesses that
come between it and the next numbered access (log 50). -/
structure Snapshot where
  mem : Memory
  units : Vector LocalUnit 11
  next : List Event := []
  deriving DecidableEq, Repr

/-- The machine's state. INVENTORY.md lists each field with the rule that names it. -/
structure State where
  /-- The 16 registers; 0 is the MSR, 1 the PC, 15 the SFP (R16, R17). -/
  regs : Vector Word 16
  /-- Main memory (R46). -/
  mem : Memory
  /-- No I/O or S/360 interrupt before the next instruction (R38, R120). -/
  inhibit : Bool
  /-- The possible prefetch of the next instruction's first halfword (R64). -/
  nsi : Option Nsi
  /-- The local I/O units, by unit address (R410). -/
  units : Vector LocalUnit 11
  /-- The META 4A's own USH, as the META 4B sees it (R437). -/
  ownUsh : Word
  /-- A Parity Check is pending (R41). -/
  parityPending : Bool
  /-- Units 6 and 3 (R431, R432). -/
  terminal : Terminal
  hostTerminal : Terminal
  /-- Unit 2 (R433). -/
  disk : Disk
  /-- Unit 5 and the operator's panel. -/
  panel : Panel
  /-- The S/360 interface. -/
  interface : Interface
  /-- MODEL's own: what the machine has sent out, oldest first (log 33). -/
  outputs : List Output
  /-- MODEL's own: the instruction running is the subject of an EX (log 12). -/
  inExecute : Bool
  /-- MODEL's own: what bits 4 and 5 of register 0 read as while this instruction runs (U1, log 3). -/
  runningIlc : BitVec 2
  /-- MODEL's own: the counter the opaque free values are applied to (log 3). -/
  freeCount : Nat
  /-- MODEL's own: the events to come (log 33). -/
  schedule : List Due
  /-- MODEL's own: the turn's stores so far, and the reads of what they copy, the latest first (log 50). -/
  wrote : List Access
  /-- MODEL's own: the registers the turn's interrupt has loaded, after all its stores, and from where, in order (log 50). -/
  loaded : List (Reg × Word)
  /-- MODEL's own: the bytes that the turn has stored besides, by accesses that no unit's comes before any more (R427, log 50). -/
  done : List Word
  /-- MODEL's own: what the turn's first, second, … numbered access finds, where a unit accesses memory after it; later ones find
  `mem` (log 50). -/
  earlier : List Snapshot
  deriving DecidableEq, Repr

/-- Why the machine stops with a fault. Safe: no claim about a later state can be proved. -/
inductive Fault where
  /-- CVB whose scan never meets a stopping byte, nor does a unit store one in its way: the instruction does not end (R174; log 7).
  Raised by CVB only. -/
  | endlessConversion
  deriving DecidableEq, Repr

/-- Why the model gives no meaning. Each is safe: the spec says a model refuses there. -/
inductive Refusal where
  /-- An instruction not modelled; raised by no arm of the finished model. -/
  | notModelled (mnemonic : String)
  /-- One of the codes R92 says to refuse (decisions D8, D9). Raised by the step and by EX. -/
  | undeterminedOpcode (op : Byte)
  /-- An IOCC whose operation the unit does not define (R421, U20). Raised by SIO and SIOR. -/
  | undefinedIocc
  /-- A disk count of 0 or a card count above 80 (R433, R430, R484, U20). Raised by SIO and SIOR. -/
  | unpredictableTransfer
  /-- An S/360 device above 053 (R423, R385, U20). Raised by EXCC, TRB, SS and an initial selection. -/
  | undefinedDevice (device : BitVec 4)
  deriving DecidableEq, Repr

/-- A step's or an instruction's answer. -/
abbrev Result := Host.Outcome State Fault Refusal

/-- A unit after reset, by its address: no request (R45), no operation, and the status 0 (DESIGN CHOICE, log 35) but for the
disk's bit "carriage at cylinder 0", where the carriage stands (R433). -/
def LocalUnit.reset (u : Fin 11) : LocalUnit :=
  { request := false, offline := false, ush := if u.val = 2 then 0x0800 else 0, operation := none }

/-- The panel at reset: everything off, dials at MSR and RUN (DESIGN CHOICE, log 35). -/
def Panel.reset : Panel :=
  { switches := 0, upper := 0, lower := 0, displayCounter := 0, registerSelect := .msr, modeSelect := .run,
    runMode := .run, stopped := false, iplLight := false, parStopLight := false, ipl := none }

/-- The S/360 interface at reset (R45; DESIGN CHOICE, logs 35 and 40). -/
def Interface.reset : Interface :=
  { sReg := 0, tReg := 0, online := false, selection := none, resetSignal := false }

/-- The machine at the first instruction after RESET, a memory clear and an IPL that loads no bytes (R45, R471, R473, R475;
logs 1, 2, 35). -/
def State.reset : State :=
  { regs := Vector.replicate 16 0
    mem := { cells := [] }
    inhibit := false
    nsi := none
    units := Vector.ofFn LocalUnit.reset
    ownUsh := 0
    parityPending := false
    terminal := { codes := 0, input := 0 }
    hostTerminal := { codes := 0, input := 0 }
    disk := { cylinder := 0, cells := { cells := [] } }
    panel := Panel.reset
    interface := Interface.reset
    outputs := []
    inExecute := false
    runningIlc := 0
    freeCount := 0
    schedule := []
    wrote := []
    loaded := []
    done := []
    earlier := [] }

end Sys2Proof.Machine
end

