-- ==== Sys2Proof/Machine/Memory.lean ====
section
/-! DEFINITION. The operations on a memory (20_memory.md): reading and writing one byte of the list, and its canonical form. -/

namespace Sys2Proof.Machine

/-- The byte a list of cells holds at `a`; an unlisted address reads as `Config.initialByte` (log 1). -/
def lookupCell (a : Nat) : List Host.Cell → Byte
  | [] => Config.initialByte
  | c :: cs => if c.1 = a then c.2 else lookupCell a cs

/-- The list with a cell for `a` put before the first greater address. -/
def insertCell (a : Nat) (b : Byte) : List Host.Cell → List Host.Cell
  | [] => [(a, b)]
  | c :: cs => if a < c.1 then (a, b) :: c :: cs else c :: insertCell a b cs

/-- The byte at address `a` (R46). -/
def Memory.read (m : Memory) (a : Nat) : Byte := lookupCell a m.cells

/-- The memory with `b` at address `a`. Writing what an unlisted address reads as leaves the address unlisted. -/
def Memory.write (m : Memory) (a : Nat) (b : Byte) : Memory :=
  let rest := m.cells.filter (fun c => c.1 != a)
  { cells := if b = Config.initialByte then rest else insertCell a b rest }

/-- The canonical form: addresses strictly rising and below `size`, and no cell that an unlisted address would read as. -/
def Memory.wf (size : Nat) (m : Memory) : Bool :=
  decide (m.cells.Pairwise (fun c d => c.1 < d.1)) &&
    m.cells.all (fun c => decide (c.1 < size) && c.2 != Config.initialByte)

/-- The memory whose byte `a` is `f a`, for every address below `size`. -/
def Memory.filled (size : Nat) (f : Nat → Byte) : Memory :=
  { cells := (List.range size).filterMap
      (fun a => if f a = Config.initialByte then none else some (a, f a)) }

/-- The byte a 16-bit address names: addresses wrap at the end of the installed memory (R47). -/
def phys (a : Word) : Nat := a.toNat % Config.memSize

end Sys2Proof.Machine
end

