-- ==== Sys2Proof/Machine/Ops.lean ====
section
/-! DEFINITION. The named operations over registers and memory, the free values, and TAKING AN INTERRUPT as one shared
operation, with the checks that lead to one (60_exceptions.md). The return from an interrupt, `State.loadMultiple`, stands at
the end. -/

namespace Sys2Proof.Machine

/-! ## Memory -/

/-- The byte at a 16-bit address (R47). -/
def State.byteAt (s : State) (a : Word) : Byte := s.mem.read (phys a)

/-- One store of the CPU: its bytes reach memory at once (decision D3), and the turn's list of accesses holds them (log 50). -/
def State.store (s : State) (bs : List (Word × Byte)) : State :=
  { s with
    mem := bs.foldl (fun m b => m.write (phys b.1) b.2) s.mem
    wrote := .store (bs.map fun b => { addr := b.1, old := s.byteAt b.1, new := b.2 }) :: s.wrote }

/-- The state with a byte stored (R47). -/
def State.setByte (s : State) (a : Word) (b : Byte) : State := s.store [(a, b)]

/-- Bits of a byte of memory put on: its read and its store, two accesses (log 50). -/
def State.orByte (s : State) (a : Word) (m : Byte) : State :=
  { s.setByte a (s.byteAt a ||| m) with
    wrote := .store [{ addr := a, old := s.byteAt a, new := s.byteAt a ||| m, source := some a, ored := m }] ::
      .read [(a, s.byteAt a)] :: s.wrote }

/-- The bytes an access stores. -/
def Access.stored : Access → List Stored
  | .store bs => bs
  | .read _ => []

/-- The addresses of the bytes that the turn has stored so far. -/
def State.storedTo (s : State) : List Word := (s.wrote.flatMap Access.stored).map Stored.addr ++ s.done

/-- No unit comes between the turn's accesses so far (R374, log 50). -/
def State.indivisible (s : State) : State := { s with wrote := [], loaded := [], done := s.storedTo }

/-- The state as the turn's access number `i`, a read, sees its memory: as it was, where a unit stores after that read (R61). R55
leaves the order of an instruction's accesses open: the numbers are the model's (DESIGN CHOICE, log 50). -/
def State.seenAt (s : State) (i : Nat) : State := { s with mem := ((s.earlier[i]?).map Snapshot.mem).getD s.mem }

/-- The halfword at an address, high-order byte first (R49). -/
def State.readHalf (s : State) (a : Word) : Word := s.byteAt a ++ s.byteAt (a + 1)

/-- The state with a halfword stored, high-order byte first (R49). -/
def State.writeHalf (s : State) (a w : Word) : State :=
  s.store [(a, w.extractLsb' 8 8), (a + 1, w.extractLsb' 0 8)]

/-- Bytes, and halfwords, at rising addresses modulo 2^16 (R57). -/
def State.readBytes (s : State) (a : Word) : Nat → List Byte
  | 0 => []
  | n + 1 => s.byteAt a :: s.readBytes (a + 1) n

def State.writeBytes (s : State) (a : Word) : List Byte → State
  | [] => s
  | b :: bs => (s.setByte a b).writeBytes (a + 1) bs

/-- Bytes read one access after the other: number `i` the first, and `step` from each to the next (log 50). -/
def State.readEach (s : State) (i step : Nat) (a : Word) : Nat → List Byte
  | 0 => []
  | n + 1 => (s.seenAt i).byteAt a :: s.readEach (i + step) step (a + 1) n

def State.readHalves (s : State) (a : Word) : Nat → List Word
  | 0 => []
  | n + 1 => s.readHalf a :: s.readHalves (a + 2) n

def State.writeHalves (s : State) (a : Word) : List Word → State
  | [] => s
  | w :: ws => (s.writeHalf a w).writeHalves (a + 2) ws

/-! ## Registers -/

/-- The contents of a register as stored (R16). -/
def State.stored (s : State) (r : Reg) : Word := s.regs[r.toNat]'r.isLt

/-- A register as an instruction reads it: bits 4 and 5 of register 0 are not specified (R27, U1, log 3). -/
def State.reg (s : State) (r : Reg) : Word := if r = 0 then withIlc (s.stored 0) s.runningIlc else s.stored r

/-- The state with a register replaced, all 16 bits (R36). -/
def State.setReg (s : State) (r : Reg) (v : Word) : State := { s with regs := s.regs.set r.toNat v r.isLt }

/-- The MSR and the PC (R17). -/
def State.msr (s : State) : Word := s.stored 0
def State.pc (s : State) : Word := s.stored 1

/-- Fields of the MSR, by bit number (R24). -/
def State.c0 (s : State) : Bool := s.msr.getMsbD 0
def State.c1 (s : State) : Bool := s.msr.getMsbD 1
def State.c2 (s : State) : Bool := s.msr.getMsbD 2
def State.flagF (s : State) : Bool := s.msr.getMsbD 3
def State.waiting (s : State) : Bool := s.msr.getMsbD 6
def State.privileged (s : State) : Bool := s.msr.getMsbD 7
def State.overflowMask (s : State) : Bool := s.msr.getMsbD 8
def State.stackMask (s : State) : Bool := s.msr.getMsbD 9
def State.ioEnabled (s : State) : Bool := s.msr.getMsbD 12
def State.selectEnabled (s : State) : Bool := s.msr.getMsbD 14
def State.parityEnabled (s : State) : Bool := s.msr.getMsbD 15

/-- The state with condition-code bits written (R25). -/
def State.setCc (s : State) (c : CcWrite) : State := s.setReg 0 (c.apply s.msr)

/-- The registers a range names, wrapping from 15 to 0 (R20): `n` of them from `r`. -/
def regRange (r : Reg) : Nat → List Reg
  | 0 => []
  | n + 1 => r :: regRange (r + 1) n

/-- How many registers are from R1 to R3 (R20). -/
def rangeCount (r1 r3 : Reg) : Nat := (r3 - r1).toNat + 1

/-- Registers written one after the other. -/
def State.writeRegs (s : State) : List (Reg × Word) → State
  | [] => s
  | w :: ws => (s.setReg w.1 w.2).writeRegs ws

/-- Free values consumed: the counter moves on (log 3). -/
def State.consume (s : State) (n : Nat) : State := { s with freeCount := s.freeCount + n }

/-- The state with every byte of memory free. -/
def State.anyMemory (s : State) : State :=
  { s.consume Config.memSize with mem := Memory.filled Config.memSize fun a => Config.freeByte (s.freeCount + a) }

/-- U2: of the condition-code bits that a write of register 0 and `c` both touch, each is the one or the other. -/
def mergeCc (keep : BitVec 3) (c : CcWrite) (result : Word) : Word :=
  CcWrite.apply
    { c0 := if keep.getLsbD 0 then c.c0 else none
      c1 := if keep.getLsbD 1 then c.c1 else none
      c2 := if keep.getLsbD 2 then c.c2 else none } result

/-- Result registers and condition code written by one instruction. Where register 0 is among the results, which write of a
condition-code bit is last is free (U2, log 4). -/
def State.writeWithCc (s : State) (ws : List (Reg × Word)) (c : CcWrite) : State :=
  if ws.any (fun w => w.1 == 0) then
    let t := s.writeRegs ws
    (t.setReg 0 (mergeCc (Config.freeMerge s.freeCount) c t.msr)).consume 1
  else (s.writeRegs ws).setCc c

/-- One result register and the condition code. -/
def State.result (s : State) (r : Reg) (v : Word) (c : CcWrite) : State := s.writeWithCc [(r, v)] c

/-! ## Interrupts -/

/-- The four classes (R396). -/
inductive InterruptClass where
  | svc | program | io | s360
  deriving DecidableEq, Repr

/-- Where a class keeps its old MSR, old PC, code, new MSR and new PC: five halfwords from here (R398, R58). -/
def InterruptClass.base : InterruptClass → Word
  | .svc => 0x04
  | .program => 0x0E
  | .io => 0x18
  | .s360 => 0x22

/-- The Program interrupts (R402). -/
inductive ProgramCode where
  | operation | stackFrameOverflow | stackFrameUnderflow | arithmeticOverflow | conversionOverflow | divisionBy0
  | alignment | registerSpecification | privilege | stackOverflow | stackUnderflow | execute | invalidUnitAddress
  | invalidUcbAddress
  deriving DecidableEq, Repr

/-- Their codes (R402). -/
def ProgramCode.code : ProgramCode → Word
  | .operation => 0x02
  | .stackFrameOverflow => 0x04
  | .stackFrameUnderflow => 0x06
  | .arithmeticOverflow => 0x08
  | .conversionOverflow => 0x0A
  | .divisionBy0 => 0x0C
  | .alignment => 0x0E
  | .registerSpecification => 0x10
  | .privilege => 0x12
  | .stackOverflow => 0x14
  | .stackUnderflow => 0x16
  | .execute => 0x18
  | .invalidUnitAddress => 0x1A
  | .invalidUcbAddress => 0x1C

/-- A register loaded from memory after the turn's stores, which the turn's list of loads holds (log 50). -/
def State.loadReg (s : State) (r : Reg) (a : Word) : State :=
  { s.setReg r (s.readHalf a) with loaded := s.loaded ++ [(r, a)] }

/-- The interrupt sequence (R398): old MSR, old PC and code are stored, then the new MSR and PC are loaded. -/
def State.takeInterrupt (s : State) (c : InterruptClass) (oldMsr code : Word) : State :=
  let t := ((s.writeHalf c.base oldMsr).writeHalf (c.base + 2) s.pc).writeHalf (c.base + 4) code
  (t.loadReg 0 (c.base + 6)).loadReg 1 (c.base + 8)

/-- A free instruction length, 1 to 3: ILC is never 0 (R27). -/
def freeLength (n : Nat) : BitVec 2 := if Config.freeIlc n = 0 then 1 else Config.freeIlc n

/-- The ILC an SVC or Program interrupt stores: the causing instruction's length (R399), free where that is the subject of an
EX (U14, log 12). -/
def State.causingIlc (s : State) (ilc : BitVec 2) : BitVec 2 := if s.inExecute then freeLength s.freeCount else ilc

/-- An SVC or Program interrupt of an instruction `ilc` halfwords long: the old PC is the next instruction's address (R399). A halfword
read ahead stays: where the handler begins at the next sequential address, the fetch freely runs it or memory's, for R64 does not say
that the interrupt discards it (DESIGN CHOICE, log 31). -/
def State.synchronousInterrupt (s : State) (c : InterruptClass) (ilc : BitVec 2) (code : Word) : State :=
  (s.takeInterrupt c (withIlc s.msr (s.causingIlc ilc)) code).consume 1

/-- A Program interrupt (R402). -/
def State.programInterrupt (s : State) (ilc : BitVec 2) (c : ProgramCode) : State :=
  s.synchronousInterrupt .program ilc c.code

/-- The SVC interrupt, its code the byte with a zero byte before it (R451). -/
def State.svcInterrupt (s : State) (ilc : BitVec 2) (code : Byte) : State :=
  s.synchronousInterrupt .svc ilc (code.setWidth 16)

/-- An I/O or S/360 interrupt; bits 4 and 5 of the old MSR are free (U1, log 3). -/
def State.asynchronousInterrupt (s : State) (c : InterruptClass) (code : Word) : State :=
  (s.takeInterrupt c (withIlc s.msr (Config.freeIlc s.freeCount)) code).consume 1

/-- The answer "this Program interrupt is taken". -/
def raiseProgram (ilc : BitVec 2) (c : ProgramCode) (s : State) : Result := .next (s.programInterrupt ilc c)

/-- Alignment: an odd halfword address raises the interrupt and suppresses the instruction (R52, R403). -/
def aligned (ilc : BitVec 2) (a : Word) (s : State) (k : Result) : Result :=
  if odd a then raiseProgram ilc .alignment s else k

/-- `MemRead16A`: the aligned halfword at `a`, to go on with. -/
def withHalf (ilc : BitVec 2) (a : Word) (s : State) (k : Word → Result) : Result :=
  aligned ilc a s (k (s.readHalf a))

/-- The same, of an instruction that reads memory again: this is its read number `i` (log 50). -/
def withHalfAt (i : Nat) (ilc : BitVec 2) (a : Word) (s : State) (k : Word → Result) : Result :=
  aligned ilc a s (k ((s.seenAt i).readHalf a))

/-- Register Specification: register 15 may not begin a pair (R19, R442). -/
def pairRegister (ilc : BitVec 2) (r : Reg) (s : State) (k : Result) : Result :=
  if r = 15 then raiseProgram ilc .registerSpecification s else k

/-- Privilege: the instruction needs MSR.PR (R383, R443). -/
def whenPrivileged (ilc : BitVec 2) (s : State) (k : Result) : Result :=
  if s.privileged then k else raiseProgram ilc .privilege s

/-- The overflow procedure (R121): C1 is set to the overflow, and either the interrupt is taken, the destination unchanged, or
the result is stored (`store`, which writes C1 too). -/
def overflowProcedure (ilc : BitVec 2) (ovf : Bool) (c : CcWrite) (s : State) (store : State) : Result :=
  if s.overflowMask && ovf then raiseProgram ilc .arithmeticOverflow (s.setCc c) else .next store

/-- A UCB pointer of the table is valid when even and not zero (R412). -/
def ucbValid (p : Word) : Bool := p != 0 && !odd p

/-- The load-multiple operation (R119), which is also the return from an interrupt when it loads registers 0 and 1 from a
class's old pair (R401): all halfwords are read before any register is written, and an R1 field of 0 inhibits I/O and S/360
interrupts before the next instruction (R120). -/
def State.loadMultiple (s : State) (r1 r3 : Reg) (a : Word) : State :=
  let n := rangeCount r1 r3
  let t := s.writeRegs ((regRange r1 n).zip (s.readHalves a n))
  { t with inhibit := s.inhibit || r1 == 0 }

end Sys2Proof.Machine
end

