-- ==== Sys2Proof/Machine/Operands.lean ====
section
/-! DEFINITION. Every operand form: addresses (R83 to R86), lengths (R89), counts (R90, R201) and immediates. During execution
register 1 holds the address of the next instruction (R21), so a base or index of 1 adds that. -/

namespace Sys2Proof.Machine

/-- The contents of a base or index register; a field of 0 adds 0, not the MSR (R18). -/
def State.base (s : State) (b : Reg) : Word := if b = 0 then 0 else s.reg b

/-- The RX operand address (R83). -/
def State.eaRX (s : State) (x2 b2 : Reg) (d2 : Disp) : Word := s.base b2 + s.base x2 + d2.setWidth 16

/-- The RS, SI, FSS and VSS operand address (R84, R85). -/
def State.ea (s : State) (b : Reg) (d : Disp) : Word := s.base b + d.setWidth 16

/-- The BX branch address (R86), and that of BXH and BXLE, without the index. -/
def State.branchBX (s : State) (x2 : Reg) (d2 : Word) : Word := s.pc + d2 + s.base x2
def State.branchNoIndex (s : State) (d2 : Word) : Word := s.pc + d2

/-- The effective length of a VSS instruction: the byte, or the register named (R89). -/
def shortLength (len : Byte) : Nat := len.toNat
def State.longLength (s : State) (rl : Reg) : Nat := (s.reg rl).toNat

/-- The shift count of an RS shift: the low 5 bits of the address (R201, R300). -/
def State.rsCount (s : State) (b2 : Reg) (d2 : Disp) : Nat := ((s.ea b2 d2).extractLsb' 0 5).toNat

/-- The low byte of the second operand address, as a character (R272, R296). -/
def State.characterOperand (s : State) (b2 : Reg) (d2 : Disp) : Byte := (s.ea b2 d2).extractLsb' 0 8

/-- Zero and sign extension of an immediate byte (R90), and a hex digit as a number. -/
def zeroExtended (i : Byte) : Word := i.setWidth 16
def signExtended (i : Byte) : Word := i.signExtend 16
def digit (r : Reg) : Word := r.setWidth 16

/-- The low-order and high-order bytes of a halfword. -/
def lowByte (w : Word) : Byte := w.extractLsb' 0 8
def highByte (w : Word) : Byte := w.extractLsb' 8 8

/-- A register pair as a 32-bit number (R19). -/
def State.pairAt (s : State) (r : Reg) : BitVec 32 := pair (s.reg r) (s.reg (r + 1))

end Sys2Proof.Machine
end

