-- ==== Sys2Proof/Machine/Arith.lean ====
section
/-! DEFINITION. Add, subtract and arithmetic compare (41_add_subtract_compare.md, R126 to R154). -/

namespace Sys2Proof.Machine

/-- Arithmetic sum and difference into a register (R126, R121). -/
def addToRegister (ilc : BitVec 2) (r1 : Reg) (a b : Word) (s : State) : Result :=
  let c := CcWrite.c1Only (addOverflows a b)
  overflowProcedure ilc (addOverflows a b) c s (s.result r1 (a + b) c)

def subToRegister (ilc : BitVec 2) (r1 : Reg) (a b : Word) (s : State) : Result :=
  let c := CcWrite.c1Only (subOverflows a b)
  overflowProcedure ilc (subOverflows a b) c s (s.result r1 (a - b) c)

/-- Arithmetic sum and difference into a halfword of memory (R126, R154). -/
def addToMemory (ilc : BitVec 2) (a1 a b : Word) (s : State) : Result :=
  let c := CcWrite.c1Only (addOverflows a b)
  overflowProcedure ilc (addOverflows a b) c s ((s.setCc c).writeHalf a1 (a + b))

def subToMemory (ilc : BitVec 2) (a1 a b : Word) (s : State) : Result :=
  let c := CcWrite.c1Only (subOverflows a b)
  overflowProcedure ilc (subOverflows a b) c s ((s.setCc c).writeHalf a1 (a - b))

/-- Logical sum and difference: C1 is the carry, and the result is always stored (R152). -/
def addLogical (r1 : Reg) (a b : Word) (s : State) : Result := .next (s.result r1 (a + b) (.c1Only (addCarry a b)))
def subLogical (r1 : Reg) (a b : Word) (s : State) : Result := .next (s.result r1 (a - b) (.c1Only (subCarry a b)))

/-- AR (R127). -/
def execAr (r1 r2 : Reg) (s : State) : Result := addToRegister 1 r1 (s.reg r1) (s.reg r2) s

/-- AX (R128). -/
def execAx (r1 r2 : Reg) (s : State) : Result := addToRegister 1 r1 (s.reg r1) (digit r2) s

/-- AI (R129): fetched from R1F, stored into R1S. -/
def execAi (r1s r1f : Reg) (i2 : Word) (s : State) : Result := addToRegister 2 r1s (s.reg r1f) i2 s

/-- A (R130). -/
def execA (r1 x2 b2 : Reg) (d2 : Disp) (s : State) : Result :=
  withHalf 2 (s.eaRX x2 b2 d2) s fun b => addToRegister 2 r1 (s.reg r1) b s

/-- AHI (R131): the immediate is zero-extended. -/
def execAhi (i2 : Byte) (b1 : Reg) (d1 : Disp) (s : State) : Result :=
  withHalf 2 (s.ea b1 d1) s fun a => addToMemory 2 (s.ea b1 d1) a (zeroExtended i2) s

/-- AH (R132). -/
def execAh (_i3 : Byte) (b1 : Reg) (d1 : Disp) (b2 : Reg) (d2 : Disp) (s : State) : Result :=
  withHalfAt 0 3 (s.ea b1 d1) s fun a => withHalf 3 (s.ea b2 d2) s fun b => addToMemory 3 (s.ea b1 d1) a b s

/-- ALR (R133). -/
def execAlr (r1 r2 : Reg) (s : State) : Result := addLogical r1 (s.reg r1) (s.reg r2) s

/-- ALI (R134). -/
def execAli (r1s r1f : Reg) (i2 : Word) (s : State) : Result := addLogical r1s (s.reg r1f) i2 s

/-- AL (R135). -/
def execAl (r1 x2 b2 : Reg) (d2 : Disp) (s : State) : Result :=
  withHalf 2 (s.eaRX x2 b2 d2) s fun b => addLogical r1 (s.reg r1) b s

/-- SR (R137). -/
def execSr (r1 r2 : Reg) (s : State) : Result := subToRegister 1 r1 (s.reg r1) (s.reg r2) s

/-- SX (R138). -/
def execSx (r1 r2 : Reg) (s : State) : Result := subToRegister 1 r1 (s.reg r1) (digit r2) s

/-- SI (R139). -/
def execSi (r1s r1f : Reg) (i2 : Word) (s : State) : Result := subToRegister 2 r1s (s.reg r1f) i2 s

/-- S (R140). -/
def execS (r1 x2 b2 : Reg) (d2 : Disp) (s : State) : Result :=
  withHalf 2 (s.eaRX x2 b2 d2) s fun b => subToRegister 2 r1 (s.reg r1) b s

/-- SHI (R141): the immediate is zero-extended. -/
def execShi (i2 : Byte) (b1 : Reg) (d1 : Disp) (s : State) : Result :=
  withHalf 2 (s.ea b1 d1) s fun a => subToMemory 2 (s.ea b1 d1) a (zeroExtended i2) s

/-- SH (R142). -/
def execSh (_i3 : Byte) (b1 : Reg) (d1 : Disp) (b2 : Reg) (d2 : Disp) (s : State) : Result :=
  withHalfAt 0 3 (s.ea b1 d1) s fun a => withHalf 3 (s.ea b2 d2) s fun b => subToMemory 3 (s.ea b1 d1) a b s

/-- SLR (R143). -/
def execSlr (r1 r2 : Reg) (s : State) : Result := subLogical r1 (s.reg r1) (s.reg r2) s

/-- SLI (R144). -/
def execSli (r1s r1f : Reg) (i2 : Word) (s : State) : Result := subLogical r1s (s.reg r1f) i2 s

/-- SL (R145). -/
def execSl (r1 x2 b2 : Reg) (d2 : Disp) (s : State) : Result :=
  withHalf 2 (s.eaRX x2 b2 d2) s fun b => subLogical r1 (s.reg r1) b s

/-- CR (R147). -/
def execCr (r1 r2 : Reg) (s : State) : Result := .next (s.setCc (compareSigned (s.reg r1) (s.reg r2)))

/-- CI (R148): R1S is ignored. -/
def execCi (_r1s r1f : Reg) (i2 : Word) (s : State) : Result := .next (s.setCc (compareSigned (s.reg r1f) i2))

/-- C (R149). -/
def execC (r1 x2 b2 : Reg) (d2 : Disp) (s : State) : Result :=
  withHalf 2 (s.eaRX x2 b2 d2) s fun b => .next (s.setCc (compareSigned (s.reg r1) b))

/-- CHI (R150): the immediate is a signed byte. -/
def execChi (i2 : Byte) (b1 : Reg) (d1 : Disp) (s : State) : Result :=
  withHalf 2 (s.ea b1 d1) s fun a => .next (s.setCc (compareSigned a (signExtended i2)))

/-- CH (R151). -/
def execCh (_i3 : Byte) (b1 : Reg) (d1 : Disp) (b2 : Reg) (d2 : Disp) (s : State) : Result :=
  withHalfAt 0 3 (s.ea b1 d1) s fun a => withHalf 3 (s.ea b2 d2) s fun b => .next (s.setCc (compareSigned a b))

end Sys2Proof.Machine
end

