-- ==== Sys2Proof/Machine/Branch.lean ====
section
/-! DEFINITION. The branching instructions but EX (48_branch_execute.md, R336 to R364). A branch is a write of register 1. -/

namespace Sys2Proof.Machine

/-- The branch of an RR form: to the contents of R2, and never where R2 is register 0 (R338). -/
def State.branchRR (s : State) (taken : Bool) (r2 : Reg) (target : Word) : State :=
  if taken && r2 != 0 then s.setReg 1 target else s

/-- The branch of a BX form. -/
def State.branchTo (s : State) (taken : Bool) (target : Word) : State := if taken then s.setReg 1 target else s

/-- Test and branch (R339). -/
def testBranchRR (test : Word → Bool) (r1 r2 : Reg) (s : State) : Result :=
  .next (s.branchRR (test (s.reg r1)) r2 (s.reg r2))

def testBranchBX (test : Word → Bool) (r1 x2 : Reg) (d2 : Word) (s : State) : Result :=
  .next (s.branchTo (test (s.reg r1)) (s.branchBX x2 d2))

/-- TBPR (R340). -/
def execTbpr (r1 r2 : Reg) (s : State) : Result := testBranchRR isPositive r1 r2 s

/-- TBP (R341). -/
def execTbp (r1 x2 : Reg) (d2 : Word) (s : State) : Result := testBranchBX isPositive r1 x2 d2 s

/-- TBNPR (R342). -/
def execTbnpr (r1 r2 : Reg) (s : State) : Result := testBranchRR (fun v => !isPositive v) r1 r2 s

/-- TBNP (R343). -/
def execTbnp (r1 x2 : Reg) (d2 : Word) (s : State) : Result := testBranchBX (fun v => !isPositive v) r1 x2 d2 s

/-- TBZR (R344). -/
def execTbzr (r1 r2 : Reg) (s : State) : Result := testBranchRR isZero r1 r2 s

/-- TBZ (R345). -/
def execTbz (r1 x2 : Reg) (d2 : Word) (s : State) : Result := testBranchBX isZero r1 x2 d2 s

/-- TBNZR (R346). -/
def execTbnzr (r1 r2 : Reg) (s : State) : Result := testBranchRR (fun v => !isZero v) r1 r2 s

/-- TBNZ (R347). -/
def execTbnz (r1 x2 : Reg) (d2 : Word) (s : State) : Result := testBranchBX (fun v => !isZero v) r1 x2 d2 s

/-- TBMR (R348). -/
def execTbmr (r1 r2 : Reg) (s : State) : Result := testBranchRR isMinus r1 r2 s

/-- TBM (R349). -/
def execTbm (r1 x2 : Reg) (d2 : Word) (s : State) : Result := testBranchBX isMinus r1 x2 d2 s

/-- TBNMR (R350). -/
def execTbnmr (r1 r2 : Reg) (s : State) : Result := testBranchRR (fun v => !isMinus v) r1 r2 s

/-- TBNM (R351). -/
def execTbnm (r1 x2 : Reg) (d2 : Word) (s : State) : Result := testBranchBX (fun v => !isMinus v) r1 x2 d2 s

/-- BCZR (R353): R1 is a mask over C0, C1, C2 and F. -/
def execBczr (r1 r2 : Reg) (s : State) : Result := .next (s.branchRR (conditionsZero r1 s.msr) r2 (s.reg r2))

/-- BCZ (R354). -/
def execBcz (r1 x2 : Reg) (d2 : Word) (s : State) : Result :=
  .next (s.branchTo (conditionsZero r1 s.msr) (s.branchBX x2 d2))

/-- BCOR (R355). -/
def execBcor (r1 r2 : Reg) (s : State) : Result := .next (s.branchRR (conditionOne r1 s.msr) r2 (s.reg r2))

/-- BCO (R356). -/
def execBco (r1 x2 : Reg) (d2 : Word) (s : State) : Result :=
  .next (s.branchTo (conditionOne r1 s.msr) (s.branchBX x2 d2))

/-- BALR (R357): the target is read before R1 receives the next instruction's address. -/
def execBalr (r1 r2 : Reg) (s : State) : Result := .next ((s.setReg r1 s.pc).branchRR true r2 (s.reg r2))

/-- BAL (R358). -/
def execBal (r1 x2 : Reg) (d2 : Word) (s : State) : Result :=
  .next ((s.setReg r1 s.pc).branchTo true (s.branchBX x2 d2))

/-- BCTR (R359). With R1 = R2 the target is the value before or after the decrement, freely (U16, log 14). -/
def execBctr (r1 r2 : Reg) (s : State) : Result :=
  let v := s.reg r1 - 1
  let target := if r1 = r2 && Config.freeBit s.freeCount then v else s.reg r2
  .next (((s.consume 1).setReg r1 v).branchRR (isPositive v) r2 target)

/-- BCT (R360). With X2 = R1 the index is the value before or after the decrement, freely (U16, log 14). -/
def execBct (r1 x2 : Reg) (d2 : Word) (s : State) : Result :=
  let v := s.reg r1 - 1
  let target := if r1 = x2 && x2 != 0 && Config.freeBit s.freeCount then s.pc + d2 + v else s.branchBX x2 d2
  .next (((s.consume 1).setReg r1 v).branchTo (isPositive v) target)

/-- The increment of the index loops: X2's contents; with X2 = 0 freely those of the MSR or 0 (U17, log 15). -/
def loopIncrement (x2 : Reg) (s : State) : Word :=
  if x2 = 0 && Config.freeBit s.freeCount then 0 else s.reg x2

/-- The comparand: the old contents of an odd X2, or those of the next register; with X2 even and R1 that next register,
freely the old or the new value (R361, U17, log 15). `v` is R1's new value. -/
def loopComparand (r1 x2 : Reg) (v : Word) (s : State) : Word :=
  if x2.getLsbD 0 then s.reg x2
  else if r1 = x2 + 1 && Config.freeBit (s.freeCount + 1) then v
  else s.reg (x2 + 1)

/-- The index loops (R361): X2 names the increment, not an index. -/
def indexLoop (takes : Int → Int → Bool) (r1 x2 : Reg) (d2 : Word) (s : State) : Result :=
  let v := s.reg r1 + loopIncrement x2 s
  .next (((s.consume 2).setReg r1 v).branchTo (takes v.toInt (loopComparand r1 x2 v s).toInt) (s.branchNoIndex d2))

/-- BXH (R363). -/
def execBxh (r1 x2 : Reg) (d2 : Word) (s : State) : Result := indexLoop (fun v c => decide (c < v)) r1 x2 d2 s

/-- BXLE (R364). -/
def execBxle (r1 x2 : Reg) (d2 : Word) (s : State) : Result := indexLoop (fun v c => decide (v ≤ c)) r1 x2 d2 s

end Sys2Proof.Machine
end

