-- ==== Sys2Proof/Machine/Logic.lean ====
section
/-! DEFINITION. Logical compare, move, AND, OR, exclusive OR, test under mask (45_logical_compare_move_boolean.md, R216 to
R263), and TSL's test. -/

namespace Sys2Proof.Machine

/-! ## Logical compare -/

/-- CLR (R217). -/
def execClr (r1 r2 : Reg) (s : State) : Result := .next (s.setCc (compareLogical (s.reg r1) (s.reg r2)))

/-- CLI (R218): R1S is ignored. -/
def execCli (_r1s r1f : Reg) (i2 : Word) (s : State) : Result := .next (s.setCc (compareLogical (s.reg r1f) i2))

/-- CL (R219). -/
def execCl (r1 x2 b2 : Reg) (d2 : Disp) (s : State) : Result :=
  withHalf 2 (s.eaRX x2 b2 d2) s fun b => .next (s.setCc (compareLogical (s.reg r1) b))

/-- CLB (R220): the low-order byte of R1. -/
def execClb (r1 x2 b2 : Reg) (d2 : Disp) (s : State) : Result :=
  .next (s.setCc (compareLogical (lowByte (s.reg r1)) (s.byteAt (s.eaRX x2 b2 d2))))

/-- CLBI (R221). -/
def execClbi (i2 : Byte) (b1 : Reg) (d1 : Disp) (s : State) : Result :=
  .next (s.setCc (compareLogical (s.byteAt (s.ea b1 d1)) i2))

/-- CLH (R222). -/
def execClh (_i3 : Byte) (b1 : Reg) (d1 : Disp) (b2 : Reg) (d2 : Disp) (s : State) : Result :=
  withHalfAt 0 3 (s.ea b1 d1) s fun a => withHalf 3 (s.ea b2 d2) s fun b => .next (s.setCc (compareLogical a b))

/-- The address in Operand 1 and the two bytes of the first unequal pair, if any (R225); read number `i` is the first (log 50). -/
def firstUnequal (s : State) (i : Nat) (a1 a2 : Word) : Nat → Option (Word × Byte × Byte)
  | 0 => none
  | n + 1 =>
    let x := (s.seenAt i).byteAt a1
    let y := (s.seenAt (i + 1)).byteAt a2
    if x = y then firstUnequal s (i + 2) (a1 + 1) (a2 + 1) n else some (a1, x, y)

/-- The string compare (R225): register 2 gets the address of the first unequal byte. -/
def compareStrings (a1 a2 : Word) (len : Nat) (s : State) : Result :=
  match firstUnequal s 0 a1 a2 len with
  | some (a, x, y) => .next ((s.setReg 2 a).setCc (compareLogical x y))
  | none => .next (s.setCc (.all true false false))

/-- CLC (R223). -/
def execClc (len : Byte) (b1 : Reg) (d1 : Disp) (b2 : Reg) (d2 : Disp) (s : State) : Result :=
  compareStrings (s.ea b1 d1) (s.ea b2 d2) (shortLength len) s

/-- CLCL (R224). -/
def execClcl (_u rl b1 : Reg) (d1 : Disp) (b2 : Reg) (d2 : Disp) (s : State) : Result :=
  compareStrings (s.ea b1 d1) (s.ea b2 d2) (s.longLength rl) s

/-! ## Move -/

/-- How far the address `a` lies above the start of a field, around the installed memory (R47). -/
def offsetIn (start a : Word) : Nat := (a - start).toNat % Config.memSize

/-- Whether the byte at `a` lies in the field of `len` bytes at `start`. -/
def inField (start : Word) (len : Nat) (a : Word) : Bool := decide (offsetIn start a < len)

/-- The destination starts inside the source, above its start: MVC's result is unspecified (R232, U10). The second half is
the same in the addresses the memory sees (R47). -/
def destructive (a1 a2 : Word) (len : Nat) : Bool :=
  decide (0 < (a1 - a2).toNat ∧ (a1 - a2).toNat < len) || decide (0 < offsetIn a2 a1 ∧ offsetIn a2 a1 < len)

/-- Free bytes, `n` of them (log 3). -/
def freeBytes (count : Nat) : Nat → List Byte
  | 0 => []
  | n + 1 => Config.freeByte count :: freeBytes (count + 1) n

/-- MVCN and MVCNL (R234): Operand 1 receives what Operand 2 held, whatever the overlap; all bytes are read before any is stored. -/
def moveSafely (a1 a2 : Word) (len : Nat) (s : State) : Result := .next (s.writeBytes a1 (s.readEach 0 1 a2 len))

/-- MVBI (R231). -/
def execMvbi (i2 : Byte) (b1 : Reg) (d1 : Disp) (s : State) : Result := .next (s.setByte (s.ea b1 d1) i2)

/-- MVCN (R234). -/
def execMvcn (len : Byte) (b1 : Reg) (d1 : Disp) (b2 : Reg) (d2 : Disp) (s : State) : Result :=
  moveSafely (s.ea b1 d1) (s.ea b2 d2) (shortLength len) s

/-- MVCNL (R235). -/
def execMvcnl (_u rl b1 : Reg) (d1 : Disp) (b2 : Reg) (d2 : Disp) (s : State) : Result :=
  moveSafely (s.ea b1 d1) (s.ea b2 d2) (s.longLength rl) s

/-! ## AND, OR, exclusive OR -/

/-- The Boolean operation into a register: C0 says whether the result is all zeros (R240). -/
def booleanToRegister (op : Word → Word → Word) (r1 : Reg) (a b : Word) (s : State) : Result :=
  .next (s.result r1 (op a b) (.c0Only (op a b == 0)))

/-- The Boolean operation on a byte of memory (R240, R244). -/
def booleanToByte (op : Byte → Byte → Byte) (a1 : Word) (b : Byte) (s : State) : Result :=
  .next ((s.setCc (.c0Only (op (s.byteAt a1) b == 0))).setByte a1 (op (s.byteAt a1) b))

/-- The three operations, on halfwords and bytes. -/
def opAnd {w : Nat} (a b : BitVec w) : BitVec w := a &&& b
def opOr {w : Nat} (a b : BitVec w) : BitVec w := a ||| b
def opXor {w : Nat} (a b : BitVec w) : BitVec w := a ^^^ b

/-- NR (R241). -/
def execNr (r1 r2 : Reg) (s : State) : Result := booleanToRegister opAnd r1 (s.reg r1) (s.reg r2) s

/-- NI (R242). -/
def execNi (r1s r1f : Reg) (i2 : Word) (s : State) : Result := booleanToRegister opAnd r1s (s.reg r1f) i2 s

/-- N (R243). -/
def execN (r1 x2 b2 : Reg) (d2 : Disp) (s : State) : Result :=
  withHalf 2 (s.eaRX x2 b2 d2) s fun b => booleanToRegister opAnd r1 (s.reg r1) b s

/-- NBI (R244). -/
def execNbi (i2 : Byte) (b1 : Reg) (d1 : Disp) (s : State) : Result := booleanToByte opAnd (s.ea b1 d1) i2 s

/-- OR (R247). -/
def execOr (r1 r2 : Reg) (s : State) : Result := booleanToRegister opOr r1 (s.reg r1) (s.reg r2) s

/-- OI (R248). -/
def execOi (r1s r1f : Reg) (i2 : Word) (s : State) : Result := booleanToRegister opOr r1s (s.reg r1f) i2 s

/-- O (R249). -/
def execO (r1 x2 b2 : Reg) (d2 : Disp) (s : State) : Result :=
  withHalf 2 (s.eaRX x2 b2 d2) s fun b => booleanToRegister opOr r1 (s.reg r1) b s

/-- OBI (R250). -/
def execObi (i2 : Byte) (b1 : Reg) (d1 : Disp) (s : State) : Result := booleanToByte opOr (s.ea b1 d1) i2 s

/-- XR (R253). -/
def execXr (r1 r2 : Reg) (s : State) : Result := booleanToRegister opXor r1 (s.reg r1) (s.reg r2) s

/-- XI (R254). -/
def execXi (r1s r1f : Reg) (i2 : Word) (s : State) : Result := booleanToRegister opXor r1s (s.reg r1f) i2 s

/-- X (R255). -/
def execX (r1 x2 b2 : Reg) (d2 : Disp) (s : State) : Result :=
  withHalf 2 (s.eaRX x2 b2 d2) s fun b => booleanToRegister opXor r1 (s.reg r1) b s

/-- XBI (R256). -/
def execXbi (i2 : Byte) (b1 : Reg) (d1 : Disp) (s : State) : Result := booleanToByte opXor (s.ea b1 d1) i2 s

/-! ## Test under mask -/

/-- TMR (R261). -/
def execTmr (r1 r2 : Reg) (s : State) : Result := .next (s.setCc (testUnderMask (s.reg r1) (s.reg r2)))

/-- TMI (R262): R1S is ignored. -/
def execTmi (_r1s r1f : Reg) (i2 : Word) (s : State) : Result := .next (s.setCc (testUnderMask (s.reg r1f) i2))

/-- TMBI (R263). -/
def execTmbi (i2 : Byte) (b1 : Reg) (d1 : Disp) (s : State) : Result :=
  .next (s.setCc (testUnderMask (s.byteAt (s.ea b1 d1)) i2))

end Sys2Proof.Machine
end

