-- ==== Sys2Proof/Machine/ByteOps.lean ====
section
/-! DEFINITION. Byte, address, translate and scan instructions (46_byte_address_translate_scan_shift.md, R266 to R299). -/

namespace Sys2Proof.Machine

/-- IB (R267): bits 0 to 7 stay. -/
def execIb (r1 x2 b2 : Reg) (d2 : Disp) (s : State) : Result :=
  .next (s.setReg r1 (highByte (s.reg r1) ++ s.byteAt (s.eaRX x2 b2 d2)))

/-- LB (R268). -/
def execLb (r1 x2 b2 : Reg) (d2 : Disp) (s : State) : Result :=
  .next (s.setReg r1 (zeroExtended (s.byteAt (s.eaRX x2 b2 d2))))

/-- STB (R269). -/
def execStb (r1 x2 b2 : Reg) (d2 : Disp) (s : State) : Result :=
  .next (s.setByte (s.eaRX x2 b2 d2) (lowByte (s.reg r1)))

/-- FILL (R270, R272): the character is the low byte of the second operand address. -/
def execFill (len : Byte) (b1 : Reg) (d1 : Disp) (b2 : Reg) (d2 : Disp) (s : State) : Result :=
  .next (s.writeBytes (s.ea b1 d1) (List.replicate (shortLength len) (s.characterOperand b2 d2)))

/-- FILLL (R271, R272). -/
def execFilll (_u rl b1 : Reg) (d1 : Disp) (b2 : Reg) (d2 : Disp) (s : State) : Result :=
  .next (s.writeBytes (s.ea b1 d1) (List.replicate (s.longLength rl) (s.characterOperand b2 d2)))

/-- The two bytes exchanged (R273). -/
def swapBytes (w : Word) : Word := lowByte w ++ highByte w

/-- LXBR (R273). -/
def execLxbr (r1 r2 : Reg) (s : State) : Result := .next (s.setReg r1 (swapBytes (s.reg r2)))

/-- LXB (R274). -/
def execLxb (r1 x2 b2 : Reg) (d2 : Disp) (s : State) : Result :=
  withHalf 2 (s.eaRX x2 b2 d2) s fun v => .next (s.setReg r1 (swapBytes v))

/-- LA (R275). -/
def execLa (r1 x2 b2 : Reg) (d2 : Disp) (s : State) : Result := .next (s.setReg r1 (s.eaRX x2 b2 d2))

/-- SA (R276). -/
def execSa (r1 x2 b2 : Reg) (d2 : Disp) (s : State) : Result := .next (s.setReg r1 (s.reg r1 - s.eaRX x2 b2 d2))

/-- MVA (R277); the general alignment rule applies to the first operand (decision D27, log 46). -/
def execMva (_i3 : Byte) (b1 : Reg) (d1 : Disp) (b2 : Reg) (d2 : Disp) (s : State) : Result :=
  aligned 3 (s.ea b1 d1) s (.next (s.writeHalf (s.ea b1 d1) (s.ea b2 d2)))

/-- The address in the table an argument byte refers to (R280, R290). -/
def tableAddress (table : Word) (b : Byte) : Word := table + b.setWidth 16

/-- The first address, of `n` from `a` on by `step`, whose byte satisfies `hit`, and the number of its read (log 50), counted by
twos from `i`: the read in between is `hit`'s own. -/
def firstHit (s : State) (hit : State → Byte → Bool) (step : Word) (i : Nat) (a : Word) : Nat → Option (Word × Nat)
  | 0 => none
  | n + 1 =>
    if hit (s.seenAt (i + 1)) ((s.seenAt i).byteAt a) then some (a, i) else firstHit s hit step (i + 2) (a + step) n

/-- Steps of a scan to the right and to the left (R290, R296). -/
def rightward : Word := 1
def leftward : Word := -1

/-- Scan using table (R290): register 3 gets the non-zero table byte, register 2 the argument's address, C2 whether one was
found. -/
def scanTable (step a1 table : Word) (len : Nat) (s : State) : Result :=
  match firstHit s (fun t b => t.byteAt (tableAddress table b) != 0) step 0 a1 len with
  | some (a, i) =>
    let entry := (s.seenAt (i + 1)).byteAt (tableAddress table ((s.seenAt i).byteAt a))
    .next (((s.setReg 3 (zeroExtended entry)).setReg 2 a).setCc (.c2Only true))
  | none => .next (s.setCc (.c2Only false))

/-- STR (R286). -/
def execStr (len : Byte) (b1 : Reg) (d1 : Disp) (b2 : Reg) (d2 : Disp) (s : State) : Result :=
  scanTable rightward (s.ea b1 d1) (s.ea b2 d2) (shortLength len) s

/-- STRL (R287). -/
def execStrl (_u rl b1 : Reg) (d1 : Disp) (b2 : Reg) (d2 : Disp) (s : State) : Result :=
  scanTable rightward (s.ea b1 d1) (s.ea b2 d2) (s.longLength rl) s

/-- STL (R288): Operand 1 is addressed by its rightmost byte. -/
def execStl (len : Byte) (b1 : Reg) (d1 : Disp) (b2 : Reg) (d2 : Disp) (s : State) : Result :=
  scanTable leftward (s.ea b1 d1) (s.ea b2 d2) (shortLength len) s

/-- STLL (R289). -/
def execStll (_u rl b1 : Reg) (d1 : Disp) (b2 : Reg) (d2 : Disp) (s : State) : Result :=
  scanTable leftward (s.ea b1 d1) (s.ea b2 d2) (s.longLength rl) s

/-- Scan for a character (R296): register 2 gets the address of the first byte equal to it, or with `equal` off the first
not equal; C2 says whether there is one. -/
def scanCharacter (equal : Bool) (step a1 : Word) (c : Byte) (len : Nat) (s : State) : Result :=
  match firstHit s (fun _ b => (b == c) == equal) step 0 a1 len with
  | some (a, _) => .next ((s.setReg 2 a).setCc (.c2Only true))
  | none => .next (s.setCc (.c2Only false))

/-- SRE (R291). -/
def execSre (len : Byte) (b1 : Reg) (d1 : Disp) (b2 : Reg) (d2 : Disp) (s : State) : Result :=
  scanCharacter true rightward (s.ea b1 d1) (s.characterOperand b2 d2) (shortLength len) s

/-- SREL (R292). -/
def execSrel (_u rl b1 : Reg) (d1 : Disp) (b2 : Reg) (d2 : Disp) (s : State) : Result :=
  scanCharacter true rightward (s.ea b1 d1) (s.characterOperand b2 d2) (s.longLength rl) s

/-- SRNE (R293). -/
def execSrne (len : Byte) (b1 : Reg) (d1 : Disp) (b2 : Reg) (d2 : Disp) (s : State) : Result :=
  scanCharacter false rightward (s.ea b1 d1) (s.characterOperand b2 d2) (shortLength len) s

/-- SRNEL (R294). -/
def execSrnel (_u rl b1 : Reg) (d1 : Disp) (b2 : Reg) (d2 : Disp) (s : State) : Result :=
  scanCharacter false rightward (s.ea b1 d1) (s.characterOperand b2 d2) (s.longLength rl) s

/-- SLE (R295). -/
def execSle (len : Byte) (b1 : Reg) (d1 : Disp) (b2 : Reg) (d2 : Disp) (s : State) : Result :=
  scanCharacter true leftward (s.ea b1 d1) (s.characterOperand b2 d2) (shortLength len) s

/-- SLEL (R297). -/
def execSlel (_u rl b1 : Reg) (d1 : Disp) (b2 : Reg) (d2 : Disp) (s : State) : Result :=
  scanCharacter true leftward (s.ea b1 d1) (s.characterOperand b2 d2) (s.longLength rl) s

/-- SLNE (R298). -/
def execSlne (len : Byte) (b1 : Reg) (d1 : Disp) (b2 : Reg) (d2 : Disp) (s : State) : Result :=
  scanCharacter false leftward (s.ea b1 d1) (s.characterOperand b2 d2) (shortLength len) s

/-- SLNEL (R299). -/
def execSlnel (_u rl b1 : Reg) (d1 : Disp) (b2 : Reg) (d2 : Disp) (s : State) : Result :=
  scanCharacter false leftward (s.ea b1 d1) (s.characterOperand b2 d2) (s.longLength rl) s

end Sys2Proof.Machine
end

