-- ==== Sys2Proof/Syntax.lean ====
section
/-! DEFINITION. The instructions of the META 4A: one constructor for each row of spec/opcode_table.json, named by its
mnemonic (R91), with every field of its format as an argument, the ignored ones too (R97). -/

namespace Sys2Proof

/-- The 179 instructions (R91). Each group has the operands of its format. -/
inductive Instr where
  -- RR, one halfword: OP R1 R2 (R74). R2 is a hex digit in LX, AX, SX, a count in the immediate shifts, an operation in IOST; R1 is a mask in BCZR and BCOR, a device number in EXCC (R90).
  | ret (r1 r2 : Reg)
  | lpr (r1 r2 : Reg)
  | lnr (r1 r2 : Reg)
  | lcr (r1 r2 : Reg)
  | lxbr (r1 r2 : Reg)
  | stdr (r1 r2 : Reg)
  | ldr (r1 r2 : Reg)
  | sior (r1 r2 : Reg)
  | sd (r1 r2 : Reg)
  | slli (r1 r2 : Reg)
  | srli (r1 r2 : Reg)
  | sldli (r1 r2 : Reg)
  | srdli (r1 r2 : Reg)
  | slai (r1 r2 : Reg)
  | srai (r1 r2 : Reg)
  | sldai (r1 r2 : Reg)
  | srdai (r1 r2 : Reg)
  | iost (r1 r2 : Reg)
  | excc (r1 r2 : Reg)
  | lx (r1 r2 : Reg)
  | ax (r1 r2 : Reg)
  | sx (r1 r2 : Reg)
  | bczr (r1 r2 : Reg)
  | bcor (r1 r2 : Reg)
  | balr (r1 r2 : Reg)
  | tbpr (r1 r2 : Reg)
  | tbzr (r1 r2 : Reg)
  | tbnmr (r1 r2 : Reg)
  | tbmr (r1 r2 : Reg)
  | tbnzr (r1 r2 : Reg)
  | tbnpr (r1 r2 : Reg)
  | bctr (r1 r2 : Reg)
  | cr (r1 r2 : Reg)
  -- SVC: one halfword, OP I1 (R82).
  | svc (i1 : Byte)
  | tmr (r1 r2 : Reg)
  | lr (r1 r2 : Reg)
  | ar (r1 r2 : Reg)
  | sr (r1 r2 : Reg)
  | mr (r1 r2 : Reg)
  | dr (r1 r2 : Reg)
  | swpr (r1 r2 : Reg)
  | nr (r1 r2 : Reg)
  | or (r1 r2 : Reg)
  | xr (r1 r2 : Reg)
  | alr (r1 r2 : Reg)
  | slr (r1 r2 : Reg)
  | clr (r1 r2 : Reg)
  -- RX, two halfwords: OP R1 X2 B2 D2 (R77). R1 is a device number in TRB and SS (R90).
  | deq (r1 x2 b2 : Reg) (d2 : Disp)
  | lp (r1 x2 b2 : Reg) (d2 : Disp)
  | ln (r1 x2 b2 : Reg) (d2 : Disp)
  | lc (r1 x2 b2 : Reg) (d2 : Disp)
  | lxb (r1 x2 b2 : Reg) (d2 : Disp)
  | cvb (r1 x2 b2 : Reg) (d2 : Disp)
  | cvd (r1 x2 b2 : Reg) (d2 : Disp)
  | std (r1 x2 b2 : Reg) (d2 : Disp)
  | ld (r1 x2 b2 : Reg) (d2 : Disp)
  | ex (r1 x2 b2 : Reg) (d2 : Disp)
  | ss (r1 x2 b2 : Reg) (d2 : Disp)
  | sio (r1 x2 b2 : Reg) (d2 : Disp)
  | ib (r1 x2 b2 : Reg) (d2 : Disp)
  | stb (r1 x2 b2 : Reg) (d2 : Disp)
  | lb (r1 x2 b2 : Reg) (d2 : Disp)
  | lsb (r1 x2 b2 : Reg) (d2 : Disp)
  | sa (r1 x2 b2 : Reg) (d2 : Disp)
  | la (r1 x2 b2 : Reg) (d2 : Disp)
  | lz (r1 x2 b2 : Reg) (d2 : Disp)
  | clb (r1 x2 b2 : Reg) (d2 : Disp)
  | trb (r1 x2 b2 : Reg) (d2 : Disp)
  | c (r1 x2 b2 : Reg) (d2 : Disp)
  | st (r1 x2 b2 : Reg) (d2 : Disp)
  | l (r1 x2 b2 : Reg) (d2 : Disp)
  | a (r1 x2 b2 : Reg) (d2 : Disp)
  | s (r1 x2 b2 : Reg) (d2 : Disp)
  | m (r1 x2 b2 : Reg) (d2 : Disp)
  | d (r1 x2 b2 : Reg) (d2 : Disp)
  | swp (r1 x2 b2 : Reg) (d2 : Disp)
  | n (r1 x2 b2 : Reg) (d2 : Disp)
  | o (r1 x2 b2 : Reg) (d2 : Disp)
  | x (r1 x2 b2 : Reg) (d2 : Disp)
  | al (r1 x2 b2 : Reg) (d2 : Disp)
  | sl (r1 x2 b2 : Reg) (d2 : Disp)
  | cl (r1 x2 b2 : Reg) (d2 : Disp)
  -- SI, two halfwords: OP I2 B1 D1 (R79).
  | chi (i2 : Byte) (b1 : Reg) (d1 : Disp)
  | svcs (i2 : Byte) (b1 : Reg) (d1 : Disp)
  | tmbi (i2 : Byte) (b1 : Reg) (d1 : Disp)
  | mvhi (i2 : Byte) (b1 : Reg) (d1 : Disp)
  | ahi (i2 : Byte) (b1 : Reg) (d1 : Disp)
  | shi (i2 : Byte) (b1 : Reg) (d1 : Disp)
  | tsl (i2 : Byte) (b1 : Reg) (d1 : Disp)
  | nbi (i2 : Byte) (b1 : Reg) (d1 : Disp)
  | obi (i2 : Byte) (b1 : Reg) (d1 : Disp)
  | xbi (i2 : Byte) (b1 : Reg) (d1 : Disp)
  | mvbi (i2 : Byte) (b1 : Reg) (d1 : Disp)
  | clbi (i2 : Byte) (b1 : Reg) (d1 : Disp)
  -- RS, two halfwords: OP R1 R3 B2 D2 (R76).
  | stmd (r1 r3 b2 : Reg) (d2 : Disp)
  | lmd (r1 r3 b2 : Reg) (d2 : Disp)
  | stm (r1 r3 b2 : Reg) (d2 : Disp)
  | lm (r1 r3 b2 : Reg) (d2 : Disp)
  | pshm (r1 r3 b2 : Reg) (d2 : Disp)
  | popm (r1 r3 b2 : Reg) (d2 : Disp)
  | sll (r1 r3 b2 : Reg) (d2 : Disp)
  | srl (r1 r3 b2 : Reg) (d2 : Disp)
  | sldl (r1 r3 b2 : Reg) (d2 : Disp)
  | srdl (r1 r3 b2 : Reg) (d2 : Disp)
  | sla (r1 r3 b2 : Reg) (d2 : Disp)
  | sra (r1 r3 b2 : Reg) (d2 : Disp)
  | slda (r1 r3 b2 : Reg) (d2 : Disp)
  | srda (r1 r3 b2 : Reg) (d2 : Disp)
  -- BX, two halfwords: OP R1 X2 D2 (R78). R1 is a mask in BCZ and BCO.
  | bxh (r1 x2 : Reg) (d2 : Word)
  | bxle (r1 x2 : Reg) (d2 : Word)
  | bcz (r1 x2 : Reg) (d2 : Word)
  | bco (r1 x2 : Reg) (d2 : Word)
  | bal (r1 x2 : Reg) (d2 : Word)
  | tbp (r1 x2 : Reg) (d2 : Word)
  | tbz (r1 x2 : Reg) (d2 : Word)
  | tbnm (r1 x2 : Reg) (d2 : Word)
  | tbm (r1 x2 : Reg) (d2 : Word)
  | tbnz (r1 x2 : Reg) (d2 : Word)
  | tbnp (r1 x2 : Reg) (d2 : Word)
  | bct (r1 x2 : Reg) (d2 : Word)
  -- RI, two halfwords: OP R1S R1F I2 (R75).
  | ci (r1s r1f : Reg) (i2 : Word)
  | stdi (r1s r1f : Reg) (i2 : Word)
  | tmi (r1s r1f : Reg) (i2 : Word)
  | li (r1s r1f : Reg) (i2 : Word)
  | ai (r1s r1f : Reg) (i2 : Word)
  | si (r1s r1f : Reg) (i2 : Word)
  | mi (r1s r1f : Reg) (i2 : Word)
  | di (r1s r1f : Reg) (i2 : Word)
  | ldi (r1s r1f : Reg) (i2 : Word)
  | ni (r1s r1f : Reg) (i2 : Word)
  | oi (r1s r1f : Reg) (i2 : Word)
  | xi (r1s r1f : Reg) (i2 : Word)
  | ali (r1s r1f : Reg) (i2 : Word)
  | sli (r1s r1f : Reg) (i2 : Word)
  | ent (r1s r1f : Reg) (i2 : Word)
  | cli (r1s r1f : Reg) (i2 : Word)
  -- VSS, three halfwords: OP L B1 D1 B2 D2 (R81).
  | sle (len : Byte) (b1 : Reg) (d1 : Disp) (b2 : Reg) (d2 : Disp)
  | sre (len : Byte) (b1 : Reg) (d1 : Disp) (b2 : Reg) (d2 : Disp)
  | slne (len : Byte) (b1 : Reg) (d1 : Disp) (b2 : Reg) (d2 : Disp)
  | srne (len : Byte) (b1 : Reg) (d1 : Disp) (b2 : Reg) (d2 : Disp)
  | mvc (len : Byte) (b1 : Reg) (d1 : Disp) (b2 : Reg) (d2 : Disp)
  | mvcn (len : Byte) (b1 : Reg) (d1 : Disp) (b2 : Reg) (d2 : Disp)
  | pshh (len : Byte) (b1 : Reg) (d1 : Disp) (b2 : Reg) (d2 : Disp)
  | poph (len : Byte) (b1 : Reg) (d1 : Disp) (b2 : Reg) (d2 : Disp)
  | fill (len : Byte) (b1 : Reg) (d1 : Disp) (b2 : Reg) (d2 : Disp)
  | nc (len : Byte) (b1 : Reg) (d1 : Disp) (b2 : Reg) (d2 : Disp)
  | oc (len : Byte) (b1 : Reg) (d1 : Disp) (b2 : Reg) (d2 : Disp)
  | xc (len : Byte) (b1 : Reg) (d1 : Disp) (b2 : Reg) (d2 : Disp)
  | stl (len : Byte) (b1 : Reg) (d1 : Disp) (b2 : Reg) (d2 : Disp)
  | str (len : Byte) (b1 : Reg) (d1 : Disp) (b2 : Reg) (d2 : Disp)
  | tr (len : Byte) (b1 : Reg) (d1 : Disp) (b2 : Reg) (d2 : Disp)
  | clc (len : Byte) (b1 : Reg) (d1 : Disp) (b2 : Reg) (d2 : Disp)
  -- VSS in Long form: bits 8 to 11 (`u`) ignored, bits 12 to 15 the length register (R81, R89).
  | slel (u rl b1 : Reg) (d1 : Disp) (b2 : Reg) (d2 : Disp)
  | srel (u rl b1 : Reg) (d1 : Disp) (b2 : Reg) (d2 : Disp)
  | slnel (u rl b1 : Reg) (d1 : Disp) (b2 : Reg) (d2 : Disp)
  | srnel (u rl b1 : Reg) (d1 : Disp) (b2 : Reg) (d2 : Disp)
  | mvcl (u rl b1 : Reg) (d1 : Disp) (b2 : Reg) (d2 : Disp)
  | mvcnl (u rl b1 : Reg) (d1 : Disp) (b2 : Reg) (d2 : Disp)
  | pshhl (u rl b1 : Reg) (d1 : Disp) (b2 : Reg) (d2 : Disp)
  | pophl (u rl b1 : Reg) (d1 : Disp) (b2 : Reg) (d2 : Disp)
  | filll (u rl b1 : Reg) (d1 : Disp) (b2 : Reg) (d2 : Disp)
  | ncl (u rl b1 : Reg) (d1 : Disp) (b2 : Reg) (d2 : Disp)
  | ocl (u rl b1 : Reg) (d1 : Disp) (b2 : Reg) (d2 : Disp)
  | xcl (u rl b1 : Reg) (d1 : Disp) (b2 : Reg) (d2 : Disp)
  | stll (u rl b1 : Reg) (d1 : Disp) (b2 : Reg) (d2 : Disp)
  | strl (u rl b1 : Reg) (d1 : Disp) (b2 : Reg) (d2 : Disp)
  | trl (u rl b1 : Reg) (d1 : Disp) (b2 : Reg) (d2 : Disp)
  | clcl (u rl b1 : Reg) (d1 : Disp) (b2 : Reg) (d2 : Disp)
  -- FSS, three halfwords: OP, bits 8 to 15 (`i3`, used by SVCD alone, R88), B1 D1 B2 D2 (R80).
  | ch (i3 : Byte) (b1 : Reg) (d1 : Disp) (b2 : Reg) (d2 : Disp)
  | svcd (i3 : Byte) (b1 : Reg) (d1 : Disp) (b2 : Reg) (d2 : Disp)
  | mva (i3 : Byte) (b1 : Reg) (d1 : Disp) (b2 : Reg) (d2 : Disp)
  | mvh (i3 : Byte) (b1 : Reg) (d1 : Disp) (b2 : Reg) (d2 : Disp)
  | ah (i3 : Byte) (b1 : Reg) (d1 : Disp) (b2 : Reg) (d2 : Disp)
  | sh (i3 : Byte) (b1 : Reg) (d1 : Disp) (b2 : Reg) (d2 : Disp)
  | mh (i3 : Byte) (b1 : Reg) (d1 : Disp) (b2 : Reg) (d2 : Disp)
  | dh (i3 : Byte) (b1 : Reg) (d1 : Disp) (b2 : Reg) (d2 : Disp)
  | enq (i3 : Byte) (b1 : Reg) (d1 : Disp) (b2 : Reg) (d2 : Disp)
  | srch (i3 : Byte) (b1 : Reg) (d1 : Disp) (b2 : Reg) (d2 : Disp)
  | clh (i3 : Byte) (b1 : Reg) (d1 : Disp) (b2 : Reg) (d2 : Disp)
  deriving DecidableEq, Repr

end Sys2Proof
end

