-- ==== Sys2Proof/Decode.lean ====
section
/-! DEFINITION. The decoder (30_encoding.md R71 to R97), total on any bytes and rejecting by name, and after it the
encoder, written from the same formats and operation codes. A halfword is laid out high-order byte first (R49, R50). -/

namespace Sys2Proof

/-- The eight formats, with SVC's and the Long form's layouts apart (R71, R82, R89). -/
inductive Format where
  | rr | ri | rs | rx | bx | si | fss | vss | vssLong
  deriving DecidableEq, Repr

/-- The format, fixed by the first hexadecimal digit of the operation code, assigned or not (R73). -/
def Format.ofOp (op : Byte) : Format :=
  match op.extractLsb' 4 4 with
  | 0x8#4 => .si
  | 0x9#4 => .rs
  | 0xA#4 => .bx
  | 0xB#4 => .ri
  | 0xC#4 => .vss
  | 0xD#4 => .vssLong
  | 0xE#4 => .fss
  | 0xF#4 => .fss
  | d => if d.toNat < 4 then .rr else .rx

/-- The length of a format's instructions in halfwords, which is also the ILC (R73, R96). -/
def Format.halfwords : Format → Nat
  | .rr => 1
  | .rx => 2
  | .si => 2
  | .rs => 2
  | .bx => 2
  | .ri => 2
  | .vss => 3
  | .vssLong => 3
  | .fss => 3

/-- The operation code: bits 0 to 7 of the first halfword (R72). -/
def opOf (h0 : Word) : Byte := h0.extractLsb' 8 8

/-- Bits 8 to 15 of the first halfword: an immediate byte or a length (R79 to R82). -/
def byteField (h0 : Word) : Byte := h0.extractLsb' 0 8

/-- Bits 8 to 11 and bits 12 to 15 of the first halfword (R74 to R78, R89). -/
def field1 (h0 : Word) : Reg := h0.extractLsb' 4 4
def field2 (h0 : Word) : Reg := h0.extractLsb' 0 4

/-- The base field and the displacement of an address halfword (R76, R77, R79 to R81). -/
def baseField (h : Word) : Reg := h.extractLsb' 12 4
def dispField (h : Word) : Disp := h.extractLsb' 0 12

/-- Why the decoder gives no instruction: the halfwords end early; the code is unassigned, so that executing it raises the
Operation interrupt (R92); or the code is one of those the spec says a model must leave undetermined (R92). -/
inductive Reject where
  | truncated
  | unassigned (op : Byte)
  | undetermined (op : Byte)
  deriving DecidableEq, Repr

/-- The codes R92 says to refuse: MVBI and MVA may stand at any of them (decisions D8, D9). -/
def undeterminedOp (op : Byte) : Bool :=
  op ∈ ([0x86, 0x88, 0x8C, 0x8D, 0x8E, 0xF2, 0xFA, 0xFC, 0xFD, 0xFE, 0xFF] : List Byte)

/-- The RR operation codes of R91. -/
def decodeRR (op : Byte) (i1 : Byte) (r1 r2 : Reg) : Option Instr :=
  match op with
  | 0x0B#8 => some (.ret r1 r2)
  | 0x0C#8 => some (.lpr r1 r2)
  | 0x0D#8 => some (.lnr r1 r2)
  | 0x0E#8 => some (.lcr r1 r2)
  | 0x0F#8 => some (.lxbr r1 r2)
  | 0x12#8 => some (.stdr r1 r2)
  | 0x13#8 => some (.ldr r1 r2)
  | 0x16#8 => some (.sior r1 r2)
  | 0x17#8 => some (.sd r1 r2)
  | 0x18#8 => some (.slli r1 r2)
  | 0x19#8 => some (.srli r1 r2)
  | 0x1A#8 => some (.sldli r1 r2)
  | 0x1B#8 => some (.srdli r1 r2)
  | 0x1C#8 => some (.slai r1 r2)
  | 0x1D#8 => some (.srai r1 r2)
  | 0x1E#8 => some (.sldai r1 r2)
  | 0x1F#8 => some (.srdai r1 r2)
  | 0x20#8 => some (.iost r1 r2)
  | 0x22#8 => some (.excc r1 r2)
  | 0x23#8 => some (.lx r1 r2)
  | 0x24#8 => some (.ax r1 r2)
  | 0x25#8 => some (.sx r1 r2)
  | 0x26#8 => some (.bczr r1 r2)
  | 0x27#8 => some (.bcor r1 r2)
  | 0x28#8 => some (.balr r1 r2)
  | 0x29#8 => some (.tbpr r1 r2)
  | 0x2A#8 => some (.tbzr r1 r2)
  | 0x2B#8 => some (.tbnmr r1 r2)
  | 0x2C#8 => some (.tbmr r1 r2)
  | 0x2D#8 => some (.tbnzr r1 r2)
  | 0x2E#8 => some (.tbnpr r1 r2)
  | 0x2F#8 => some (.bctr r1 r2)
  | 0x30#8 => some (.cr r1 r2)
  | 0x31#8 => some (.svc i1)
  | 0x32#8 => some (.tmr r1 r2)
  | 0x33#8 => some (.lr r1 r2)
  | 0x34#8 => some (.ar r1 r2)
  | 0x35#8 => some (.sr r1 r2)
  | 0x36#8 => some (.mr r1 r2)
  | 0x37#8 => some (.dr r1 r2)
  | 0x38#8 => some (.swpr r1 r2)
  | 0x39#8 => some (.nr r1 r2)
  | 0x3A#8 => some (.or r1 r2)
  | 0x3B#8 => some (.xr r1 r2)
  | 0x3C#8 => some (.alr r1 r2)
  | 0x3D#8 => some (.slr r1 r2)
  | 0x3F#8 => some (.clr r1 r2)
  | _ => none

/-- The RX operation codes of R91. -/
def decodeRX (op : Byte) (r1 x2 b2 : Reg) (d2 : Disp) : Option Instr :=
  match op with
  | 0x48#8 => some (.deq r1 x2 b2 d2)
  | 0x4C#8 => some (.lp r1 x2 b2 d2)
  | 0x4D#8 => some (.ln r1 x2 b2 d2)
  | 0x4E#8 => some (.lc r1 x2 b2 d2)
  | 0x4F#8 => some (.lxb r1 x2 b2 d2)
  | 0x50#8 => some (.cvb r1 x2 b2 d2)
  | 0x51#8 => some (.cvd r1 x2 b2 d2)
  | 0x52#8 => some (.std r1 x2 b2 d2)
  | 0x53#8 => some (.ld r1 x2 b2 d2)
  | 0x54#8 => some (.ex r1 x2 b2 d2)
  | 0x55#8 => some (.ss r1 x2 b2 d2)
  | 0x56#8 => some (.sio r1 x2 b2 d2)
  | 0x58#8 => some (.ib r1 x2 b2 d2)
  | 0x59#8 => some (.stb r1 x2 b2 d2)
  | 0x5A#8 => some (.lb r1 x2 b2 d2)
  | 0x5B#8 => some (.lsb r1 x2 b2 d2)
  | 0x5C#8 => some (.sa r1 x2 b2 d2)
  | 0x5D#8 => some (.la r1 x2 b2 d2)
  | 0x5E#8 => some (.lz r1 x2 b2 d2)
  | 0x5F#8 => some (.clb r1 x2 b2 d2)
  | 0x62#8 => some (.trb r1 x2 b2 d2)
  | 0x70#8 => some (.c r1 x2 b2 d2)
  | 0x72#8 => some (.st r1 x2 b2 d2)
  | 0x73#8 => some (.l r1 x2 b2 d2)
  | 0x74#8 => some (.a r1 x2 b2 d2)
  | 0x75#8 => some (.s r1 x2 b2 d2)
  | 0x76#8 => some (.m r1 x2 b2 d2)
  | 0x77#8 => some (.d r1 x2 b2 d2)
  | 0x78#8 => some (.swp r1 x2 b2 d2)
  | 0x79#8 => some (.n r1 x2 b2 d2)
  | 0x7A#8 => some (.o r1 x2 b2 d2)
  | 0x7B#8 => some (.x r1 x2 b2 d2)
  | 0x7C#8 => some (.al r1 x2 b2 d2)
  | 0x7D#8 => some (.sl r1 x2 b2 d2)
  | 0x7F#8 => some (.cl r1 x2 b2 d2)
  | _ => none

/-- The SI operation codes of R91. -/
def decodeSI (op : Byte) (i2 : Byte) (b1 : Reg) (d1 : Disp) : Option Instr :=
  match op with
  | 0x80#8 => some (.chi i2 b1 d1)
  | 0x81#8 => some (.svcs i2 b1 d1)
  | 0x82#8 => some (.tmbi i2 b1 d1)
  | 0x83#8 => some (.mvhi i2 b1 d1)
  | 0x84#8 => some (.ahi i2 b1 d1)
  | 0x85#8 => some (.shi i2 b1 d1)
  | 0x87#8 => some (.tsl i2 b1 d1)
  | 0x89#8 => some (.nbi i2 b1 d1)
  | 0x8A#8 => some (.obi i2 b1 d1)
  | 0x8B#8 => some (.xbi i2 b1 d1)
  | 0x8F#8 => some (.clbi i2 b1 d1)
  | _ => if op = Config.opcMvbi then some (.mvbi i2 b1 d1) else none

/-- The RS operation codes of R91. -/
def decodeRS (op : Byte) (r1 r3 b2 : Reg) (d2 : Disp) : Option Instr :=
  match op with
  | 0x90#8 => some (.stmd r1 r3 b2 d2)
  | 0x91#8 => some (.lmd r1 r3 b2 d2)
  | 0x92#8 => some (.stm r1 r3 b2 d2)
  | 0x93#8 => some (.lm r1 r3 b2 d2)
  | 0x96#8 => some (.pshm r1 r3 b2 d2)
  | 0x97#8 => some (.popm r1 r3 b2 d2)
  | 0x98#8 => some (.sll r1 r3 b2 d2)
  | 0x99#8 => some (.srl r1 r3 b2 d2)
  | 0x9A#8 => some (.sldl r1 r3 b2 d2)
  | 0x9B#8 => some (.srdl r1 r3 b2 d2)
  | 0x9C#8 => some (.sla r1 r3 b2 d2)
  | 0x9D#8 => some (.sra r1 r3 b2 d2)
  | 0x9E#8 => some (.slda r1 r3 b2 d2)
  | 0x9F#8 => some (.srda r1 r3 b2 d2)
  | _ => none

/-- The BX operation codes of R91. -/
def decodeBX (op : Byte) (r1 x2 : Reg) (d2 : Word) : Option Instr :=
  match op with
  | 0xA0#8 => some (.bxh r1 x2 d2)
  | 0xA1#8 => some (.bxle r1 x2 d2)
  | 0xA6#8 => some (.bcz r1 x2 d2)
  | 0xA7#8 => some (.bco r1 x2 d2)
  | 0xA8#8 => some (.bal r1 x2 d2)
  | 0xA9#8 => some (.tbp r1 x2 d2)
  | 0xAA#8 => some (.tbz r1 x2 d2)
  | 0xAB#8 => some (.tbnm r1 x2 d2)
  | 0xAC#8 => some (.tbm r1 x2 d2)
  | 0xAD#8 => some (.tbnz r1 x2 d2)
  | 0xAE#8 => some (.tbnp r1 x2 d2)
  | 0xAF#8 => some (.bct r1 x2 d2)
  | _ => none

/-- The RI operation codes of R91. -/
def decodeRI (op : Byte) (r1s r1f : Reg) (i2 : Word) : Option Instr :=
  match op with
  | 0xB0#8 => some (.ci r1s r1f i2)
  | 0xB1#8 => some (.stdi r1s r1f i2)
  | 0xB2#8 => some (.tmi r1s r1f i2)
  | 0xB3#8 => some (.li r1s r1f i2)
  | 0xB4#8 => some (.ai r1s r1f i2)
  | 0xB5#8 => some (.si r1s r1f i2)
  | 0xB6#8 => some (.mi r1s r1f i2)
  | 0xB7#8 => some (.di r1s r1f i2)
  | 0xB8#8 => some (.ldi r1s r1f i2)
  | 0xB9#8 => some (.ni r1s r1f i2)
  | 0xBA#8 => some (.oi r1s r1f i2)
  | 0xBB#8 => some (.xi r1s r1f i2)
  | 0xBC#8 => some (.ali r1s r1f i2)
  | 0xBD#8 => some (.sli r1s r1f i2)
  | 0xBE#8 => some (.ent r1s r1f i2)
  | 0xBF#8 => some (.cli r1s r1f i2)
  | _ => none

/-- The VSS operation codes of R91. -/
def decodeVSS (op : Byte) (len : Byte) (b1 : Reg) (d1 : Disp) (b2 : Reg) (d2 : Disp) : Option Instr :=
  match op with
  | 0xC0#8 => some (.sle len b1 d1 b2 d2)
  | 0xC1#8 => some (.sre len b1 d1 b2 d2)
  | 0xC2#8 => some (.slne len b1 d1 b2 d2)
  | 0xC3#8 => some (.srne len b1 d1 b2 d2)
  | 0xC4#8 => some (.mvc len b1 d1 b2 d2)
  | 0xC5#8 => some (.mvcn len b1 d1 b2 d2)
  | 0xC6#8 => some (.pshh len b1 d1 b2 d2)
  | 0xC7#8 => some (.poph len b1 d1 b2 d2)
  | 0xC8#8 => some (.fill len b1 d1 b2 d2)
  | 0xC9#8 => some (.nc len b1 d1 b2 d2)
  | 0xCA#8 => some (.oc len b1 d1 b2 d2)
  | 0xCB#8 => some (.xc len b1 d1 b2 d2)
  | 0xCC#8 => some (.stl len b1 d1 b2 d2)
  | 0xCD#8 => some (.str len b1 d1 b2 d2)
  | 0xCE#8 => some (.tr len b1 d1 b2 d2)
  | 0xCF#8 => some (.clc len b1 d1 b2 d2)
  | _ => none

/-- The VSS Long operation codes of R91. -/
def decodeVSSLong (op : Byte) (u rl b1 : Reg) (d1 : Disp) (b2 : Reg) (d2 : Disp) : Option Instr :=
  match op with
  | 0xD0#8 => some (.slel u rl b1 d1 b2 d2)
  | 0xD1#8 => some (.srel u rl b1 d1 b2 d2)
  | 0xD2#8 => some (.slnel u rl b1 d1 b2 d2)
  | 0xD3#8 => some (.srnel u rl b1 d1 b2 d2)
  | 0xD4#8 => some (.mvcl u rl b1 d1 b2 d2)
  | 0xD5#8 => some (.mvcnl u rl b1 d1 b2 d2)
  | 0xD6#8 => some (.pshhl u rl b1 d1 b2 d2)
  | 0xD7#8 => some (.pophl u rl b1 d1 b2 d2)
  | 0xD8#8 => some (.filll u rl b1 d1 b2 d2)
  | 0xD9#8 => some (.ncl u rl b1 d1 b2 d2)
  | 0xDA#8 => some (.ocl u rl b1 d1 b2 d2)
  | 0xDB#8 => some (.xcl u rl b1 d1 b2 d2)
  | 0xDC#8 => some (.stll u rl b1 d1 b2 d2)
  | 0xDD#8 => some (.strl u rl b1 d1 b2 d2)
  | 0xDE#8 => some (.trl u rl b1 d1 b2 d2)
  | 0xDF#8 => some (.clcl u rl b1 d1 b2 d2)
  | _ => none

/-- The FSS operation codes of R91. -/
def decodeFSS (op : Byte) (i3 : Byte) (b1 : Reg) (d1 : Disp) (b2 : Reg) (d2 : Disp) : Option Instr :=
  match op with
  | 0xF0#8 => some (.ch i3 b1 d1 b2 d2)
  | 0xF1#8 => some (.svcd i3 b1 d1 b2 d2)
  | 0xF3#8 => some (.mvh i3 b1 d1 b2 d2)
  | 0xF4#8 => some (.ah i3 b1 d1 b2 d2)
  | 0xF5#8 => some (.sh i3 b1 d1 b2 d2)
  | 0xF6#8 => some (.mh i3 b1 d1 b2 d2)
  | 0xF7#8 => some (.dh i3 b1 d1 b2 d2)
  | 0xF8#8 => some (.enq i3 b1 d1 b2 d2)
  | 0xF9#8 => some (.srch i3 b1 d1 b2 d2)
  | 0xFB#8 => some (.clh i3 b1 d1 b2 d2)
  | _ => if op = Config.opcMva then some (.mva i3 b1 d1 b2 d2) else none

/-- The instruction whose first halfword is `h0` and whose further halfwords, where its format has them, are `h1`
and `h2` (R71 to R82). -/
def decodeFields (h0 h1 h2 : Word) : Option Instr :=
  match Format.ofOp (opOf h0) with
  | .rr => decodeRR (opOf h0) (byteField h0) (field1 h0) (field2 h0)
  | .rx => decodeRX (opOf h0) (field1 h0) (field2 h0) (baseField h1) (dispField h1)
  | .si => decodeSI (opOf h0) (byteField h0) (baseField h1) (dispField h1)
  | .rs => decodeRS (opOf h0) (field1 h0) (field2 h0) (baseField h1) (dispField h1)
  | .bx => decodeBX (opOf h0) (field1 h0) (field2 h0) h1
  | .ri => decodeRI (opOf h0) (field1 h0) (field2 h0) h1
  | .vss => decodeVSS (opOf h0) (byteField h0) (baseField h1) (dispField h1) (baseField h2) (dispField h2)
  | .vssLong =>
    decodeVSSLong (opOf h0) (field1 h0) (field2 h0) (baseField h1) (dispField h1) (baseField h2) (dispField h2)
  | .fss => decodeFSS (opOf h0) (byteField h0) (baseField h1) (dispField h1) (baseField h2) (dispField h2)

/-- The decoder over three halfwords; those beyond the instruction's length are not looked at. -/
def decode (h0 h1 h2 : Word) : Except Reject Instr :=
  match decodeFields h0 h1 h2 with
  | some i => .ok i
  | none => .error (if undeterminedOp (opOf h0) then .undetermined (opOf h0) else .unassigned (opOf h0))

/-- The halfwords of a run of bytes, the high-order byte of each at the lower address (R49); an odd last byte is dropped. -/
def halfwordsOf : List Byte → List Word
  | hi :: lo :: rest => (hi ++ lo) :: halfwordsOf rest
  | _ => []

/-- The decoder over bytes: the instruction at their head and its length in bytes. Total; it rejects by name. -/
def decodeBytes (bs : List Byte) : Except Reject (Instr × Nat) :=
  match halfwordsOf bs with
  | [] => .error .truncated
  | h0 :: rest =>
    let n := (Format.ofOp (opOf h0)).halfwords
    if rest.length + 1 < n then .error .truncated
    else
      match decode h0 (rest.getD 0 0) (rest.getD 1 0) with
      | .ok i => .ok (i, 2 * n)
      | .error e => .error e

/-! ## The encoder -/

/-- A first halfword of two 4-bit fields, and one of an 8-bit field (R74 to R82). -/
def head44 (op : Byte) (f1 f2 : Reg) : Word := op ++ f1 ++ f2
def head8 (op i : Byte) : Word := op ++ i

/-- A base and displacement halfword. -/
def addrHalf (b : Reg) (d : Disp) : Word := b ++ d

def encodeRX (op : Byte) (r1 x2 b2 : Reg) (d2 : Disp) : List Word := [head44 op r1 x2, addrHalf b2 d2]
def encodeSI (op i2 : Byte) (b1 : Reg) (d1 : Disp) : List Word := [head8 op i2, addrHalf b1 d1]
def encodeBX (op : Byte) (r1 x2 : Reg) (d2 : Word) : List Word := [head44 op r1 x2, d2]
def encodeSS (h0 : Word) (b1 : Reg) (d1 : Disp) (b2 : Reg) (d2 : Disp) : List Word :=
  [h0, addrHalf b1 d1, addrHalf b2 d2]

/-- The halfwords of an instruction, from the encoding tables (R71 to R82, R91). -/
def encode : Instr → List Word
  | .ret r1 r2 => [head44 0x0B#8 r1 r2]
  | .lpr r1 r2 => [head44 0x0C#8 r1 r2]
  | .lnr r1 r2 => [head44 0x0D#8 r1 r2]
  | .lcr r1 r2 => [head44 0x0E#8 r1 r2]
  | .lxbr r1 r2 => [head44 0x0F#8 r1 r2]
  | .stdr r1 r2 => [head44 0x12#8 r1 r2]
  | .ldr r1 r2 => [head44 0x13#8 r1 r2]
  | .sior r1 r2 => [head44 0x16#8 r1 r2]
  | .sd r1 r2 => [head44 0x17#8 r1 r2]
  | .slli r1 r2 => [head44 0x18#8 r1 r2]
  | .srli r1 r2 => [head44 0x19#8 r1 r2]
  | .sldli r1 r2 => [head44 0x1A#8 r1 r2]
  | .srdli r1 r2 => [head44 0x1B#8 r1 r2]
  | .slai r1 r2 => [head44 0x1C#8 r1 r2]
  | .srai r1 r2 => [head44 0x1D#8 r1 r2]
  | .sldai r1 r2 => [head44 0x1E#8 r1 r2]
  | .srdai r1 r2 => [head44 0x1F#8 r1 r2]
  | .iost r1 r2 => [head44 0x20#8 r1 r2]
  | .excc r1 r2 => [head44 0x22#8 r1 r2]
  | .lx r1 r2 => [head44 0x23#8 r1 r2]
  | .ax r1 r2 => [head44 0x24#8 r1 r2]
  | .sx r1 r2 => [head44 0x25#8 r1 r2]
  | .bczr r1 r2 => [head44 0x26#8 r1 r2]
  | .bcor r1 r2 => [head44 0x27#8 r1 r2]
  | .balr r1 r2 => [head44 0x28#8 r1 r2]
  | .tbpr r1 r2 => [head44 0x29#8 r1 r2]
  | .tbzr r1 r2 => [head44 0x2A#8 r1 r2]
  | .tbnmr r1 r2 => [head44 0x2B#8 r1 r2]
  | .tbmr r1 r2 => [head44 0x2C#8 r1 r2]
  | .tbnzr r1 r2 => [head44 0x2D#8 r1 r2]
  | .tbnpr r1 r2 => [head44 0x2E#8 r1 r2]
  | .bctr r1 r2 => [head44 0x2F#8 r1 r2]
  | .cr r1 r2 => [head44 0x30#8 r1 r2]
  | .svc i1 => [head8 0x31#8 i1]
  | .tmr r1 r2 => [head44 0x32#8 r1 r2]
  | .lr r1 r2 => [head44 0x33#8 r1 r2]
  | .ar r1 r2 => [head44 0x34#8 r1 r2]
  | .sr r1 r2 => [head44 0x35#8 r1 r2]
  | .mr r1 r2 => [head44 0x36#8 r1 r2]
  | .dr r1 r2 => [head44 0x37#8 r1 r2]
  | .swpr r1 r2 => [head44 0x38#8 r1 r2]
  | .nr r1 r2 => [head44 0x39#8 r1 r2]
  | .or r1 r2 => [head44 0x3A#8 r1 r2]
  | .xr r1 r2 => [head44 0x3B#8 r1 r2]
  | .alr r1 r2 => [head44 0x3C#8 r1 r2]
  | .slr r1 r2 => [head44 0x3D#8 r1 r2]
  | .clr r1 r2 => [head44 0x3F#8 r1 r2]
  | .deq r1 x2 b2 d2 => encodeRX 0x48#8 r1 x2 b2 d2
  | .lp r1 x2 b2 d2 => encodeRX 0x4C#8 r1 x2 b2 d2
  | .ln r1 x2 b2 d2 => encodeRX 0x4D#8 r1 x2 b2 d2
  | .lc r1 x2 b2 d2 => encodeRX 0x4E#8 r1 x2 b2 d2
  | .lxb r1 x2 b2 d2 => encodeRX 0x4F#8 r1 x2 b2 d2
  | .cvb r1 x2 b2 d2 => encodeRX 0x50#8 r1 x2 b2 d2
  | .cvd r1 x2 b2 d2 => encodeRX 0x51#8 r1 x2 b2 d2
  | .std r1 x2 b2 d2 => encodeRX 0x52#8 r1 x2 b2 d2
  | .ld r1 x2 b2 d2 => encodeRX 0x53#8 r1 x2 b2 d2
  | .ex r1 x2 b2 d2 => encodeRX 0x54#8 r1 x2 b2 d2
  | .ss r1 x2 b2 d2 => encodeRX 0x55#8 r1 x2 b2 d2
  | .sio r1 x2 b2 d2 => encodeRX 0x56#8 r1 x2 b2 d2
  | .ib r1 x2 b2 d2 => encodeRX 0x58#8 r1 x2 b2 d2
  | .stb r1 x2 b2 d2 => encodeRX 0x59#8 r1 x2 b2 d2
  | .lb r1 x2 b2 d2 => encodeRX 0x5A#8 r1 x2 b2 d2
  | .lsb r1 x2 b2 d2 => encodeRX 0x5B#8 r1 x2 b2 d2
  | .sa r1 x2 b2 d2 => encodeRX 0x5C#8 r1 x2 b2 d2
  | .la r1 x2 b2 d2 => encodeRX 0x5D#8 r1 x2 b2 d2
  | .lz r1 x2 b2 d2 => encodeRX 0x5E#8 r1 x2 b2 d2
  | .clb r1 x2 b2 d2 => encodeRX 0x5F#8 r1 x2 b2 d2
  | .trb r1 x2 b2 d2 => encodeRX 0x62#8 r1 x2 b2 d2
  | .c r1 x2 b2 d2 => encodeRX 0x70#8 r1 x2 b2 d2
  | .st r1 x2 b2 d2 => encodeRX 0x72#8 r1 x2 b2 d2
  | .l r1 x2 b2 d2 => encodeRX 0x73#8 r1 x2 b2 d2
  | .a r1 x2 b2 d2 => encodeRX 0x74#8 r1 x2 b2 d2
  | .s r1 x2 b2 d2 => encodeRX 0x75#8 r1 x2 b2 d2
  | .m r1 x2 b2 d2 => encodeRX 0x76#8 r1 x2 b2 d2
  | .d r1 x2 b2 d2 => encodeRX 0x77#8 r1 x2 b2 d2
  | .swp r1 x2 b2 d2 => encodeRX 0x78#8 r1 x2 b2 d2
  | .n r1 x2 b2 d2 => encodeRX 0x79#8 r1 x2 b2 d2
  | .o r1 x2 b2 d2 => encodeRX 0x7A#8 r1 x2 b2 d2
  | .x r1 x2 b2 d2 => encodeRX 0x7B#8 r1 x2 b2 d2
  | .al r1 x2 b2 d2 => encodeRX 0x7C#8 r1 x2 b2 d2
  | .sl r1 x2 b2 d2 => encodeRX 0x7D#8 r1 x2 b2 d2
  | .cl r1 x2 b2 d2 => encodeRX 0x7F#8 r1 x2 b2 d2
  | .chi i2 b1 d1 => encodeSI 0x80#8 i2 b1 d1
  | .svcs i2 b1 d1 => encodeSI 0x81#8 i2 b1 d1
  | .tmbi i2 b1 d1 => encodeSI 0x82#8 i2 b1 d1
  | .mvhi i2 b1 d1 => encodeSI 0x83#8 i2 b1 d1
  | .ahi i2 b1 d1 => encodeSI 0x84#8 i2 b1 d1
  | .shi i2 b1 d1 => encodeSI 0x85#8 i2 b1 d1
  | .tsl i2 b1 d1 => encodeSI 0x87#8 i2 b1 d1
  | .nbi i2 b1 d1 => encodeSI 0x89#8 i2 b1 d1
  | .obi i2 b1 d1 => encodeSI 0x8A#8 i2 b1 d1
  | .xbi i2 b1 d1 => encodeSI 0x8B#8 i2 b1 d1
  | .mvbi i2 b1 d1 => encodeSI Config.opcMvbi i2 b1 d1
  | .clbi i2 b1 d1 => encodeSI 0x8F#8 i2 b1 d1
  | .stmd r1 r3 b2 d2 => encodeRX 0x90#8 r1 r3 b2 d2
  | .lmd r1 r3 b2 d2 => encodeRX 0x91#8 r1 r3 b2 d2
  | .stm r1 r3 b2 d2 => encodeRX 0x92#8 r1 r3 b2 d2
  | .lm r1 r3 b2 d2 => encodeRX 0x93#8 r1 r3 b2 d2
  | .pshm r1 r3 b2 d2 => encodeRX 0x96#8 r1 r3 b2 d2
  | .popm r1 r3 b2 d2 => encodeRX 0x97#8 r1 r3 b2 d2
  | .sll r1 r3 b2 d2 => encodeRX 0x98#8 r1 r3 b2 d2
  | .srl r1 r3 b2 d2 => encodeRX 0x99#8 r1 r3 b2 d2
  | .sldl r1 r3 b2 d2 => encodeRX 0x9A#8 r1 r3 b2 d2
  | .srdl r1 r3 b2 d2 => encodeRX 0x9B#8 r1 r3 b2 d2
  | .sla r1 r3 b2 d2 => encodeRX 0x9C#8 r1 r3 b2 d2
  | .sra r1 r3 b2 d2 => encodeRX 0x9D#8 r1 r3 b2 d2
  | .slda r1 r3 b2 d2 => encodeRX 0x9E#8 r1 r3 b2 d2
  | .srda r1 r3 b2 d2 => encodeRX 0x9F#8 r1 r3 b2 d2
  | .bxh r1 x2 d2 => encodeBX 0xA0#8 r1 x2 d2
  | .bxle r1 x2 d2 => encodeBX 0xA1#8 r1 x2 d2
  | .bcz r1 x2 d2 => encodeBX 0xA6#8 r1 x2 d2
  | .bco r1 x2 d2 => encodeBX 0xA7#8 r1 x2 d2
  | .bal r1 x2 d2 => encodeBX 0xA8#8 r1 x2 d2
  | .tbp r1 x2 d2 => encodeBX 0xA9#8 r1 x2 d2
  | .tbz r1 x2 d2 => encodeBX 0xAA#8 r1 x2 d2
  | .tbnm r1 x2 d2 => encodeBX 0xAB#8 r1 x2 d2
  | .tbm r1 x2 d2 => encodeBX 0xAC#8 r1 x2 d2
  | .tbnz r1 x2 d2 => encodeBX 0xAD#8 r1 x2 d2
  | .tbnp r1 x2 d2 => encodeBX 0xAE#8 r1 x2 d2
  | .bct r1 x2 d2 => encodeBX 0xAF#8 r1 x2 d2
  | .ci r1s r1f i2 => encodeBX 0xB0#8 r1s r1f i2
  | .stdi r1s r1f i2 => encodeBX 0xB1#8 r1s r1f i2
  | .tmi r1s r1f i2 => encodeBX 0xB2#8 r1s r1f i2
  | .li r1s r1f i2 => encodeBX 0xB3#8 r1s r1f i2
  | .ai r1s r1f i2 => encodeBX 0xB4#8 r1s r1f i2
  | .si r1s r1f i2 => encodeBX 0xB5#8 r1s r1f i2
  | .mi r1s r1f i2 => encodeBX 0xB6#8 r1s r1f i2
  | .di r1s r1f i2 => encodeBX 0xB7#8 r1s r1f i2
  | .ldi r1s r1f i2 => encodeBX 0xB8#8 r1s r1f i2
  | .ni r1s r1f i2 => encodeBX 0xB9#8 r1s r1f i2
  | .oi r1s r1f i2 => encodeBX 0xBA#8 r1s r1f i2
  | .xi r1s r1f i2 => encodeBX 0xBB#8 r1s r1f i2
  | .ali r1s r1f i2 => encodeBX 0xBC#8 r1s r1f i2
  | .sli r1s r1f i2 => encodeBX 0xBD#8 r1s r1f i2
  | .ent r1s r1f i2 => encodeBX 0xBE#8 r1s r1f i2
  | .cli r1s r1f i2 => encodeBX 0xBF#8 r1s r1f i2
  | .sle len b1 d1 b2 d2 => encodeSS (head8 0xC0#8 len) b1 d1 b2 d2
  | .sre len b1 d1 b2 d2 => encodeSS (head8 0xC1#8 len) b1 d1 b2 d2
  | .slne len b1 d1 b2 d2 => encodeSS (head8 0xC2#8 len) b1 d1 b2 d2
  | .srne len b1 d1 b2 d2 => encodeSS (head8 0xC3#8 len) b1 d1 b2 d2
  | .mvc len b1 d1 b2 d2 => encodeSS (head8 0xC4#8 len) b1 d1 b2 d2
  | .mvcn len b1 d1 b2 d2 => encodeSS (head8 0xC5#8 len) b1 d1 b2 d2
  | .pshh len b1 d1 b2 d2 => encodeSS (head8 0xC6#8 len) b1 d1 b2 d2
  | .poph len b1 d1 b2 d2 => encodeSS (head8 0xC7#8 len) b1 d1 b2 d2
  | .fill len b1 d1 b2 d2 => encodeSS (head8 0xC8#8 len) b1 d1 b2 d2
  | .nc len b1 d1 b2 d2 => encodeSS (head8 0xC9#8 len) b1 d1 b2 d2
  | .oc len b1 d1 b2 d2 => encodeSS (head8 0xCA#8 len) b1 d1 b2 d2
  | .xc len b1 d1 b2 d2 => encodeSS (head8 0xCB#8 len) b1 d1 b2 d2
  | .stl len b1 d1 b2 d2 => encodeSS (head8 0xCC#8 len) b1 d1 b2 d2
  | .str len b1 d1 b2 d2 => encodeSS (head8 0xCD#8 len) b1 d1 b2 d2
  | .tr len b1 d1 b2 d2 => encodeSS (head8 0xCE#8 len) b1 d1 b2 d2
  | .clc len b1 d1 b2 d2 => encodeSS (head8 0xCF#8 len) b1 d1 b2 d2
  | .slel u rl b1 d1 b2 d2 => encodeSS (head44 0xD0#8 u rl) b1 d1 b2 d2
  | .srel u rl b1 d1 b2 d2 => encodeSS (head44 0xD1#8 u rl) b1 d1 b2 d2
  | .slnel u rl b1 d1 b2 d2 => encodeSS (head44 0xD2#8 u rl) b1 d1 b2 d2
  | .srnel u rl b1 d1 b2 d2 => encodeSS (head44 0xD3#8 u rl) b1 d1 b2 d2
  | .mvcl u rl b1 d1 b2 d2 => encodeSS (head44 0xD4#8 u rl) b1 d1 b2 d2
  | .mvcnl u rl b1 d1 b2 d2 => encodeSS (head44 0xD5#8 u rl) b1 d1 b2 d2
  | .pshhl u rl b1 d1 b2 d2 => encodeSS (head44 0xD6#8 u rl) b1 d1 b2 d2
  | .pophl u rl b1 d1 b2 d2 => encodeSS (head44 0xD7#8 u rl) b1 d1 b2 d2
  | .filll u rl b1 d1 b2 d2 => encodeSS (head44 0xD8#8 u rl) b1 d1 b2 d2
  | .ncl u rl b1 d1 b2 d2 => encodeSS (head44 0xD9#8 u rl) b1 d1 b2 d2
  | .ocl u rl b1 d1 b2 d2 => encodeSS (head44 0xDA#8 u rl) b1 d1 b2 d2
  | .xcl u rl b1 d1 b2 d2 => encodeSS (head44 0xDB#8 u rl) b1 d1 b2 d2
  | .stll u rl b1 d1 b2 d2 => encodeSS (head44 0xDC#8 u rl) b1 d1 b2 d2
  | .strl u rl b1 d1 b2 d2 => encodeSS (head44 0xDD#8 u rl) b1 d1 b2 d2
  | .trl u rl b1 d1 b2 d2 => encodeSS (head44 0xDE#8 u rl) b1 d1 b2 d2
  | .clcl u rl b1 d1 b2 d2 => encodeSS (head44 0xDF#8 u rl) b1 d1 b2 d2
  | .ch i3 b1 d1 b2 d2 => encodeSS (head8 0xF0#8 i3) b1 d1 b2 d2
  | .svcd i3 b1 d1 b2 d2 => encodeSS (head8 0xF1#8 i3) b1 d1 b2 d2
  | .mva i3 b1 d1 b2 d2 => encodeSS (head8 Config.opcMva i3) b1 d1 b2 d2
  | .mvh i3 b1 d1 b2 d2 => encodeSS (head8 0xF3#8 i3) b1 d1 b2 d2
  | .ah i3 b1 d1 b2 d2 => encodeSS (head8 0xF4#8 i3) b1 d1 b2 d2
  | .sh i3 b1 d1 b2 d2 => encodeSS (head8 0xF5#8 i3) b1 d1 b2 d2
  | .mh i3 b1 d1 b2 d2 => encodeSS (head8 0xF6#8 i3) b1 d1 b2 d2
  | .dh i3 b1 d1 b2 d2 => encodeSS (head8 0xF7#8 i3) b1 d1 b2 d2
  | .enq i3 b1 d1 b2 d2 => encodeSS (head8 0xF8#8 i3) b1 d1 b2 d2
  | .srch i3 b1 d1 b2 d2 => encodeSS (head8 0xF9#8 i3) b1 d1 b2 d2
  | .clh i3 b1 d1 b2 d2 => encodeSS (head8 0xFB#8 i3) b1 d1 b2 d2

/-- The bytes of a halfword, high-order byte first (R49). -/
def bytesOf (h : Word) : List Byte := [h.extractLsb' 8 8, h.extractLsb' 0 8]

/-- The bytes of an instruction as memory holds them. -/
def encodeBytes (i : Instr) : List Byte := (encode i).flatMap bytesOf

/-! ## The host's table words -/

/-- The bytes, first in memory first, of an instruction whose `nbits` bits are the number `w`. spec/opcode_table.json writes a
row as ONE number whose most significant bits are the first halfword (a row of 32 bits has its operation code in bits
31 to 24), so the first byte is the number's most significant byte. The bytes an instruction has beyond are 0, to six. Log 44. -/
def tableBytes (nbits w : Nat) : List Byte :=
  let n := nbits / 8
  ((List.range n).map (fun k => BitVec.ofNat 8 (w / 2 ^ (8 * (n - 1 - k)))) ++ List.replicate (6 - n) 0).take 6

/-- The instruction the decoder reads from an instruction word of the opcode table. -/
def decodeTableWord (nbits w : Nat) : Option Instr :=
  match decodeBytes (tableBytes nbits w) with
  | .ok (i, _) => some i
  | .error _ => none

end Sys2Proof
end

