-- ==== Sys2Proof/Machine/Units.lean ====
section
/-! DEFINITION. The local I/O units (60_exceptions.md, R410 to R437): what each does with an IOCC, and how an operation it has
begun completes. What the descriptions leave open is fixed in logs 33 to 37, 41 and 42. -/

namespace Sys2Proof.Machine

/-- The unit addresses of R430 to R437. -/
def unitMetaB : Nat := 1
def unitDisk : Nat := 2
def unitHostTerminal : Nat := 3
def unitCard : Nat := 4
def unitPanel : Nat := 5
def unitTerminal : Nat := 6

/-- A unit, and the state with it changed. -/
def State.unit (s : State) (u : Fin 11) : LocalUnit := s.units[u.val]'u.isLt
def State.setUnit (s : State) (u : Fin 11) (l : LocalUnit) : State := { s with units := s.units.set u.val l u.isLt }

/-- Something sent out. -/
def State.send (s : State) (o : Output) : State := { s with outputs := s.outputs ++ [o] }

/-- The IOCC of two halfwords (R384): the first bit of the unit address is ignored. -/
def ioccOf (w0 w1 : Word) : Iocc :=
  { address := w0, unit := w1.extractLsb' 11 4, op := w1.extractLsb' 3 8, modifier := w1.extractLsb' 0 3 }

/-- The named flags of the card reader's status (R430): EC, LC, OC, B, OB. -/
inductive CardFlag where
  | check | lastCard | complete | busy | offline
  deriving DecidableEq, Repr

/-- So many different bit numbers out of a list, which ones the machine fixes. -/
def pickBits : Nat → List Nat → List Nat
  | 0, _ => []
  | n + 1, rest =>
    let b := rest.getD (Config.cardPick n % rest.length) 0
    b :: pickBits n (rest.erase b)

/-- A flag's bit: five different bits, whose positions the source has lost (N14, log 34). -/
def CardFlag.bit (f : CardFlag) : Word :=
  BitVec.twoPow 16 <| (pickBits 5 (List.range 16)).getD
    (match f with | .check => 0 | .lastCard => 1 | .complete => 2 | .busy => 3 | .offline => 4) 0

/-- The status bits an offline unit shows besides its own, "Offline or Busy" (R430, R431, R433). -/
def offlineBits (u : Nat) : Word :=
  if u = unitDisk then 0x2000 else if u = unitCard then CardFlag.offline.bit
  else if u = unitTerminal || u = unitHostTerminal then 0x0400 else 0

/-- The status halfword sensed from a unit (R43). -/
def State.sensed (s : State) (u : Fin 11) : Word :=
  (s.unit u).ush ||| (if (s.unit u).offline then offlineBits u.val else 0)

/-- What an IOCC asks of its unit. -/
inductive Command where
  /-- Completes at once: the No Operation (R420), a META 4B command (R437), a terminal's Control and Read (R431), a panel
  command (R436), a disk Control that moves nothing (R433). -/
  | nop
  | writeB
  | readB
  | controlB
  | terminalControl (host : Bool)
  | terminalRead (host : Bool)
  | panelRead
  | panelWrite
  | diskStay
  /-- Begins an operation: a disk movement or transfer (R433), a card (R430), a character to a terminal (R431). -/
  | diskMove
  | diskTransfer
  | cardRead
  | terminalWrite (host : Bool)
  deriving DecidableEq, Repr

/-- Operation bits (R430 to R437): Write and Initiate Write of a character, Read, Control, and the disk's and reader's. -/
def opWrite : Byte := 0x26
def opRead : Byte := 0x41
def opControl : Byte := 0x86
def opInitiateWrite : Byte := 0xA4
def opInitiateRead : Byte := 0xC4
def opReadCheck : Byte := 0xD4
def opPanelWrite : Byte := 0x00

/-- The command an IOCC is to a unit; none where the unit defines no such operation (R421). The unit's own operations are
tried before the No Operation, whose bits the source has lost (log 37). -/
def commandOf (c : Iocc) : Option Command :=
  let own : Option Command :=
    match c.unit.toNat with
    | 1 => if c.op = opWrite then some .writeB else if c.op = opRead then some .readB
      else if c.op = opControl then some .controlB else none
    | 2 => if c.op = opControl then some (if c.address = 0 then .diskStay else .diskMove)
      else if c.op = opInitiateWrite || c.op = opInitiateRead || c.op = opReadCheck then some .diskTransfer else none
    | 3 => if c.op = opControl then some (.terminalControl true) else if c.op = opRead then some (.terminalRead true)
      else if c.op = opWrite then some (.terminalWrite true) else none
    | 4 => if c.op = opInitiateRead then some .cardRead else none
    | 5 => if c.op = opRead then some .panelRead else if c.op = opPanelWrite then some .panelWrite else none
    | 6 => if c.op = opControl then some (.terminalControl false) else if c.op = opRead then some (.terminalRead false)
      else if c.op = opWrite then some (.terminalWrite false) else none
    | _ => none
  match own with
  | some k => some k
  | none => if c.op = Config.ioccNop then some .nop else none

/-- Whether the command uses the address field as a memory address (R384, R430 to R437). That of a Write to the META 4B is taken
as none, though N47 speaks of one: R437 gives it no use (DESIGN CHOICE, log 41). -/
def Command.usesMemory : Command → Bool
  | .readB | .terminalRead _ | .panelRead | .panelWrite | .diskTransfer | .cardRead => true
  | .nop | .writeB | .controlB | .terminalControl _ | .diskStay | .diskMove | .terminalWrite _ => false

/-- Whether the command begins an operation that completes later (C1), rather than at once (C2) (R384; log 34). -/
def Command.begins : Command → Bool
  | .diskMove | .diskTransfer | .cardRead | .terminalWrite _ => true
  | .nop | .writeB | .readB | .controlB | .terminalControl _ | .terminalRead _ | .panelRead | .panelWrite
  | .diskStay => false

/-- The status bits of an idle unit that begins an operation: Busy, and Offline or Busy (R430, R431, R433; logs 34, 36, 42). -/
def busyBits (u : Nat) : Word :=
  if u = unitDisk then 0x3000 else if u = unitCard then CardFlag.busy.bit ||| CardFlag.offline.bit else 0x0C00

/-- The status bits left when an operation begins: the ends of the last one are cleared (logs 34, 36). Of the disk C0, "carriage at
cylinder 0", stays with the sector count until the operation completes, also while a Control moves the carriage away, which R433
leaves open (DESIGN CHOICE, log 36). Of a terminal only Output
Complete goes: BR, AT, PE and OR stay until a status event or RESET, which the spec leaves open (DESIGN CHOICE, log 42). -/
def keptBits (u : Nat) : Word :=
  if u = unitDisk then 0x0803 else if u = unitCard then 0 else 0x7FFF

/-- The halfwords a buffer's count halfword gives (R430: bits 9 to 15; R433). -/
def bufferCount (k : Command) (w : Word) : Nat :=
  match k with
  | .cardRead => (w.extractLsb' 0 7).toNat
  | _ => w.toNat

/-- Counts the spec calls unpredictable (R433, R430, R484; U20, log 18). -/
def countUnpredictable (k : Command) (n : Nat) : Bool :=
  match k with
  | .diskTransfer => n == 0
  | .cardRead => decide (80 < n)
  | _ => false

/-- A terminal by which it is. -/
def State.terminalOf (s : State) (host : Bool) : Terminal := if host then s.hostTerminal else s.terminal

def State.setTerminal (s : State) (host : Bool) (t : Terminal) : State :=
  if host then { s with hostTerminal := t } else { s with terminal := t }

/-- Status bits shared by the terminals (R431): Output Complete, Input Ready, Break, Attention, Parity Error, Overrun. -/
def bitOutputComplete : Word := 0x8000
def bitInputReady : Word := 0x4000
def bitBreak : Word := 0x2000
def bitAttention : Word := 0x1000
def bitParityError : Word := 0x0200
def bitOverrun : Word := 0x0100

/-- The bit of the /360 terminal's status codes that transmits a BREAK (R432). -/
def codeBreak : Word := 0x2000

/-- The state with status bits of a unit cleared. -/
def State.clearStatus (s : State) (u : Fin 11) (bits : Word) : State :=
  s.setUnit u { s.unit u with ush := (s.unit u).ush &&& ~~~bits }

/-- A pending request is cleared, and with unit 5's a pending Parity Check. R41 lists the Parity Check beside the requests, but
it is presented as unit 5's (R34, R436, decision D19): that bit 31 clears it too is a DESIGN CHOICE, log 37. -/
def State.clearRequest (s : State) (u : Fin 11) : State :=
  { s.setUnit u { s.unit u with request := false } with parityPending := s.parityPending && u.val != unitPanel }

/-- The effect of a command that completes at once. -/
def State.perform (s : State) (u : Fin 11) (c : Iocc) : Command → State
  | .nop =>
    -- R420: bit 31 clears a pending request, but not the META 4B's
    if c.modifier.getLsbD 0 && u.val != unitMetaB then s.clearRequest u else s
  | .writeB =>
    -- R437: the META 4A's own USH is set to the interrupt code, which the spec does not place (log 41)
    ({ s.consume 1 with ownUsh := Config.freeWord s.freeCount }).send (.interruptB c.address)
  | .readB => s.writeHalf c.address s.ownUsh
  | .controlB =>
    -- R437: the bits are cleared, and a USH of zero clears the request (log 41)
    let t := (s.clearStatus u c.address).send (.clearB c.address)
    if (t.unit u).ush = 0 then t.setUnit u { t.unit u with request := false } else t
  | .terminalControl host =>
    let t := (s.setTerminal host { s.terminalOf host with codes := c.address }).send (.terminalControl host c.address)
    if host && c.address &&& codeBreak != 0 then t.send .hostBreak else t
  | .terminalRead host => (s.writeHalf c.address (s.terminalOf host).input).clearStatus u bitInputReady
  | .panelRead => s.writeHalf c.address s.panel.switches
  | .panelWrite =>
    -- R436: bit 30 the lower lights, bit 31 the upper
    let v := s.readHalf c.address
    { s with panel :=
        { s.panel with
          lower := if c.modifier.getLsbD 1 then v else s.panel.lower
          upper := if c.modifier.getLsbD 0 then v else s.panel.upper } }
  | .diskStay =>
    -- R433: no movement; that E and OC of the operation before stay is a DESIGN CHOICE, log 36
    s
  | .diskMove | .diskTransfer | .cardRead | .terminalWrite _ => s

/-- A unit begins an operation: it is busy, and a terminal's character is on its way. -/
def State.begin (s : State) (u : Fin 11) (c : Iocc) (k : Command) (count : Nat) : State :=
  let l := s.unit u
  let t := s.setUnit u
    { l with operation := some { iocc := c, count := count, moved := [] }, ush := (l.ush &&& keptBits u.val) ||| busyBits u.val }
  match k with
  | .terminalWrite host =>
    -- R431: right-justified ASCII; of the upper byte the rule says nothing, and all 16 bits are sent (log 42)
    t.send (.terminalWrite host c.address)
  | _ => t

/-! ## Completion -/

/-- The disk (R433): cylinders, sectors, bytes of a sector, halfwords of a sector, sectors of a cylinder. -/
def lastCylinder : Nat := 202
def sectorBytes : Nat := 642
def sectorHalfwords : Nat := 321
/-- A sector on the cartridge: the count halfword in bytes 0 and 1 (R472), and behind it the 642 bytes of data that one IOCC can
transfer (R433). The two rules agree only so (DESIGN CHOICE, log 36). -/
def recordBytes : Nat := sectorBytes + 2
def diskSize : Nat := 203 * 8 * recordBytes

/-- Where a sector begins on the cartridge, and where its data do. -/
def sectorStart (cylinder sector : Nat) : Nat := (cylinder * 8 + sector) * recordBytes
def dataStart (cylinder sector : Nat) : Nat := sectorStart cylinder sector + 2

/-- Bytes written to, and read from, consecutive places of the cartridge. -/
def Memory.writeList (m : Memory) (a : Nat) : List Byte → Memory
  | [] => m
  | b :: bs => (m.write a b).writeList (a + 1) bs

def Memory.readList (m : Memory) (a : Nat) : Nat → List Byte
  | 0 => []
  | n + 1 => m.read a :: m.readList (a + 1) n

/-- The sector that an Initiate Write of halfwords leaves: its count, the data, and zeros in the rest (R433, R472). -/
def sectorImage (count : Nat) (data : List Word) : List Byte :=
  (bytesOf (BitVec.ofNat 16 count) ++ data.flatMap bytesOf ++ List.replicate sectorBytes 0).take recordBytes

/-- The first `count` halfwords of data of the sector under the heads. -/
def State.sectorData (s : State) (sector count : Nat) : List Word :=
  halfwordsOf (s.disk.cells.readList (dataStart s.disk.cylinder sector) (2 * count))

/-- Status bits of the disk (R433): error, operation complete, at cylinder 0. -/
def bitError : Word := 0x8000
def bitComplete : Word := 0x4000
def bitCylinder0 : Word := 0x0800

/-- The disk's status at Operation Complete; the sector count under the heads stays as it was (log 36). -/
def diskStatus (old : Word) (error : Bool) (cylinder : Nat) : Word :=
  (old &&& 0x0003) ||| bitComplete ||| (if error then bitError else 0) ||| (if cylinder = 0 then bitCylinder0 else 0)

/-- The cylinder after a movement by `increment`, none where the movement runs past the first or the last (R433). -/
def movedTo (from_ increment : Nat) (lower : Bool) : Option Nat :=
  if lower then (if from_ < increment then none else some (from_ - increment))
  else if lastCylinder < from_ + increment then none else some (from_ + increment)

/-- Completion of a unit's operation: the request, and the new status. -/
def State.finishUnit (s : State) (u : Fin 11) (ush : Word) (request : Bool) : State :=
  s.setUnit u { s.unit u with operation := none, ush := ush, request := (s.unit u).request || request }

/-- A halfword of the buffer is where the address field says, after the count (R430, R433). -/
def Operation.place (o : Operation) (k : Nat) : Word := o.iocc.address + 2 + 2 * BitVec.ofNat 16 k

/-- The halfwords of data from the `k`-th on are stored in the buffer, but for those moved before (R61). -/
def State.storeRest (s : State) (o : Operation) (k : Nat) : List Word → State
  | [] => s
  | w :: ws => (if (o.moved.lookup k).isSome then s else s.writeHalf (o.place k) w).storeRest o (k + 1) ws

/-- The halfwords of data of the buffer, those moved before as they were then (R61). -/
def State.bufferData (s : State) (o : Operation) : List Word :=
  (List.range o.count).map fun k => (o.moved.lookup k).getD (s.readHalf (o.place k))

/-- More halfwords than a sector has (R433). -/
def Operation.tooLong (o : Operation) : Bool := decide (sectorHalfwords < o.count)

/-- The carriage stops at a cylinder, with the error bit where movement is left over (R433). -/
def State.carriageStops (s : State) (u : Fin 11) (cylinder : Nat) (error : Bool) : State :=
  { s with disk := { s.disk with cylinder := cylinder } }.finishUnit u (diskStatus (s.unit u).ush error cylinder) true

/-- The controller goes "berserk" (R484, U20): the carriage, the cartridge, its status and request, and all of memory are free
(log 18). -/
def State.berserk (s : State) (u : Fin 11) : State :=
  let t := s.anyMemory
  let n := t.freeCount
  let disk := { cylinder := (Config.freeWord n).toNat % (lastCylinder + 1)
                cells := Memory.filled diskSize fun a => Config.freeByte (n + 3 + a) }
  ({ t with disk := disk }.finishUnit u (Config.freeWord (n + 1)) (Config.freeBit (n + 2))).consume (diskSize + 3)

/-- A disk movement completes (R433). The increment is all of the address field ("low bits": DESIGN CHOICE, log 36). One past the
first or the last cylinder stops there with movement left over, or freely the controller goes berserk (R484, U20; log 18). -/
def State.finishMove (s : State) (u : Fin 11) (c : Iocc) : State :=
  let lower := c.modifier.getLsbD 2
  match movedTo s.disk.cylinder c.address.toNat lower with
  | some cylinder => s.carriageStops u cylinder false
  | none =>
    if Config.freeBit s.freeCount then (s.consume 1).berserk u
    else (s.consume 1).carriageStops u (if lower then 0 else lastCylinder) true

/-- A disk operation completes (R433): what moves between the buffer and the sector the modifier names, and the error bit of a
count above 321, where what was transferred is free (log 36), and of a Read-Check that fails. The first reason for the error bit is
damaged in the source: an Initiate Read or Write that fails sets it too, and moves its data all the same (DESIGN CHOICE, log 36). -/
def State.finishDisk (s : State) (u : Fin 11) (o : Operation) (checkFails : Bool) : State :=
  let c := o.iocc
  let sector := c.modifier.toNat
  let status := diskStatus (s.unit u).ush (o.tooLong || checkFails) s.disk.cylinder
  if c.op = opControl then s.finishMove u c
  else if c.op = opInitiateWrite then
    let bytes := if o.tooLong then freeBytes s.freeCount recordBytes else sectorImage o.count (s.bufferData o)
    let cells := s.disk.cells.writeList (sectorStart s.disk.cylinder sector) bytes
    ({ s.consume recordBytes with disk := { s.disk with cells := cells } }).finishUnit u status true
  else if c.op = opInitiateRead then
    let t := s.consume sectorBytes
    (if o.tooLong then t.writeBytes (o.place 0) (freeBytes s.freeCount sectorBytes)
      else t.storeRest o 0 (s.sectorData sector o.count)).finishUnit u status true
  else s.finishUnit u status true

/-- Free columns of a card, `n` of them. -/
def freeColumns (count : Nat) : Nat → List (BitVec 12)
  | 0 => []
  | n + 1 => (Config.freeWord count).extractLsb' 4 12 :: freeColumns (count + 1) n

/-- A column image in a halfword, bits 12 to 15 zero (R430). -/
def columnHalf (k : BitVec 12) : Word := k ++ (0 : BitVec 4)

/-- The card reader's status at Operation Complete (R430): OC, with it EC where a check failed, and LC after the last card; no
longer B and OB. -/
def cardStatus (checkFails lastCard : Bool) : Word :=
  CardFlag.complete.bit ||| (if checkFails then CardFlag.check.bit else 0) ||| (if lastCard then CardFlag.lastCard.bit else 0)

/-- A card has been read (R430): the column images stand after the count; columns not given are free. -/
def State.finishCard (s : State) (u : Fin 11) (o : Operation) (columns : List (BitVec 12)) (checkFails lastCard : Bool) : State :=
  let all := (columns ++ freeColumns s.freeCount o.count).take o.count
  let t := s.storeRest o 0 (all.map columnHalf)
  (t.finishUnit u (cardStatus checkFails lastCard) true).consume o.count

/-- A terminal has written its character (R431): Output Complete, and the interrupt where the codes then enable it. Codes that a later
Control sets do not make it follow (DESIGN CHOICE, log 42). -/
def State.finishTerminal (s : State) (u : Fin 11) (host : Bool) : State :=
  s.finishUnit u (((s.unit u).ush &&& ~~~(busyBits u.val)) ||| bitOutputComplete)
    ((s.terminalOf host).codes &&& bitOutputComplete != 0)

/-- A unit completes the operation it has in progress; without one nothing happens. -/
def State.complete (s : State) (u : Fin 11) (columns : List (BitVec 12)) (checkFails lastCard : Bool) : State :=
  match (s.unit u).operation with
  | none => s
  | some o =>
    if u.val = unitDisk then s.finishDisk u o checkFails
    else if u.val = unitCard then s.finishCard u o columns checkFails lastCard
    else s.finishTerminal u (u.val == unitHostTerminal)

/-- Halfword `k` of the data, with the value `v`, is moved. -/
def State.noteMoved (s : State) (u : Fin 11) (o : Operation) (k : Nat) (v : Word) : State :=
  s.setUnit u { s.unit u with operation := some { o with moved := (k, v) :: o.moved } }

/-- A unit moves halfword `k` of its buffer before it completes (R61): a disk takes it from memory or, like the card reader,
stores it there. Each halfword is moved once. -/
def State.transferEarly (s : State) (u : Fin 11) (k : Nat) (column : BitVec 12) : State :=
  match (s.unit u).operation with
  | none => s
  | some o =>
    if o.tooLong || !decide (k < o.count) || (o.moved.lookup k).isSome then s
    else if u.val = unitDisk && o.iocc.op == opInitiateWrite then s.noteMoved u o k (s.readHalf (o.place k))
    else if u.val = unitDisk && o.iocc.op == opInitiateRead then
      let v := (s.sectorData o.iocc.modifier.toNat o.count).getD k 0
      (s.writeHalf (o.place k) v).noteMoved u o k v
    else if u.val = unitCard then (s.writeHalf (o.place k) (columnHalf column)).noteMoved u o k (columnHalf column)
    else s

/-- Whether an event only moves a unit's data, and does nothing else that the CPU could notice, so that it may fall among a turn's
numbered accesses. -/
def Event.onlyMoves : Event → Bool
  | .transfer .. | .memoryWrite .. => true
  | _ => false

/-- What such an event does. -/
def State.move (s : State) : Event → State
  | .transfer u k column => s.transferEarly u k column
  | .memoryWrite a bytes => s.writeBytes a bytes
  | _ => s

end Sys2Proof.Machine
end

