-- ==== Sys2Proof/Machine/Channel.lean ====
section
/-! DEFINITION. The S/360 interface (R422 to R427) and its instructions EXCC, TRB and SS (R385 to R387). The offsets of the UCB
fields and the channel's part are opaque constants of Config (logs 38 and 39). -/

namespace Sys2Proof.Machine

/-- The table cell of S/360 device `d` (R412). -/
def channelEntry (d : Reg) : Word := 0x46 + 2 * d.setWidth 16

/-- Privilege, then the device number (0 to 3, R423), then the UCB pointer (R385, R415), read number 0 (log 50), to go on with. -/
def withDevice (ilc : BitVec 2) (d : Reg) (s : State) (k : Word → Result) : Result :=
  whenPrivileged ilc s
    (if 4 ≤ d.toNat then .refused (.undefinedDevice d)
     else if !ucbValid ((s.seenAt 0).readHalf (channelEntry d)) then raiseProgram ilc .invalidUcbAddress s
     else k ((s.seenAt 0).readHalf (channelEntry d)))

/-- How a transfer ends (R385): successful, Bus-Out Check, Stop, Halt I/O. -/
inductive Ending where
  | successful | busOutCheck | stop | halt
  deriving DecidableEq, Repr

/-- The ending the channel gives, free (log 39). -/
def endingOf (n : Nat) : Ending :=
  match Config.channelEnding n with
  | 0#2 => .successful
  | 1#2 => .busOutCheck
  | 2#2 => .stop
  | _ => .halt

/-- How many bytes are moved: all on success, else freely no more than the count (log 39). -/
def transferLength (e : Ending) (count n : Nat) : Nat :=
  match e with
  | .successful => count
  | _ => min count (Config.channelLength n)

/-- The condition code of an ending (R385). -/
def Ending.cc : Ending → CcWrite
  | .successful | .busOutCheck => .all true false false
  | .stop => .all false true false
  | .halt => .all false false true

/-- Bytes from the channel, free (log 39). -/
def channelBytes (count : Nat) : Nat → List Byte
  | 0 => []
  | n + 1 => Config.channelByte count :: channelBytes (count + 1) n

/-- Bytes sent to the channel. -/
def State.sendData (s : State) (d : Reg) (bs : List Byte) : State :=
  { s with outputs := s.outputs ++ bs.map (Output.channelData d) }

/-- A transfer of `n` bytes at `a`: bit 7 of the command says from the S/360 or to it (R385), each byte then a read of its own, the
first number `i` (log 50). -/
def State.transfer (s : State) (i : Nat) (d : Reg) (command : Byte) (a : Word) (n : Nat) : State :=
  if command.getLsbD 0 then s.writeBytes a (channelBytes s.freeCount n) else s.sendData d (s.readEach i 1 a n)

/-- A Bus-Out Check is recorded in bit 2 of Sense Byte 0 and bit 6 of the current status (R385). -/
def State.recordEnding (s : State) (p : Word) (e : Ending) : State :=
  if e = .busOutCheck then (s.orByte (p + Config.ucbSense) 0x20).orByte (p + Config.ucbStatus) 0x02 else s

/-- The Final Data Address after `n` bytes from `a` on: the last byte's plus 1 (R385). Where none is transferred there is no last
byte, and the address is free (DESIGN CHOICE, log 39). -/
def finalAddress (a : Word) (n count : Nat) : Word := if n = 0 then Config.freeWord count else a + BitVec.ofNat 16 n

/-- EXCC (R385). R2 is ignored. -/
def execExcc (r1 _r2 : Reg) (s : State) : Result :=
  withDevice 1 r1 s fun p =>
    let a := (s.seenAt 1).readHalf (p + Config.ucbDataAddress)
    let count := (s.seenAt 2).readHalf (p + Config.ucbCount)
    let e := endingOf s.freeCount
    let n := transferLength e count.toNat s.freeCount
    let t := s.transfer 4 r1 ((s.seenAt 3).byteAt (p + Config.ucbCommand)) a n
    let u := (t.writeHalf (p + Config.ucbFinalAddress) (finalAddress a n s.freeCount)).writeHalf (p + Config.ucbResidual)
      (count - BitVec.ofNat 16 n)
    .next (((u.recordEnding p e).setCc e.cc).consume (n + 1))

/-- TRB (R386): one byte, at the operand address; the address and residual fields stay. -/
def execTrb (r1 x2 b2 : Reg) (d2 : Disp) (s : State) : Result :=
  withDevice 2 r1 s fun p =>
    let e := endingOf s.freeCount
    let n := transferLength e 1 s.freeCount
    let t := s.transfer 2 r1 ((s.seenAt 1).byteAt (p + Config.ucbCommand)) (s.eaRX x2 b2 d2) n
    .next (((t.recordEnding p e).setCc e.cc).consume (n + 1))

/-- The channel's answer to a status byte (R387), free (log 39): accepted; suppressed or stacked, and then kept in the current
status field; Halt I/O, and then freely kept or not. A status taken from the field stays there when it is accepted: whether it
is reset is not said (N12; DESIGN CHOICE, log 39). -/
def State.presentStatus (s : State) (d : Reg) (p : Word) (status : Byte) : State :=
  let t := (s.send (.channelStatus d status)).consume 1
  let kept := t.setByte (p + Config.ucbStatus) status
  match Config.channelAnswer s.freeCount with
  | 0#2 => t.setCc (.all true false false)
  | 1#2 => kept.setCc (.all false true false)
  | 2#2 => kept.setCc (.all false false true)
  | _ => t.setCc (.all false false true)

/-- SS (R387): the status is the low byte of an address that is not 0, or else the current status field. -/
def execSs (r1 x2 b2 : Reg) (d2 : Disp) (s : State) : Result :=
  withDevice 2 r1 s fun p =>
    let a := s.eaRX x2 b2 d2
    let status := if a ≠ 0 then lowByte a else s.byteAt (p + Config.ucbStatus)
    if a = 0 ∧ status = 0 then .next (s.setCc (.all true false false)) else .next (s.presentStatus r1 p status)

/-! ## Initial selection -/

/-- The selection has been answered with a status byte. -/
def State.selected (s : State) (d : Reg) (status : Byte) : State :=
  ({ s with interface := { s.interface with selection := none } }).send (.initialStatus d status)

/-- S/360 interrupt codes, with bit 2 and bit 0 on (R424, decision D22). -/
def selectCode (d : Reg) : Word := 0x2000 ||| d.setWidth 16
def invalidSelectCode (d : Reg) : Word := 0x8000 ||| d.setWidth 16

/-- The S/360 interrupt of an initial selection; an instruction read ahead is dropped (R64). -/
def State.selectInterrupt (s : State) (code : Word) : State := { s.asynchronousInterrupt .s360 code with nsi := none }

/-- The firmware's answer to an initial selection (R424). -/
def handleSelection (x : Selection) (s : State) : Result :=
  let d := x.device
  let p := (s.seenAt 0).readHalf (channelEntry d)
  let status := (s.seenAt 1).byteAt (p + Config.ucbStatus)
  if 4 ≤ d.toNat then .refused (.undefinedDevice d)
  else if x.command = 0 then
    if ucbValid p then
      let left := if Config.freeBit s.freeCount then status &&& Config.statusBusy else 0
      .next (((s.consume 1).setByte (p + Config.ucbStatus) left).selected d status)
    else .next (s.selected d Config.statusBusy)
  else if !s.selectEnabled then .next (s.selected d Config.statusBusy)
  else if !ucbValid p then
    .next ((s.selected d Config.statusUnitException).selectInterrupt (invalidSelectCode d))
  else if status ≠ 0 then
    .next ((s.setByte (p + Config.ucbStatus) 0).selected d (status ||| Config.statusBusy))
  else
    .next (((s.setByte (p + Config.ucbCommand) x.command).selected d
      (s.byteAt (p + Config.ucbStatusTable + x.command.setWidth 16))).selectInterrupt (selectCode d))

end Sys2Proof.Machine
end

