-- ==== Sys2Proof/Machine/Io.lean ====
section
/-! DEFINITION. The local input/output instructions SIO and SIOR, and IOST (49_status_switching_io.md, R380 to R388). -/

namespace Sys2Proof.Machine

/-- The table cell of local unit `u` (R412). -/
def ucbtEntry (u : BitVec 4) : Word := 0x30 + 2 * u.setWidth 16

/-- The installed unit with this address, if there is one (R414). -/
def installedUnit (u : BitVec 4) : Option (Fin 11) :=
  if h : u.toNat < 11 then (if u.toNat ∈ Config.installed then some ⟨u.toNat, h⟩ else none) else none

/-- The Invalid Unit Address interrupt: the unit address goes to location 50 first (R414). -/
def raiseInvalidUnit (ilc : BitVec 2) (u : BitVec 4) (s : State) : Result :=
  raiseProgram ilc .invalidUnitAddress (s.writeHalf 0x50 (u.setWidth 16))

/-- The unit's status is sensed and stored in the UCB at `p`, and the condition code set (R384). -/
def State.answer (s : State) (u : Fin 11) (p : Word) (c : CcWrite) : State :=
  (s.writeHalf (p + 2) (s.sensed u)).setCc c

/-- The three answers of a unit (R384): busy or offline, operating, complete. -/
def ccBusy : CcWrite := .all true false false
def ccOperating : CcWrite := .all false true false
def ccComplete : CcWrite := .all false false true

/-- The unit's response to a command (R384): the No Operation completes at once in any case (R420); a busy or offline unit
does nothing else. The count halfword of a buffer is read here, at the SIO: when a unit reads it the spec does not say (R61;
DESIGN CHOICE, log 36). -/
def respond (u : Fin 11) (p : Word) (c : Iocc) (k : Command) (s : State) : Result :=
  if k = .nop then .next ((s.perform u c k).answer u p ccComplete)
  else if (s.unit u).offline || (s.unit u).operation.isSome then .next (s.answer u p ccBusy)
  else if k.begins then
    let n := bufferCount k (s.readHalf c.address)
    if countUnpredictable k n then .refused .unpredictableTransfer
    else .next ((s.begin u c k n).answer u p ccOperating)
  else .next ((s.perform u c k).answer u p ccComplete)

/-- The SIO operation (R384) on the IOCC in two halfwords, its reads number 0 and 1 (log 50). An odd address field is found after the
two UCB checks, where R384's pseudocode has that check, though decision D24 and R400 have Alignment before them: one that is odd
beside an invalid UCB or unit address takes their interrupts (DESIGN CHOICE, log 29). -/
def startIo (ilc : BitVec 2) (w0 w1 : Word) (s : State) : Result :=
  let c := ioccOf w0 w1
  let p := (s.seenAt 2).readHalf (ucbtEntry c.unit)
  if !ucbValid p then raiseProgram ilc .invalidUcbAddress s
  else
    match installedUnit c.unit with
    | none => raiseInvalidUnit ilc c.unit s
    | some u =>
      if (s.seenAt 3).readHalf p ≠ c.unit.setWidth 16 then raiseInvalidUnit ilc c.unit s
      else
        match commandOf c with
        | none => .refused .undefinedIocc
        | some k =>
          if k.usesMemory && odd c.address then raiseProgram ilc .alignment s else respond u p c k s

/-- SIOR (R381): the IOCC is in two registers. -/
def execSior (r1 r2 : Reg) (s : State) : Result := whenPrivileged 1 s (startIo 1 (s.reg r1) (s.reg r2) s)

/-- SIO (R382): the IOCC is in memory; R1 is ignored. -/
def execSio (_r1 x2 b2 : Reg) (d2 : Disp) (s : State) : Result :=
  whenPrivileged 2 s
    (withHalfAt 0 2 (s.eaRX x2 b2 d2) s fun w0 => startIo 2 w0 ((s.seenAt 1).readHalf (s.eaRX x2 b2 d2 + 2)) s)

/-- What S and T hold when read is the channel's (R42, R388): a free value, which they then hold (log 40). -/
def State.sensedS (s : State) : Word := Config.interfaceS s.freeCount
def State.sensedT (s : State) : Word := Config.interfaceT s.freeCount

/-- IOST (R388): the low two bits of R2 choose the register and the direction. -/
def execIost (r1 r2 : Reg) (s : State) : Result :=
  whenPrivileged 1 s
    (match r2.extractLsb' 0 2 with
     | 0#2 => .next (({ s.consume 1 with interface := { s.interface with sReg := s.sensedS } }).setReg r1 s.sensedS)
     | 1#2 => .next (({ s with interface := { s.interface with sReg := s.reg r1 } }).send (.interfaceS (s.reg r1)))
     | 2#2 => .next (({ s.consume 1 with interface := { s.interface with tReg := s.sensedT } }).setReg r1 s.sensedT)
     | _ => .next (({ s with interface := { s.interface with tReg := s.reg r1 } }).send (.interfaceT (s.reg r1))))

end Sys2Proof.Machine
end

