-- ==== Sys2Proof/Machine/Load.lean ====
section
/-! DEFINITION. The load instructions (40_load.md, R101 to R122). -/

namespace Sys2Proof.Machine

/-- LR (R102). -/
def execLr (r1 r2 : Reg) (s : State) : Result := .next (s.setReg r1 (s.reg r2))

/-- LX (R103): R2 is a hex digit. -/
def execLx (r1 r2 : Reg) (s : State) : Result := .next (s.setReg r1 (digit r2))

/-- LDR (R104): R2 is a register operand, so a field of 0 takes the MSR's contents as the address (U3, log 5). -/
def execLdr (r1 r2 : Reg) (s : State) : Result :=
  withHalf 1 (s.reg r2) s fun v => .next (s.setReg r1 v)

/-- LI (R105): R1F is ignored. -/
def execLi (r1s _r1f : Reg) (i2 : Word) (s : State) : Result := .next (s.setReg r1s i2)

/-- LDI (R106): the immediate is the operand's address; R1F is ignored. -/
def execLdi (r1s _r1f : Reg) (i2 : Word) (s : State) : Result :=
  withHalf 2 i2 s fun v => .next (s.setReg r1s v)

/-- L (R107). -/
def execL (r1 x2 b2 : Reg) (d2 : Disp) (s : State) : Result :=
  withHalf 2 (s.eaRX x2 b2 d2) s fun v => .next (s.setReg r1 v)

/-- LD (R108): one more level of indirection. -/
def execLd (r1 x2 b2 : Reg) (d2 : Disp) (s : State) : Result :=
  withHalfAt 0 2 (s.eaRX x2 b2 d2) s fun a => withHalf 2 a s fun v => .next (s.setReg r1 v)

/-- LSB (R109): the byte's sign is propagated. -/
def execLsb (r1 x2 b2 : Reg) (d2 : Disp) (s : State) : Result :=
  .next (s.setReg r1 (signExtended (s.byteAt (s.eaRX x2 b2 d2))))

/-- LZ (R110): the address is computed once, before R1 is written. -/
def execLz (r1 x2 b2 : Reg) (d2 : Disp) (s : State) : Result :=
  withHalf 2 (s.eaRX x2 b2 d2) s fun v => .next ((s.setReg r1 v).writeHalf (s.eaRX x2 b2 d2) 0)

/-- The end of load complement and load positive: C1 is the overflow (R111, R113, R121). -/
def loadSigned (ilc : BitVec 2) (r1 : Reg) (v r : Word) (s : State) : Result :=
  let ovf := complementOverflows v
  overflowProcedure ilc ovf (.c1Only ovf) s (s.result r1 r (.c1Only ovf))

/-- LCR (R111). -/
def execLcr (r1 r2 : Reg) (s : State) : Result := loadSigned 1 r1 (s.reg r2) (complement (s.reg r2)) s

/-- LC (R112). -/
def execLc (r1 x2 b2 : Reg) (d2 : Disp) (s : State) : Result :=
  withHalf 2 (s.eaRX x2 b2 d2) s fun v => loadSigned 2 r1 v (complement v) s

/-- LPR (R113). -/
def execLpr (r1 r2 : Reg) (s : State) : Result := loadSigned 1 r1 (s.reg r2) (positive (s.reg r2)) s

/-- LP (R114). -/
def execLp (r1 x2 b2 : Reg) (d2 : Disp) (s : State) : Result :=
  withHalf 2 (s.eaRX x2 b2 d2) s fun v => loadSigned 2 r1 v (positive v) s

/-- LNR (R115). -/
def execLnr (r1 r2 : Reg) (s : State) : Result := .next (s.setReg r1 (negative (s.reg r2)))

/-- LN (R116). -/
def execLn (r1 x2 b2 : Reg) (d2 : Disp) (s : State) : Result :=
  withHalf 2 (s.eaRX x2 b2 d2) s fun v => .next (s.setReg r1 (negative v))

/-- LM (R117). -/
def execLm (r1 r3 b2 : Reg) (d2 : Disp) (s : State) : Result :=
  aligned 2 (s.ea b2 d2) s (.next (s.loadMultiple r1 r3 (s.ea b2 d2)))

/-- LMD (R118): the operand halfword is the address. -/
def execLmd (r1 r3 b2 : Reg) (d2 : Disp) (s : State) : Result :=
  withHalfAt 0 2 (s.ea b2 d2) s fun p => aligned 2 p s (.next (s.loadMultiple r1 r3 p))

end Sys2Proof.Machine
end

