-- ==== Sys2Proof/Machine/MulDiv.lean ====
section
/-! DEFINITION. Multiply, divide and convert (42_multiply_divide_convert.md, R161 to R175). -/

namespace Sys2Proof.Machine

/-- The product into a register and the following one (R161). -/
def multiplyRegisters (r1 : Reg) (a b : Word) (s : State) : Result :=
  .next (s.writeWithCc [(r1, highHalf (product a b)), (r1 + 1, lowHalf (product a b))] (.c1Only (productLarge a b)))

/-- MR (R163). -/
def execMr (r1 r2 : Reg) (s : State) : Result :=
  pairRegister 1 r1 s (multiplyRegisters r1 (s.reg r1) (s.reg r2) s)

/-- MI (R164): only R1S names a pair. -/
def execMi (r1s r1f : Reg) (i2 : Word) (s : State) : Result :=
  pairRegister 2 r1s s (multiplyRegisters r1s (s.reg r1f) i2 s)

/-- M (R165). -/
def execM (r1 x2 b2 : Reg) (d2 : Disp) (s : State) : Result :=
  pairRegister 2 r1 s (withHalf 2 (s.eaRX x2 b2 d2) s fun b => multiplyRegisters r1 (s.reg r1) b s)

/-- MH (R166): the product replaces the first operand halfword and the one after it. -/
def execMh (_i3 : Byte) (b1 : Reg) (d1 : Disp) (b2 : Reg) (d2 : Disp) (s : State) : Result :=
  withHalfAt 0 3 (s.ea b1 d1) s fun a => withHalf 3 (s.ea b2 d2) s fun b =>
    .next ((s.setCc (.c1Only (productLarge a b))).writeHalves (s.ea b1 d1)
      [highHalf (product a b), lowHalf (product a b)])

/-- The divide operation (R167): division by 0, then the overflow of the quotient, then `store` with quotient and remainder,
free where the quotient overflowed and MSR.O is off (U7, log 8). -/
def divide (ilc : BitVec 2) (n : BitVec 32) (d : Word) (s : State) (store : Word → Word → CcWrite → State → State) : Result :=
  if d = 0 then raiseProgram ilc .divisionBy0 s
  else
    let ovf := !fits16 (quotient n d)
    let c := CcWrite.c1Only ovf
    overflowProcedure ilc ovf c s
      (if ovf then store (Config.freeWord s.freeCount) (Config.freeWord (s.freeCount + 1)) c (s.consume 2)
        else store (BitVec.ofInt 16 (quotient n d)) (BitVec.ofInt 16 (remainder n d)) c s)

/-- The quotient goes to a register, the remainder to the following one. -/
def storePair (r1 : Reg) (q r : Word) (c : CcWrite) (s : State) : State := s.writeWithCc [(r1, q), (r1 + 1, r)] c

/-- The quotient goes to a halfword of memory, the remainder to the following one. -/
def storeHalves (a : Word) (q r : Word) (c : CcWrite) (s : State) : State := (s.setCc c).writeHalves a [q, r]

/-- DR (R169). -/
def execDr (r1 r2 : Reg) (s : State) : Result :=
  pairRegister 1 r1 s (divide 1 (s.pairAt r1) (s.reg r2) s (storePair r1))

/-- DI (R170): both fields name pairs. -/
def execDi (r1s r1f : Reg) (i2 : Word) (s : State) : Result :=
  pairRegister 2 r1s s (pairRegister 2 r1f s (divide 2 (s.pairAt r1f) i2 s (storePair r1s)))

/-- D (R171). -/
def execD (r1 x2 b2 : Reg) (d2 : Disp) (s : State) : Result :=
  pairRegister 2 r1 s (withHalf 2 (s.eaRX x2 b2 d2) s fun b => divide 2 (s.pairAt r1) b s (storePair r1))

/-- DH (R172). -/
def execDh (_i3 : Byte) (b1 : Reg) (d1 : Disp) (b2 : Reg) (d2 : Disp) (s : State) : Result :=
  withHalfAt 0 3 (s.ea b1 d1) s fun hi => withHalf 3 (s.ea b2 d2) s fun b =>
    divide 3 (pair hi ((s.seenAt 1).readHalf (s.ea b1 d1 + 2))) b s (storeHalves (s.ea b1 d1))

/-! ## Convert -/

/-- How many bytes CVB's scan may read (R174): as many as come before the last of the units' stores of the turn, and then every address
once. A scan that has not ended by then never ends. -/
def scanBound (s : State) : Nat := s.earlier.length + 65536

/-- The first address from `p` on whose byte is no blank, and the number of its read (log 50), counted from `i`; none if all are
blank. -/
def skipBlanks (s : State) (i : Nat) (p : Word) : Nat → Option (Word × Nat)
  | 0 => none
  | n + 1 => if (s.seenAt i).byteAt p = Config.chBlank then skipBlanks s (i + 1) (p + 1) n else some (p, i)

/-- Whether a byte is a digit character, and the digit (R173). -/
def isDigit (b : Byte) : Bool := decide (Config.chZero.toNat ≤ b.toNat ∧ b.toNat < Config.chZero.toNat + 10)
def digitValue (b : Byte) : Nat := b.toNat - Config.chZero.toNat

/-- What CVB's scan finds: the stopping address, the number before its sign, how many digits. -/
structure Scanned where
  stop : Word
  value : Nat
  digits : Nat
  deriving DecidableEq, Repr

/-- The digits from `p` on, read number `i` the first; none if the scan meets no other byte. -/
def scanDigits (s : State) (i : Nat) (p : Word) (value digits : Nat) : Nat → Option Scanned
  | 0 => none
  | n + 1 =>
    let b := (s.seenAt i).byteAt p
    if isDigit b then scanDigits s (i + 1) (p + 1) (value * 10 + digitValue b) (digits + 1) n
    else some { stop := p, value := value, digits := digits }

/-- CVB's scan: blanks, at most one minus sign, digits (R174, decision D21). Whether it is negative, and what was found. Each byte
is read once, though R174's pseudocode names the read of one byte several times (DESIGN CHOICE, log 50). -/
def scanNumber (s : State) (p : Word) : Option (Bool × Scanned) :=
  match skipBlanks s 0 p (scanBound s) with
  | none => none
  | some (q, i) =>
    let neg := (s.seenAt i).byteAt q == Config.chMinus
    (scanDigits s (if neg then i + 1 else i) (if neg then q + 1 else q) 0 0 (scanBound s)).map fun f => (neg, f)

/-- The number with its sign. -/
def signedValue (neg : Bool) (n : Nat) : Int := if neg then -(n : Int) else n

/-- CVB's effect once the scan has stopped (R174). R1 is free where no digit was found (U5), after an overflow not masked in
(U6), and where R1 is register 2, which also receives the address (U8); log 7. -/
def convertFound (r1 : Reg) (neg : Bool) (f : Scanned) (s : State) : Result :=
  let v := signedValue neg f.value
  let free := Config.freeWord s.freeCount
  if f.digits = 0 then
    .next ((s.consume 1).writeWithCc [(2, f.stop), (r1, free)] (.all true false false))
  else if fits16 v then
    .next ((s.consume 1).writeWithCc [(2, f.stop), (r1, if r1 = 2 then free else BitVec.ofInt 16 v)]
      (.all false false true))
  else if s.overflowMask then
    raiseProgram 2 .conversionOverflow ((s.setReg 2 f.stop).setCc (.all false true false))
  else .next ((s.consume 1).writeWithCc [(2, f.stop), (r1, free)] (.all false true false))

/-- CVB (R174). A scan that meets no stopping byte, neither in memory nor by a unit's store among its reads, never ends, of which R174
says nothing: the model faults (DESIGN CHOICE, log 7). -/
def execCvb (r1 x2 b2 : Reg) (d2 : Disp) (s : State) : Result :=
  match scanNumber s (s.eaRX x2 b2 d2) with
  | some f => convertFound r1 f.1 f.2 s
  | none => .fault .endlessConversion

/-- The decimal digits of a number below 100000, as EBCDIC characters, without leading zeros; "0" for 0 (R175). -/
def decimalDigits (m : Nat) : List Byte :=
  let all := [m / 10000 % 10, m / 1000 % 10, m / 100 % 10, m / 10 % 10]
  (all.dropWhile (fun d => d == 0) ++ [m % 10]).map (fun d => BitVec.ofNat 8 (Config.chZero.toNat + d))

/-- CVD's string: a minus sign where the number is negative, and the digits (R175). -/
def decimalString (v : Word) : List Byte :=
  (if v.toInt < 0 then [Config.chMinus] else []) ++ decimalDigits v.toInt.natAbs

/-- CVD's six bytes: blanks, then the string (R175). -/
def decimalField (v : Word) : List Byte :=
  List.replicate (6 - (decimalString v).length) Config.chBlank ++ decimalString v

/-- CVD (R175). -/
def execCvd (r1 x2 b2 : Reg) (d2 : Disp) (s : State) : Result :=
  let a := s.eaRX x2 b2 d2
  let n := BitVec.ofNat 16 (decimalString (s.reg r1)).length
  .next (((s.writeBytes a (decimalField (s.reg r1))).setReg 2 (a + 6 - n)).setReg 3 n)

end Sys2Proof.Machine
end

