-- ==== Sys2Proof/Machine/ScanOut.lean ====
section
/-! DEFINITION. The Operation interrupt and its scan-out area (R404, R405). -/

namespace Sys2Proof.Machine

/-- A register number times four, as the scan-out area holds it (R405). -/
def fourTimes (r : Reg) : Word := 4 * r.setWidth 16

/-- The five halfwords of the scan-out area by format (R405). Blank cells are free (U19, log 17): `blank k` is the `k`-th. -/
def scanOut (s : State) (blank : Nat → Word) (h0 h1 h2 : Word) : List Word :=
  let r1 := field1 h0
  let r2 := field2 h0
  let b1 := baseField h1
  let d1 := dispField h1
  let b2 := baseField h2
  let d2 := dispField h2
  match Format.ofOp (opOf h0) with
  | .rr => [h0, blank 0, fourTimes r1, fourTimes r2, blank 1]
  | .ri => [h0, blank 0, fourTimes r1, blank 1, h1]
  | .rs => [h0, blank 0, fourTimes r1, s.ea b1 d1, blank 1]
  | .rx => [h0, blank 0, fourTimes r1, s.eaRX r2 b1 d1, blank 1]
  | .bx => [h0, blank 0, fourTimes r1, s.branchBX r2 h1, blank 1]
  | .si => [h0, blank 0, s.ea b1 d1, blank 1, zeroExtended (byteField h0)]
  | .fss => [h0, blank 0, s.ea b1 d1, s.ea b2 d2, blank 1]
  | .vss => [h0, zeroExtended (byteField h0), s.ea b1 d1, s.ea b2 d2, blank 0]
  | .vssLong => [h0, s.reg r2, s.ea b1 d1, s.ea b2 d2, blank 0]

/-- The length field of an instruction of a format, which is its ILC (R73, R96). -/
def Format.ilc (f : Format) : BitVec 2 := BitVec.ofNat 2 f.halfwords

/-- The Operation interrupt of an unassigned operation code: the scan-out area at 52 to 5B is written first (R404, R405). -/
def State.operationInterrupt (s : State) (h0 h1 h2 : Word) : State :=
  let t := s.writeHalves 0x52 (scanOut s (fun k => Config.freeWord (s.freeCount + k)) h0 h1 h2)
  (t.consume 2).programInterrupt (Format.ilc (Format.ofOp (opOf h0))) .operation

end Sys2Proof.Machine
end

