-- ==== Sys2Proof/Machine/Shift.lean ====
section
/-! DEFINITION. The algebraic shifts and SD (44_arithmetic_shift.md, R196 to R213), and the logical shifts
(46_byte_address_translate_scan_shift.md, R300 to R310). -/

namespace Sys2Proof.Machine

/-- C2 after a shift: the last bit shifted out, free where none was (U9, log 9). -/
def shiftedOut (out : Option Bool) (s : State) : Bool := out.getD (Config.freeBit s.freeCount)

/-- The registers a single or double shift writes. -/
def singleResult (r1 : Reg) (v : Word) : List (Reg × Word) := [(r1, v)]
def doubleResult (r1 : Reg) (v : BitVec 32) : List (Reg × Word) := [(r1, highHalf v), (r1 + 1, lowHalf v)]

/-- The end of a left algebraic shift: C1 the overflow, C2, and the overflow procedure (R197). Both are written also where the
interrupt is taken, as R197 has it, though R447 speaks of C1 only (log 51). -/
def finishLeftAlgebraic {w : Nat} (ilc : BitVec 2) (ws : BitVec w → List (Reg × Word)) (h : Shifted w) (s : State) : Result :=
  let c := CcWrite.c1c2 h.overflow (shiftedOut h.out s)
  overflowProcedure ilc h.overflow c (s.consume 1) ((s.consume 1).writeWithCc (ws h.value) c)

/-- The end of any other shift: only C2 is written (R198, R301). -/
def finishShift {w : Nat} (ws : BitVec w → List (Reg × Word)) (h : Shifted w) (s : State) : Result :=
  .next ((s.consume 1).writeWithCc (ws h.value) (.c2Only (shiftedOut h.out s)))

/-- SLAI (R202). -/
def execSlai (r1 r2 : Reg) (s : State) : Result :=
  finishLeftAlgebraic 1 (singleResult r1) (shiftLeftAlgebraic (unshifted (s.reg r1)) r2.toNat) s

/-- SLA (R203). R3 is ignored. -/
def execSla (r1 _r3 b2 : Reg) (d2 : Disp) (s : State) : Result :=
  finishLeftAlgebraic 2 (singleResult r1) (shiftLeftAlgebraic (unshifted (s.reg r1)) (s.rsCount b2 d2)) s

/-- SRAI (R204). -/
def execSrai (r1 r2 : Reg) (s : State) : Result :=
  finishShift (singleResult r1) (shiftRightAlgebraic (unshifted (s.reg r1)) r2.toNat) s

/-- SRA (R205). -/
def execSra (r1 _r3 b2 : Reg) (d2 : Disp) (s : State) : Result :=
  finishShift (singleResult r1) (shiftRightAlgebraic (unshifted (s.reg r1)) (s.rsCount b2 d2)) s

/-- SLDAI (R206). -/
def execSldai (r1 r2 : Reg) (s : State) : Result :=
  pairRegister 1 r1 s
    (finishLeftAlgebraic 1 (doubleResult r1) (shiftLeftAlgebraic (unshifted (s.pairAt r1)) r2.toNat) s)

/-- SLDA (R207). -/
def execSlda (r1 _r3 b2 : Reg) (d2 : Disp) (s : State) : Result :=
  pairRegister 2 r1 s
    (finishLeftAlgebraic 2 (doubleResult r1) (shiftLeftAlgebraic (unshifted (s.pairAt r1)) (s.rsCount b2 d2)) s)

/-- SRDAI (R208). -/
def execSrdai (r1 r2 : Reg) (s : State) : Result :=
  pairRegister 1 r1 s (finishShift (doubleResult r1) (shiftRightAlgebraic (unshifted (s.pairAt r1)) r2.toNat) s)

/-- SRDA (R209). -/
def execSrda (r1 _r3 b2 : Reg) (d2 : Disp) (s : State) : Result :=
  pairRegister 2 r1 s (finishShift (doubleResult r1) (shiftRightAlgebraic (unshifted (s.pairAt r1)) (s.rsCount b2 d2)) s)

/-- SD (R213): sign extension of R1 into the pair; C2 is the old bit 0 of the following register. R2 is ignored. -/
def execSd (r1 _r2 : Reg) (s : State) : Result :=
  pairRegister 1 r1 s
    (.next (s.writeWithCc (doubleResult r1 ((s.reg r1).signExtend 32)) (.c2Only (s.reg (r1 + 1)).msb)))

/-- SLLI (R303). -/
def execSlli (r1 r2 : Reg) (s : State) : Result :=
  finishShift (singleResult r1) (shiftLeftLogical (unshifted (s.reg r1)) r2.toNat) s

/-- SLL (R304). -/
def execSll (r1 _r3 b2 : Reg) (d2 : Disp) (s : State) : Result :=
  finishShift (singleResult r1) (shiftLeftLogical (unshifted (s.reg r1)) (s.rsCount b2 d2)) s

/-- SRLI (R305). -/
def execSrli (r1 r2 : Reg) (s : State) : Result :=
  finishShift (singleResult r1) (shiftRightLogical (unshifted (s.reg r1)) r2.toNat) s

/-- SRL (R306). -/
def execSrl (r1 _r3 b2 : Reg) (d2 : Disp) (s : State) : Result :=
  finishShift (singleResult r1) (shiftRightLogical (unshifted (s.reg r1)) (s.rsCount b2 d2)) s

/-- SLDLI (R307). -/
def execSldli (r1 r2 : Reg) (s : State) : Result :=
  pairRegister 1 r1 s (finishShift (doubleResult r1) (shiftLeftLogical (unshifted (s.pairAt r1)) r2.toNat) s)

/-- SLDL (R308). -/
def execSldl (r1 _r3 b2 : Reg) (d2 : Disp) (s : State) : Result :=
  pairRegister 2 r1 s (finishShift (doubleResult r1) (shiftLeftLogical (unshifted (s.pairAt r1)) (s.rsCount b2 d2)) s)

/-- SRDLI (R309). -/
def execSrdli (r1 r2 : Reg) (s : State) : Result :=
  pairRegister 1 r1 s (finishShift (doubleResult r1) (shiftRightLogical (unshifted (s.pairAt r1)) r2.toNat) s)

/-- SRDL (R310). -/
def execSrdl (r1 _r3 b2 : Reg) (d2 : Disp) (s : State) : Result :=
  pairRegister 2 r1 s (finishShift (doubleResult r1) (shiftRightLogical (unshifted (s.pairAt r1)) (s.rsCount b2 d2)) s)

end Sys2Proof.Machine
end

