-- ==== Sys2Proof/Machine/StackList.lean ====
section
/-! DEFINITION. Stack and linked-list instructions (47_stack_linked_list.md, R311 to R331). -/

namespace Sys2Proof.Machine

/-! ## Stacks -/

/-- Whether pushing `m` halfwords would pass the limit (R312), compared without wrap (R322, decision D25). -/
def pushExceeds (top limit : Word) (m : Nat) : Bool := decide (limit.toNat < top.toNat + 2 * m)

/-- Whether fewer than `m` halfwords stand between the stack's address and its top (R317). -/
def popExceeds (top base : Word) (m : Nat) : Bool := decide (top.toNat + 2 < base.toNat + 2 * m)

/-- What the stack instructions do when the check fails: C1 is set, and the interrupt taken where MSR.S is on (R312, R317);
nothing is pushed or popped (decision D14, log 26). -/
def stackCheckFails (ilc : BitVec 2) (code : ProgramCode) (s : State) : Result :=
  let t := s.setCc (.c1Only true)
  if s.stackMask then raiseProgram ilc code t else .next t

/-- A top pointer moved up, and down, by `m` halfwords. -/
def raisedTop (top : Word) (m : Nat) : Word := top + 2 * BitVec.ofNat 16 m
def loweredTop (top : Word) (m : Nat) : Word := top - 2 * BitVec.ofNat 16 m

/-- The push check, then `k` from the top (R312). -/
def pushChecked (ilc : BitVec 2) (sdb : Word) (m : Nat) (s : State) (k : Word → Result) : Result :=
  withHalfAt 0 ilc sdb s fun top => aligned ilc top s
    (if pushExceeds top ((s.seenAt 1).readHalf (sdb + 4)) m then stackCheckFails ilc .stackOverflow s else k top)

/-- The pop check, then `k` from the top (R317). -/
def popChecked (ilc : BitVec 2) (sdb : Word) (m : Nat) (s : State) (k : Word → Result) : Result :=
  withHalfAt 0 ilc sdb s fun top => aligned ilc top s
    (if popExceeds top ((s.seenAt 1).readHalf (sdb + 2)) m then stackCheckFails ilc .stackUnderflow s else k top)

/-- PSHM (R313): the registers are read before C1 is written. -/
def execPshm (r1 r3 b2 : Reg) (d2 : Disp) (s : State) : Result :=
  let sdb := s.ea b2 d2
  let m := rangeCount r1 r3
  pushChecked 2 sdb m s fun top =>
    .next (((s.setCc (.c1Only false)).writeHalves (top + 2) ((regRange r1 m).map s.reg)).writeHalf sdb (raisedTop top m))

/-- A halfword copied: the read of what stands at `src` and its store, which the turn's list of accesses remembers (log 50). -/
def State.copyHalf (s : State) (dst src : Word) : State :=
  { s.writeHalf dst (s.readHalf src) with
    wrote :=
      .store [{ addr := dst, old := s.byteAt dst, new := s.byteAt src, source := some src },
        { addr := dst + 1, old := s.byteAt (dst + 1), new := s.byteAt (src + 1), source := some (src + 1) }] ::
      .read [(src, s.byteAt src), (src + 1, s.byteAt (src + 1))] :: s.wrote }

/-- Halfwords copied one after the other, each read before the next is stored (R316, R321). -/
def State.copyHalves (s : State) (dst src : Word) : Nat → State
  | 0 => s
  | n + 1 => (s.copyHalf dst src).copyHalves (dst + 2) (src + 2) n

/-- Bytes as halfwords, an odd count rounded up (R316). -/
def halfwordCount (len : Nat) : Nat := (len + 1) / 2

/-- The push-halfwords operation (R316). -/
def pushHalfwords (a1 sdb : Word) (len : Nat) (s : State) : Result :=
  let m := halfwordCount len
  aligned 3 a1 s (pushChecked 3 sdb m s fun top =>
    .next (((s.setCc (.c1Only false)).copyHalves (top + 2) a1 m).writeHalf sdb (raisedTop top m)))

/-- PSHH (R314). -/
def execPshh (len : Byte) (b1 : Reg) (d1 : Disp) (b2 : Reg) (d2 : Disp) (s : State) : Result :=
  pushHalfwords (s.ea b1 d1) (s.ea b2 d2) (shortLength len) s

/-- PSHHL (R315). -/
def execPshhl (_u rl b1 : Reg) (d1 : Disp) (b2 : Reg) (d2 : Disp) (s : State) : Result :=
  pushHalfwords (s.ea b1 d1) (s.ea b2 d2) (s.longLength rl) s

/-- POPM (R318): R3 is loaded from the top halfword, R1 from the lowest of those popped. -/
def execPopm (r1 r3 b2 : Reg) (d2 : Disp) (s : State) : Result :=
  let sdb := s.ea b2 d2
  let m := rangeCount r1 r3
  popChecked 2 sdb m s fun top =>
    .next ((s.writeWithCc ((regRange r1 m).zip (s.readHalves (loweredTop top m + 2) m)) (.c1Only false)).writeHalf
      sdb (loweredTop top m))

/-- The pop-halfwords operation (R321). -/
def popHalfwords (a1 sdb : Word) (len : Nat) (s : State) : Result :=
  let m := halfwordCount len
  aligned 3 a1 s (popChecked 3 sdb m s fun top =>
    .next (((s.setCc (.c1Only false)).copyHalves a1 (loweredTop top m + 2) m).writeHalf sdb (loweredTop top m)))

/-- POPH (R319). -/
def execPoph (len : Byte) (b1 : Reg) (d1 : Disp) (b2 : Reg) (d2 : Disp) (s : State) : Result :=
  popHalfwords (s.ea b1 d1) (s.ea b2 d2) (shortLength len) s

/-- POPHL (R320). -/
def execPophl (_u rl b1 : Reg) (d1 : Disp) (b2 : Reg) (d2 : Disp) (s : State) : Result :=
  popHalfwords (s.ea b1 d1) (s.ea b2 d2) (s.longLength rl) s

/-! ## Search -/

/-- The Entry Descriptor Block (R323): entry length or pointer displacement, key displacement, key length, flag byte. -/
structure Edb where
  first : Word
  keyDisp : Word
  keyLength : Nat
  flags : Byte
  deriving DecidableEq, Repr

/-- The block at an address (R323), by the search's first four reads (log 50). -/
def State.edbAt (s : State) (a : Word) : Edb :=
  { first := (s.seenAt 0).readHalf a, keyDisp := (s.seenAt 1).readHalf (a + 2),
    keyLength := ((s.seenAt 2).readHalf (a + 4)).toNat, flags := (s.seenAt 3).byteAt (a + 6) }

/-- Whether a flag-byte bit is on. -/
def Edb.flag (e : Edb) (bit : Byte) : Bool := e.flags &&& bit != 0

/-- The read that fetches the argument of a test under mask, once and for all (R328): after the block. -/
def argumentRead : Nat := 4

/-- How many reads one entry takes (R328; log 50): its forward pointer, and its key at once, or key and argument byte by byte. -/
def Edb.reads (e : Edb) : Nat := if e.flag Config.edbT then 2 else 2 * e.keyLength + 1

/-- Which of C0, C1, C2 a test of one key comes out as. -/
inductive KeyOutcome where
  | c0 | c1 | c2
  deriving DecidableEq, Repr

/-- A free outcome (U13, log 11). -/
def freeOutcome (n : Nat) : KeyOutcome :=
  if Config.freeBit n then .c0 else if Config.freeBit (n + 1) then .c1 else .c2

/-- The logical compare of the key at `k` with the argument at `a1` (R328), from read number `i` on. -/
def compareKey (s : State) (i : Nat) (k a1 : Word) (len : Nat) : KeyOutcome :=
  match firstUnequal s i k a1 len with
  | none => .c0
  | some (_, x, y) => if (decide (y.toNat < x.toNat)) == Config.srchKeyFirst then .c1 else .c2

/-- The test under mask of the key at `k`, which is one read, number `i`, with the argument at `a1`, which is not fetched again,
as the mask (R328). Keys longer than two bytes are left open where the argument selects any bit (U13): the outcome is free, by the
counter `n` (log 11). -/
def testKey (s : State) (i : Nat) (k a1 : Word) (len n : Nat) : KeyOutcome :=
  let keys := (s.seenAt i).readBytes k len
  let masks := (s.seenAt argumentRead).readBytes a1 len
  let selected := List.zipWith (fun x y => x &&& y) keys masks
  if masks.all (fun m => m == 0) then .c0
  else if 2 < len then freeOutcome n
  else if selected.all (fun b => b == 0) then .c0
  else if selected == masks then .c1
  else .c2

/-- Whether the entry whose key is at `k` matches (R328), from read number `i` on. -/
def keyMatches (e : Edb) (s : State) (i : Nat) (k a1 : Word) (n : Nat) : Bool :=
  match (if e.flag Config.edbT then testKey s i k a1 e.keyLength n else compareKey s i k a1 e.keyLength) with
  | .c0 => e.flag Config.edbC0
  | .c1 => e.flag Config.edbC1
  | .c2 => e.flag Config.edbC2

/-- Where a search has got to: registers 2, 3 and 5 and the condition code it leaves. -/
structure SearchEnd where
  reg2 : Word
  reg3 : Word
  reg5 : Word
  cc : CcWrite
  deriving DecidableEq, Repr

/-- The three endings (R325). -/
def ccFound : CcWrite := .all false false true
def ccCount : CcWrite := .all false true false
def ccNull : CcWrite := .all true false false

/-- The table search (R326): `n` is what is left of the count, `prev` what register 2 holds, `i` the number of the next read. -/
def searchTable (e : Edb) (s : State) (i : Nat) (a1 : Word) (prev cur : Word) : Nat → SearchEnd
  | 0 => { reg2 := prev, reg3 := 0, reg5 := cur, cc := ccCount }
  | n + 1 =>
    if keyMatches e s i (s.reg 4 + cur + e.keyDisp) a1 (s.freeCount + 2 * n) then
      { reg2 := prev, reg3 := BitVec.ofNat 16 (n + 1), reg5 := cur, cc := ccFound }
    else searchTable e s (i + e.reads) a1 cur (cur + e.first) n

/-- The linked-list search (R327); none where a forward pointer lies at an odd address. `r2` and `r5` are what those registers
hold, `p` the relative address of the pointer to follow, `i` the number of the next read. -/
def searchList (e : Edb) (s : State) (i : Nat) (a1 : Word) (r2 r5 p : Word) : Nat → Option SearchEnd
  | 0 => some { reg2 := r2, reg3 := 0, reg5 := r5, cc := ccCount }
  | n + 1 =>
    if odd (s.reg 4 + p) then none
    else
      let f := (s.seenAt i).readHalf (s.reg 4 + p)
      if f = 0 then some { reg2 := r2, reg3 := BitVec.ofNat 16 (n + 1), reg5 := r5, cc := ccNull }
      else if keyMatches e s (i + 1) (s.reg 4 + f + e.keyDisp) a1 (s.freeCount + 2 * n) then
        some { reg2 := p, reg3 := BitVec.ofNat 16 (n + 1), reg5 := f, cc := ccFound }
      else searchList e s (i + e.reads) a1 p f (f + e.first) n

/-- The registers and condition code a search leaves. -/
def State.endSearch (s : State) (h : SearchEnd) : State :=
  (((s.setReg 2 h.reg2).setReg 3 h.reg3).setReg 5 h.reg5).setCc h.cc

/-- SRCH (R325). A count of 0 only sets C1 and register 5; a null first pointer of a list sets register 5 to register 2. -/
def execSrch (_i3 : Byte) (b1 : Reg) (d1 : Disp) (b2 : Reg) (d2 : Disp) (s : State) : Result :=
  aligned 3 (s.ea b2 d2) s
    (let e := s.edbAt (s.ea b2 d2)
     let n := (s.reg 3).toNat
     let t := s.consume (2 * n)
     if n = 0 then .next ((s.setReg 5 (s.reg 2)).setCc ccCount)
     else if e.flag Config.edbList then
       match searchList e s (argumentRead + 1) (s.ea b1 d1) (s.reg 2) (s.reg 2) (s.reg 2) n with
       | some h => .next (t.endSearch h)
       | none => raiseProgram 3 .alignment s
     else .next (t.endSearch (searchTable e s (argumentRead + 1) (s.ea b1 d1) (s.reg 2) (s.reg 2) n)))

/-! ## Enqueue and dequeue -/

/-- ENQ (R330): the first operand address is relative to the area base in register 4. -/
def execEnq (_i3 : Byte) (b1 : Reg) (d1 : Disp) (b2 : Reg) (d2 : Disp) (s : State) : Result :=
  withHalfAt 0 3 (s.ea b2 d2) s fun pdisp =>
    let pa := s.reg 4 + s.reg 2
    let na := s.reg 4 + s.ea b1 d1 + pdisp
    withHalf 3 pa s fun old => aligned 3 na s (.next ((s.writeHalf na old).writeHalf pa (s.ea b1 d1)))

/-- DEQ (R331). R1 is free afterwards (U15, log 13). -/
def execDeq (r1 x2 b2 : Reg) (d2 : Disp) (s : State) : Result :=
  withHalfAt 0 2 (s.eaRX x2 b2 d2) s fun pdisp =>
    let pa := s.reg 4 + s.reg 2
    let free := Config.freeWord s.freeCount
    withHalfAt 1 2 pa s fun f =>
      if f = 0 then .next ((s.consume 1).result r1 free (.c0Only true))
      else withHalf 2 (s.reg 4 + f + pdisp) s fun nxt =>
        .next (((s.consume 1).result r1 free (.c0Only false)).writeHalf pa nxt)

end Sys2Proof.Machine
end

