-- ==== Sys2Proof/Machine/Store.lean ====
section
/-! DEFINITION. Store, move halfword and swap (43_store_move_swap.md, R181 to R193). -/

namespace Sys2Proof.Machine

/-- STDR (R182): R2 of 0 takes the MSR's contents as the address (U3, log 5). -/
def execStdr (r1 r2 : Reg) (s : State) : Result :=
  aligned 1 (s.reg r2) s (.next (s.writeHalf (s.reg r2) (s.reg r1)))

/-- STDI (R183): the register stored is R1F. -/
def execStdi (_r1s r1f : Reg) (i2 : Word) (s : State) : Result :=
  aligned 2 i2 s (.next (s.writeHalf i2 (s.reg r1f)))

/-- ST (R184). -/
def execSt (r1 x2 b2 : Reg) (d2 : Disp) (s : State) : Result :=
  aligned 2 (s.eaRX x2 b2 d2) s (.next (s.writeHalf (s.eaRX x2 b2 d2) (s.reg r1)))

/-- STD (R185). -/
def execStd (r1 x2 b2 : Reg) (d2 : Disp) (s : State) : Result :=
  withHalf 2 (s.eaRX x2 b2 d2) s fun p => aligned 2 p s (.next (s.writeHalf p (s.reg r1)))

/-- The store-multiple operation (R186). -/
def State.storeMultiple (s : State) (r1 r3 : Reg) (a : Word) : State :=
  s.writeHalves a ((regRange r1 (rangeCount r1 r3)).map s.reg)

/-- STM (R187). -/
def execStm (r1 r3 b2 : Reg) (d2 : Disp) (s : State) : Result :=
  aligned 2 (s.ea b2 d2) s (.next (s.storeMultiple r1 r3 (s.ea b2 d2)))

/-- STMD (R188). -/
def execStmd (r1 r3 b2 : Reg) (d2 : Disp) (s : State) : Result :=
  withHalf 2 (s.ea b2 d2) s fun p => aligned 2 p s (.next (s.storeMultiple r1 r3 p))

/-- MVHI (R189): the immediate byte is signed. -/
def execMvhi (i2 : Byte) (b1 : Reg) (d1 : Disp) (s : State) : Result :=
  aligned 2 (s.ea b1 d1) s (.next (s.writeHalf (s.ea b1 d1) (signExtended i2)))

/-- MVH (R190). -/
def execMvh (_i3 : Byte) (b1 : Reg) (d1 : Disp) (b2 : Reg) (d2 : Disp) (s : State) : Result :=
  aligned 3 (s.ea b1 d1) s (withHalf 3 (s.ea b2 d2) s fun v => .next (s.writeHalf (s.ea b1 d1) v))

/-- SWPR (R191). -/
def execSwpr (r1 r2 : Reg) (s : State) : Result := .next ((s.setReg r1 (s.reg r2)).setReg r2 (s.reg r1))

/-- SWP (R192). -/
def execSwp (r1 x2 b2 : Reg) (d2 : Disp) (s : State) : Result :=
  withHalf 2 (s.eaRX x2 b2 d2) s fun v => .next ((s.writeHalf (s.eaRX x2 b2 d2) (s.reg r1)).setReg r1 v)

end Sys2Proof.Machine
end

