-- ==== Sys2Proof/Machine/Strings.lean ====
section
/-! DEFINITION. The instructions that read and store a string byte by byte (45_logical_compare_move_boolean.md, R232, R233, R259;
46_byte_address_translate_scan_shift.md, R280), with the accesses of the units between theirs (R61, log 50). -/

namespace Sys2Proof.Machine

/-! ## One byte after the other -/

/-- The state that the turn's next numbered access finds, without the accesses of the units that come later. -/
def State.rewound (s : State) : State :=
  match s.earlier with
  | [] => s
  | x :: _ => { s with mem := x.mem, units := x.units }

/-- The units' accesses right after the turn's numbered access `i`. -/
def State.fire (s : State) (i : Nat) : State :=
  { (((s.earlier[i]?).map Snapshot.next).getD []).foldl State.move s with wrote := s.wrote }

/-- The same of `n` accesses, number `i` the first. -/
def State.fireFrom (s : State) (i : Nat) : Nat → State
  | 0 => s
  | n + 1 => (s.fire i).fireFrom (i + 1) n

/-- `n` bytes of a string replaced, from byte `j` of the string at `a` on: of each byte one read or `reads` of them, then its store. The
new byte `v j` is a function of the states that its first and its second read find. What is stored is listed. -/
def State.alterBytes (s : State) (reads : Nat) (v : Nat → State → State → Byte) (a : Word) (j : Nat) : Nat → State × List Byte
  | 0 => (s, [])
  | n + 1 =>
    let i := j * (reads + 1)
    let second := s.fire i
    let b := v j s second
    let rest := (((second.fireFrom (i + 1) (reads - 1)).setByte (a + BitVec.ofNat 16 j) b).fire (i + reads)).alterBytes reads v a (j + 1) n
    (rest.1, b :: rest.2)

/-- A string of `len` bytes replaced, and then the accesses of the units that come later. What the instruction stored no unit's access
comes before any more. -/
def State.alterString (s : State) (reads : Nat) (v : Nat → State → State → Byte) (a : Word) (len : Nat) : State × List Byte :=
  let r := s.rewound.alterBytes reads v a 0 len
  let k := len * (reads + 1)
  let t := r.1.fireFrom k (s.earlier.length - k)
  ({ t with wrote := s.wrote, done := t.storedTo, earlier := [] }, r.2)

/-! ## Move -/

/-- MVC and MVCL (R232, R233), each byte read and then stored (log 50); Operand 1 is free where the copy is destructive (U10,
log 10). -/
def moveCharacters (a1 a2 : Word) (len : Nat) (s : State) : Result :=
  if destructive a1 a2 len then .next ((s.consume len).alterString 1 (fun j _ _ => Config.freeByte (s.freeCount + j)) a1 len).1
  else .next (s.alterString 1 (fun j t _ => t.byteAt (a2 + BitVec.ofNat 16 j)) a1 len).1

/-- MVC (R232). -/
def execMvc (len : Byte) (b1 : Reg) (d1 : Disp) (b2 : Reg) (d2 : Disp) (s : State) : Result :=
  moveCharacters (s.ea b1 d1) (s.ea b2 d2) (shortLength len) s

/-- MVCL (R233). -/
def execMvcl (_u rl b1 : Reg) (d1 : Disp) (b2 : Reg) (d2 : Disp) (s : State) : Result :=
  moveCharacters (s.ea b1 d1) (s.ea b2 d2) (s.longLength rl) s

/-! ## AND, OR, exclusive OR -/

/-- Byte `j` of the result of a string Boolean operation (R259), of which two reads find `t` and `u`. Where the fields overlap and do not
coincide, the bytes of Operand 1 that lie in Operand 2 or whose partner lies in Operand 1 are free (U10, log 10). -/
def booleanByte (op : Byte → Byte → Byte) (a1 a2 : Word) (len count j : Nat) (t u : State) : Byte :=
  let p1 := a1 + BitVec.ofNat 16 j
  let p2 := a2 + BitVec.ofNat 16 j
  if offsetIn a2 a1 != 0 && (inField a2 len p1 || inField a1 len p2) then Config.freeByte (count + j)
  else op (t.byteAt p1) (u.byteAt p2)

/-- The string Boolean operation (R259): C0 is 1 where every result byte is 0, or the length is. -/
def booleanStrings (op : Byte → Byte → Byte) (a1 a2 : Word) (len : Nat) (s : State) : Result :=
  let r := (s.consume len).alterString 2 (booleanByte op a1 a2 len s.freeCount) a1 len
  .next (r.1.setCc (.c0Only (r.2.all fun b => b == 0)))

/-- NC (R245). -/
def execNc (len : Byte) (b1 : Reg) (d1 : Disp) (b2 : Reg) (d2 : Disp) (s : State) : Result :=
  booleanStrings opAnd (s.ea b1 d1) (s.ea b2 d2) (shortLength len) s

/-- NCL (R246). -/
def execNcl (_u rl b1 : Reg) (d1 : Disp) (b2 : Reg) (d2 : Disp) (s : State) : Result :=
  booleanStrings opAnd (s.ea b1 d1) (s.ea b2 d2) (s.longLength rl) s

/-- OC (R251). -/
def execOc (len : Byte) (b1 : Reg) (d1 : Disp) (b2 : Reg) (d2 : Disp) (s : State) : Result :=
  booleanStrings opOr (s.ea b1 d1) (s.ea b2 d2) (shortLength len) s

/-- OCL (R252). -/
def execOcl (_u rl b1 : Reg) (d1 : Disp) (b2 : Reg) (d2 : Disp) (s : State) : Result :=
  booleanStrings opOr (s.ea b1 d1) (s.ea b2 d2) (s.longLength rl) s

/-- XC (R257). -/
def execXc (len : Byte) (b1 : Reg) (d1 : Disp) (b2 : Reg) (d2 : Disp) (s : State) : Result :=
  booleanStrings opXor (s.ea b1 d1) (s.ea b2 d2) (shortLength len) s

/-- XCL (R258). -/
def execXcl (_u rl b1 : Reg) (d1 : Disp) (b2 : Reg) (d2 : Disp) (s : State) : Result :=
  booleanStrings opXor (s.ea b1 d1) (s.ea b2 d2) (s.longLength rl) s

/-! ## Translate -/

/-- Byte `j` as TR leaves it (R280): argument and table byte are two reads, which find `t` and `u`. It is free where it lies in the
256-byte table or its table byte lies in Operand 1 (U10, log 10). -/
def translatedByte (a1 table : Word) (len count j : Nat) (t u : State) : Byte :=
  let p := a1 + BitVec.ofNat 16 j
  let e := tableAddress table (t.byteAt p)
  if inField table 256 p || inField a1 len e then Config.freeByte (count + j) else u.byteAt e

/-- The translate operation (R280). -/
def translate (a1 table : Word) (len : Nat) (s : State) : Result :=
  .next ((s.consume len).alterString 2 (translatedByte a1 table len s.freeCount) a1 len).1

/-- TR (R278). -/
def execTr (len : Byte) (b1 : Reg) (d1 : Disp) (b2 : Reg) (d2 : Disp) (s : State) : Result :=
  translate (s.ea b1 d1) (s.ea b2 d2) (shortLength len) s

/-- TRL (R279). -/
def execTrl (_u rl b1 : Reg) (d1 : Disp) (b2 : Reg) (d2 : Disp) (s : State) : Result :=
  translate (s.ea b1 d1) (s.ea b2 d2) (s.longLength rl) s

end Sys2Proof.Machine
end

