-- ==== Sys2Proof/Machine/Switch.lean ====
section
/-! DEFINITION. Status switching: supervisor calls, TSL, ENT and RET (49_status_switching_io.md, R371 to R378). -/

namespace Sys2Proof.Machine

/-- SVC (R372). -/
def execSvc (i1 : Byte) (s : State) : Result := .next (s.svcInterrupt 1 i1)

/-- SVCS (R373): register 2 receives the address first. -/
def execSvcs (i2 : Byte) (b1 : Reg) (d1 : Disp) (s : State) : Result :=
  .next ((s.setReg 2 (s.ea b1 d1)).svcInterrupt 2 i2)

/-- SVCD (R375): registers 2 and 3 receive the addresses, both formed first. -/
def execSvcd (i3 : Byte) (b1 : Reg) (d1 : Disp) (b2 : Reg) (d2 : Disp) (s : State) : Result :=
  .next (((s.setReg 2 (s.ea b1 d1)).setReg 3 (s.ea b2 d2)).svcInterrupt 3 i3)

/-- TSL (R374): the mask is ORed into the byte where the test indicates zeros. No event's access to memory falls in between: R374 says
it of the I/O units' and says nothing of the S/360 interface or the META 4B, whose stores, as the firmware's, are the same events and
are kept out too (DESIGN CHOICE, log 50). -/
def execTsl (i2 : Byte) (b1 : Reg) (d1 : Disp) (s : State) : Result :=
  let a := s.ea b1 d1
  let t := s.setCc (testUnderMask (s.byteAt a) i2)
  .next (if s.byteAt a &&& i2 = 0 then (t.setByte a (s.byteAt a ||| i2)).indivisible else t)

/-- The bytes ENT needs: automatic storage rounded up to halfwords, the save area and the pointers (R376). -/
def frameNeed (i2 : Word) : Nat := (i2.toNat + 1) / 2 * 2 + 34

/-- Whether ENT finds no room (R376): the need exceeds the length, or only the new free-space header would not fit and the
machine counts that as overflow (U18, log 16). -/
def frameOverflows (need length : Nat) : Bool :=
  decide (length < need) || (decide (length < need + 4) && Config.entTightOverflows)

/-- The registers from 2 to `last` in order. -/
def registersFrom2 (last : Reg) : List Reg := regRange 2 (last.toNat - 1)

/-- The save area ENT writes: MSR, register 14 in the PC's place, registers 2 to 14 (R376, R377). -/
def State.saveArea (s : State) : List Word := s.reg 0 :: s.reg 14 :: (registersFrom2 14).map s.reg

/-- ENT (R376). The new block stands where the free space began; its length field moves up by `need`. -/
def execEnt (_r1s _r1f : Reg) (i2 : Word) (s : State) : Result :=
  let sfp := s.reg 15
  let la := (s.seenAt 0).readHalf (sfp + 2)
  aligned 2 sfp s
    (withHalf 2 la s fun length =>
      let need := frameNeed i2
      let next := la + BitVec.ofNat 16 need
      if frameOverflows need length.toNat then raiseProgram 2 .stackFrameOverflow s
      else .next (((((s.writeHalf next (length - BitVec.ofNat 16 need)).writeHalves (la + 4) s.saveArea).writeHalf
        la sfp).writeHalf (la + 2) next).setReg 15 la))

/-- RET (R378). Registers 2 to RET_LAST are reloaded and the last is the return address (conflict C6, log 22); the freed
block's length and zero fields are rebuilt. -/
def execRet (_r1 _r2 : Reg) (s : State) : Result :=
  let sfp := s.reg 15
  withHalfAt 0 1 sfp s fun bp => aligned 1 bp s
    (if (s.seenAt 1).readHalf (bp + 2) ≠ sfp then raiseProgram 1 .stackFrameUnderflow s
     else
       let la := (s.seenAt 2).readHalf (sfp + 2)
       withHalfAt 3 1 la s fun length =>
         let rs := registersFrom2 Config.retLast
         let t := s.writeRegs (rs.zip (s.readHalves (sfp + 8) rs.length))
         let u := (t.writeHalf sfp (length + (la - sfp))).writeHalf (sfp + 2) 0
         .next ((u.setReg 15 bp).setReg 1 (u.stored Config.retLast)))

end Sys2Proof.Machine
end

