-- ==== Sys2Proof/Machine/Execute.lean ====
section
/-! DEFINITION. EX, Execute (48_branch_execute.md, R362): the subject instruction runs within the same step. -/

namespace Sys2Proof.Machine

/-- The meaning of a subject instruction: that of the same instruction standing alone, but for another EX, which raises the
Execute interrupt itself, with the EX's length 2 as the ILC (R402, R446, R96). -/
def execSubject (i : Instr) (s : State) : Result :=
  match i with
  | .ret r1 r2 => execRet r1 r2 s
  | .lpr r1 r2 => execLpr r1 r2 s
  | .lnr r1 r2 => execLnr r1 r2 s
  | .lcr r1 r2 => execLcr r1 r2 s
  | .lxbr r1 r2 => execLxbr r1 r2 s
  | .stdr r1 r2 => execStdr r1 r2 s
  | .ldr r1 r2 => execLdr r1 r2 s
  | .sior r1 r2 => execSior r1 r2 s
  | .sd r1 r2 => execSd r1 r2 s
  | .slli r1 r2 => execSlli r1 r2 s
  | .srli r1 r2 => execSrli r1 r2 s
  | .sldli r1 r2 => execSldli r1 r2 s
  | .srdli r1 r2 => execSrdli r1 r2 s
  | .slai r1 r2 => execSlai r1 r2 s
  | .srai r1 r2 => execSrai r1 r2 s
  | .sldai r1 r2 => execSldai r1 r2 s
  | .srdai r1 r2 => execSrdai r1 r2 s
  | .iost r1 r2 => execIost r1 r2 s
  | .excc r1 r2 => execExcc r1 r2 s
  | .lx r1 r2 => execLx r1 r2 s
  | .ax r1 r2 => execAx r1 r2 s
  | .sx r1 r2 => execSx r1 r2 s
  | .bczr r1 r2 => execBczr r1 r2 s
  | .bcor r1 r2 => execBcor r1 r2 s
  | .balr r1 r2 => execBalr r1 r2 s
  | .tbpr r1 r2 => execTbpr r1 r2 s
  | .tbzr r1 r2 => execTbzr r1 r2 s
  | .tbnmr r1 r2 => execTbnmr r1 r2 s
  | .tbmr r1 r2 => execTbmr r1 r2 s
  | .tbnzr r1 r2 => execTbnzr r1 r2 s
  | .tbnpr r1 r2 => execTbnpr r1 r2 s
  | .bctr r1 r2 => execBctr r1 r2 s
  | .cr r1 r2 => execCr r1 r2 s
  | .svc i1 => execSvc i1 s
  | .tmr r1 r2 => execTmr r1 r2 s
  | .lr r1 r2 => execLr r1 r2 s
  | .ar r1 r2 => execAr r1 r2 s
  | .sr r1 r2 => execSr r1 r2 s
  | .mr r1 r2 => execMr r1 r2 s
  | .dr r1 r2 => execDr r1 r2 s
  | .swpr r1 r2 => execSwpr r1 r2 s
  | .nr r1 r2 => execNr r1 r2 s
  | .or r1 r2 => execOr r1 r2 s
  | .xr r1 r2 => execXr r1 r2 s
  | .alr r1 r2 => execAlr r1 r2 s
  | .slr r1 r2 => execSlr r1 r2 s
  | .clr r1 r2 => execClr r1 r2 s
  | .deq r1 x2 b2 d2 => execDeq r1 x2 b2 d2 s
  | .lp r1 x2 b2 d2 => execLp r1 x2 b2 d2 s
  | .ln r1 x2 b2 d2 => execLn r1 x2 b2 d2 s
  | .lc r1 x2 b2 d2 => execLc r1 x2 b2 d2 s
  | .lxb r1 x2 b2 d2 => execLxb r1 x2 b2 d2 s
  | .cvb r1 x2 b2 d2 => execCvb r1 x2 b2 d2 s
  | .cvd r1 x2 b2 d2 => execCvd r1 x2 b2 d2 s
  | .std r1 x2 b2 d2 => execStd r1 x2 b2 d2 s
  | .ld r1 x2 b2 d2 => execLd r1 x2 b2 d2 s
  | .ex _ _ _ _ => raiseProgram 2 .execute { s with inExecute := false }
  | .ss r1 x2 b2 d2 => execSs r1 x2 b2 d2 s
  | .sio r1 x2 b2 d2 => execSio r1 x2 b2 d2 s
  | .ib r1 x2 b2 d2 => execIb r1 x2 b2 d2 s
  | .stb r1 x2 b2 d2 => execStb r1 x2 b2 d2 s
  | .lb r1 x2 b2 d2 => execLb r1 x2 b2 d2 s
  | .lsb r1 x2 b2 d2 => execLsb r1 x2 b2 d2 s
  | .sa r1 x2 b2 d2 => execSa r1 x2 b2 d2 s
  | .la r1 x2 b2 d2 => execLa r1 x2 b2 d2 s
  | .lz r1 x2 b2 d2 => execLz r1 x2 b2 d2 s
  | .clb r1 x2 b2 d2 => execClb r1 x2 b2 d2 s
  | .trb r1 x2 b2 d2 => execTrb r1 x2 b2 d2 s
  | .c r1 x2 b2 d2 => execC r1 x2 b2 d2 s
  | .st r1 x2 b2 d2 => execSt r1 x2 b2 d2 s
  | .l r1 x2 b2 d2 => execL r1 x2 b2 d2 s
  | .a r1 x2 b2 d2 => execA r1 x2 b2 d2 s
  | .s r1 x2 b2 d2 => execS r1 x2 b2 d2 s
  | .m r1 x2 b2 d2 => execM r1 x2 b2 d2 s
  | .d r1 x2 b2 d2 => execD r1 x2 b2 d2 s
  | .swp r1 x2 b2 d2 => execSwp r1 x2 b2 d2 s
  | .n r1 x2 b2 d2 => execN r1 x2 b2 d2 s
  | .o r1 x2 b2 d2 => execO r1 x2 b2 d2 s
  | .x r1 x2 b2 d2 => execX r1 x2 b2 d2 s
  | .al r1 x2 b2 d2 => execAl r1 x2 b2 d2 s
  | .sl r1 x2 b2 d2 => execSl r1 x2 b2 d2 s
  | .cl r1 x2 b2 d2 => execCl r1 x2 b2 d2 s
  | .chi i2 b1 d1 => execChi i2 b1 d1 s
  | .svcs i2 b1 d1 => execSvcs i2 b1 d1 s
  | .tmbi i2 b1 d1 => execTmbi i2 b1 d1 s
  | .mvhi i2 b1 d1 => execMvhi i2 b1 d1 s
  | .ahi i2 b1 d1 => execAhi i2 b1 d1 s
  | .shi i2 b1 d1 => execShi i2 b1 d1 s
  | .tsl i2 b1 d1 => execTsl i2 b1 d1 s
  | .nbi i2 b1 d1 => execNbi i2 b1 d1 s
  | .obi i2 b1 d1 => execObi i2 b1 d1 s
  | .xbi i2 b1 d1 => execXbi i2 b1 d1 s
  | .mvbi i2 b1 d1 => execMvbi i2 b1 d1 s
  | .clbi i2 b1 d1 => execClbi i2 b1 d1 s
  | .stmd r1 r3 b2 d2 => execStmd r1 r3 b2 d2 s
  | .lmd r1 r3 b2 d2 => execLmd r1 r3 b2 d2 s
  | .stm r1 r3 b2 d2 => execStm r1 r3 b2 d2 s
  | .lm r1 r3 b2 d2 => execLm r1 r3 b2 d2 s
  | .pshm r1 r3 b2 d2 => execPshm r1 r3 b2 d2 s
  | .popm r1 r3 b2 d2 => execPopm r1 r3 b2 d2 s
  | .sll r1 r3 b2 d2 => execSll r1 r3 b2 d2 s
  | .srl r1 r3 b2 d2 => execSrl r1 r3 b2 d2 s
  | .sldl r1 r3 b2 d2 => execSldl r1 r3 b2 d2 s
  | .srdl r1 r3 b2 d2 => execSrdl r1 r3 b2 d2 s
  | .sla r1 r3 b2 d2 => execSla r1 r3 b2 d2 s
  | .sra r1 r3 b2 d2 => execSra r1 r3 b2 d2 s
  | .slda r1 r3 b2 d2 => execSlda r1 r3 b2 d2 s
  | .srda r1 r3 b2 d2 => execSrda r1 r3 b2 d2 s
  | .bxh r1 x2 d2 => execBxh r1 x2 d2 s
  | .bxle r1 x2 d2 => execBxle r1 x2 d2 s
  | .bcz r1 x2 d2 => execBcz r1 x2 d2 s
  | .bco r1 x2 d2 => execBco r1 x2 d2 s
  | .bal r1 x2 d2 => execBal r1 x2 d2 s
  | .tbp r1 x2 d2 => execTbp r1 x2 d2 s
  | .tbz r1 x2 d2 => execTbz r1 x2 d2 s
  | .tbnm r1 x2 d2 => execTbnm r1 x2 d2 s
  | .tbm r1 x2 d2 => execTbm r1 x2 d2 s
  | .tbnz r1 x2 d2 => execTbnz r1 x2 d2 s
  | .tbnp r1 x2 d2 => execTbnp r1 x2 d2 s
  | .bct r1 x2 d2 => execBct r1 x2 d2 s
  | .ci r1s r1f i2 => execCi r1s r1f i2 s
  | .stdi r1s r1f i2 => execStdi r1s r1f i2 s
  | .tmi r1s r1f i2 => execTmi r1s r1f i2 s
  | .li r1s r1f i2 => execLi r1s r1f i2 s
  | .ai r1s r1f i2 => execAi r1s r1f i2 s
  | .si r1s r1f i2 => execSi r1s r1f i2 s
  | .mi r1s r1f i2 => execMi r1s r1f i2 s
  | .di r1s r1f i2 => execDi r1s r1f i2 s
  | .ldi r1s r1f i2 => execLdi r1s r1f i2 s
  | .ni r1s r1f i2 => execNi r1s r1f i2 s
  | .oi r1s r1f i2 => execOi r1s r1f i2 s
  | .xi r1s r1f i2 => execXi r1s r1f i2 s
  | .ali r1s r1f i2 => execAli r1s r1f i2 s
  | .sli r1s r1f i2 => execSli r1s r1f i2 s
  | .ent r1s r1f i2 => execEnt r1s r1f i2 s
  | .cli r1s r1f i2 => execCli r1s r1f i2 s
  | .sle len b1 d1 b2 d2 => execSle len b1 d1 b2 d2 s
  | .sre len b1 d1 b2 d2 => execSre len b1 d1 b2 d2 s
  | .slne len b1 d1 b2 d2 => execSlne len b1 d1 b2 d2 s
  | .srne len b1 d1 b2 d2 => execSrne len b1 d1 b2 d2 s
  | .mvc len b1 d1 b2 d2 => execMvc len b1 d1 b2 d2 s
  | .mvcn len b1 d1 b2 d2 => execMvcn len b1 d1 b2 d2 s
  | .pshh len b1 d1 b2 d2 => execPshh len b1 d1 b2 d2 s
  | .poph len b1 d1 b2 d2 => execPoph len b1 d1 b2 d2 s
  | .fill len b1 d1 b2 d2 => execFill len b1 d1 b2 d2 s
  | .nc len b1 d1 b2 d2 => execNc len b1 d1 b2 d2 s
  | .oc len b1 d1 b2 d2 => execOc len b1 d1 b2 d2 s
  | .xc len b1 d1 b2 d2 => execXc len b1 d1 b2 d2 s
  | .stl len b1 d1 b2 d2 => execStl len b1 d1 b2 d2 s
  | .str len b1 d1 b2 d2 => execStr len b1 d1 b2 d2 s
  | .tr len b1 d1 b2 d2 => execTr len b1 d1 b2 d2 s
  | .clc len b1 d1 b2 d2 => execClc len b1 d1 b2 d2 s
  | .slel u rl b1 d1 b2 d2 => execSlel u rl b1 d1 b2 d2 s
  | .srel u rl b1 d1 b2 d2 => execSrel u rl b1 d1 b2 d2 s
  | .slnel u rl b1 d1 b2 d2 => execSlnel u rl b1 d1 b2 d2 s
  | .srnel u rl b1 d1 b2 d2 => execSrnel u rl b1 d1 b2 d2 s
  | .mvcl u rl b1 d1 b2 d2 => execMvcl u rl b1 d1 b2 d2 s
  | .mvcnl u rl b1 d1 b2 d2 => execMvcnl u rl b1 d1 b2 d2 s
  | .pshhl u rl b1 d1 b2 d2 => execPshhl u rl b1 d1 b2 d2 s
  | .pophl u rl b1 d1 b2 d2 => execPophl u rl b1 d1 b2 d2 s
  | .filll u rl b1 d1 b2 d2 => execFilll u rl b1 d1 b2 d2 s
  | .ncl u rl b1 d1 b2 d2 => execNcl u rl b1 d1 b2 d2 s
  | .ocl u rl b1 d1 b2 d2 => execOcl u rl b1 d1 b2 d2 s
  | .xcl u rl b1 d1 b2 d2 => execXcl u rl b1 d1 b2 d2 s
  | .stll u rl b1 d1 b2 d2 => execStll u rl b1 d1 b2 d2 s
  | .strl u rl b1 d1 b2 d2 => execStrl u rl b1 d1 b2 d2 s
  | .trl u rl b1 d1 b2 d2 => execTrl u rl b1 d1 b2 d2 s
  | .clcl u rl b1 d1 b2 d2 => execClcl u rl b1 d1 b2 d2 s
  | .ch i3 b1 d1 b2 d2 => execCh i3 b1 d1 b2 d2 s
  | .svcd i3 b1 d1 b2 d2 => execSvcd i3 b1 d1 b2 d2 s
  | .mva i3 b1 d1 b2 d2 => execMva i3 b1 d1 b2 d2 s
  | .mvh i3 b1 d1 b2 d2 => execMvh i3 b1 d1 b2 d2 s
  | .ah i3 b1 d1 b2 d2 => execAh i3 b1 d1 b2 d2 s
  | .sh i3 b1 d1 b2 d2 => execSh i3 b1 d1 b2 d2 s
  | .mh i3 b1 d1 b2 d2 => execMh i3 b1 d1 b2 d2 s
  | .dh i3 b1 d1 b2 d2 => execDh i3 b1 d1 b2 d2 s
  | .enq i3 b1 d1 b2 d2 => execEnq i3 b1 d1 b2 d2 s
  | .srch i3 b1 d1 b2 d2 => execSrch i3 b1 d1 b2 d2 s
  | .clh i3 b1 d1 b2 d2 => execClh i3 b1 d1 b2 d2 s

/-- The subject has run: what follows is no subject. -/
def leaveExecute : Result → Result
  | .next s => .next { s with inExecute := false }
  | .fault f => .fault f
  | .refused r => .refused r

/-- The subject's first halfword: the contents of R1 are ORed into it, unless R1 is 0 (R362). -/
def subjectHalf (r1 : Reg) (h : Word) (s : State) : Word := if r1 = 0 then h else h ||| s.reg r1

/-- EX (R362): the halfword after the OR decides everything, memory is not changed, and register 1 stays the address after
the EX (decision D23, log 28). The subject's halfwords are the EX's first three reads (log 50). -/
def execEx (r1 x2 b2 : Reg) (d2 : Disp) (s : State) : Result :=
  let a := s.eaRX x2 b2 d2
  withHalfAt 0 2 a s fun h =>
    let h0 := subjectHalf r1 h s
    let h1 := (s.seenAt 1).readHalf (a + 2)
    let h2 := (s.seenAt 2).readHalf (a + 4)
    let t := { s with inExecute := true, earlier := s.earlier.drop 3 }
    if opOf h0 = 0x54 then raiseProgram 2 .execute { t with inExecute := false }
    else
      match decode h0 h1 h2 with
      | .ok i => leaveExecute (execSubject i t)
      | .error (.undetermined op) => .refused (.undeterminedOpcode op)
      | .error _ => leaveExecute (.next (t.operationInterrupt h0 h1 h2))

end Sys2Proof.Machine
end

