-- ==== Sys2Proof/Machine/Dispatch.lean ====
section
/-! DEFINITION. One arm per instruction: the meaning it has. -/

namespace Sys2Proof.Machine

def exec (i : Instr) (s : State) : Host.Outcome State Fault Refusal :=
  match i with
  | .ret r1 r2 => Sys2Proof.Machine.execRet r1 r2 s
  | .lpr r1 r2 => Sys2Proof.Machine.execLpr r1 r2 s
  | .lnr r1 r2 => Sys2Proof.Machine.execLnr r1 r2 s
  | .lcr r1 r2 => Sys2Proof.Machine.execLcr r1 r2 s
  | .lxbr r1 r2 => Sys2Proof.Machine.execLxbr r1 r2 s
  | .stdr r1 r2 => Sys2Proof.Machine.execStdr r1 r2 s
  | .ldr r1 r2 => Sys2Proof.Machine.execLdr r1 r2 s
  | .sior r1 r2 => Sys2Proof.Machine.execSior r1 r2 s
  | .sd r1 r2 => Sys2Proof.Machine.execSd r1 r2 s
  | .slli r1 r2 => Sys2Proof.Machine.execSlli r1 r2 s
  | .srli r1 r2 => Sys2Proof.Machine.execSrli r1 r2 s
  | .sldli r1 r2 => Sys2Proof.Machine.execSldli r1 r2 s
  | .srdli r1 r2 => Sys2Proof.Machine.execSrdli r1 r2 s
  | .slai r1 r2 => Sys2Proof.Machine.execSlai r1 r2 s
  | .srai r1 r2 => Sys2Proof.Machine.execSrai r1 r2 s
  | .sldai r1 r2 => Sys2Proof.Machine.execSldai r1 r2 s
  | .srdai r1 r2 => Sys2Proof.Machine.execSrdai r1 r2 s
  | .iost r1 r2 => Sys2Proof.Machine.execIost r1 r2 s
  | .excc r1 r2 => Sys2Proof.Machine.execExcc r1 r2 s
  | .lx r1 r2 => Sys2Proof.Machine.execLx r1 r2 s
  | .ax r1 r2 => Sys2Proof.Machine.execAx r1 r2 s
  | .sx r1 r2 => Sys2Proof.Machine.execSx r1 r2 s
  | .bczr r1 r2 => Sys2Proof.Machine.execBczr r1 r2 s
  | .bcor r1 r2 => Sys2Proof.Machine.execBcor r1 r2 s
  | .balr r1 r2 => Sys2Proof.Machine.execBalr r1 r2 s
  | .tbpr r1 r2 => Sys2Proof.Machine.execTbpr r1 r2 s
  | .tbzr r1 r2 => Sys2Proof.Machine.execTbzr r1 r2 s
  | .tbnmr r1 r2 => Sys2Proof.Machine.execTbnmr r1 r2 s
  | .tbmr r1 r2 => Sys2Proof.Machine.execTbmr r1 r2 s
  | .tbnzr r1 r2 => Sys2Proof.Machine.execTbnzr r1 r2 s
  | .tbnpr r1 r2 => Sys2Proof.Machine.execTbnpr r1 r2 s
  | .bctr r1 r2 => Sys2Proof.Machine.execBctr r1 r2 s
  | .cr r1 r2 => Sys2Proof.Machine.execCr r1 r2 s
  | .svc i1 => Sys2Proof.Machine.execSvc i1 s
  | .tmr r1 r2 => Sys2Proof.Machine.execTmr r1 r2 s
  | .lr r1 r2 => Sys2Proof.Machine.execLr r1 r2 s
  | .ar r1 r2 => Sys2Proof.Machine.execAr r1 r2 s
  | .sr r1 r2 => Sys2Proof.Machine.execSr r1 r2 s
  | .mr r1 r2 => Sys2Proof.Machine.execMr r1 r2 s
  | .dr r1 r2 => Sys2Proof.Machine.execDr r1 r2 s
  | .swpr r1 r2 => Sys2Proof.Machine.execSwpr r1 r2 s
  | .nr r1 r2 => Sys2Proof.Machine.execNr r1 r2 s
  | .or r1 r2 => Sys2Proof.Machine.execOr r1 r2 s
  | .xr r1 r2 => Sys2Proof.Machine.execXr r1 r2 s
  | .alr r1 r2 => Sys2Proof.Machine.execAlr r1 r2 s
  | .slr r1 r2 => Sys2Proof.Machine.execSlr r1 r2 s
  | .clr r1 r2 => Sys2Proof.Machine.execClr r1 r2 s
  | .deq r1 x2 b2 d2 => Sys2Proof.Machine.execDeq r1 x2 b2 d2 s
  | .lp r1 x2 b2 d2 => Sys2Proof.Machine.execLp r1 x2 b2 d2 s
  | .ln r1 x2 b2 d2 => Sys2Proof.Machine.execLn r1 x2 b2 d2 s
  | .lc r1 x2 b2 d2 => Sys2Proof.Machine.execLc r1 x2 b2 d2 s
  | .lxb r1 x2 b2 d2 => Sys2Proof.Machine.execLxb r1 x2 b2 d2 s
  | .cvb r1 x2 b2 d2 => Sys2Proof.Machine.execCvb r1 x2 b2 d2 s
  | .cvd r1 x2 b2 d2 => Sys2Proof.Machine.execCvd r1 x2 b2 d2 s
  | .std r1 x2 b2 d2 => Sys2Proof.Machine.execStd r1 x2 b2 d2 s
  | .ld r1 x2 b2 d2 => Sys2Proof.Machine.execLd r1 x2 b2 d2 s
  | .ex r1 x2 b2 d2 => Sys2Proof.Machine.execEx r1 x2 b2 d2 s
  | .ss r1 x2 b2 d2 => Sys2Proof.Machine.execSs r1 x2 b2 d2 s
  | .sio r1 x2 b2 d2 => Sys2Proof.Machine.execSio r1 x2 b2 d2 s
  | .ib r1 x2 b2 d2 => Sys2Proof.Machine.execIb r1 x2 b2 d2 s
  | .stb r1 x2 b2 d2 => Sys2Proof.Machine.execStb r1 x2 b2 d2 s
  | .lb r1 x2 b2 d2 => Sys2Proof.Machine.execLb r1 x2 b2 d2 s
  | .lsb r1 x2 b2 d2 => Sys2Proof.Machine.execLsb r1 x2 b2 d2 s
  | .sa r1 x2 b2 d2 => Sys2Proof.Machine.execSa r1 x2 b2 d2 s
  | .la r1 x2 b2 d2 => Sys2Proof.Machine.execLa r1 x2 b2 d2 s
  | .lz r1 x2 b2 d2 => Sys2Proof.Machine.execLz r1 x2 b2 d2 s
  | .clb r1 x2 b2 d2 => Sys2Proof.Machine.execClb r1 x2 b2 d2 s
  | .trb r1 x2 b2 d2 => Sys2Proof.Machine.execTrb r1 x2 b2 d2 s
  | .c r1 x2 b2 d2 => Sys2Proof.Machine.execC r1 x2 b2 d2 s
  | .st r1 x2 b2 d2 => Sys2Proof.Machine.execSt r1 x2 b2 d2 s
  | .l r1 x2 b2 d2 => Sys2Proof.Machine.execL r1 x2 b2 d2 s
  | .a r1 x2 b2 d2 => Sys2Proof.Machine.execA r1 x2 b2 d2 s
  | .s r1 x2 b2 d2 => Sys2Proof.Machine.execS r1 x2 b2 d2 s
  | .m r1 x2 b2 d2 => Sys2Proof.Machine.execM r1 x2 b2 d2 s
  | .d r1 x2 b2 d2 => Sys2Proof.Machine.execD r1 x2 b2 d2 s
  | .swp r1 x2 b2 d2 => Sys2Proof.Machine.execSwp r1 x2 b2 d2 s
  | .n r1 x2 b2 d2 => Sys2Proof.Machine.execN r1 x2 b2 d2 s
  | .o r1 x2 b2 d2 => Sys2Proof.Machine.execO r1 x2 b2 d2 s
  | .x r1 x2 b2 d2 => Sys2Proof.Machine.execX r1 x2 b2 d2 s
  | .al r1 x2 b2 d2 => Sys2Proof.Machine.execAl r1 x2 b2 d2 s
  | .sl r1 x2 b2 d2 => Sys2Proof.Machine.execSl r1 x2 b2 d2 s
  | .cl r1 x2 b2 d2 => Sys2Proof.Machine.execCl r1 x2 b2 d2 s
  | .chi i2 b1 d1 => Sys2Proof.Machine.execChi i2 b1 d1 s
  | .svcs i2 b1 d1 => Sys2Proof.Machine.execSvcs i2 b1 d1 s
  | .tmbi i2 b1 d1 => Sys2Proof.Machine.execTmbi i2 b1 d1 s
  | .mvhi i2 b1 d1 => Sys2Proof.Machine.execMvhi i2 b1 d1 s
  | .ahi i2 b1 d1 => Sys2Proof.Machine.execAhi i2 b1 d1 s
  | .shi i2 b1 d1 => Sys2Proof.Machine.execShi i2 b1 d1 s
  | .tsl i2 b1 d1 => Sys2Proof.Machine.execTsl i2 b1 d1 s
  | .nbi i2 b1 d1 => Sys2Proof.Machine.execNbi i2 b1 d1 s
  | .obi i2 b1 d1 => Sys2Proof.Machine.execObi i2 b1 d1 s
  | .xbi i2 b1 d1 => Sys2Proof.Machine.execXbi i2 b1 d1 s
  | .mvbi i2 b1 d1 => Sys2Proof.Machine.execMvbi i2 b1 d1 s
  | .clbi i2 b1 d1 => Sys2Proof.Machine.execClbi i2 b1 d1 s
  | .stmd r1 r3 b2 d2 => Sys2Proof.Machine.execStmd r1 r3 b2 d2 s
  | .lmd r1 r3 b2 d2 => Sys2Proof.Machine.execLmd r1 r3 b2 d2 s
  | .stm r1 r3 b2 d2 => Sys2Proof.Machine.execStm r1 r3 b2 d2 s
  | .lm r1 r3 b2 d2 => Sys2Proof.Machine.execLm r1 r3 b2 d2 s
  | .pshm r1 r3 b2 d2 => Sys2Proof.Machine.execPshm r1 r3 b2 d2 s
  | .popm r1 r3 b2 d2 => Sys2Proof.Machine.execPopm r1 r3 b2 d2 s
  | .sll r1 r3 b2 d2 => Sys2Proof.Machine.execSll r1 r3 b2 d2 s
  | .srl r1 r3 b2 d2 => Sys2Proof.Machine.execSrl r1 r3 b2 d2 s
  | .sldl r1 r3 b2 d2 => Sys2Proof.Machine.execSldl r1 r3 b2 d2 s
  | .srdl r1 r3 b2 d2 => Sys2Proof.Machine.execSrdl r1 r3 b2 d2 s
  | .sla r1 r3 b2 d2 => Sys2Proof.Machine.execSla r1 r3 b2 d2 s
  | .sra r1 r3 b2 d2 => Sys2Proof.Machine.execSra r1 r3 b2 d2 s
  | .slda r1 r3 b2 d2 => Sys2Proof.Machine.execSlda r1 r3 b2 d2 s
  | .srda r1 r3 b2 d2 => Sys2Proof.Machine.execSrda r1 r3 b2 d2 s
  | .bxh r1 x2 d2 => Sys2Proof.Machine.execBxh r1 x2 d2 s
  | .bxle r1 x2 d2 => Sys2Proof.Machine.execBxle r1 x2 d2 s
  | .bcz r1 x2 d2 => Sys2Proof.Machine.execBcz r1 x2 d2 s
  | .bco r1 x2 d2 => Sys2Proof.Machine.execBco r1 x2 d2 s
  | .bal r1 x2 d2 => Sys2Proof.Machine.execBal r1 x2 d2 s
  | .tbp r1 x2 d2 => Sys2Proof.Machine.execTbp r1 x2 d2 s
  | .tbz r1 x2 d2 => Sys2Proof.Machine.execTbz r1 x2 d2 s
  | .tbnm r1 x2 d2 => Sys2Proof.Machine.execTbnm r1 x2 d2 s
  | .tbm r1 x2 d2 => Sys2Proof.Machine.execTbm r1 x2 d2 s
  | .tbnz r1 x2 d2 => Sys2Proof.Machine.execTbnz r1 x2 d2 s
  | .tbnp r1 x2 d2 => Sys2Proof.Machine.execTbnp r1 x2 d2 s
  | .bct r1 x2 d2 => Sys2Proof.Machine.execBct r1 x2 d2 s
  | .ci r1s r1f i2 => Sys2Proof.Machine.execCi r1s r1f i2 s
  | .stdi r1s r1f i2 => Sys2Proof.Machine.execStdi r1s r1f i2 s
  | .tmi r1s r1f i2 => Sys2Proof.Machine.execTmi r1s r1f i2 s
  | .li r1s r1f i2 => Sys2Proof.Machine.execLi r1s r1f i2 s
  | .ai r1s r1f i2 => Sys2Proof.Machine.execAi r1s r1f i2 s
  | .si r1s r1f i2 => Sys2Proof.Machine.execSi r1s r1f i2 s
  | .mi r1s r1f i2 => Sys2Proof.Machine.execMi r1s r1f i2 s
  | .di r1s r1f i2 => Sys2Proof.Machine.execDi r1s r1f i2 s
  | .ldi r1s r1f i2 => Sys2Proof.Machine.execLdi r1s r1f i2 s
  | .ni r1s r1f i2 => Sys2Proof.Machine.execNi r1s r1f i2 s
  | .oi r1s r1f i2 => Sys2Proof.Machine.execOi r1s r1f i2 s
  | .xi r1s r1f i2 => Sys2Proof.Machine.execXi r1s r1f i2 s
  | .ali r1s r1f i2 => Sys2Proof.Machine.execAli r1s r1f i2 s
  | .sli r1s r1f i2 => Sys2Proof.Machine.execSli r1s r1f i2 s
  | .ent r1s r1f i2 => Sys2Proof.Machine.execEnt r1s r1f i2 s
  | .cli r1s r1f i2 => Sys2Proof.Machine.execCli r1s r1f i2 s
  | .sle len b1 d1 b2 d2 => Sys2Proof.Machine.execSle len b1 d1 b2 d2 s
  | .sre len b1 d1 b2 d2 => Sys2Proof.Machine.execSre len b1 d1 b2 d2 s
  | .slne len b1 d1 b2 d2 => Sys2Proof.Machine.execSlne len b1 d1 b2 d2 s
  | .srne len b1 d1 b2 d2 => Sys2Proof.Machine.execSrne len b1 d1 b2 d2 s
  | .mvc len b1 d1 b2 d2 => Sys2Proof.Machine.execMvc len b1 d1 b2 d2 s
  | .mvcn len b1 d1 b2 d2 => Sys2Proof.Machine.execMvcn len b1 d1 b2 d2 s
  | .pshh len b1 d1 b2 d2 => Sys2Proof.Machine.execPshh len b1 d1 b2 d2 s
  | .poph len b1 d1 b2 d2 => Sys2Proof.Machine.execPoph len b1 d1 b2 d2 s
  | .fill len b1 d1 b2 d2 => Sys2Proof.Machine.execFill len b1 d1 b2 d2 s
  | .nc len b1 d1 b2 d2 => Sys2Proof.Machine.execNc len b1 d1 b2 d2 s
  | .oc len b1 d1 b2 d2 => Sys2Proof.Machine.execOc len b1 d1 b2 d2 s
  | .xc len b1 d1 b2 d2 => Sys2Proof.Machine.execXc len b1 d1 b2 d2 s
  | .stl len b1 d1 b2 d2 => Sys2Proof.Machine.execStl len b1 d1 b2 d2 s
  | .str len b1 d1 b2 d2 => Sys2Proof.Machine.execStr len b1 d1 b2 d2 s
  | .tr len b1 d1 b2 d2 => Sys2Proof.Machine.execTr len b1 d1 b2 d2 s
  | .clc len b1 d1 b2 d2 => Sys2Proof.Machine.execClc len b1 d1 b2 d2 s
  | .slel u rl b1 d1 b2 d2 => Sys2Proof.Machine.execSlel u rl b1 d1 b2 d2 s
  | .srel u rl b1 d1 b2 d2 => Sys2Proof.Machine.execSrel u rl b1 d1 b2 d2 s
  | .slnel u rl b1 d1 b2 d2 => Sys2Proof.Machine.execSlnel u rl b1 d1 b2 d2 s
  | .srnel u rl b1 d1 b2 d2 => Sys2Proof.Machine.execSrnel u rl b1 d1 b2 d2 s
  | .mvcl u rl b1 d1 b2 d2 => Sys2Proof.Machine.execMvcl u rl b1 d1 b2 d2 s
  | .mvcnl u rl b1 d1 b2 d2 => Sys2Proof.Machine.execMvcnl u rl b1 d1 b2 d2 s
  | .pshhl u rl b1 d1 b2 d2 => Sys2Proof.Machine.execPshhl u rl b1 d1 b2 d2 s
  | .pophl u rl b1 d1 b2 d2 => Sys2Proof.Machine.execPophl u rl b1 d1 b2 d2 s
  | .filll u rl b1 d1 b2 d2 => Sys2Proof.Machine.execFilll u rl b1 d1 b2 d2 s
  | .ncl u rl b1 d1 b2 d2 => Sys2Proof.Machine.execNcl u rl b1 d1 b2 d2 s
  | .ocl u rl b1 d1 b2 d2 => Sys2Proof.Machine.execOcl u rl b1 d1 b2 d2 s
  | .xcl u rl b1 d1 b2 d2 => Sys2Proof.Machine.execXcl u rl b1 d1 b2 d2 s
  | .stll u rl b1 d1 b2 d2 => Sys2Proof.Machine.execStll u rl b1 d1 b2 d2 s
  | .strl u rl b1 d1 b2 d2 => Sys2Proof.Machine.execStrl u rl b1 d1 b2 d2 s
  | .trl u rl b1 d1 b2 d2 => Sys2Proof.Machine.execTrl u rl b1 d1 b2 d2 s
  | .clcl u rl b1 d1 b2 d2 => Sys2Proof.Machine.execClcl u rl b1 d1 b2 d2 s
  | .ch i3 b1 d1 b2 d2 => Sys2Proof.Machine.execCh i3 b1 d1 b2 d2 s
  | .svcd i3 b1 d1 b2 d2 => Sys2Proof.Machine.execSvcd i3 b1 d1 b2 d2 s
  | .mva i3 b1 d1 b2 d2 => Sys2Proof.Machine.execMva i3 b1 d1 b2 d2 s
  | .mvh i3 b1 d1 b2 d2 => Sys2Proof.Machine.execMvh i3 b1 d1 b2 d2 s
  | .ah i3 b1 d1 b2 d2 => Sys2Proof.Machine.execAh i3 b1 d1 b2 d2 s
  | .sh i3 b1 d1 b2 d2 => Sys2Proof.Machine.execSh i3 b1 d1 b2 d2 s
  | .mh i3 b1 d1 b2 d2 => Sys2Proof.Machine.execMh i3 b1 d1 b2 d2 s
  | .dh i3 b1 d1 b2 d2 => Sys2Proof.Machine.execDh i3 b1 d1 b2 d2 s
  | .enq i3 b1 d1 b2 d2 => Sys2Proof.Machine.execEnq i3 b1 d1 b2 d2 s
  | .srch i3 b1 d1 b2 d2 => Sys2Proof.Machine.execSrch i3 b1 d1 b2 d2 s
  | .clh i3 b1 d1 b2 d2 => Sys2Proof.Machine.execClh i3 b1 d1 b2 d2 s

end Sys2Proof.Machine
end

