-- ==== Sys2Proof/Machine/Env.lean ====
section
/-! DEFINITION. What the outside world does to the machine: the events of R416, R427, R431 to R437 and of the control panel
(70_reset_and_hazards.md, R471 to R479). How they are scheduled is the model's own (log 33). -/

namespace Sys2Proof.Machine

/-- A unit's status changes. -/
def State.setStatus (s : State) (u : Fin 11) (ush : Word) (offline : Bool) : State :=
  s.setUnit u { s.unit u with ush := ush, offline := offline }

/-- A unit presents a status and requests an interrupt (R416). -/
def State.requestInterrupt (s : State) (u : Fin 11) (ush : Word) : State :=
  s.setUnit u { s.unit u with ush := ush, request := true }

/-- The panel's status bits (R436): INT RUN, the INTERRUPT button, Parity Check. -/
def panelBitRun : Word := 0x8000
def panelBitButton : Word := 0x4000
def panelBitParity : Word := 0x2000

/-- The panel's unit. -/
def panelUnit : Fin 11 := 5

/-- The status bits of the panel's causes that are pending: INT RUN and the button with the request, and the Parity Check. -/
def State.panelCauses (s : State) : Word :=
  (if (s.unit panelUnit).request then (s.unit panelUnit).ush &&& (panelBitRun ||| panelBitButton) else 0) |||
    (if s.parityPending then panelBitParity else 0)

/-- The panel requests an interrupt for a cause. The bits of the causes still pending stay; those of an interrupt taken stay only
until then, which the spec leaves open (DESIGN CHOICE, log 43). -/
def State.panelRequest (s : State) (bit : Word) : State := s.requestInterrupt panelUnit (s.panelCauses ||| bit)

/-- A Parity Check: pending, shown in the panel's status and on the PAR STOP light (R436). -/
def State.parityEvent (s : State) : State :=
  let t := s.setUnit panelUnit { s.unit panelUnit with ush := s.panelCauses ||| panelBitParity }
  { t with parityPending := true, panel := { t.panel with parStopLight := true } }

/-- The terminal interfaces' units. -/
def terminalUnit (host : Bool) : Fin 11 := if host then 3 else 6

/-- Status bits come on at a terminal, and with them the interrupt where it follows. -/
def State.terminalStatus (s : State) (host : Bool) (bits : Word) (follows : Bool) : State :=
  let l := s.unit (terminalUnit host)
  s.setUnit (terminalUnit host) { l with ush := l.ush ||| bits, request := l.request || follows }

/-- A terminal receives a character: Input Ready, and the interrupt where the codes then enable it; Overrun, where the last one was
not read (it is lost), and Parity Error (R431, R432). Codes that a later Control sets do not make the interrupt follow, and the
character's upper byte is the event's (DESIGN CHOICE, log 42). -/
def State.terminalInput (s : State) (host : Bool) (char : Word) (parity : Bool) : State :=
  let t := s.setTerminal host { s.terminalOf host with input := char }
  let overrun := (s.unit (terminalUnit host)).ush &&& bitInputReady != 0
  t.terminalStatus host
    (bitInputReady ||| (if overrun then bitOverrun else 0) ||| (if parity then bitParityError else 0))
    ((s.terminalOf host).codes &&& bitInputReady != 0)

/-- Every register free, as after RESET (R45, R471) and after an aborted instruction (R427). -/
def State.freeRegisters (s : State) : State :=
  { s.consume 16 with regs := Vector.ofFn fun i : Fin 16 => Config.freeWord (s.freeCount + i.val) }

/-- A unit after RESET: no request; online, it is in its reset state too, the disk with its carriage where it is (R471). -/
def State.resetUnit (s : State) (u : Fin 11) : LocalUnit :=
  let l := s.unit u
  if l.offline then { l with request := false }
  else
    { l with request := false, operation := none
             ush := if u.val = unitDisk ∧ s.disk.cylinder = 0 then bitCylinder0 else 0 }

/-- RESET (R471): pending interrupts, an IPL under way and the online units' operations are cleared, Parity Checks corrected, registers
and memory unpredictable; execution is not started. What it does to the rest ("an initialized state", R45) is open: the terminals'
codes and characters, the carriage, the lights but PAR STOP, the switches, dials, run mode and Display Counter, whether the units and
the machine to the S/360 are online, S, T and the META 4A's own USH stay (DESIGN CHOICE, log 35). It acts on a running machine as on a
stopped one, and stops it: R478 has the stopped state necessary for panel manipulations, and R471 does not ask for it (DESIGN CHOICE,
log 43). -/
def State.panelReset (s : State) : State :=
  let t := s.freeRegisters.anyMemory
  { t with
    inhibit := false
    nsi := none
    units := Vector.ofFn t.resetUnit
    parityPending := false
    panel := { t.panel with stopped := true, parStopLight := false, ipl := none }
    interface := { t.interface with selection := none, resetSignal := false } }

/-- The bytes an IPL loads, by the data switches (R472): 640 bytes of sector 0 of cylinder 0 or, with switch 0 up, 202, or
with switch 1 up the record the S/360 sends. Switch 0 counts before 1, and switches 2 to 15 do not count (R472's table gives
neither case; DESIGN CHOICE, log 43). The record is loaded whatever the disk's offline flag and operation, or Interface.online, say: R472
does not say that an IPL needs the disk, or the machine, online and idle; one that fails is the event panelIplFails (DESIGN CHOICE,
log 43). -/
def State.iplRecord (s : State) (record : List Byte) : List Byte :=
  if s.panel.switches.getMsbD 0 then s.disk.cells.readList (sectorStart lastCylinder 0 + 2) 640
  else if s.panel.switches.getMsbD 1 then record
  else s.disk.cells.readList (sectorStart 0 0 + 2) 640

/-- The IPL button (R472, R473): the IPL-ING light goes on, and the record is to be loaded by the CPU's next turn. -/
def State.panelIpl (s : State) (record : List Byte) : State :=
  { s with panel := { s.panel with iplLight := true, ipl := some (s.iplRecord record) } }

/-- IPL (R473), a turn of the CPU's firmware (R66): the record is stored from location 0 byte by byte, MSR and PC are loaded from its
first two halfwords, with the units' accesses before and after each of these (R61, log 50), and execution starts: in RUN mode, wherever
the MODE SELECT dial stands, which R473 does not say; and the disk's carriage and status are left as they were, of which R472 says
nothing (DESIGN CHOICE, log 43). -/
def State.initialLoad (s : State) (record : List Byte) : State :=
  let t := ((s.writeBytes 0 record).loadReg 0 0).loadReg 1 2
  { t with
    inhibit := false
    nsi := none
    panel := { t.panel with stopped := false, runMode := .run, iplLight := false, ipl := none } }

/-- STOP (R478): ignored while the machine is online and Initial Select interrupts are disabled. -/
def State.panelStop (s : State) : State :=
  if s.interface.online && !s.selectEnabled then s
  else { s.send .stopB with panel := { s.panel with stopped := true } }

/-- The address the Display Counter gives memory manipulations (R477); bit 15 of an odd counter is dropped (DESIGN CHOICE,
log 43). -/
def State.displayAddress (s : State) : Word := s.panel.displayCounter &&& 0xFFFE

/-- The Display Counter moved to the next halfword (R477). -/
def State.advanceCounter (s : State) : State :=
  { s with panel := { s.panel with displayCounter := s.panel.displayCounter + 2 } }

/-- A register loaded from the panel. A new PC may have the NSI read anew, also where that was loaded (N46, log 31). -/
def State.panelSetReg (s : State) (r : Reg) (v : Word) : State :=
  let t := s.setReg r v
  if r = 1 then { t with nsi := t.nsi.map fun n => { n with loaded := false } } else t

/-- The selected register or halfword loaded from the panel (R477). The NSI is memory or the prefetched halfword (N46, log 31): in
either case what was loaded is what runs next. -/
def State.panelLoad (s : State) (v : Word) : State :=
  match s.panel.registerSelect with
  | .msr => s.panelSetReg 0 v
  | .pc => s.panelSetReg 1 v
  | .nsi =>
    if Config.nsiIsWindow then { s.writeHalf (s.pc &&& 0xFFFE) v with nsi := none }
    else { s with nsi := some { addr := phys (s.pc &&& 0xFFFE), half := v, loaded := true } }
  | .displayCounter => { s with panel := { s.panel with displayCounter := v } }
  | .memoryData => s.writeHalf s.displayAddress v
  | .registerData => s.panelSetReg (s.panel.displayCounter.extractLsb' 0 4) v

/-- The halfword the panel shows (R44, R477): the selected register, or the halfword of memory that the Display Counter addresses.
Bits 4 and 5 of register 0 are free (R27, U1, log 3). The NSI is memory at the PC or the prefetched halfword (N46, log 31). -/
def State.display (s : State) : Word :=
  match s.panel.registerSelect with
  | .msr => s.reg 0
  | .pc => s.pc
  | .nsi =>
    let m := s.readHalf (s.pc &&& 0xFFFE)
    match s.nsi with
    | some n => if n.addr = phys (s.pc &&& 0xFFFE) && !Config.nsiIsWindow then n.half else m
    | none => m
  | .displayCounter => s.panel.displayCounter
  | .memoryData => s.readHalf s.displayAddress
  | .registerData => s.reg (s.panel.displayCounter.extractLsb' 0 4)

/-- START (R479, R477): in a running mode execution continues; with the dial at LOAD the data switches are loaded, which R477 does
not say (DESIGN CHOICE, log 43), at DISPLAY the selection is shown, and in both the counter steps after memory. Only a stopped
machine answers. The mode of running is taken from the dial here, and the dial turned while the machine runs has no effect until the
next START, which R479 does not say (DESIGN CHOICE, log 43). -/
def State.panelStart (s : State) : State :=
  if !s.panel.stopped then s
  else
    match s.panel.modeSelect with
    | .load =>
      let t := s.panelLoad s.panel.switches
      if s.panel.registerSelect = .memoryData then t.advanceCounter else t
    | .display =>
      let t := s.send (.panelDisplay s.display)
      if s.panel.registerSelect = .memoryData then t.advanceCounter else t
    | m => { s with panel := { s.panel with stopped := false, runMode := m } }

/-- CLEAR (R477): zeros what is being loaded; that is also the halfword of memory, where the dial is at MEMORY DATA, and the counter
stays (DESIGN CHOICE, log 43). -/
def State.panelClear (s : State) : State :=
  if s.panel.stopped && s.panel.modeSelect == .load then s.panelLoad 0 else s

/-- The memory clear (R475): of a stopped machine with its dials at MEMORY DATA and LOAD. -/
def State.panelClearMemory (s : State) : State :=
  if s.panel.stopped && s.panel.registerSelect == .memoryData && s.panel.modeSelect == .load then
    { s with mem := { cells := [] } }
  else s

/-- What an event does. A selection that comes while an earlier one is pending replaces it (R41 says nothing of a second one; DESIGN
CHOICE, log 39). -/
def State.apply (s : State) : Event → State
  | .request u ush => s.requestInterrupt u ush
  | .status u ush offline => s.setStatus u ush offline
  | .complete u columns checkFails lastCard => s.complete u columns checkFails lastCard
  | .transfer u k column => s.transferEarly u k column
  | .terminalInput host char parity => s.terminalInput host char parity
  | .terminalBreak host => s.terminalStatus host bitBreak true
  | .terminalAttention host => s.terminalStatus host bitAttention true
  | .clearedByB bits => { s with ownUsh := s.ownUsh &&& ~~~bits }
  | .memoryWrite a bytes => s.writeBytes a bytes
  | .parityCheck => s.parityEvent
  | .select d c => { s with interface := { s.interface with selection := some { device := d, command := c } } }
  | .s360Reset => { s with interface := { s.interface with resetSignal := true } }
  | .s360Online on => { s with interface := { s.interface with online := on } }
  | .panelReset => s.panelReset
  | .panelIpl record => s.panelIpl record
  | .panelIplFails => { s with panel := { s.panel with iplLight := true, ipl := none } }
  | .panelClearMemory => s.panelClearMemory
  | .panelStop => s.panelStop
  | .panelStart => s.panelStart
  | .panelClear => s.panelClear
  | .panelInterrupt => s.panelRequest panelBitButton
  | .panelSwitches w => { s with panel := { s.panel with switches := w } }
  | .panelRegisterSelect r => { s with panel := { s.panel with registerSelect := r } }
  | .panelModeSelect m => { s with panel := { s.panel with modeSelect := m } }

/-- Whether the event moves a unit's data in memory (R61). -/
def Event.stealsCycles : Event → Bool
  | .complete .. | .transfer .. | .memoryWrite .. => true
  | .request .. | .status .. | .terminalInput .. | .terminalBreak _ | .terminalAttention _ | .clearedByB _ | .parityCheck
  | .select .. | .s360Reset | .s360Online _ | .panelReset | .panelIpl _ | .panelIplFails | .panelClearMemory | .panelStop
  | .panelStart | .panelClear | .panelInterrupt | .panelSwitches _ | .panelRegisterSelect _ | .panelModeSelect _ => false

/-- An access of the turn taken back, and done again. -/
def State.undo (s : State) (w : Access) : State :=
  { s with mem := w.stored.foldl (fun m b => m.write (phys b.addr) b.old) s.mem }

/-- The byte at `a` as the access just before read it. -/
def State.latched (s : State) (a : Word) : Byte :=
  match s.wrote with
  | .read bs :: _ => (bs.lookup a).getD (s.byteAt a)
  | _ => s.byteAt a

/-- What a byte's store puts there now: a copied byte as it has now been read. -/
def Stored.value (b : Stored) (s : State) : Byte :=
  match b.source with
  | some a => s.latched a ||| b.ored
  | none => b.new

/-- What the list of accesses says of one done again. -/
def Access.again (s : State) : Access → Access
  | .store bs => .store (bs.map fun b => { b with old := s.byteAt b.addr, new := b.value s })
  | .read bs => .read (bs.map fun b => (b.1, s.byteAt b.1))

def State.redo (s : State) (w : Access) : State :=
  { s with
    mem := w.stored.foldl (fun m b => m.write (phys b.addr) (b.value s)) s.mem
    wrote := w.again s :: s.wrote }

/-- Something done behind the first `n` accesses of the turn that led to `s`: it finds memory as those left it, and the turn's later
accesses come after it. -/
def State.behind (s : State) (n : Nat) (f : State → State) : State :=
  let later := s.wrote.take (s.wrote.length - n)
  let before := { later.foldl State.undo s with wrote := s.wrote.drop (s.wrote.length - n) }
  later.reverse.foldl State.redo { f before with wrote := before.wrote, loaded := s.loaded }

/-- The loads of registers that come after the first `n` of the turn's loads, done again. -/
def State.reload (s : State) (n : Nat) : State := (s.loaded.drop n).foldl (fun t l => t.setReg l.1 (t.readHalf l.2)) s

/-- An event that falls after the first `n` accesses of the turn that led to `s`, or, all of them done, so many of its interrupt's
loads (R56, R61; log 50): a unit sees memory as those left it, and the turn's later accesses and loads come after the unit's. What
is no unit's access comes after the whole turn. -/
def State.land (s : State) (n : Nat) (e : Event) : State :=
  if e.stealsCycles then (s.behind n fun t => t.apply e).reload (n - s.wrote.length) else (s.apply e).indivisible

/-- The events that fall within a turn, after it: `n` accesses of the turn come before the first, and each comes behind the one before
it in the list. A completion is never among the numbered accesses: due there, it comes right behind them, or behind the event before
it, so that no event after it comes before it (R61, log 50). -/
def State.landAll (s : State) (n : Nat) : List Due → State
  | [] => s
  | d :: ds =>
    match d.moment with
    | .between => s.landAll n ds
    | .reading _ => (if d.event.onlyMoves then s else s.land n d.event).landAll n ds
    | .storing m => (s.land (n + m) d.event).landAll (n + m) ds

/-- An event comes right behind the last of the accesses listed. -/
def attach (e : Event) (xs : List Snapshot) : List Snapshot :=
  match xs.getLast? with
  | none => []
  | some x => xs.dropLast ++ [{ x with next := x.next ++ [e] }]

/-- The events that fall among a turn's numbered accesses, before it: each is in memory from the start, and the reads that come
before it see memory as it was. -/
def State.overtake (s : State) : List Due → State
  | [] => s
  | d :: ds =>
    match d.moment with
    | .reading k =>
      (if d.event.onlyMoves then
        { s.move d.event with
          wrote := s.wrote
          earlier := attach d.event (s.earlier ++ List.replicate k { mem := s.mem, units := s.units }) }
      else s).overtake ds
    | .between | .storing _ => s.overtake ds

end Sys2Proof.Machine
end

