-- ==== Sys2Proof/Machine/Cycle.lean ====
section
/-! DEFINITION. The machine's cycle (R37): fetching and running an instruction, taking I/O and S/360 interrupts, waiting,
stopping. -/

namespace Sys2Proof.Machine

/-! ## Instructions -/

/-- The address of the instruction's `k`-th halfword: bit 15 of the PC is ignored (R22). -/
def State.fetchAddress (s : State) (k : Word) : Word := (s.pc + 2 * k) &&& 0xFFFE

/-- The `k`-th halfword as it is fetched, read number `k + 1` of the turn: the first is the test of the I/O mask (log 50). -/
def State.fetchHalf (s : State) (k : Nat) : Word := (s.seenAt (k + 1)).readHalf (s.fetchAddress (BitVec.ofNat 16 k))

/-- The instruction's first halfword: memory's, or freely the one read ahead where a store has changed it since (R64), or one that
the panel has loaded (N46; log 31). -/
def State.firstHalf (s : State) : Word :=
  match s.nsi with
  | some n =>
    if n.addr = phys (s.fetchAddress 0) && (n.loaded || Config.freeBit s.freeCount) then n.half else s.fetchHalf 0
  | none => s.fetchHalf 0

/-- The state an instruction of `n` halfwords runs in: the PC is past it (R21), the inhibit is off (R37), bits 4 and 5 of
register 0 are free anew (U1), the next halfword may have been read ahead (R64), and the operands' reads follow the fetch's
(log 50). The read ahead comes at a free moment among the operands' reads, so before or after a unit's store that falls there, and
before the instruction's own stores: R64 does not say when (DESIGN CHOICE, log 31). -/
def State.prepared (s : State) (n : Word) : State :=
  let t := s.setReg 1 (s.pc + 2 * n)
  let ahead := s.seenAt (4 + (Config.freeWord (s.freeCount + 2)).toNat)
  { t.consume 3 with
    inhibit := false
    runningIlc := Config.freeIlc (s.freeCount + 1)
    nsi := some { addr := phys (t.fetchAddress 0), half := ahead.readHalf (t.fetchAddress 0) }
    earlier := s.earlier.drop 4 }

/-- After an instruction: STEP stops the machine, INT RUN requests a panel interrupt (R479, R436; log 43). -/
def State.afterInstruction (s : State) : State :=
  match s.panel.runMode with
  | .step => { s with panel := { s.panel with stopped := true } }
  | .intRun => s.panelRequest panelBitRun
  | .run | .load | .display => s

/-- The same of an answer. -/
def afterResult : Result → Result
  | .next s => .next s.afterInstruction
  | .fault f => .fault f
  | .refused r => .refused r

/-- The length in halfwords of the instruction about to run (R73). -/
def State.nextLength (s : State) : Word := BitVec.ofNat 16 (Format.ofOp (opOf s.firstHalf)).halfwords

/-- What the decoder makes of the bytes at the program counter. -/
def State.fetched (s : State) : Except Reject Instr :=
  decode s.firstHalf (s.fetchHalf 1) (s.fetchHalf 2)

/-- Fetch and run one instruction (R37). -/
def runInstruction (s : State) : Result :=
  let t := s.prepared s.nextLength
  match s.fetched with
  | .ok i => afterResult (exec i t)
  | .error (.undetermined op) => .refused (.undeterminedOpcode op)
  | .error _ =>
    afterResult (.next (t.operationInterrupt s.firstHalf (s.fetchHalf 1) (s.fetchHalf 2)))

/-! ## I/O interrupts -/

/-- The units in priority order (R419). -/
def allUnits : List (Fin 11) := [0, 1, 2, 3, 4, 5, 6, 7, 8, 9, 10]

/-- The unit's bit of the I/O mask at 2E (R418), the turn's first read (log 50). -/
def State.maskAllows (s : State) (u : Fin 11) : Bool := ((s.seenAt 0).readHalf 0x2E).getMsbD u.val

/-- The unit requests and is enabled by MSR.I/O and the mask (R417). -/
def State.unitEnabled (s : State) (u : Fin 11) : Bool := (s.unit u).request && s.ioEnabled && s.maskAllows u

/-- The panel's further grounds: a Parity Check enabled by MSR.P alone (decision D19), and INT RUN, where the machine does
not gate it (R436, log 43). -/
def State.panelDue (s : State) : Bool :=
  (s.parityPending && s.parityEnabled) ||
    ((s.unit panelUnit).request && (s.unit panelUnit).ush &&& panelBitRun != 0 && !Config.intRunGated)

/-- Whether the unit's interrupt is to be taken. -/
def State.unitDue (s : State) (u : Fin 11) : Bool := s.unitEnabled u || (u == panelUnit && s.panelDue)

/-- The unit whose interrupt is taken: the lowest (R419). -/
def State.dueUnit (s : State) : Option (Fin 11) := allUnits.find? s.unitDue

/-- The request flags after unit `u`'s interrupt (R417): the request is reset, but not the META 4B's, which only its Control
clears (R437, log 41); a Parity Check that was enabled is no longer pending, and one that stays is all the panel shows. The panel's
request is reset also where it was the Parity Check's interrupt that was taken, and MSR.I/O or the mask still held the request:
R417 has one request of a unit, R32 and R41 would hold it (DESIGN CHOICE, log 32). -/
def State.resetRequest (s : State) (u : Fin 11) (parity : Bool) : State :=
  let l := s.unit u
  s.setUnit u
    { l with request := l.request && u.val == unitMetaB
             ush := if u == panelUnit && s.parityPending && !parity then panelBitParity else l.ush }
  |> fun t => { t with parityPending := s.parityPending && !(u == panelUnit && parity) }

/-- The interrupt code of unit `u`, with bit 0 on where its table cell is not valid (R417, decision D22). -/
def ioCode (u : Fin 11) (valid : Bool) : Word := BitVec.ofNat 16 u.val ||| (if valid then 0 else 0x8000)

/-- The I/O interrupt of unit `u` (R417). -/
def State.takeIo (s : State) (u : Fin 11) : State :=
  let p := s.readHalf (0x30 + 2 * BitVec.ofNat 16 u.val)
  let t := if ucbValid p then s.writeHalf (p + 2) (s.sensed u) else s
  { (t.asynchronousInterrupt .io (ioCode u (ucbValid p))).resetRequest u s.parityEnabled with nsi := none }

/-! ## The S/360 reset -/

/-- Memory after an aborted instruction that stored to these bytes: each of them is free, whatever it stored there (R427, U21). -/
def abortedMemory (after : Memory) (stored : List Word) (count : Nat) : Memory :=
  stored.foldl (fun m a => m.write (phys a) (Config.freeByte (count + phys a))) after

/-- The S/360 reset (R427): the instruction, which led to `after` and stored to `stored`, is aborted, all registers and those bytes are
free, and so the old PC and MSR (U21, log 19); then the S/360 interrupt with code 2, whatever MSR.IS and the inhibit say. -/
def State.abort (s after : State) (stored : List Word) : State :=
  let t := (if Config.freeBit s.freeCount then after else s).consume 1
  let n := s.freeCount + after.freeCount + 1
  let u := { t with mem := abortedMemory after.mem stored n, inExecute := false, nsi := none, wrote := [], loaded := [], done := []
                    freeCount := n + Config.memSize
                    interface := { t.interface with resetSignal := false } }
  (u.freeRegisters).asynchronousInterrupt .s360 2

/-- The reset taken at the start of a turn: the instruction that turn would have run is the one aborted. Where the model gives
that one no meaning it may have stored anywhere (log 19). -/
def takeReset (s : State) : Result :=
  if s.waiting then .next (s.abort s [])
  else
    match runInstruction s with
    | .next t => .next (s.abort t t.storedTo)
    | .fault _ => .next (s.abort s [])
    | .refused _ => .next (s.abort s.anyMemory [])

/-! ## The cycle -/

/-- One turn of the CPU (R37): an IPL (R473), or else stopped, reset, interrupt (the S/360's first, decision D12), wait, or an instruction. In the
wait state the inhibit is cleared (U4, log 6). A signal of the S/360 counts whether the machine is online or not (R424, R427 do not
say), and the inhibit also delays the answer to a selection that makes no interrupt, of which R37 and R38 say nothing (DESIGN CHOICE,
log 39). An IPL under way comes before all of these (DESIGN CHOICE, log 43). -/
def cpuTurn (s : State) : Result :=
  match s.panel.ipl with
  | some record => .next (s.initialLoad record)
  | none =>
    if s.panel.stopped then .next s
    else if s.interface.resetSignal then takeReset s
    else
      match (if s.inhibit then none else s.interface.selection) with
      | some x => handleSelection x s
      | none =>
        match (if s.inhibit then none else s.dueUnit) with
        | some u => .next (s.takeIo u)
        | none => if s.waiting then .next { s with inhibit := false } else runInstruction s

/-- The event falls within the coming turn (log 50). -/
def Due.lands (d : Due) : Bool := d.turns == 0 && d.moment != .between

/-- What is left of a schedule when a turn is taken: the events that land in it are gone, and the next has one turn less. -/
def passTurn : List Due → List Due
  | [] => []
  | d :: rest => if d.lands then passTurn rest else { d with turns := d.turns - 1 } :: rest

/-- The state at the start of a turn. -/
def State.turnTaken (s : State) : State := { s with schedule := passTurn s.schedule }

/-- The state between turns: of the accesses of the turn before nothing is kept (log 50). -/
def State.settled (s : State) : State := { s with wrote := [], loaded := [], done := [], earlier := [] }

/-- A turn's answer with the events that fall within the turn. -/
def landing (ds : List Due) : Result → Result
  | .next t => .next (t.landAll 0 ds).settled
  | .fault f => .fault f
  | .refused r => .refused r

/-- One step: the next event if it is due, or a turn of the CPU (log 33), with what falls within it (log 50). -/
def advance (s : State) : Result :=
  match s.schedule with
  | { turns := 0, event := e, moment := .between } :: rest => .next ({ s with schedule := rest }.apply e).settled
  | _ =>
    let ds := s.schedule.takeWhile Due.lands
    landing ds (cpuTurn (s.turnTaken.overtake ds))

/-- The state with nothing that would keep the next step from fetching: running, not waiting, nothing pending. -/
def State.cleared (s : State) : State :=
  let t := s.setReg 0 (putBit s.msr 6 false)
  { t with
    nsi := none
    parityPending := false
    units := Vector.ofFn fun i => { s.unit i with request := false }
    panel := { s.panel with stopped := false, ipl := none }
    interface := { s.interface with selection := none, resetSignal := false }
    schedule := []
    earlier := [] }

end Sys2Proof.Machine
end

