-- ==== Sys2Proof/Safety.lean ====
section
/-! DEFINITION. The terms the statements use: what an instruction leaves unchanged, what a result register and a flag hold,
what an interrupt leaves, and the invariant of the machine's states. -/

namespace Sys2Proof.Machine

/-! ## Frames -/

/-- The state without its registers, memory, free-value counter and the turn's accesses (log 50): all the frame of a computing
instruction keeps besides. -/
def State.hidden (s : State) : State :=
  { s with regs := Vector.replicate 16 0, mem := { cells := [] }, freeCount := 0, wrote := [], loaded := [], done := []
           earlier := [] }

/-- No unit accesses memory among the numbered accesses of the instruction (log 50): each read sees memory as it is. -/
abbrev Undisturbed (s : State) : Prop := s.earlier = []

/-- The byte at `a` is one of the `n` bytes from `e` on: addresses that differ by the memory's size are one byte (R47). -/
def Touched (e : Word) (n : Nat) (a : Word) : Prop := ∃ k, k < n ∧ phys a = phys (e + BitVec.ofNat 16 k)

/-- No byte at all, and the bytes of either of two sets: which bytes an instruction may store to. -/
def noByte (_ : Word) : Prop := False
def either (p q : Word → Prop) (a : Word) : Prop := p a ∨ q a

/-- Every byte of memory but those of `stored` reads as before. -/
def MemoryKept (s t : State) (stored : Word → Prop) : Prop := ∀ a, ¬ stored a → t.byteAt a = s.byteAt a

/-- Every register but those of `rs`, and register 0, reads as before. -/
def RegistersKept (s t : State) (rs : List Reg) : Prop := ∀ r, r ≠ 0 → r ∉ rs → t.stored r = s.stored r

/-- Every bit of the MSR but those of `bits`, in the manual's numbering, is as before. -/
def MsrKept (s t : State) (bits : List Nat) : Prop := ∀ i, i ∉ bits → t.msr.getMsbD i = s.msr.getMsbD i

/-- The frame of an instruction that writes the registers `rs`, the MSR bits `bits` and the bytes of `stored`: nothing else
changes. Where register 0 is among `rs` all of the MSR may change. -/
def Frame (s t : State) (rs : List Reg) (bits : List Nat) (stored : Word → Prop) : Prop :=
  RegistersKept s t rs ∧ (0 ∉ rs → MsrKept s t bits) ∧ MemoryKept s t stored ∧ t.hidden = s.hidden

/-! ## Results -/

/-- Register `r` holds `v`. Where `r` is register 0, the condition-code bits the instruction also writes are left out (U2). -/
def Holds (t : State) (r : Reg) (v : Word) (bits : List Nat) : Prop :=
  ∀ i, (r = 0 → i ∉ bits) → (t.stored r).getMsbD i = v.getMsbD i

/-- MSR bit `i` is `b`; where the instruction's result `v` went to register 0 it may be the result's bit instead (U2). -/
def Flag (t : State) (i : Nat) (b : Bool) (r : Reg) (v : Word) : Prop :=
  t.msr.getMsbD i = b ∨ (r = 0 ∧ t.msr.getMsbD i = v.getMsbD i)

/-- C0, C1, C2 are exactly these. -/
def Condition (t : State) (a b c : Bool) : Prop := t.c0 = a ∧ t.c1 = b ∧ t.c2 = c

/-- Byte `k` of `bs` stands at `e + k`, for every `k` but where a later byte of a field longer than memory falls on it (R47). -/
def BytesAt (t : State) (e : Word) (bs : List Byte) : Prop :=
  ∀ k, (h : k < bs.length) → bs.length ≤ k + Config.memSize → t.byteAt (e + BitVec.ofNat 16 k) = bs[k]

/-- The instruction answers a next state of which `P` holds. -/
def Completes (i : Instr) (s : State) (P : State → Prop) : Prop := ∃ t, exec i s = .next t ∧ P t

/-- It puts `v` in register `r` and does nothing else. -/
def RegisterResult (i : Instr) (s : State) (r : Reg) (v : Word) : Prop :=
  Completes i s fun t => t.stored r = v ∧ Frame s t [r] [] noByte

/-- It puts `v` in register `r` and `b` in MSR bit `n`, and does nothing else. -/
def FlaggedResult (i : Instr) (s : State) (r : Reg) (v : Word) (n : Nat) (b : Bool) : Prop :=
  Completes i s fun t => Holds t r v [n] ∧ Flag t n b r v ∧ Frame s t [r] [n] noByte

/-- It puts `v` in the registers `r` and `r + 1`, the high-order half first, and `b` in MSR bit `n`, and does nothing else. -/
def FlaggedPair (i : Instr) (s : State) (r : Reg) (v : BitVec 32) (n : Nat) (b : Bool) : Prop :=
  Completes i s fun t =>
    Holds t r (v.extractLsb' 16 16) [n] ∧ t.stored (r + 1) = v.extractLsb' 0 16 ∧
      Flag t n b r (v.extractLsb' 16 16) ∧ Frame s t [r, r + 1] [n] noByte

/-- It sets C0, C1, C2 and does nothing else. -/
def Compared (i : Instr) (s : State) (a b c : Bool) : Prop :=
  Completes i s fun t => Condition t a b c ∧ Frame s t [] [0, 1, 2] noByte

/-- It stores the halfword `v` at `e` and does nothing else. -/
def HalfStored (i : Instr) (s : State) (e v : Word) : Prop :=
  Completes i s fun t => t.readHalf e = v ∧ Frame s t [] [] (Touched e 2)

/-- It stores the bytes `bs` from `e` on and does nothing else. -/
def BytesStored (i : Instr) (s : State) (e : Word) (bs : List Byte) : Prop :=
  Completes i s fun t => BytesAt t e bs ∧ Frame s t [] [] (Touched e bs.length)

/-! ## Interrupts -/

/-- `t` is `s` after an interrupt (R398): old MSR (but for its ILC), old PC and code are stored in the class's cells, MSR and
PC are loaded from them, and nothing else changes. -/
def Switched (s t : State) (c : InterruptClass) (code : Word) : Prop :=
  (∀ i, i ≠ 4 → i ≠ 5 → (t.readHalf c.base).getMsbD i = s.msr.getMsbD i) ∧
    t.readHalf (c.base + 2) = s.pc ∧ t.readHalf (c.base + 4) = code ∧
    t.msr = s.readHalf (c.base + 6) ∧ t.pc = s.readHalf (c.base + 8) ∧ Frame s t [0, 1] [] (Touched c.base 6)

/-- The same of an SVC or Program interrupt: the ILC stored is the length of the instruction, where that is not the subject
of an EX (R399, U14). -/
def Interrupted (s t : State) (c : InterruptClass) (ilc : BitVec 2) (code : Word) : Prop :=
  Switched s t c code ∧ (s.inExecute = false → (t.readHalf c.base).extractLsb' 10 2 = ilc)

/-- The instruction does nothing but take a Program interrupt. -/
def Traps (i : Instr) (s : State) (ilc : BitVec 2) (c : ProgramCode) : Prop :=
  Completes i s fun t => Interrupted s t .program ilc c.code

/-! ## The step -/

/-- The invariant of the machine's states: both memories in canonical form, the carriage on the cartridge, and between steps
no instruction the subject of an EX, nothing kept of a turn's accesses. -/
def Inv (s : State) : Prop :=
  s.mem.wf Config.memSize = true ∧ s.disk.cells.wf diskSize = true ∧ s.disk.cylinder ≤ lastCylinder ∧ s.inExecute = false ∧
    s.wrote = [] ∧ s.loaded = [] ∧ s.done = [] ∧ Undisturbed s

/-- What the last of a list of a turn's accesses, the latest first, stores in the byte at `c`, if any of them stores there
(log 50). -/
def lastAt (l : List Access) (c : Word) : Option Stored :=
  (l.flatMap fun w => w.stored.reverse).find? fun x => phys x.addr == phys c

/-- The next step is a turn of the CPU, no event is due or falls within it (logs 33, 50), and no IPL is under way (log 43). -/
abbrev Quiet (s : State) : Prop := (∀ d ∈ s.schedule.head?, 0 < d.turns) ∧ Undisturbed s ∧ s.panel.ipl = none

/-- The same, of a machine that is not stopped and to which no S/360 reset is signalled. -/
def Turn (s : State) : Prop := Quiet s ∧ s.panel.stopped = false ∧ s.interface.resetSignal = false

/-- The next step fetches an instruction (R37): no interrupt is to be taken, or they are inhibited, and there is no wait. -/
def Ready (s : State) : Prop :=
  Turn s ∧ (s.inhibit = true ∨ (s.interface.selection = none ∧ s.dueUnit = none)) ∧ s.waiting = false

/-- The state an instruction runs in: its halfwords fetched (R21, R37). -/
def State.running (s : State) : State := s.turnTaken.prepared s.nextLength

end Sys2Proof.Machine
end

