-- ==== Sys2Proof/WellFormed.lean ====
section
/-! DEFINITION. Which instructions are well formed. No field of an encoding is reserved or must be zero (R93, R97), so the one
check is the S/360 device number of EXCC, TRB and SS: 0 to 3 for devices 050 to 053 (R385, R423). -/

namespace Sys2Proof

/-- A device number the spec defines (R423, R385: "device numbers 4 to 15 are not defined"). -/
def deviceDefined (d : Reg) : Bool := d.toNat < 4

/-- The instruction names only what the spec defines. -/
def Instr.wellFormed : Instr → Bool
  | .excc r1 _ => deviceDefined r1
  | .trb r1 _ _ _ => deviceDefined r1
  | .ss r1 _ _ _ => deviceDefined r1
  | _ => true

end Sys2Proof
end

