-- ==== Sys2Proof/Certificates/Slice0/Obligations.lean ====
section
/-! DEFINITION. The statements about the machine, for the provers. -/

open Sys2Proof Sys2Proof.Machine

/-! ## Encoding -/

/-- Words written out from the examples of the rules decode to what they stand for, one or more of each format. -/
def Obligations.ExampleWordsDecode : Prop :=
  decode 0x3343 0 0 = .ok (.lr 4 3) ∧ decode 0x3105 0 0 = .ok (.svc 5) ∧
  decode 0xB360 0x1234 0 = .ok (.li 6 0 0x1234) ∧ decode 0x9324 0x8000 0 = .ok (.lm 2 4 8 0) ∧
  decode 0x7320 0x8010 0 = .ok (.l 2 0 8 0x010) ∧ decode 0xA920 0x0004 0 = .ok (.tbp 2 0 4) ∧
  decode 0x8107 0x8100 0 = .ok (.svcs 7 8 0x100) ∧ decode 0xF102 0x8000 0x9004 = .ok (.svcd 2 8 0 9 4) ∧
  decode 0xC250 0x804F 0x0040 = .ok (.slne 80 8 0x04F 0 0x040) ∧
  decode 0xDD05 0x8000 0x9000 = .ok (.strl 0 5 8 0 9 0)

/-- Decoding the bytes of an instruction gives it back, whatever bytes follow: no bit of any encoding is dropped. -/
def Obligations.DecodeInvertsEncode : Prop :=
  ∀ (i : Instr) (rest : List Byte), decodeBytes (encodeBytes i ++ rest) = .ok (i, (encodeBytes i).length)

/-- Whatever bytes decode are the bytes of the instruction they decode to: each instruction has one encoding. -/
def Obligations.EncodeInvertsDecode : Prop :=
  ∀ (bs : List Byte) (i : Instr) (n : Nat), decodeBytes bs = .ok (i, n) → n ≤ bs.length ∧ encodeBytes i = bs.take n

/-! ## Reset, the invariant, the step -/

/-- What IPL and RESET leave: the IPL button lights the IPL-ING light and gives the CPU's next turn the record to load (that it is a
turn of its own, before all else, is the model's choice, log 43); after that turn the record stands from location 0 on, the MSR and the
PC are its first two halfwords, the light is off, and the machine runs; after RESET nothing is pending and the machine is stopped; the
reset state is such a state. -/
def Obligations.ResetAndIpl : Prop :=
  (∀ (s : State) (record : List Byte), let t := s.apply (.panelIpl record)
    t.panel.ipl = some (s.iplRecord record) ∧ t.panel.iplLight = true ∧ t.mem = s.mem ∧ t.regs = s.regs) ∧
  (∀ (s : State) (record : List Byte), s.panel.ipl = some record → (∀ d ∈ s.schedule.head?, 0 < d.turns) →
    ∃ t, step s = .next t ∧ BytesAt t 0 record ∧ MemoryKept s t (Touched 0 record.length) ∧
      t.msr = t.readHalf 0 ∧ t.pc = t.readHalf 2 ∧ RegistersKept s t [1] ∧ t.inhibit = false ∧
      t.panel.stopped = false ∧ t.panel.iplLight = false ∧ t.panel.ipl = none) ∧
  (∀ s : State, let t := s.apply .panelReset
    (∀ u, (t.unit u).request = false ∧ ((s.unit u).offline = false → (t.unit u).operation = none)) ∧
      t.parityPending = false ∧
      t.interface.selection = none ∧ t.inhibit = false ∧ t.panel.stopped = true ∧ t.panel.ipl = none) ∧
  State.reset.msr = State.reset.readHalf 0 ∧ State.reset.pc = State.reset.readHalf 2 ∧ State.reset.inhibit = false ∧
  (∀ u, (State.reset.unit u).request = false) ∧ State.reset.parityPending = false ∧ State.reset.interface.selection = none

/-- The reset state satisfies the invariant. -/
def Obligations.ResetSatisfiesInvariant : Prop := Inv State.reset

/-- Every step keeps the invariant, from every state that has it. -/
def Obligations.StepKeepsInvariant : Prop := ∀ s t : State, Inv s → step s = .next t → Inv t

/-- A step that fetches runs the decoded instruction on the state with the PC past it and the inhibit off: the other registers,
memory, the units, the panel and all that a frame keeps are as they were, but for the model's own bookkeeping and the halfword
that may be read ahead (logs 3, 31, 33, 50). -/
def Obligations.StepRunsDecodedInstruction : Prop :=
  ∀ (s : State) (i : Instr), Ready s →
    decode s.firstHalf (s.readHalf (s.fetchAddress 1)) (s.readHalf (s.fetchAddress 2)) = .ok i → i.wellFormed = true →
    (∀ t, afterResult (exec i s.running) = .next t → step s = .next t.settled) ∧
      (∀ f, afterResult (exec i s.running) = .fault f → step s = .fault f) ∧
      (∀ q, afterResult (exec i s.running) = .refused q → step s = .refused q) ∧
      (∀ t : State, t.settled = { t with wrote := [], loaded := [], done := [], earlier := [] }) ∧
      s.running.pc = s.pc + 2 * BitVec.ofNat 16 (Format.ofOp (opOf s.firstHalf)).halfwords ∧
      (∀ r, r ≠ 1 → s.running.stored r = s.stored r) ∧ s.running.mem = s.mem ∧ s.running.inhibit = false ∧
      s.running.hidden = { s with inhibit := false, nsi := s.running.nsi, runningIlc := s.running.runningIlc
                                  schedule := s.running.schedule }.hidden ∧ Undisturbed s.running ∧
      (s.nsi = none → s.firstHalf = s.readHalf (s.fetchAddress 0)) ∧
      (∀ k, s.fetchAddress k = (s.pc + 2 * k) &&& 0xFFFE) ∧
      (∀ t : State, t.panel.runMode = .run → afterResult (.next t) = .next t) ∧
      (∀ t : State, t.panel.runMode = .step →
        afterResult (.next t) = .next { t with panel := { t.panel with stopped := true } })

/-- A stopped machine takes no step, where no IPL is under way (log 43), and a machine in the wait state with nothing to take only
waits: of the whole state nothing changes but the schedule's count of turns and the turn's accesses (both the model's own, logs 33,
50) and the inhibit (log 6). -/
def Obligations.StoppedAndWaiting : Prop :=
  (∀ s : State, s.panel.stopped = true → Quiet s → step s = .next s.turnTaken.settled) ∧
  (∀ s : State, Turn s → s.waiting = true →
    (s.inhibit = true ∨ (s.interface.selection = none ∧ s.dueUnit = none)) →
    step s = .next { s.turnTaken.settled with inhibit := false }) ∧
  (∀ s : State, s.turnTaken.settled = { s with schedule := s.turnTaken.schedule, wrote := [], loaded := [], done := [], earlier := [] })

/-! ## Registers and memory -/

/-- A register operand is the register's contents, but for bits 4 and 5 of register 0, which are not specified; a base field
of 0 adds 0; a write of a register changes that register and no other. -/
def Obligations.RegisterAccess : Prop :=
  (∀ (s : State) (r : Reg), r ≠ 0 → s.reg r = s.stored r ∧ s.base r = s.stored r) ∧
  (∀ (s : State) (i : Nat), i ≠ 4 → i ≠ 5 → (s.reg 0).getMsbD i = s.msr.getMsbD i) ∧
  (∀ s : State, s.base 0 = 0) ∧
  (∀ (s : State) (r : Reg) (v : Word), (s.setReg r v).stored r = v ∧
    ∀ q, q ≠ r → (s.setReg r v).stored q = s.stored q)

/-- Memory wraps at its end, a halfword has its high-order byte first, and a stored byte is read back and no other changes. -/
def Obligations.MemoryAccess : Prop :=
  (∀ (s : State) (a : Word), s.byteAt (a + 0x8000) = s.byteAt a) ∧
  (∀ (s : State) (a c : Word) (b : Byte),
    (s.setByte a b).byteAt c = if c.toNat % 32768 = a.toNat % 32768 then b else s.byteAt c) ∧
  (∀ (s : State) (a : Word), s.readHalf a = s.byteAt a ++ s.byteAt (a + 1)) ∧
  (∀ (s : State) (a w : Word), (s.writeHalf a w).readHalf a = w ∧ (s.writeHalf a w).byteAt a = w.extractLsb' 8 8 ∧
    MemoryKept s (s.writeHalf a w) (Touched a 2))

/-! ## Interrupts -/

/-- The interrupt sequence, of every class: what is stored, what is loaded, and that nothing else changes. -/
def Obligations.InterruptSequence : Prop :=
  InterruptClass.svc.base = 0x04 ∧ InterruptClass.program.base = 0x0E ∧ InterruptClass.io.base = 0x18 ∧
  InterruptClass.s360.base = 0x22 ∧
  (∀ (s : State) (c : InterruptClass) (ilc : BitVec 2) (code : Word),
    Interrupted s (s.synchronousInterrupt c ilc code) c ilc code) ∧
  (∀ (s : State) (c : InterruptClass) (code : Word), Switched s (s.asynchronousInterrupt c code) c code)

/-- SVC, SVCS and SVCD take the SVC interrupt with their byte as the code, registers 2 and 3 loaded first. -/
def Obligations.SupervisorCalls : Prop :=
  ∀ (s : State) (i : Byte) (b1 : Reg) (d1 : Disp) (b2 : Reg) (d2 : Disp),
    Completes (.svc i) s (fun t => Interrupted s t .svc 1 (i.setWidth 16)) ∧
    Completes (.svcs i b1 d1) s (fun t => Interrupted (s.setReg 2 (s.ea b1 d1)) t .svc 2 (i.setWidth 16)) ∧
    Completes (.svcd i b1 d1 b2 d2) s
      (fun t => Interrupted ((s.setReg 2 (s.ea b1 d1)).setReg 3 (s.ea b2 d2)) t .svc 3 (i.setWidth 16))

/-- An unassigned operation code writes the scan-out area, by its format, and takes the Operation interrupt with the length
of its format. -/
def Obligations.UnassignedCodeTakesOperationInterrupt : Prop :=
  (∀ (s : State) (op : Byte), Ready s → s.fetched = .error (.unassigned op) →
    step s = .next (s.running.operationInterrupt s.firstHalf (s.readHalf (s.fetchAddress 1))
      (s.readHalf (s.fetchAddress 2))).afterInstruction.settled) ∧
  (∀ (s : State) (h0 h1 h2 : Word), let t := s.operationInterrupt h0 h1 h2
    t.readHalf 0x52 = h0 ∧
    (match Format.ofOp (opOf h0) with
      | .rr => t.readHalf 0x56 = 4 * (field1 h0).setWidth 16 ∧ t.readHalf 0x58 = 4 * (field2 h0).setWidth 16
      | .ri => t.readHalf 0x56 = 4 * (field1 h0).setWidth 16 ∧ t.readHalf 0x5A = h1
      | .rs => t.readHalf 0x56 = 4 * (field1 h0).setWidth 16 ∧ t.readHalf 0x58 = s.ea (baseField h1) (dispField h1)
      | .rx => t.readHalf 0x56 = 4 * (field1 h0).setWidth 16 ∧
          t.readHalf 0x58 = s.eaRX (field2 h0) (baseField h1) (dispField h1)
      | .bx => t.readHalf 0x56 = 4 * (field1 h0).setWidth 16 ∧ t.readHalf 0x58 = s.branchBX (field2 h0) h1
      | .si => t.readHalf 0x56 = s.ea (baseField h1) (dispField h1) ∧ t.readHalf 0x5A = (byteField h0).setWidth 16
      | .fss => t.readHalf 0x56 = s.ea (baseField h1) (dispField h1) ∧
          t.readHalf 0x58 = s.ea (baseField h2) (dispField h2)
      | .vss => t.readHalf 0x54 = (byteField h0).setWidth 16 ∧ t.readHalf 0x56 = s.ea (baseField h1) (dispField h1) ∧
          t.readHalf 0x58 = s.ea (baseField h2) (dispField h2)
      | .vssLong => t.readHalf 0x54 = s.reg (field2 h0) ∧ t.readHalf 0x56 = s.ea (baseField h1) (dispField h1) ∧
          t.readHalf 0x58 = s.ea (baseField h2) (dispField h2)) ∧
    (∀ i, i ≠ 4 → i ≠ 5 → (t.readHalf 0x0E).getMsbD i = s.msr.getMsbD i) ∧
    (s.inExecute = false → (t.readHalf 0x0E).extractLsb' 10 2 = BitVec.ofNat 2 (Format.ofOp (opOf h0)).halfwords) ∧
    t.readHalf 0x10 = s.pc ∧ t.readHalf 0x12 = 0x02 ∧ t.msr = s.readHalf 0x14 ∧ t.pc = s.readHalf 0x16 ∧
    Frame s t [0, 1] [] (either (Touched 0x52 10) (Touched 0x0E 6)))

/-- A halfword operand at an odd address takes the Alignment interrupt and changes nothing else: the address itself, the
pointer of a deferred form, and the current-top pointer of a stack. That LDR and STDR with an R2 field of 0 address memory by
register 0 is the spec's open point U3 (log 5). Pointers are read where no unit stores among the reads (log 50). -/
def Obligations.OddHalfwordAddressesTrap : Prop :=
  (∀ (s : State) (r1 r2 : Reg), odd (s.reg r2) = true →
    ∀ i ∈ ([.ldr r1 r2, .stdr r1 r2] : List Instr), Traps i s 1 .alignment) ∧
  (∀ (s : State) (r1 r2 : Reg) (i2 : Word), odd i2 = true →
    ∀ i ∈ ([.ldi r1 r2 i2, .stdi r1 r2 i2] : List Instr), Traps i s 2 .alignment) ∧
  (∀ (s : State) (r1 x2 b2 : Reg) (d2 : Disp), odd (s.eaRX x2 b2 d2) = true →
    (∀ i ∈ ([.l r1 x2 b2 d2, .ld r1 x2 b2 d2, .lz r1 x2 b2 d2, .lc r1 x2 b2 d2, .lp r1 x2 b2 d2, .ln r1 x2 b2 d2,
        .lxb r1 x2 b2 d2, .st r1 x2 b2 d2, .std r1 x2 b2 d2, .swp r1 x2 b2 d2, .a r1 x2 b2 d2, .s r1 x2 b2 d2,
        .al r1 x2 b2 d2, .sl r1 x2 b2 d2, .c r1 x2 b2 d2, .cl r1 x2 b2 d2, .n r1 x2 b2 d2, .o r1 x2 b2 d2,
        .x r1 x2 b2 d2, .deq r1 x2 b2 d2, .ex r1 x2 b2 d2] : List Instr), Traps i s 2 .alignment) ∧
    (r1 ≠ 15 → ∀ i ∈ ([.m r1 x2 b2 d2, .d r1 x2 b2 d2] : List Instr), Traps i s 2 .alignment) ∧
    (s.privileged = true → Traps (.sio r1 x2 b2 d2) s 2 .alignment)) ∧
  (∀ (s : State) (r1 x2 b2 : Reg) (d2 : Disp), Undisturbed s → odd (s.eaRX x2 b2 d2) = false →
    odd (s.readHalf (s.eaRX x2 b2 d2)) = true →
    ∀ i ∈ ([.ld r1 x2 b2 d2, .std r1 x2 b2 d2] : List Instr), Traps i s 2 .alignment) ∧
  (∀ (s : State) (r1 r3 b2 : Reg) (d2 : Disp),
    (odd (s.ea b2 d2) = true → ∀ i ∈ ([.lm r1 r3 b2 d2, .lmd r1 r3 b2 d2, .stm r1 r3 b2 d2, .stmd r1 r3 b2 d2,
        .pshm r1 r3 b2 d2, .popm r1 r3 b2 d2] : List Instr), Traps i s 2 .alignment) ∧
    (Undisturbed s → odd (s.ea b2 d2) = false → odd (s.readHalf (s.ea b2 d2)) = true →
      ∀ i ∈ ([.lmd r1 r3 b2 d2, .stmd r1 r3 b2 d2, .pshm r1 r3 b2 d2, .popm r1 r3 b2 d2] : List Instr),
        Traps i s 2 .alignment)) ∧
  (∀ (s : State) (i2 : Byte) (b1 : Reg) (d1 : Disp), odd (s.ea b1 d1) = true →
    ∀ i ∈ ([.ahi i2 b1 d1, .shi i2 b1 d1, .chi i2 b1 d1, .mvhi i2 b1 d1] : List Instr), Traps i s 2 .alignment) ∧
  (∀ (s : State) (i3 : Byte) (b1 : Reg) (d1 : Disp) (b2 : Reg) (d2 : Disp),
    (odd (s.ea b1 d1) = true ∨ odd (s.ea b2 d2) = true →
      ∀ i ∈ ([.ah i3 b1 d1 b2 d2, .sh i3 b1 d1 b2 d2, .ch i3 b1 d1 b2 d2, .clh i3 b1 d1 b2 d2, .mvh i3 b1 d1 b2 d2,
        .mh i3 b1 d1 b2 d2, .dh i3 b1 d1 b2 d2, .pshh i3 b1 d1 b2 d2, .poph i3 b1 d1 b2 d2] : List Instr),
        Traps i s 3 .alignment) ∧
    (odd (s.ea b2 d2) = true → ∀ i ∈ ([.enq i3 b1 d1 b2 d2, .srch i3 b1 d1 b2 d2] : List Instr),
      Traps i s 3 .alignment) ∧
    (odd (s.ea b1 d1) = true → Traps (.mva i3 b1 d1 b2 d2) s 3 .alignment) ∧
    (Undisturbed s → odd (s.ea b1 d1) = false → odd (s.ea b2 d2) = false → odd (s.readHalf (s.ea b2 d2)) = true →
      ∀ i ∈ ([.pshh i3 b1 d1 b2 d2, .poph i3 b1 d1 b2 d2] : List Instr), Traps i s 3 .alignment)) ∧
  (∀ (s : State) (u rl b1 : Reg) (d1 : Disp) (b2 : Reg) (d2 : Disp),
    odd (s.ea b1 d1) = true ∨ odd (s.ea b2 d2) = true ∨ (Undisturbed s ∧ odd (s.readHalf (s.ea b2 d2)) = true) →
    ∀ i ∈ ([.pshhl u rl b1 d1 b2 d2, .pophl u rl b1 d1 b2 d2] : List Instr), Traps i s 3 .alignment) ∧
  (∀ (s : State) (r1 r2 : Reg) (i2 : Word), odd (s.reg 15) = true →
    Traps (.ent r1 r2 i2) s 2 .alignment ∧ Traps (.ret r1 r2) s 1 .alignment)

/-- With the privilege bit off the six I/O and S/360 instructions take the Privilege interrupt, before anything else is looked
at (decision D24, log 29). -/
def Obligations.PrivilegeBitOffTraps : Prop :=
  ∀ (s : State) (r1 r2 x2 b2 : Reg) (d2 : Disp), s.privileged = false →
    (∀ i ∈ ([.sior r1 r2, .iost r1 r2, .excc r1 r2] : List Instr), Traps i s 1 .privilege) ∧
    (∀ i ∈ ([.sio r1 x2 b2 d2, .trb r1 x2 b2 d2, .ss r1 x2 b2 d2] : List Instr), Traps i s 2 .privilege)

/-- Register 15 as the first of a pair takes the Register Specification interrupt, before the operands are fetched. -/
def Obligations.PairFromRegister15Traps : Prop :=
  ∀ (s : State) (r r2 r3 x2 b2 : Reg) (d2 : Disp) (i2 : Word),
    (∀ i ∈ ([.mr 15 r2, .dr 15 r2, .sldai 15 r2, .srdai 15 r2, .sldli 15 r2, .srdli 15 r2, .sd 15 r2] : List Instr),
      Traps i s 1 .registerSpecification) ∧
    (∀ i ∈ ([.mi 15 r i2, .di 15 r i2, .di r 15 i2, .m 15 x2 b2 d2, .d 15 x2 b2 d2, .slda 15 r3 b2 d2,
      .srda 15 r3 b2 d2, .sldl 15 r3 b2 d2, .srdl 15 r3 b2 d2] : List Instr), Traps i s 2 .registerSpecification)

/-- An arithmetic overflow with the overflow mask on: C1 is set, the Arithmetic Overflow interrupt is taken, the destination is
unchanged. Where memory is read more than once, no unit stores among the reads (log 50). -/
def Obligations.ArithmeticOverflowTraps : Prop :=
  ∀ s : State, s.overflowMask = true →
    (∀ r1 r2 : Reg,
      ∀ p ∈ ([(.ar r1 r2, (s.reg r1).toInt + (s.reg r2).toInt), (.ax r1 r2, (s.reg r1).toInt + r2.toNat),
          (.sr r1 r2, (s.reg r1).toInt - (s.reg r2).toInt), (.sx r1 r2, (s.reg r1).toInt - r2.toNat),
          (.lcr r1 r2, -(s.reg r2).toInt), (.lpr r1 r2, ((s.reg r2).toInt.natAbs : Int))] : List (Instr × Int)),
        fits16 p.2 = false →
        Completes p.1 s fun t => Interrupted (s.setCc (.c1Only true)) t .program 1 0x08) ∧
    (∀ (r1 r2 : Reg) (i2 : Word),
      ∀ p ∈ ([(.ai r1 r2 i2, (s.reg r2).toInt + i2.toInt), (.si r1 r2 i2, (s.reg r2).toInt - i2.toInt)]
          : List (Instr × Int)), fits16 p.2 = false →
        Completes p.1 s fun t => Interrupted (s.setCc (.c1Only true)) t .program 2 0x08) ∧
    (∀ (r1 x2 b2 : Reg) (d2 : Disp), odd (s.eaRX x2 b2 d2) = false → let v := s.readHalf (s.eaRX x2 b2 d2)
      ∀ p ∈ ([(.a r1 x2 b2 d2, (s.reg r1).toInt + v.toInt), (.s r1 x2 b2 d2, (s.reg r1).toInt - v.toInt),
          (.lc r1 x2 b2 d2, -v.toInt), (.lp r1 x2 b2 d2, (v.toInt.natAbs : Int))] : List (Instr × Int)),
        fits16 p.2 = false →
        Completes p.1 s fun t => Interrupted (s.setCc (.c1Only true)) t .program 2 0x08) ∧
    (∀ (i2 : Byte) (b1 : Reg) (d1 : Disp), odd (s.ea b1 d1) = false → let v := s.readHalf (s.ea b1 d1)
      ∀ p ∈ ([(.ahi i2 b1 d1, v.toInt + i2.toNat), (.shi i2 b1 d1, v.toInt - i2.toNat)] : List (Instr × Int)),
        fits16 p.2 = false →
        Completes p.1 s fun t => Interrupted (s.setCc (.c1Only true)) t .program 2 0x08) ∧
    (∀ (i3 : Byte) (b1 : Reg) (d1 : Disp) (b2 : Reg) (d2 : Disp), Undisturbed s →
      odd (s.ea b1 d1) = false → odd (s.ea b2 d2) = false →
      let v := s.readHalf (s.ea b1 d1)
      let w := s.readHalf (s.ea b2 d2)
      ∀ p ∈ ([(.ah i3 b1 d1 b2 d2, v.toInt + w.toInt), (.sh i3 b1 d1 b2 d2, v.toInt - w.toInt)] : List (Instr × Int)),
        fits16 p.2 = false →
        Completes p.1 s fun t => Interrupted (s.setCc (.c1Only true)) t .program 3 0x08)

/-! ## Loads and stores -/

/-- The loads from a register, a digit, an immediate or an address. -/
def Obligations.RegisterAndImmediateLoads : Prop :=
  ∀ (s : State) (r1 r2 x2 b2 : Reg) (d2 : Disp) (i2 : Word),
    ∀ p ∈ ([(.lr r1 r2, s.reg r2), (.lx r1 r2, r2.setWidth 16), (.li r1 r2 i2, i2),
        (.lnr r1 r2, BitVec.ofInt 16 (-((s.reg r2).toInt.natAbs : Int))),
        (.lxbr r1 r2, (s.reg r2 <<< 8) ||| (s.reg r2 >>> 8)), (.la r1 x2 b2 d2, s.eaRX x2 b2 d2),
        (.sa r1 x2 b2 d2, s.reg r1 - s.eaRX x2 b2 d2)] : List (Instr × Word)),
      RegisterResult p.1 s r1 p.2

/-- The loads from a byte or an aligned halfword of memory. That LDR with an R2 field of 0 loads from where register 0 points is
the spec's open point U3 (log 5). Where memory is read more than once, no unit stores among the reads (log 50). -/
def Obligations.MemoryLoads : Prop :=
  ∀ (s : State) (r1 r2 x2 b2 : Reg) (d2 : Disp) (i2 : Word), let e := s.eaRX x2 b2 d2
    (odd e = false → let v := s.readHalf e
      ∀ p ∈ ([(.l r1 x2 b2 d2, v), (.ln r1 x2 b2 d2, BitVec.ofInt 16 (-(v.toInt.natAbs : Int))),
        (.lxb r1 x2 b2 d2, (v <<< 8) ||| (v >>> 8))] : List (Instr × Word)), RegisterResult p.1 s r1 p.2) ∧
    (Undisturbed s → odd e = false → odd (s.readHalf e) = false →
      RegisterResult (.ld r1 x2 b2 d2) s r1 (s.readHalf (s.readHalf e))) ∧
    (odd (s.reg r2) = false → RegisterResult (.ldr r1 r2) s r1 (s.readHalf (s.reg r2))) ∧
    (odd i2 = false → RegisterResult (.ldi r1 r2 i2) s r1 (s.readHalf i2)) ∧
    RegisterResult (.lsb r1 x2 b2 d2) s r1 ((s.byteAt e).signExtend 16) ∧
    RegisterResult (.lb r1 x2 b2 d2) s r1 ((s.byteAt e).setWidth 16) ∧
    RegisterResult (.ib r1 x2 b2 d2) s r1 ((s.reg r1 &&& 0xFF00) ||| (s.byteAt e).setWidth 16)

/-- Load and zero, and the two swaps. -/
def Obligations.LoadAndZeroAndSwaps : Prop :=
  ∀ (s : State) (r1 r2 x2 b2 : Reg) (d2 : Disp), let e := s.eaRX x2 b2 d2
    (odd e = false →
      Completes (.lz r1 x2 b2 d2) s (fun t =>
        t.stored r1 = s.readHalf e ∧ t.readHalf e = 0 ∧ Frame s t [r1] [] (Touched e 2)) ∧
      Completes (.swp r1 x2 b2 d2) s (fun t =>
        t.stored r1 = s.readHalf e ∧ t.readHalf e = s.reg r1 ∧ Frame s t [r1] [] (Touched e 2))) ∧
    Completes (.swpr r1 r2) s (fun t => t.stored r1 = s.reg r2 ∧ t.stored r2 = s.reg r1 ∧ Frame s t [r1, r2] [] noByte)

/-- Load complement and load positive: the exact value, C1 whether it overflowed, where that is not trapped. -/
def Obligations.LoadComplementAndPositive : Prop :=
  (∀ (s : State) (r1 r2 : Reg),
    ∀ p ∈ ([(.lcr r1 r2, -(s.reg r2).toInt), (.lpr r1 r2, ((s.reg r2).toInt.natAbs : Int))] : List (Instr × Int)),
      fits16 p.2 = true ∨ s.overflowMask = false → FlaggedResult p.1 s r1 (BitVec.ofInt 16 p.2) 1 (!fits16 p.2)) ∧
  (∀ (s : State) (r1 x2 b2 : Reg) (d2 : Disp), odd (s.eaRX x2 b2 d2) = false → let v := s.readHalf (s.eaRX x2 b2 d2)
    ∀ p ∈ ([(.lc r1 x2 b2 d2, -v.toInt), (.lp r1 x2 b2 d2, (v.toInt.natAbs : Int))] : List (Instr × Int)),
      fits16 p.2 = true ∨ s.overflowMask = false → FlaggedResult p.1 s r1 (BitVec.ofInt 16 p.2) 1 (!fits16 p.2))

/-- Load multiple: the registers from R1 to R3 get consecutive halfwords, and an R1 field of 0 inhibits interrupts before the
next instruction. Where memory is read more than once, no unit stores among the reads (log 50). -/
def Obligations.LoadMultiple : Prop :=
  ∀ (s : State) (r1 r3 b2 : Reg) (d2 : Disp),
    ∀ p ∈ ([(.lm r1 r3 b2 d2, s.ea b2 d2), (.lmd r1 r3 b2 d2, s.readHalf (s.ea b2 d2))] : List (Instr × Word)),
      (p.1 = .lm r1 r3 b2 d2 ∨ Undisturbed s) → odd (s.ea b2 d2) = false → odd p.2 = false →
      Completes p.1 s fun t =>
        (∀ k, k < (r3 - r1).toNat + 1 →
          t.stored (r1 + BitVec.ofNat 4 k) = s.readHalf (p.2 + 2 * BitVec.ofNat 16 k)) ∧
        Frame { s with inhibit := s.inhibit || r1 == 0 } t (regRange r1 ((r3 - r1).toNat + 1)) [] noByte

/-- Store multiple: consecutive halfwords get the registers from R1 to R3. -/
def Obligations.StoreMultiple : Prop :=
  ∀ (s : State) (r1 r3 b2 : Reg) (d2 : Disp),
    ∀ p ∈ ([(.stm r1 r3 b2 d2, s.ea b2 d2), (.stmd r1 r3 b2 d2, s.readHalf (s.ea b2 d2))] : List (Instr × Word)),
      odd (s.ea b2 d2) = false → odd p.2 = false →
      Completes p.1 s fun t =>
        (∀ k, k < (r3 - r1).toNat + 1 →
          t.readHalf (p.2 + 2 * BitVec.ofNat 16 k) = s.reg (r1 + BitVec.ofNat 4 k)) ∧
        Frame s t [] [] (Touched p.2 (2 * ((r3 - r1).toNat + 1)))

/-- The stores and moves of a halfword, and of a byte. That STDR with an R2 field of 0 stores to where register 0 points is the
spec's open point U3 (log 5). -/
def Obligations.StoresAndMoves : Prop :=
  ∀ (s : State) (r1 r2 x2 b1 b2 : Reg) (d1 d2 : Disp) (i2 : Word) (i : Byte), let e := s.eaRX x2 b2 d2
    (odd (s.reg r2) = false → HalfStored (.stdr r1 r2) s (s.reg r2) (s.reg r1)) ∧
    (odd i2 = false → HalfStored (.stdi r1 r2 i2) s i2 (s.reg r2)) ∧
    (odd e = false → HalfStored (.st r1 x2 b2 d2) s e (s.reg r1)) ∧
    (odd e = false → odd (s.readHalf e) = false → HalfStored (.std r1 x2 b2 d2) s (s.readHalf e) (s.reg r1)) ∧
    (odd (s.ea b1 d1) = false → HalfStored (.mvhi i b1 d1) s (s.ea b1 d1) (i.signExtend 16)) ∧
    (odd (s.ea b1 d1) = false → odd (s.ea b2 d2) = false →
      HalfStored (.mvh i b1 d1 b2 d2) s (s.ea b1 d1) (s.readHalf (s.ea b2 d2))) ∧
    (odd (s.ea b1 d1) = false → HalfStored (.mva i b1 d1 b2 d2) s (s.ea b1 d1) (s.ea b2 d2)) ∧
    BytesStored (.stb r1 x2 b2 d2) s e [(s.reg r1).extractLsb' 0 8] ∧
    BytesStored (.mvbi i b1 d1) s (s.ea b1 d1) [i]

/-! ## Arithmetic -/

/-- Add and subtract into a register: the exact sum or difference narrowed, C1 whether it did not fit, where that is not
trapped. -/
def Obligations.AddAndSubtractRegister : Prop :=
  (∀ (s : State) (r1 r2 : Reg) (i2 : Word),
    ∀ p ∈ ([(.ar r1 r2, (s.reg r1).toInt + (s.reg r2).toInt), (.ax r1 r2, (s.reg r1).toInt + r2.toNat),
        (.ai r1 r2 i2, (s.reg r2).toInt + i2.toInt), (.sr r1 r2, (s.reg r1).toInt - (s.reg r2).toInt),
        (.sx r1 r2, (s.reg r1).toInt - r2.toNat), (.si r1 r2 i2, (s.reg r2).toInt - i2.toInt)] : List (Instr × Int)),
      fits16 p.2 = true ∨ s.overflowMask = false → FlaggedResult p.1 s r1 (BitVec.ofInt 16 p.2) 1 (!fits16 p.2)) ∧
  (∀ (s : State) (r1 x2 b2 : Reg) (d2 : Disp), odd (s.eaRX x2 b2 d2) = false → let v := s.readHalf (s.eaRX x2 b2 d2)
    ∀ p ∈ ([(.a r1 x2 b2 d2, (s.reg r1).toInt + v.toInt), (.s r1 x2 b2 d2, (s.reg r1).toInt - v.toInt)]
        : List (Instr × Int)),
      fits16 p.2 = true ∨ s.overflowMask = false → FlaggedResult p.1 s r1 (BitVec.ofInt 16 p.2) 1 (!fits16 p.2))

/-- Add to and subtract from a halfword of memory. Where memory is read more than once, no unit stores among the
reads (log 50). -/
def Obligations.AddAndSubtractMemory : Prop :=
  ∀ (s : State) (i : Byte) (b1 : Reg) (d1 : Disp) (b2 : Reg) (d2 : Disp), odd (s.ea b1 d1) = false →
    let e := s.ea b1 d1
    let v := s.readHalf e
    let w := s.readHalf (s.ea b2 d2)
    ∀ p ∈ ([(.ahi i b1 d1, v.toInt + (i.toNat : Int)), (.shi i b1 d1, v.toInt - (i.toNat : Int)),
        (.ah i b1 d1 b2 d2, v.toInt + w.toInt), (.sh i b1 d1 b2 d2, v.toInt - w.toInt)] : List (Instr × Int)),
      (odd (s.ea b2 d2) = false ∧ Undisturbed s) ∨ p.1 ∈ ([.ahi i b1 d1, .shi i b1 d1] : List Instr) →
      fits16 p.2 = true ∨ s.overflowMask = false →
      Completes p.1 s fun t =>
        t.readHalf e = BitVec.ofInt 16 p.2 ∧ t.c1 = !fits16 p.2 ∧ Frame s t [] [1] (Touched e 2)

/-- Logical add and subtract: C1 is the carry out, the complement of borrow when subtracting, and the result is always stored. -/
def Obligations.LogicalAddAndSubtract : Prop :=
  (∀ (s : State) (r1 r2 : Reg) (i2 : Word),
    ∀ p ∈ ([(.alr r1 r2, s.reg r1 + s.reg r2, decide (65536 ≤ (s.reg r1).toNat + (s.reg r2).toNat)),
        (.ali r1 r2 i2, s.reg r2 + i2, decide (65536 ≤ (s.reg r2).toNat + i2.toNat)),
        (.slr r1 r2, s.reg r1 - s.reg r2, decide ((s.reg r2).toNat ≤ (s.reg r1).toNat)),
        (.sli r1 r2 i2, s.reg r2 - i2, decide (i2.toNat ≤ (s.reg r2).toNat))] : List (Instr × Word × Bool)),
      FlaggedResult p.1 s r1 p.2.1 1 p.2.2) ∧
  (∀ (s : State) (r1 x2 b2 : Reg) (d2 : Disp), odd (s.eaRX x2 b2 d2) = false → let v := s.readHalf (s.eaRX x2 b2 d2)
    ∀ p ∈ ([(.al r1 x2 b2 d2, s.reg r1 + v, decide (65536 ≤ (s.reg r1).toNat + v.toNat)),
        (.sl r1 x2 b2 d2, s.reg r1 - v, decide (v.toNat ≤ (s.reg r1).toNat))] : List (Instr × Word × Bool)),
      FlaggedResult p.1 s r1 p.2.1 1 p.2.2)

/-- Algebraic compare: C0 equal, C1 first greater, C2 first less, as signed numbers. Where memory is read more than once, no
unit stores among the reads (log 50). -/
def Obligations.AlgebraicCompare : Prop :=
  ∀ (s : State) (r1 r2 x2 b1 b2 : Reg) (d1 d2 : Disp) (i2 : Word) (i : Byte),
    ∀ p ∈ ([(.cr r1 r2, s.reg r1, s.reg r2, true), (.ci r1 r2 i2, s.reg r2, i2, true),
        (.c r1 x2 b2 d2, s.reg r1, s.readHalf (s.eaRX x2 b2 d2), !odd (s.eaRX x2 b2 d2)),
        (.chi i b1 d1, s.readHalf (s.ea b1 d1), i.signExtend 16, !odd (s.ea b1 d1)),
        (.ch i b1 d1 b2 d2, s.readHalf (s.ea b1 d1), s.readHalf (s.ea b2 d2), !odd (s.ea b1 d1) && !odd (s.ea b2 d2))]
        : List (Instr × Word × Word × Bool)),
      p.2.2.2 = true → (p.1 = .ch i b1 d1 b2 d2 → Undisturbed s) →
      Compared p.1 s (decide (p.2.1.toInt = p.2.2.1.toInt)) (decide (p.2.2.1.toInt < p.2.1.toInt))
        (decide (p.2.1.toInt < p.2.2.1.toInt))

/-- Logical compare of halfwords and bytes: as unsigned numbers. Where memory is read more than once, no unit stores among the
reads (log 50). -/
def Obligations.LogicalCompare : Prop :=
  ∀ (s : State) (r1 r2 x2 b1 b2 : Reg) (d1 d2 : Disp) (i2 : Word) (i : Byte),
    ∀ p ∈ ([(.clr r1 r2, (s.reg r1).toNat, (s.reg r2).toNat, true), (.cli r1 r2 i2, (s.reg r2).toNat, i2.toNat, true),
        (.cl r1 x2 b2 d2, (s.reg r1).toNat, (s.readHalf (s.eaRX x2 b2 d2)).toNat, !odd (s.eaRX x2 b2 d2)),
        (.clb r1 x2 b2 d2, (s.reg r1).toNat % 256, (s.byteAt (s.eaRX x2 b2 d2)).toNat, true),
        (.clbi i b1 d1, (s.byteAt (s.ea b1 d1)).toNat, i.toNat, true),
        (.clh i b1 d1 b2 d2, (s.readHalf (s.ea b1 d1)).toNat, (s.readHalf (s.ea b2 d2)).toNat,
          !odd (s.ea b1 d1) && !odd (s.ea b2 d2))] : List (Instr × Nat × Nat × Bool)),
      p.2.2.2 = true → (p.1 = .clh i b1 d1 b2 d2 → Undisturbed s) →
      Compared p.1 s (decide (p.2.1 = p.2.2.1)) (decide (p.2.2.1 < p.2.1)) (decide (p.2.1 < p.2.2.1))

/-- String compare: an equal compare, also of length 0, or the first unequal byte's address and the order of those bytes. Where
memory is read more than once, no unit stores among the reads (log 50). A Long length is an unsigned number, 0 to 65535 (decision
D26, log 46). -/
def Obligations.StringCompare : Prop :=
  ∀ (s : State) (l : Byte) (u rl b1 : Reg) (d1 : Disp) (b2 : Reg) (d2 : Disp), Undisturbed s →
    let x := fun k : Nat => s.byteAt (s.ea b1 d1 + BitVec.ofNat 16 k)
    let y := fun k : Nat => s.byteAt (s.ea b2 d2 + BitVec.ofNat 16 k)
    ∀ p ∈ ([(.clc l b1 d1 b2 d2, l.toNat), (.clcl u rl b1 d1 b2 d2, (s.reg rl).toNat)] : List (Instr × Nat)),
      ((∀ k, k < p.2 → x k = y k) → Compared p.1 s true false false) ∧
      (∀ k, k < p.2 → (∀ j, j < k → x j = y j) → x k ≠ y k →
        Completes p.1 s fun t =>
          t.stored 2 = s.ea b1 d1 + BitVec.ofNat 16 k ∧
          Condition t false (decide ((y k).toNat < (x k).toNat)) (decide ((x k).toNat < (y k).toNat)) ∧
          Frame s t [2] [0, 1, 2] noByte)

/-- Multiply: the exact 32-bit product, C1 whether it needs more than 16 bits. Where memory is read more than once, no unit
stores among the reads (log 50). -/
def Obligations.Multiply : Prop :=
  (∀ (s : State) (r1 r2 x2 b2 : Reg) (d2 : Disp) (i2 : Word), r1 ≠ 15 →
    ∀ p ∈ ([(.mr r1 r2, (s.reg r1).toInt * (s.reg r2).toInt, true), (.mi r1 r2 i2, (s.reg r2).toInt * i2.toInt, true),
        (.m r1 x2 b2 d2, (s.reg r1).toInt * (s.readHalf (s.eaRX x2 b2 d2)).toInt, !odd (s.eaRX x2 b2 d2))]
        : List (Instr × Int × Bool)),
      p.2.2 = true → FlaggedPair p.1 s r1 (BitVec.ofInt 32 p.2.1) 1 (!fits16 p.2.1)) ∧
  (∀ (s : State) (i : Byte) (b1 : Reg) (d1 : Disp) (b2 : Reg) (d2 : Disp), Undisturbed s → odd (s.ea b1 d1) = false →
    odd (s.ea b2 d2) = false → let e := s.ea b1 d1
    let v := (s.readHalf e).toInt * (s.readHalf (s.ea b2 d2)).toInt
    Completes (.mh i b1 d1 b2 d2) s fun t =>
      t.readHalf e = (BitVec.ofInt 32 v).extractLsb' 16 16 ∧ t.readHalf (e + 2) = (BitVec.ofInt 32 v).extractLsb' 0 16 ∧
      t.c1 = !fits16 v ∧ Frame s t [] [1] (Touched e 4))

/-- Divide: division by 0 traps; a quotient that fits goes to the first location and the remainder to the following one, C1 off
(the rounding is PRESUMED, log 24); one that does not traps, or with the mask off leaves both unspecified, C1 on. Where memory
is read more than once, no unit stores among the reads (log 50). -/
def Obligations.Divide : Prop :=
  (∀ (s : State) (r1 r2 x2 b2 : Reg) (d2 : Disp) (i2 : Word), r1 ≠ 15 →
    ∀ p ∈ ([(.dr r1 r2, s.reg r1 ++ s.reg (r1 + 1), s.reg r2, true, 1),
        (.di r1 r2 i2, s.reg r2 ++ s.reg (r2 + 1), i2, decide (r2 ≠ 15), 2),
        (.d r1 x2 b2 d2, s.reg r1 ++ s.reg (r1 + 1), s.readHalf (s.eaRX x2 b2 d2), !odd (s.eaRX x2 b2 d2), 2)]
        : List (Instr × BitVec 32 × Word × Bool × BitVec 2)),
      p.2.2.2.1 = true → let n := p.2.1.toInt
      let d := p.2.2.1.toInt
      (d = 0 → Traps p.1 s p.2.2.2.2 .divisionBy0) ∧
      (d ≠ 0 → fits16 (n.tdiv d) = true → Completes p.1 s fun t =>
        Holds t r1 (BitVec.ofInt 16 (n.tdiv d)) [1] ∧ t.stored (r1 + 1) = BitVec.ofInt 16 (n.tmod d) ∧
        Flag t 1 false r1 (BitVec.ofInt 16 (n.tdiv d)) ∧ Frame s t [r1, r1 + 1] [1] noByte) ∧
      (d ≠ 0 → fits16 (n.tdiv d) = false → s.overflowMask = false → Completes p.1 s fun t =>
        (r1 ≠ 0 → t.c1 = true) ∧ Frame s t [r1, r1 + 1] [1] noByte) ∧
      (d ≠ 0 → fits16 (n.tdiv d) = false → s.overflowMask = true →
        Completes p.1 s fun t => Interrupted (s.setCc (.c1Only true)) t .program p.2.2.2.2 0x08)) ∧
  (∀ (s : State) (i : Byte) (b1 : Reg) (d1 : Disp) (b2 : Reg) (d2 : Disp), Undisturbed s → odd (s.ea b1 d1) = false →
    odd (s.ea b2 d2) = false → let e := s.ea b1 d1
    let n := (s.readHalf e ++ s.readHalf (e + 2)).toInt
    let d := (s.readHalf (s.ea b2 d2)).toInt
    (d = 0 → Traps (.dh i b1 d1 b2 d2) s 3 .divisionBy0) ∧
    (d ≠ 0 → fits16 (n.tdiv d) = true → Completes (.dh i b1 d1 b2 d2) s fun t =>
      t.readHalf e = BitVec.ofInt 16 (n.tdiv d) ∧ t.readHalf (e + 2) = BitVec.ofInt 16 (n.tmod d) ∧ t.c1 = false ∧
      Frame s t [] [1] (Touched e 4)) ∧
    (d ≠ 0 → fits16 (n.tdiv d) = false → s.overflowMask = false → Completes (.dh i b1 d1 b2 d2) s fun t =>
      t.c1 = true ∧ Frame s t [] [1] (Touched e 4)) ∧
    (d ≠ 0 → fits16 (n.tdiv d) = false → s.overflowMask = true →
      Completes (.dh i b1 d1 b2 d2) s fun t => Interrupted (s.setCc (.c1Only true)) t .program 3 0x08))

/-- CVB, on blanks, perhaps a minus sign, digits and a byte that ends them (the EBCDIC codes are PRESUMED, log 23): the number,
C2, and register 2 at the ending byte; C0 where there is no digit; an overflow sets C1 and traps by the mask. R1 = 2 is
unsettled (U8). Where memory is read more than once, no unit stores among the reads (log 50). -/
def Obligations.ConvertToBinary : Prop :=
  ∀ (s : State) (r1 x2 b2 : Reg) (d2 : Disp) (blanks : Nat) (neg : Bool) (ds : List Nat),
    let q := s.eaRX x2 b2 d2 + BitVec.ofNat 16 blanks
    let f := if neg then q + 1 else q
    let stop := f + BitVec.ofNat 16 ds.length
    let m : Nat := ds.foldl (fun n d => n * 10 + d) 0
    let v : Int := if neg then -(m : Int) else m
    Undisturbed s → blanks < 65536 → ds.length < 65536 →
    (∀ k, k < blanks → s.byteAt (s.eaRX x2 b2 d2 + BitVec.ofNat 16 k) = 0x40) → s.byteAt q ≠ 0x40 →
    (neg = true ↔ s.byteAt q = 0x60) →
    (∀ k, (h : k < ds.length) → ds[k] < 10 ∧ s.byteAt (f + BitVec.ofNat 16 k) = BitVec.ofNat 8 (0xF0 + ds[k])) →
    (s.byteAt stop).toNat < 0xF0 ∨ 0xFA ≤ (s.byteAt stop).toNat →
    (ds = [] → Completes (.cvb r1 x2 b2 d2) s fun t =>
      (r1 ≠ 0 → Condition t true false false) ∧ (r1 ≠ 2 → t.stored 2 = stop) ∧ Frame s t [2, r1] [0, 1, 2] noByte) ∧
    (ds ≠ [] → fits16 v = true → Completes (.cvb r1 x2 b2 d2) s fun t =>
      Flag t 0 false r1 (BitVec.ofInt 16 v) ∧ Flag t 1 false r1 (BitVec.ofInt 16 v) ∧
      Flag t 2 true r1 (BitVec.ofInt 16 v) ∧
      (r1 ≠ 2 → Holds t r1 (BitVec.ofInt 16 v) [0, 1, 2] ∧ t.stored 2 = stop) ∧
      Frame s t [2, r1] [0, 1, 2] noByte) ∧
    (ds ≠ [] → fits16 v = false → s.overflowMask = false → Completes (.cvb r1 x2 b2 d2) s fun t =>
      (r1 ≠ 0 → Condition t false true false) ∧ (r1 ≠ 2 → t.stored 2 = stop) ∧ Frame s t [2, r1] [0, 1, 2] noByte) ∧
    (ds ≠ [] → fits16 v = false → s.overflowMask = true → Completes (.cvb r1 x2 b2 d2) s fun t =>
      Interrupted ((s.setReg 2 stop).setCc (.all false true false)) t .program 2 0x0A)

/-- CVD: six bytes that end in the number's decimal digits without leading zeros, a minus sign before them where it is
negative, blanks before that; register 2 at the first non-blank, register 3 the length from there. -/
def Obligations.ConvertToDecimal : Prop :=
  ∀ (s : State) (r1 x2 b2 : Reg) (d2 : Disp), let e := s.eaRX x2 b2 d2
    Completes (.cvd r1 x2 b2 d2) s fun t =>
      ∃ ds : List Nat, ds ≠ [] ∧ (∀ d ∈ ds, d < 10) ∧ (ds.head? = some 0 → ds = [0]) ∧
        ds.foldl (fun n d => n * 10 + d) 0 = (s.reg r1).toInt.natAbs ∧
        let string : List Byte :=
          (if (s.reg r1).toInt < 0 then [0x60] else []) ++ ds.map fun d => BitVec.ofNat 8 (0xF0 + d)
        string.length ≤ 6 ∧ BytesAt t e (List.replicate (6 - string.length) 0x40 ++ string) ∧
        t.stored 2 = e + 6 - BitVec.ofNat 16 string.length ∧ t.stored 3 = BitVec.ofNat 16 string.length ∧
        Frame s t [2, 3] [] (Touched e 6)

/-! ## Shifts -/

/-- Left algebraic shifts: the sign stays, zeros enter (PRESUMED, log 24); C1 whether a bit unlike the sign left bit position
1, C2 the last bit to leave it; the overflow traps by the mask, with C1 and C2 written first (R197; R447 speaks of C1 only, log 51).
A count of 0 leaves C2 unspecified (U9). -/
def Obligations.LeftAlgebraicShifts : Prop :=
  (∀ (s : State) (r1 r2 r3 b2 : Reg) (d2 : Disp), let v := s.reg r1
    ∀ p ∈ ([(.slai r1 r2, r2.toNat, 1), (.sla r1 r3 b2 d2, (s.ea b2 d2).toNat % 32, 2)]
        : List (Instr × Nat × BitVec 2)), let n := p.2.1
      let w := ((v <<< n) &&& 0x7FFF) ||| (v &&& 0x8000)
      let ovf := (List.range n).any fun k => v.getMsbD (k + 1) != v.msb
      (ovf = false ∨ s.overflowMask = false → Completes p.1 s fun t =>
        Holds t r1 w [1, 2] ∧ Flag t 1 ovf r1 w ∧ (0 < n → Flag t 2 (v.getMsbD n) r1 w) ∧
        Frame s t [r1] [1, 2] noByte) ∧
      (ovf = true → s.overflowMask = true → Completes p.1 s fun t =>
        Interrupted (s.setCc (.c1c2 true (v.getMsbD n))) t .program p.2.2 0x08)) ∧
  (∀ (s : State) (r1 r2 r3 b2 : Reg) (d2 : Disp), r1 ≠ 15 → let v : BitVec 32 := s.reg r1 ++ s.reg (r1 + 1)
    ∀ p ∈ ([(.sldai r1 r2, r2.toNat, 1), (.slda r1 r3 b2 d2, (s.ea b2 d2).toNat % 32, 2)]
        : List (Instr × Nat × BitVec 2)), let n := p.2.1
      let w := ((v <<< n) &&& 0x7FFFFFFF) ||| (v &&& 0x80000000)
      let ovf := (List.range n).any fun k => v.getMsbD (k + 1) != v.msb
      (ovf = false ∨ s.overflowMask = false → Completes p.1 s fun t =>
        Holds t r1 (w.extractLsb' 16 16) [1, 2] ∧ t.stored (r1 + 1) = w.extractLsb' 0 16 ∧
        Flag t 1 ovf r1 (w.extractLsb' 16 16) ∧ (0 < n → Flag t 2 (v.getMsbD n) r1 (w.extractLsb' 16 16)) ∧
        Frame s t [r1, r1 + 1] [1, 2] noByte) ∧
      (ovf = true → s.overflowMask = true → Completes p.1 s fun t =>
        Interrupted (s.setCc (.c1c2 true (v.getMsbD n))) t .program p.2.2 0x08))

/-- Right algebraic and logical shifts, and SD: C2 is the last bit shifted out, unspecified for a count of 0 (U9). -/
def Obligations.OtherShifts : Prop :=
  (∀ (s : State) (r1 r2 r3 b2 : Reg) (d2 : Disp), let v := s.reg r1
    let i := r2.toNat
    let m := (s.ea b2 d2).toNat % 32
    ∀ p ∈ ([(.srai r1 r2, i, v.sshiftRight i, (v.sshiftRight (i - 1)).getLsbD 0),
        (.sra r1 r3 b2 d2, m, v.sshiftRight m, (v.sshiftRight (m - 1)).getLsbD 0),
        (.slli r1 r2, i, v <<< i, (v <<< (i - 1)).msb), (.sll r1 r3 b2 d2, m, v <<< m, (v <<< (m - 1)).msb),
        (.srli r1 r2, i, v >>> i, (v >>> (i - 1)).getLsbD 0),
        (.srl r1 r3 b2 d2, m, v >>> m, (v >>> (m - 1)).getLsbD 0)] : List (Instr × Nat × Word × Bool)),
      Completes p.1 s fun t => Holds t r1 p.2.2.1 [2] ∧ (0 < p.2.1 → Flag t 2 p.2.2.2 r1 p.2.2.1) ∧
        Frame s t [r1] [2] noByte) ∧
  (∀ (s : State) (r1 r2 r3 b2 : Reg) (d2 : Disp), r1 ≠ 15 → let v : BitVec 32 := s.reg r1 ++ s.reg (r1 + 1)
    let i := r2.toNat
    let m := (s.ea b2 d2).toNat % 32
    ∀ p ∈ ([(.srdai r1 r2, i, v.sshiftRight i, (v.sshiftRight (i - 1)).getLsbD 0),
        (.srda r1 r3 b2 d2, m, v.sshiftRight m, (v.sshiftRight (m - 1)).getLsbD 0),
        (.sldli r1 r2, i, v <<< i, (v <<< (i - 1)).msb), (.sldl r1 r3 b2 d2, m, v <<< m, (v <<< (m - 1)).msb),
        (.srdli r1 r2, i, v >>> i, (v >>> (i - 1)).getLsbD 0),
        (.srdl r1 r3 b2 d2, m, v >>> m, (v >>> (m - 1)).getLsbD 0)] : List (Instr × Nat × BitVec 32 × Bool)),
      Completes p.1 s fun t => Holds t r1 (p.2.2.1.extractLsb' 16 16) [2] ∧
        t.stored (r1 + 1) = p.2.2.1.extractLsb' 0 16 ∧ (0 < p.2.1 → Flag t 2 p.2.2.2 r1 (p.2.2.1.extractLsb' 16 16)) ∧
        Frame s t [r1, r1 + 1] [2] noByte) ∧
  (∀ (s : State) (r1 r2 : Reg), r1 ≠ 15 →
    FlaggedPair (.sd r1 r2) s r1 ((s.reg r1).signExtend 32) 2 (s.reg (r1 + 1)).msb)

/-! ## Boolean operations, tests, strings -/

/-- AND, OR and exclusive OR into a register or a byte of memory: C0 whether the result is all zeros. -/
def Obligations.BooleanRegisterAndByte : Prop :=
  (∀ (s : State) (r1 r2 x2 b2 : Reg) (d2 : Disp) (i2 : Word), let m := s.readHalf (s.eaRX x2 b2 d2)
    let even := !odd (s.eaRX x2 b2 d2)
    ∀ p ∈ ([(.nr r1 r2, s.reg r1 &&& s.reg r2, true), (.ni r1 r2 i2, s.reg r2 &&& i2, true),
        (.n r1 x2 b2 d2, s.reg r1 &&& m, even), (.or r1 r2, s.reg r1 ||| s.reg r2, true),
        (.oi r1 r2 i2, s.reg r2 ||| i2, true), (.o r1 x2 b2 d2, s.reg r1 ||| m, even),
        (.xr r1 r2, s.reg r1 ^^^ s.reg r2, true), (.xi r1 r2 i2, s.reg r2 ^^^ i2, true),
        (.x r1 x2 b2 d2, s.reg r1 ^^^ m, even)] : List (Instr × Word × Bool)),
      p.2.2 = true → FlaggedResult p.1 s r1 p.2.1 0 (p.2.1 == 0)) ∧
  (∀ (s : State) (i : Byte) (b1 : Reg) (d1 : Disp), let e := s.ea b1 d1
    ∀ p ∈ ([(.nbi i b1 d1, s.byteAt e &&& i), (.obi i b1 d1, s.byteAt e ||| i), (.xbi i b1 d1, s.byteAt e ^^^ i)]
        : List (Instr × Byte)),
      Completes p.1 s fun t => t.byteAt e = p.2 ∧ t.c0 = (p.2 == 0) ∧ Frame s t [] [0] (Touched e 1))

/-- AND, OR and exclusive OR of strings: where the fields coincide or have no byte in common the result bytes are exact and C0 is 1
just where all are 0; of fields that overlap otherwise the order is not promised (U10), and C0 follows the bytes. That is what is
said where no unit comes among the accesses (log 50); the instruction completes, and keeps the registers, whatever does. A Long
length is an unsigned number, 0 to 65535 (decision D26, log 46). -/
def Obligations.BooleanStrings : Prop :=
  ∀ (s : State) (l : Byte) (u rl b1 : Reg) (d1 : Disp) (b2 : Reg) (d2 : Disp), let e := s.ea b1 d1
    let f := s.ea b2 d2
    ∀ p ∈ ([(.nc l b1 d1 b2 d2, l.toNat, fun a b => a &&& b), (.oc l b1 d1 b2 d2, l.toNat, fun a b => a ||| b),
        (.xc l b1 d1 b2 d2, l.toNat, fun a b => a ^^^ b), (.ncl u rl b1 d1 b2 d2, (s.reg rl).toNat, fun a b => a &&& b),
        (.ocl u rl b1 d1 b2 d2, (s.reg rl).toNat, fun a b => a ||| b),
        (.xcl u rl b1 d1 b2 d2, (s.reg rl).toNat, fun a b => a ^^^ b)] : List (Instr × Nat × (Byte → Byte → Byte))),
      Completes p.1 s fun t =>
        (Undisturbed s → phys e = phys f ∨ (∀ k, k < p.2.1 → ¬ Touched f p.2.1 (e + BitVec.ofNat 16 k)) →
          BytesAt t e (List.zipWith p.2.2 (s.readBytes e p.2.1) (s.readBytes f p.2.1)) ∧
          t.c0 = (List.zipWith p.2.2 (s.readBytes e p.2.1) (s.readBytes f p.2.1)).all (fun b => b == 0)) ∧
        RegistersKept s t [] ∧ MsrKept s t [0] ∧
        (Undisturbed s → (p.2.1 ≤ Config.memSize → t.c0 = (t.readBytes e p.2.1).all (fun b => b == 0)) ∧
          Frame s t [] [0] (Touched e p.2.1))

/-- Test under mask: C0 all selected bits 0 or no bit selected, C1 all 1, C2 mixed; TSL ORs the mask in where it finds zeros. -/
def Obligations.TestUnderMask : Prop :=
  (∀ (s : State) (r1 r2 : Reg) (i2 : Word),
    ∀ p ∈ ([(.tmr r1 r2, s.reg r1, s.reg r2), (.tmi r1 r2 i2, s.reg r2, i2)] : List (Instr × Word × Word)),
      let t := p.2.1 &&& p.2.2
      Compared p.1 s (t == 0) (t != 0 && t == p.2.2) (t != 0 && t != p.2.2)) ∧
  (∀ (s : State) (i : Byte) (b1 : Reg) (d1 : Disp), let e := s.ea b1 d1
    let t := s.byteAt e &&& i
    Compared (.tmbi i b1 d1) s (t == 0) (t != 0 && t == i) (t != 0 && t != i) ∧
    Completes (.tsl i b1 d1) s (fun q =>
      Condition q (t == 0) (t != 0 && t == i) (t != 0 && t != i) ∧
      q.byteAt e = (if t = 0 then s.byteAt e ||| i else s.byteAt e) ∧ Frame s q [] [0, 1, 2] (Touched e 1)))

/-- MVCN and MVCNL move what Operand 2 held, whatever the overlap; MVC and MVCL too where the copy is not destructive, and
otherwise, where Operand 1 starts inside Operand 2 and above its start, by the addresses (R232) or by the bytes that memory sees at
them (R47, log 10), they leave it unspecified (U10). FILL and FILLL store the low byte of the second operand address. MVCN moves
each byte as its read finds it, and where no unit comes among the accesses (log 50) that is what Operand 2 held. A Long length is an
unsigned number, 0 to 65535 (decision D26, log 46). -/
def Obligations.MovesAndFills : Prop :=
  ∀ (s : State) (l : Byte) (u rl b1 : Reg) (d1 : Disp) (b2 : Reg) (d2 : Disp), let e := s.ea b1 d1
    let f := s.ea b2 d2
    let d := (e - f).toNat
    (∀ p ∈ ([(.mvcn l b1 d1 b2 d2, l.toNat), (.mvcnl u rl b1 d1 b2 d2, (s.reg rl).toNat)] : List (Instr × Nat)),
      BytesStored p.1 s e (s.readEach 0 1 f p.2)) ∧
    (∀ p ∈ ([(.mvc l b1 d1 b2 d2, l.toNat), (.mvcl u rl b1 d1 b2 d2, (s.reg rl).toNat)] : List (Instr × Nat)),
      (Undisturbed s → ¬ (0 < d ∧ d < p.2) → ¬ (0 < d % Config.memSize ∧ d % Config.memSize < p.2) →
        BytesStored p.1 s e (s.readBytes f p.2)) ∧
      Completes p.1 s fun t => t.regs = s.regs ∧ (Undisturbed s → Frame s t [] [] (Touched e p.2))) ∧
    (∀ p ∈ ([(.fill l b1 d1 b2 d2, l.toNat), (.filll u rl b1 d1 b2 d2, (s.reg rl).toNat)] : List (Instr × Nat)),
      BytesStored p.1 s e (List.replicate p.2 (f.extractLsb' 0 8))) ∧
    (∀ i step n, (s.readEach i step f n).length = n ∧ (∀ k, (h : k < (s.readEach i step f n).length) →
      (s.readEach i step f n)[k] = (s.seenAt (i + k * step)).byteAt (f + BitVec.ofNat 16 k)) ∧
      (Undisturbed s → s.readEach i step f n = s.readBytes f n))

/-- Translate: each argument byte becomes the table's byte it refers to, but where table and operand overlap (U10). That is what is
said where no unit comes among the accesses (log 50); the instruction completes whatever does. A Long length is an unsigned number,
0 to 65535 (decision D26, log 46). -/
def Obligations.Translate : Prop :=
  ∀ (s : State) (l : Byte) (u rl b1 : Reg) (d1 : Disp) (b2 : Reg) (d2 : Disp), let e := s.ea b1 d1
    let f := s.ea b2 d2
    ∀ p ∈ ([(.tr l b1 d1 b2 d2, l.toNat), (.trl u rl b1 d1 b2 d2, (s.reg rl).toNat)] : List (Instr × Nat)),
      Completes p.1 s fun t =>
        (Undisturbed s → ∀ k, k < p.2 → p.2 ≤ k + Config.memSize → let a := e + BitVec.ofNat 16 k
          let r := f + (s.byteAt a).setWidth 16
          ¬ Touched f 256 a → ¬ Touched e p.2 r → t.byteAt a = s.byteAt r) ∧
        t.regs = s.regs ∧ (Undisturbed s → Frame s t [] [] (Touched e p.2))

/-- Scan using table: the first argument whose table byte is not 0, to the right or to the left, or C2 off. Where memory is read
more than once, no unit stores among the reads (log 50). A Long length is an unsigned number, 0 to 65535 (decision D26, log 46). -/
def Obligations.TableScans : Prop :=
  ∀ (s : State) (l : Byte) (u rl b1 : Reg) (d1 : Disp) (b2 : Reg) (d2 : Disp), Undisturbed s → let e := s.ea b1 d1
    let n := (s.reg rl).toNat
    let right := fun k : Nat => e + BitVec.ofNat 16 k
    let left := fun k : Nat => e - BitVec.ofNat 16 k
    let entry := fun a : Word => s.byteAt (s.ea b2 d2 + (s.byteAt a).setWidth 16)
    ∀ p ∈ ([(.str l b1 d1 b2 d2, l.toNat, right), (.strl u rl b1 d1 b2 d2, n, right), (.stl l b1 d1 b2 d2, l.toNat, left),
        (.stll u rl b1 d1 b2 d2, n, left)] : List (Instr × Nat × (Nat → Word))),
      ((∀ k, k < p.2.1 → entry (p.2.2 k) = 0) →
        Completes p.1 s fun t => t.c2 = false ∧ Frame s t [] [2] noByte) ∧
      (∀ k, k < p.2.1 → (∀ j, j < k → entry (p.2.2 j) = 0) → entry (p.2.2 k) ≠ 0 →
        Completes p.1 s fun t => t.stored 3 = (entry (p.2.2 k)).setWidth 16 ∧ t.stored 2 = p.2.2 k ∧ t.c2 = true ∧
          Frame s t [2, 3] [2] noByte)

/-- Scan for a character: the first byte equal, or not equal, to the low byte of the second operand address, to the right or to the
left, or C2 off. Where memory is read more than once, no unit stores among the reads (log 50). A Long length is an unsigned number,
0 to 65535 (decision D26, log 46). -/
def Obligations.CharacterScans : Prop :=
  ∀ (s : State) (l : Byte) (u rl b1 : Reg) (d1 : Disp) (b2 : Reg) (d2 : Disp), Undisturbed s → let e := s.ea b1 d1
    let n := (s.reg rl).toNat
    let right := fun k : Nat => e + BitVec.ofNat 16 k
    let left := fun k : Nat => e - BitVec.ofNat 16 k
    let eq := fun a : Word => s.byteAt a == (s.ea b2 d2).extractLsb' 0 8
    let ne := fun a : Word => s.byteAt a != (s.ea b2 d2).extractLsb' 0 8
    ∀ p ∈ ([(.sre l b1 d1 b2 d2, l.toNat, right, eq), (.srel u rl b1 d1 b2 d2, n, right, eq),
        (.srne l b1 d1 b2 d2, l.toNat, right, ne), (.srnel u rl b1 d1 b2 d2, n, right, ne),
        (.sle l b1 d1 b2 d2, l.toNat, left, eq), (.slel u rl b1 d1 b2 d2, n, left, eq),
        (.slne l b1 d1 b2 d2, l.toNat, left, ne), (.slnel u rl b1 d1 b2 d2, n, left, ne)]
        : List (Instr × Nat × (Nat → Word) × (Word → Bool))),
      ((∀ k, k < p.2.1 → p.2.2.2 (p.2.2.1 k) = false) →
        Completes p.1 s fun t => t.c2 = false ∧ Frame s t [] [2] noByte) ∧
      (∀ k, k < p.2.1 → (∀ j, j < k → p.2.2.2 (p.2.2.1 j) = false) → p.2.2.2 (p.2.2.1 k) = true →
        Completes p.1 s fun t => t.stored 2 = p.2.2.1 k ∧ t.c2 = true ∧ Frame s t [2] [2] noByte)

/-! ## Stacks, lists, branches -/

/-- The pushes: where the top pointer may move up by the halfwords pushed they are stored above it and C1 is off; where not, nothing
is pushed (decision D14, log 26), C1 is on, and MSR.S decides on the Stack Overflow interrupt. Where memory is read more than once,
no unit stores among the reads (log 50). The Long length of PSHHL is an unsigned number, 0 to 65535 (decision D26, log 46). -/
def Obligations.Pushes : Prop :=
  (∀ (s : State) (r1 r3 b2 : Reg) (d2 : Disp), Undisturbed s → let sdb := s.ea b2 d2
    let top := s.readHalf sdb
    let m := (r3 - r1).toNat + 1
    odd sdb = false → odd top = false →
    (top.toNat + 2 * m ≤ (s.readHalf (sdb + 4)).toNat → Completes (.pshm r1 r3 b2 d2) s fun t =>
      (∀ k, k < m → let a := top + 2 + 2 * BitVec.ofNat 16 k
        phys a ≠ phys sdb → t.readHalf a = s.reg (r1 + BitVec.ofNat 4 k)) ∧
      t.readHalf sdb = top + 2 * BitVec.ofNat 16 m ∧ t.c1 = false ∧
      Frame s t [] [1] (either (Touched (top + 2) (2 * m)) (Touched sdb 2))) ∧
    ((s.readHalf (sdb + 4)).toNat < top.toNat + 2 * m →
      (s.stackMask = false → Completes (.pshm r1 r3 b2 d2) s fun t => t.c1 = true ∧ Frame s t [] [1] noByte) ∧
      (s.stackMask = true → Completes (.pshm r1 r3 b2 d2) s fun t =>
        Interrupted (s.setCc (.c1Only true)) t .program 2 0x14))) ∧
  (∀ (s : State) (l : Byte) (u rl b1 : Reg) (d1 : Disp) (b2 : Reg) (d2 : Disp), Undisturbed s → let e := s.ea b1 d1
    let sdb := s.ea b2 d2
    let top := s.readHalf sdb
    odd e = false → odd sdb = false → odd top = false →
    ∀ p ∈ ([(.pshh l b1 d1 b2 d2, (l.toNat + 1) / 2), (.pshhl u rl b1 d1 b2 d2, ((s.reg rl).toNat + 1) / 2)]
        : List (Instr × Nat)),
      (top.toNat + 2 * p.2 ≤ (s.readHalf (sdb + 4)).toNat → Completes p.1 s fun t =>
        ((∀ j, j < 2 * p.2 → ¬ Touched (top + 2) (2 * p.2) (e + BitVec.ofNat 16 j)) →
          ∀ k, k < p.2 → let a := top + 2 + 2 * BitVec.ofNat 16 k
            phys a ≠ phys sdb → t.readHalf a = s.readHalf (e + 2 * BitVec.ofNat 16 k)) ∧
        t.readHalf sdb = top + 2 * BitVec.ofNat 16 p.2 ∧ t.c1 = false ∧
        Frame s t [] [1] (either (Touched (top + 2) (2 * p.2)) (Touched sdb 2))) ∧
      ((s.readHalf (sdb + 4)).toNat < top.toNat + 2 * p.2 →
        (s.stackMask = false → Completes p.1 s fun t => t.c1 = true ∧ Frame s t [] [1] noByte) ∧
        (s.stackMask = true → Completes p.1 s fun t => Interrupted (s.setCc (.c1Only true)) t .program 3 0x14)))

/-- The pops, the complement: where enough halfwords stand on the stack they are loaded, the last from the top, C1 is off and the
top pointer moves down; where not, nothing is popped, C1 is on, and MSR.S decides on the Stack Underflow interrupt. Where memory is
read more than once, no unit stores among the reads (log 50). The Long length of POPHL is an unsigned number, 0 to 65535 (decision
D26, log 46). -/
def Obligations.Pops : Prop :=
  (∀ (s : State) (r1 r3 b2 : Reg) (d2 : Disp), Undisturbed s → let sdb := s.ea b2 d2
    let top := s.readHalf sdb
    let m := (r3 - r1).toNat + 1
    let v := fun k : Nat => s.readHalf (top - 2 * BitVec.ofNat 16 m + 2 + 2 * BitVec.ofNat 16 k)
    odd sdb = false → odd top = false →
    ((s.readHalf (sdb + 2)).toNat + 2 * m ≤ top.toNat + 2 → Completes (.popm r1 r3 b2 d2) s fun t =>
      (∀ k, k < m → Holds t (r1 + BitVec.ofNat 4 k) (v k) [1] ∧
        (r1 + BitVec.ofNat 4 k = 0 → Flag t 1 false 0 (v k))) ∧
      (0 ∉ regRange r1 m → t.c1 = false) ∧ t.readHalf sdb = top - 2 * BitVec.ofNat 16 m ∧
      Frame s t (regRange r1 m) [1] (Touched sdb 2)) ∧
    (top.toNat + 2 < (s.readHalf (sdb + 2)).toNat + 2 * m →
      (s.stackMask = false → Completes (.popm r1 r3 b2 d2) s fun t => t.c1 = true ∧ Frame s t [] [1] noByte) ∧
      (s.stackMask = true → Completes (.popm r1 r3 b2 d2) s fun t =>
        Interrupted (s.setCc (.c1Only true)) t .program 2 0x16))) ∧
  (∀ (s : State) (l : Byte) (u rl b1 : Reg) (d1 : Disp) (b2 : Reg) (d2 : Disp), Undisturbed s → let e := s.ea b1 d1
    let sdb := s.ea b2 d2
    let top := s.readHalf sdb
    odd e = false → odd sdb = false → odd top = false →
    ∀ p ∈ ([(.poph l b1 d1 b2 d2, (l.toNat + 1) / 2), (.pophl u rl b1 d1 b2 d2, ((s.reg rl).toNat + 1) / 2)]
        : List (Instr × Nat)),
      let from_ := top - 2 * BitVec.ofNat 16 p.2 + 2
      ((s.readHalf (sdb + 2)).toNat + 2 * p.2 ≤ top.toNat + 2 → Completes p.1 s fun t =>
        ((∀ j, j < 2 * p.2 → ¬ Touched e (2 * p.2) (from_ + BitVec.ofNat 16 j)) →
          ∀ k, k < p.2 → let a := e + 2 * BitVec.ofNat 16 k
            phys a ≠ phys sdb → t.readHalf a = s.readHalf (from_ + 2 * BitVec.ofNat 16 k)) ∧
        t.readHalf sdb = top - 2 * BitVec.ofNat 16 p.2 ∧ t.c1 = false ∧
        Frame s t [] [1] (either (Touched e (2 * p.2)) (Touched sdb 2))) ∧
      (top.toNat + 2 < (s.readHalf (sdb + 2)).toNat + 2 * p.2 →
        (s.stackMask = false → Completes p.1 s fun t => t.c1 = true ∧ Frame s t [] [1] noByte) ∧
        (s.stackMask = true → Completes p.1 s fun t => Interrupted (s.setCc (.c1Only true)) t .program 3 0x16)))

/-- Whether a key matches: the logical compare (the key as the first operand, decision D16, log 21), or the test under mask,
selected by the mask CCC. Where memory is read more than once, no unit stores among the reads (log 50). -/
def Obligations.KeyMatching : Prop :=
  ∀ (s : State) (e : Edb) (i : Nat) (k a1 : Word) (n : Nat), Undisturbed s →
    let x := fun j : Nat => s.byteAt (k + BitVec.ofNat 16 j)
    let y := fun j : Nat => s.byteAt (a1 + BitVec.ofNat 16 j)
    (e.flags &&& 0x08 = 0 →
      ((∀ j, j < e.keyLength → x j = y j) → keyMatches e s i k a1 n = (e.flags &&& 0x04 != 0)) ∧
      (∀ j, j < e.keyLength → (∀ h, h < j → x h = y h) → (y j).toNat < (x j).toNat →
        keyMatches e s i k a1 n = (e.flags &&& 0x02 != 0)) ∧
      (∀ j, j < e.keyLength → (∀ h, h < j → x h = y h) → (x j).toNat < (y j).toNat →
        keyMatches e s i k a1 n = (e.flags &&& 0x01 != 0))) ∧
    (e.flags &&& 0x08 ≠ 0 →
      ((∀ j, j < e.keyLength → y j = 0) → keyMatches e s i k a1 n = (e.flags &&& 0x04 != 0)) ∧
      (e.keyLength ≤ 2 → (∀ j, j < e.keyLength → x j &&& y j = 0) → keyMatches e s i k a1 n = (e.flags &&& 0x04 != 0)) ∧
      (e.keyLength ≤ 2 → (∀ j, j < e.keyLength → x j &&& y j = y j) → (∃ j, j < e.keyLength ∧ y j ≠ 0) →
        keyMatches e s i k a1 n = (e.flags &&& 0x02 != 0)) ∧
      (e.keyLength ≤ 2 → (∃ j, j < e.keyLength ∧ x j &&& y j ≠ 0) → (∃ j, j < e.keyLength ∧ x j &&& y j ≠ y j) →
        keyMatches e s i k a1 n = (e.flags &&& 0x01 != 0)))

/-- SRCH over a table or a linked list: the first matching entry, or the end of the count, or a null forward pointer. The block that
describes the entries holds the entry length or the pointer displacement, the key displacement, the key length and the flag byte, at
0, 2, 4 and 6. Where memory is read more than once, no unit stores among the reads (log 50). -/
def Obligations.Search : Prop :=
  (∀ (s : State) (a : Word), Undisturbed s → (s.edbAt a).first = s.readHalf a ∧ (s.edbAt a).keyDisp = s.readHalf (a + 2) ∧
    (s.edbAt a).keyLength = (s.readHalf (a + 4)).toNat ∧ (s.edbAt a).flags = s.byteAt (a + 6)) ∧
  (∀ (s : State) (i3 : Byte) (b1 : Reg) (d1 : Disp) (b2 : Reg) (d2 : Disp), Undisturbed s →
    odd (s.ea b2 d2) = false →
    let i := Instr.srch i3 b1 d1 b2 d2
    let e := s.edbAt (s.ea b2 d2)
    let n := (s.reg 3).toNat
    let hit := fun (a : Word) (k : Nat) => keyMatches e s 0 (s.reg 4 + a + e.keyDisp) (s.ea b1 d1)
      (s.freeCount + 2 * (n - 1 - k))
    let cur := fun k : Nat => s.reg 2 + BitVec.ofNat 16 k * e.first
    (n = 0 → Completes i s fun t => t.stored 5 = s.reg 2 ∧ Condition t false true false ∧
      Frame s t [5] [0, 1, 2] noByte) ∧
    (e.flags &&& 0x80 = 0 →
      (∀ k, k < n → (∀ j, j < k → hit (cur j) j = false) → hit (cur k) k = true →
        Completes i s fun t => t.stored 5 = cur k ∧ t.stored 2 = cur (k - 1) ∧ t.stored 3 = BitVec.ofNat 16 (n - k) ∧
          Condition t false false true ∧ Frame s t [2, 3, 5] [0, 1, 2] noByte) ∧
      (0 < n → (∀ j, j < n → hit (cur j) j = false) →
        Completes i s fun t => t.stored 5 = cur n ∧ t.stored 2 = cur (n - 1) ∧ t.stored 3 = 0 ∧
          Condition t false true false ∧ Frame s t [2, 3, 5] [0, 1, 2] noByte)) ∧
    (e.flags &&& 0x80 ≠ 0 → ∀ p f : Nat → Word, p 0 = s.reg 2 → (∀ k, f k = s.readHalf (s.reg 4 + p k)) →
      (∀ k, p (k + 1) = f k + e.first) →
      let passed := fun k : Nat => odd (s.reg 4 + p k) = false ∧ f k ≠ 0 ∧ hit (f k) k = false
      (∀ k, k < n → (∀ j, j < k → passed j) → odd (s.reg 4 + p k) = false → f k ≠ 0 → hit (f k) k = true →
        Completes i s fun t => t.stored 5 = f k ∧ t.stored 2 = p k ∧ t.stored 3 = BitVec.ofNat 16 (n - k) ∧
          Condition t false false true ∧ Frame s t [2, 3, 5] [0, 1, 2] noByte) ∧
      (∀ k, k < n → (∀ j, j < k → passed j) → odd (s.reg 4 + p k) = false → f k = 0 →
        Completes i s fun t => t.stored 5 = (if k = 0 then s.reg 2 else f (k - 1)) ∧ t.stored 2 = p (k - 1) ∧
          t.stored 3 = BitVec.ofNat 16 (n - k) ∧ Condition t true false false ∧ Frame s t [2, 3, 5] [0, 1, 2] noByte) ∧
      (0 < n → (∀ j, j < n → passed j) →
        Completes i s fun t => t.stored 5 = f (n - 1) ∧ t.stored 2 = p (n - 1) ∧ t.stored 3 = 0 ∧
          Condition t false true false ∧ Frame s t [2, 3, 5] [0, 1, 2] noByte) ∧
      (∀ k, k < n → (∀ j, j < k → passed j) → odd (s.reg 4 + p k) = true → Traps i s 3 .alignment)))

/-- ENQ links a new entry after a predecessor; DEQ unlinks the entry after it, or sets C0 where there is none. What DEQ leaves
in R1 is not specified (U15). Where memory is read more than once, no unit stores among the reads (log 50). -/
def Obligations.EnqueueAndDequeue : Prop :=
  (∀ (s : State) (i3 : Byte) (b1 : Reg) (d1 : Disp) (b2 : Reg) (d2 : Disp), Undisturbed s → let pa := s.reg 4 + s.reg 2
    let na := s.reg 4 + s.ea b1 d1 + s.readHalf (s.ea b2 d2)
    odd (s.ea b2 d2) = false →
    (odd pa = true ∨ odd na = true → Traps (.enq i3 b1 d1 b2 d2) s 3 .alignment) ∧
    (odd pa = false → odd na = false → Completes (.enq i3 b1 d1 b2 d2) s fun t =>
      t.readHalf pa = s.ea b1 d1 ∧ (phys na ≠ phys pa → t.readHalf na = s.readHalf pa) ∧
      Frame s t [] [] (either (Touched na 2) (Touched pa 2)))) ∧
  (∀ (s : State) (r1 x2 b2 : Reg) (d2 : Disp), Undisturbed s → let pa := s.reg 4 + s.reg 2
    let f := s.readHalf pa
    let next := s.reg 4 + f + s.readHalf (s.eaRX x2 b2 d2)
    odd (s.eaRX x2 b2 d2) = false →
    (odd pa = true → Traps (.deq r1 x2 b2 d2) s 2 .alignment) ∧
    (odd pa = false → f = 0 → Completes (.deq r1 x2 b2 d2) s fun t =>
      (r1 ≠ 0 → t.c0 = true) ∧ Frame s t [r1] [0] noByte) ∧
    (odd pa = false → f ≠ 0 → odd next = true → Traps (.deq r1 x2 b2 d2) s 2 .alignment) ∧
    (odd pa = false → f ≠ 0 → odd next = false → Completes (.deq r1 x2 b2 d2) s fun t =>
      t.readHalf pa = s.readHalf next ∧ (r1 ≠ 0 → t.c0 = false) ∧ Frame s t [r1] [0] (Touched pa 2)))

/-- Test and branch, and branch on condition: where the condition holds the PC becomes the target, in the RR form only if R2
is not register 0; a mask of 0 always branches (decision D28, log 27). -/
def Obligations.ConditionalBranches : Prop :=
  ∀ (s : State) (r1 r2 x2 : Reg) (d2 : Word), let v := (s.reg r1).toInt
    let sel := r1 &&& s.msr.extractLsb' 12 4
    (∀ p ∈ ([(.tbpr r1 r2, decide (0 < v)), (.tbnpr r1 r2, decide (v ≤ 0)), (.tbzr r1 r2, decide (v = 0)),
        (.tbnzr r1 r2, decide (v ≠ 0)), (.tbmr r1 r2, decide (v < 0)), (.tbnmr r1 r2, decide (0 ≤ v)),
        (.bczr r1 r2, sel == 0), (.bcor r1 r2, sel != 0 || r1 == 0)] : List (Instr × Bool)),
      Completes p.1 s fun t =>
        t.pc = (if p.2 = true ∧ r2 ≠ 0 then s.reg r2 else s.pc) ∧ Frame s t [1] [] noByte) ∧
    (∀ p ∈ ([(.tbp r1 x2 d2, decide (0 < v)), (.tbnp r1 x2 d2, decide (v ≤ 0)), (.tbz r1 x2 d2, decide (v = 0)),
        (.tbnz r1 x2 d2, decide (v ≠ 0)), (.tbm r1 x2 d2, decide (v < 0)), (.tbnm r1 x2 d2, decide (0 ≤ v)),
        (.bcz r1 x2 d2, sel == 0), (.bco r1 x2 d2, sel != 0 || r1 == 0)] : List (Instr × Bool)),
      Completes p.1 s fun t =>
        t.pc = (if p.2 = true then s.pc + d2 + (if x2 = 0 then 0 else s.reg x2) else s.pc) ∧ Frame s t [1] [] noByte)

/-- Branch and link, branch on count, and the index loops; what R1 = R2, R1 = X2 and X2 = 0 leave unsettled (U16, U17) is
left open. -/
def Obligations.LinkCountAndIndexBranches : Prop :=
  ∀ (s : State) (r1 r2 x2 : Reg) (d2 : Word), let target := s.pc + d2 + (if x2 = 0 then 0 else s.reg x2)
    let v := s.reg r1 - 1
    Completes (.balr r1 r2) s (fun t => t.pc = (if r2 = 0 then s.pc else s.reg r2) ∧
      (r1 ≠ 1 → t.stored r1 = s.pc) ∧ Frame s t [r1, 1] [] noByte) ∧
    Completes (.bal r1 x2 d2) s (fun t => t.pc = target ∧ (r1 ≠ 1 → t.stored r1 = s.pc) ∧
      Frame s t [r1, 1] [] noByte) ∧
    Completes (.bctr r1 r2) s (fun t =>
      (0 < v.toInt ∧ r2 ≠ 0 → (t.pc = s.reg r2 ∨ (r1 = r2 ∧ t.pc = v)) ∧ (r1 ≠ 1 → t.stored r1 = v)) ∧
      (v.toInt ≤ 0 ∨ r2 = 0 → t.stored r1 = v ∧ (r1 ≠ 1 → t.pc = s.pc)) ∧ Frame s t [r1, 1] [] noByte) ∧
    Completes (.bct r1 x2 d2) s (fun t =>
      (0 < v.toInt → (t.pc = target ∨ (r1 = x2 ∧ x2 ≠ 0 ∧ t.pc = s.pc + d2 + v)) ∧ (r1 ≠ 1 → t.stored r1 = v)) ∧
      (v.toInt ≤ 0 → t.stored r1 = v ∧ (r1 ≠ 1 → t.pc = s.pc)) ∧ Frame s t [r1, 1] [] noByte) ∧
    (∀ p ∈ ([(.bxh r1 x2 d2, fun a b => decide (b < a)), (.bxle r1 x2 d2, fun a b => decide (a ≤ b))]
        : List (Instr × (Int → Int → Bool))),
      ∃ inc cmp : Word, (inc = s.reg x2 ∨ (x2 = 0 ∧ inc = 0)) ∧
        (cmp = (if x2.getLsbD 0 then s.reg x2 else s.reg (x2 + 1)) ∨
          (x2.getLsbD 0 = false ∧ r1 = x2 + 1 ∧ cmp = s.reg r1 + inc)) ∧
        Completes p.1 s fun t =>
          (p.2 (s.reg r1 + inc).toInt cmp.toInt = true → t.pc = s.pc + d2 ∧
            (r1 ≠ 1 → t.stored r1 = s.reg r1 + inc)) ∧
          (p.2 (s.reg r1 + inc).toInt cmp.toInt = false → t.stored r1 = s.reg r1 + inc ∧ (r1 ≠ 1 → t.pc = s.pc)) ∧
          Frame s t [r1, 1] [] noByte)

/-- EX runs the instruction its operand holds, R1 ORed into the first halfword, as if it stood alone but with the PC after the
EX; the subject may be no EX, which takes the Execute interrupt, and an unassigned code takes the Operation interrupt. Where
memory is read more than once, no unit stores among the reads (log 50). -/
def Obligations.Execute : Prop :=
  ∀ (s : State) (r1 x2 b2 : Reg) (d2 : Disp), let e := s.eaRX x2 b2 d2
    Undisturbed s → odd e = false → let h0 := if r1 = 0 then s.readHalf e else s.readHalf e ||| s.reg r1
    let i := Instr.ex r1 x2 b2 d2
    let subject := { s with inExecute := true }
    (∀ j : Instr, h0.extractLsb' 8 8 ≠ 0x54 → decode h0 (s.readHalf (e + 2)) (s.readHalf (e + 4)) = .ok j →
      exec i s = leaveExecute (exec j subject)) ∧
    (∀ a b : Reg, h0 = 0x3300 ||| (a.setWidth 16 <<< 4) ||| b.setWidth 16 → Completes i s fun t =>
      t.stored a = s.reg b ∧ Frame { s with inExecute := false } t [a] [] noByte) ∧
    (∀ a : Reg, h0 = 0xA800 ||| (a.setWidth 16 <<< 4) → Completes i s fun t =>
      t.pc = s.pc + s.readHalf (e + 2) ∧ (a ≠ 1 → t.stored a = s.pc) ∧
      Frame { s with inExecute := false } t [a, 1] [] noByte) ∧
    (h0.extractLsb' 8 8 = 0x54 → Completes i s fun t =>
      Interrupted { s with inExecute := false } t .program 2 0x18) ∧
    (∀ op : Byte, h0.extractLsb' 8 8 ≠ 0x54 →
      decode h0 (s.readHalf (e + 2)) (s.readHalf (e + 4)) = .error (.unassigned op) → Completes i s fun t =>
        t.readHalf 0x52 = h0 ∧ t.readHalf 0x12 = 0x02 ∧ t.readHalf 0x10 = s.pc ∧ t.msr = s.readHalf 0x14 ∧
        t.pc = s.readHalf 0x16 ∧ Frame { s with inExecute := false } t [0, 1] []
          (either (Touched 0x52 10) (Touched 0x0E 6)))

/-! ## Status switching, input and output -/

/-- ENT allocates the block, saves the registers and links it, or takes the Stack Frame Overflow interrupt; where only the new
free-space header would not fit it does the one or the other, and the model leaves open which (U18, log 16). Where memory is read
more than once, no unit stores among the reads (log 50). -/
def Obligations.EnterSubroutine : Prop :=
  ∀ (s : State) (r1 r2 : Reg) (i2 : Word), let sfp := s.reg 15
    let la := s.readHalf (sfp + 2)
    let length := s.readHalf la
    let need := (i2.toNat + 1) / 2 * 2 + 34
    let i := Instr.ent r1 r2 i2
    let allocates := Completes i s fun t =>
      t.stored 15 = la ∧ t.readHalf la = sfp ∧ t.readHalf (la + 2) = la + BitVec.ofNat 16 need ∧
      t.readHalf (la + 4) = s.reg 0 ∧ t.readHalf (la + 6) = s.reg 14 ∧
      (∀ k, 2 ≤ k → k ≤ 14 → t.readHalf (la + 4 + 2 * BitVec.ofNat 16 k) = s.reg (BitVec.ofNat 4 k)) ∧
      (need + 2 ≤ Config.memSize → t.readHalf (la + BitVec.ofNat 16 need) = length - BitVec.ofNat 16 need) ∧
      Frame s t [15] [] (either (Touched la 34) (Touched (la + BitVec.ofNat 16 need) 2))
    Undisturbed s → odd sfp = false →
    (odd la = true → Traps i s 2 .alignment) ∧
    (odd la = false → length.toNat < need → Traps i s 2 .stackFrameOverflow) ∧
    (odd la = false → need ≤ length.toNat → length.toNat < need + 4 → Traps i s 2 .stackFrameOverflow ∨ allocates) ∧
    (odd la = false → need + 4 ≤ length.toNat → allocates)

/-- RET reloads registers 2 to 13, frees the block and branches to the new contents of register 13 (RET_LAST, conflict C6, log
22), or takes the Stack Frame Underflow interrupt. Where memory is read more than once, no unit stores among the
reads (log 50). -/
def Obligations.ReturnFromSubroutine : Prop :=
  ∀ (s : State) (r1 r2 : Reg), let sfp := s.reg 15
    let bp := s.readHalf sfp
    let la := s.readHalf (sfp + 2)
    let i := Instr.ret r1 r2
    Undisturbed s → odd sfp = false →
    (odd bp = true → Traps i s 1 .alignment) ∧
    (odd bp = false → s.readHalf (bp + 2) ≠ sfp → Traps i s 1 .stackFrameUnderflow) ∧
    (odd bp = false → s.readHalf (bp + 2) = sfp → odd la = true → Traps i s 1 .alignment) ∧
    (odd bp = false → s.readHalf (bp + 2) = sfp → odd la = false → Completes i s fun t =>
      (∀ k, 2 ≤ k → k ≤ 13 → t.stored (BitVec.ofNat 4 k) = s.readHalf (sfp + 4 + 2 * BitVec.ofNat 16 k)) ∧
      t.stored 15 = bp ∧ t.pc = s.readHalf (sfp + 30) ∧ t.readHalf sfp = s.readHalf la + (la - sfp) ∧
      t.readHalf (sfp + 2) = 0 ∧
      Frame s t [1, 2, 3, 4, 5, 6, 7, 8, 9, 10, 11, 12, 13, 15] [] (Touched sfp 4))

/-- SIO and SIOR: the fields of the IOCC, the operations each unit defines (any other is the No Operation, whose bits the source has
lost, or refused: U20, logs 18, 37), and what each does. A UCB pointer that is 0 or odd, and a unit not installed or not matched by
its UCB (log 45), take their interrupts, and then, in the order of R384's pseudocode (against decision D24, log 29), an odd address
field that is a memory address. A busy or offline unit answers C0, a begun operation C1, an immediate one C2 (which are which: log
34); the unit's status is stored in its UCB. An immediate command stores, sends, lights or clears what its unit's rule says and
leaves the rest: what the own USH of the META 4A becomes after a Write is free (log 41), a Control of 0 to the disk leaves its
status (log 36), bit 31 of a No Operation to unit 5 clears a Parity Check too (log 37). A begun operation leaves its unit busy (the
bits of the last one kept or cleared: logs 34, 36, 42), and a character goes out. A disk count of 0 and a card count above 80 are
refused (U20, log 18). The count is the one in memory at the SIO (log 36), and the address field of a Write to the META 4B is no
memory address (log 41). Where memory is read more than once, no unit stores among the reads (log 50). -/
def Obligations.StartIo : Prop :=
  (∀ w0 w1 : Word, (ioccOf w0 w1).address = w0 ∧ (∀ i, i < 4 → (ioccOf w0 w1).unit.getMsbD i = w1.getMsbD (1 + i)) ∧
    (∀ i, i < 8 → (ioccOf w0 w1).op.getMsbD i = w1.getMsbD (5 + i)) ∧
    (∀ i, i < 3 → (ioccOf w0 w1).modifier.getMsbD i = w1.getMsbD (13 + i))) ∧
  (∀ c : Iocc,
    let table : List (BitVec 4 × Byte × Command) :=
      [(1, 0x26, .writeB), (1, 0x41, .readB), (1, 0x86, .controlB),
        (2, 0x86, if c.address = 0 then .diskStay else .diskMove), (2, 0xA4, .diskTransfer), (2, 0xC4, .diskTransfer),
        (2, 0xD4, .diskTransfer), (3, 0x86, .terminalControl true), (3, 0x41, .terminalRead true),
        (3, 0x26, .terminalWrite true), (4, 0xC4, .cardRead), (5, 0x41, .panelRead), (5, 0x00, .panelWrite),
        (6, 0x86, .terminalControl false), (6, 0x41, .terminalRead false), (6, 0x26, .terminalWrite false)]
    (∀ r ∈ table, c.unit = r.1 → c.op = r.2.1 → commandOf c = some r.2.2) ∧
    ((∀ r ∈ table, c.unit = r.1 → c.op ≠ r.2.1) → commandOf c = if c.op = Config.ioccNop then some .nop else none)) ∧
  (∀ k : Command,
    (k.usesMemory = true ↔ k ∈ ([.readB, .terminalRead true, .terminalRead false, .panelRead, .panelWrite, .diskTransfer,
      .cardRead] : List Command)) ∧
    (k.begins = true ↔ k ∈ ([.diskMove, .diskTransfer, .cardRead, .terminalWrite true, .terminalWrite false] : List Command)) ∧
    (∀ w : Word, bufferCount k w = if k = .cardRead then w.toNat % 128 else w.toNat) ∧
    (∀ n, countUnpredictable k n = true ↔ (k = .diskTransfer ∧ n = 0) ∨ (k = .cardRead ∧ 80 < n))) ∧
  (∀ (s : State) (u : Fin 11), s.sensed u = (s.unit u).ush ||| if (s.unit u).offline = false then 0 else if u.val = 2 then 0x2000
    else if u.val = 3 ∨ u.val = 6 then 0x0400 else if u.val = 4 then CardFlag.offline.bit else 0) ∧
  (∀ (s : State) (r1 r2 x2 b2 : Reg) (d2 : Disp), Undisturbed s → s.privileged = true →
    let a := s.eaRX x2 b2 d2
    ∀ p ∈ ([(.sior r1 r2, 1, s.reg r1, s.reg r2, true), (.sio r1 x2 b2 d2, 2, s.readHalf a, s.readHalf (a + 2), !odd a)]
        : List (Instr × BitVec 2 × Word × Word × Bool)), p.2.2.2.2 = true →
      let c := ioccOf p.2.2.1 p.2.2.2.1
      let ucb := s.readHalf (0x30 + 2 * c.unit.setWidth 16)
      let answered := Touched (ucb + 2) 2
      let both := either (Touched c.address 2) answered
      let apart := phys c.address ≠ phys (ucb + 2)
      (ucb = 0 ∨ odd ucb = true → Traps p.1 s p.2.1 .invalidUcbAddress) ∧
      (ucb ≠ 0 → odd ucb = false → (c.unit.toNat = 0 ∨ 7 ≤ c.unit.toNat ∨ s.readHalf ucb ≠ c.unit.setWidth 16) →
        Completes p.1 s fun t =>
          Interrupted (s.writeHalf 0x50 (c.unit.setWidth 16)) t .program p.2.1 0x1A) ∧
      (∀ u : Fin 11, ucb ≠ 0 → odd ucb = false → 1 ≤ c.unit.toNat → c.unit.toNat ≤ 6 → u.val = c.unit.toNat →
        s.readHalf ucb = c.unit.setWidth 16 →
        let l := s.unit u
        let withUnit := fun m : LocalUnit => { s with units := s.units.set u.val m u.isLt }
        (commandOf c = none → exec p.1 s = .refused .undefinedIocc) ∧
        (∀ k, commandOf c = some k → k.usesMemory = true → odd c.address = true → Traps p.1 s p.2.1 .alignment) ∧
        (∀ k, commandOf c = some k → (k.usesMemory = true → odd c.address = false) →
          (k ≠ .nop → l.offline = true ∨ l.operation.isSome = true → Completes p.1 s fun t =>
            Condition t true false false ∧ t.readHalf (ucb + 2) = s.sensed u ∧ Frame s t [] [0, 1, 2] answered) ∧
          (k = .nop ∨ (l.offline = false ∧ l.operation = none ∧ k.begins = false) → Completes p.1 s fun t =>
            Condition t false false true ∧ t.readHalf (ucb + 2) = t.sensed u ∧
            let clears := c.modifier.getLsbD 0 && u.val != 1
            let ush := l.ush &&& ~~~c.address
            let v := s.readHalf c.address
            (k = .nop → Frame { withUnit { l with request := l.request && !clears } with
              parityPending := s.parityPending && !(clears && u.val == 5) } t [] [0, 1, 2] answered) ∧
            (k = .writeB → Frame { s with ownUsh := t.ownUsh, outputs := s.outputs ++ [.interruptB c.address] }
              t [] [0, 1, 2] answered) ∧
            (k = .readB → Frame s t [] [0, 1, 2] both ∧ (apart → t.readHalf c.address = s.ownUsh)) ∧
            (k = .controlB → Frame { withUnit { l with ush := ush, request := l.request && ush != 0 } with
              outputs := s.outputs ++ [.clearB c.address] } t [] [0, 1, 2] answered) ∧
            (∀ h, k = .terminalControl h → Frame { s with
              hostTerminal := if h then { s.hostTerminal with codes := c.address } else s.hostTerminal
              terminal := if h then s.terminal else { s.terminal with codes := c.address }
              outputs := s.outputs ++ [.terminalControl h c.address] ++ if h && c.address.getMsbD 2 then [.hostBreak] else [] }
              t [] [0, 1, 2] answered) ∧
            (∀ h, k = .terminalRead h → Frame (withUnit { l with ush := l.ush &&& 0xBFFF }) t [] [0, 1, 2] both ∧
              (apart → t.readHalf c.address = if h then s.hostTerminal.input else s.terminal.input)) ∧
            (k = .panelRead → Frame s t [] [0, 1, 2] both ∧ (apart → t.readHalf c.address = s.panel.switches)) ∧
            (k = .panelWrite → Frame { s with panel := { s.panel with
              lower := if c.modifier.getLsbD 1 then v else s.panel.lower
              upper := if c.modifier.getLsbD 0 then v else s.panel.upper } } t [] [0, 1, 2] answered) ∧
            (k = .diskStay → Frame s t [] [0, 1, 2] answered)) ∧
          (l.offline = false → l.operation = none → k.begins = true →
            (countUnpredictable k (bufferCount k (s.readHalf c.address)) = true →
              exec p.1 s = .refused .unpredictableTransfer) ∧
            (countUnpredictable k (bufferCount k (s.readHalf c.address)) = false → Completes p.1 s fun t =>
              Condition t false true false ∧ t.readHalf (ucb + 2) = t.sensed u ∧
              Frame { withUnit { l with
                  operation := some { iocc := c, count := bufferCount k (s.readHalf c.address), moved := [] }
                  ush := if u.val = 2 then (l.ush &&& 0x0803) ||| 0x3000
                    else if u.val = 4 then CardFlag.busy.bit ||| CardFlag.offline.bit else (l.ush &&& 0x7FFF) ||| 0x0C00 } with
                outputs := s.outputs ++ if k = .terminalWrite true then [.terminalWrite true c.address]
                  else if k = .terminalWrite false then [.terminalWrite false c.address] else [] }
                t [] [0, 1, 2] answered)))))

/-- IOST: the low two bits of R2 choose between S and T and the direction; what S and T hold when read is the channel's. -/
def Obligations.InterfaceRegisters : Prop :=
  ∀ (s : State) (r1 r2 : Reg), s.privileged = true →
    (r2.extractLsb' 0 2 = 0 → Completes (.iost r1 r2) s fun t => t.stored r1 = t.interface.sReg ∧
      Frame { s with interface := { s.interface with sReg := t.interface.sReg } } t [r1] [] noByte) ∧
    (r2.extractLsb' 0 2 = 2 → Completes (.iost r1 r2) s fun t => t.stored r1 = t.interface.tReg ∧
      Frame { s with interface := { s.interface with tReg := t.interface.tReg } } t [r1] [] noByte) ∧
    (r2.extractLsb' 0 2 = 1 → Completes (.iost r1 r2) s fun t => t.interface.sReg = s.reg r1 ∧
      t.outputs = s.outputs ++ [.interfaceS (s.reg r1)] ∧
      Frame { s with interface := { s.interface with sReg := s.reg r1 }, outputs := t.outputs } t [] [] noByte) ∧
    (r2.extractLsb' 0 2 = 3 → Completes (.iost r1 r2) s fun t => t.interface.tReg = s.reg r1 ∧
      t.outputs = s.outputs ++ [.interfaceT (s.reg r1)] ∧
      Frame { s with interface := { s.interface with tReg := s.reg r1 }, outputs := t.outputs } t [] [] noByte)

/-- EXCC, TRB and SS on devices 0 to 3: a UCB pointer that is 0 or odd takes its interrupt; otherwise the transfer or the status
goes out and one of C0, C1, C2 is set; only the named fields of the UCB and, from the S/360, the operand are stored. A
successful transfer moves the whole count; a Bus-Out Check is recorded in the sense and status bytes. The Final Data Address,
where a byte is moved (else free, log 39), and the Residual Count are said where the fields do not overlap: their offsets are
lost (log 38). How the channel answers is its own (log 39). Devices above 3 are refused. Where memory is read more than once, no
unit stores among the reads (log 50). -/
def Obligations.ChannelInstructions : Prop :=
  ∀ (s : State) (d r2 x2 b2 : Reg) (d2 : Disp), Undisturbed s → s.privileged = true →
    let p := s.readHalf (0x46 + 2 * d.setWidth 16)
    let a := s.eaRX x2 b2 d2
    let status := s.byteAt (p + Config.ucbStatus)
    let one := fun t : State => Condition t true false false ∨ Condition t false true false ∨ Condition t false false true
    let inward := (s.byteAt (p + Config.ucbCommand)).getLsbD 0
    let final := p + Config.ucbFinalAddress
    let residual := p + Config.ucbResidual
    let endFields := either (Touched (p + Config.ucbSense) 1) (Touched (p + Config.ucbStatus) 1)
    let checked := fun t : State => (t.byteAt (p + Config.ucbSense)).getMsbD 2 = true ∧
      (t.byteAt (p + Config.ucbStatus)).getMsbD 6 = true
    (4 ≤ d.toNat → ∀ i ∈ ([.excc d r2, .trb d x2 b2 d2, .ss d x2 b2 d2] : List Instr),
      exec i s = .refused (.undefinedDevice d)) ∧
    (d.toNat < 4 → p = 0 ∨ odd p = true → Traps (.excc d r2) s 1 .invalidUcbAddress ∧
      Traps (.trb d x2 b2 d2) s 2 .invalidUcbAddress ∧ Traps (.ss d x2 b2 d2) s 2 .invalidUcbAddress) ∧
    (d.toNat < 4 → p ≠ 0 → odd p = false →
      (Completes (.excc d r2) s fun t => one t ∧ ∃ n, n ≤ (s.readHalf (p + Config.ucbCount)).toNat ∧
        (t.c0 = true → n = (s.readHalf (p + Config.ucbCount)).toNat ∨ checked t) ∧
        (t.c0 = false ∨ (∀ x, Touched residual 2 x → ¬ endFields x) →
          t.readHalf residual = s.readHalf (p + Config.ucbCount) - BitVec.ofNat 16 n) ∧
        ((∀ x, Touched final 2 x → ¬ endFields x ∧ ¬ Touched residual 2 x) →
          n ≠ 0 → t.readHalf final = s.readHalf (p + Config.ucbDataAddress) + BitVec.ofNat 16 n) ∧
        t.outputs = (if inward then s.outputs else s.outputs ++
          (s.readBytes (s.readHalf (p + Config.ucbDataAddress)) n).map (Output.channelData d)) ∧
        Frame { s with outputs := t.outputs } t [] [0, 1, 2]
          (either (if inward then Touched (s.readHalf (p + Config.ucbDataAddress)) n else noByte)
            (either (either (Touched final 2) (Touched residual 2)) endFields))) ∧
      (Completes (.trb d x2 b2 d2) s fun t => one t ∧ ∃ n, n ≤ 1 ∧ (t.c0 = true → n = 1 ∨ checked t) ∧
        t.outputs = (if inward then s.outputs else s.outputs ++ (s.readBytes a n).map (Output.channelData d)) ∧
        Frame { s with outputs := t.outputs } t [] [0, 1, 2]
          (either (if inward then Touched a n else noByte) endFields)) ∧
      (a = 0 → status = 0 → Compared (.ss d x2 b2 d2) s true false false) ∧
      (a ≠ 0 ∨ status ≠ 0 → Completes (.ss d x2 b2 d2) s fun t => one t ∧
        t.outputs = s.outputs ++ [.channelStatus d (if a = 0 then status else a.extractLsb' 0 8)] ∧
        (t.c1 = true → t.byteAt (p + Config.ucbStatus) = if a = 0 then status else a.extractLsb' 0 8) ∧
        Frame { s with outputs := t.outputs } t [] [0, 1, 2] (Touched (p + Config.ucbStatus) 1)))

/-! ## Asynchronous interrupts -/

/-- The I/O interrupt of the lowest unit that is due: one that requests and is enabled by MSR.I/O and the mask, or unit 5 for a
Parity Check that MSR.P enables (decision D19, log 32) or for INT RUN, where the machine does not gate that (log 43). Its status
goes to its UCB, or bit 0 of the code says there is no valid one; the request of a unit but the META 4B is reset (log 41), and an
enabled Parity Check with unit 5's; a masked request stays. With none due a waiting machine goes on waiting. -/
def Obligations.IoInterrupt : Prop :=
  ∀ (s : State) (u : Fin 11), Turn s → s.inhibit = false → s.interface.selection = none →
    let due := fun v : Fin 11 => ((s.unit v).request && s.ioEnabled && (s.readHalf 0x2E).getMsbD v.val) ||
      (v == 5 && ((s.parityPending && s.parityEnabled) ||
        ((s.unit 5).request && (s.unit 5).ush.getMsbD 0 && !Config.intRunGated)))
    let p := s.readHalf (0x30 + 2 * BitVec.ofNat 16 u.val)
    let beside := fun t : State => { t with
      units := s.units, parityPending := s.parityPending, nsi := s.nsi, schedule := s.schedule }
    let after := fun t : State => (t.unit u).request = ((s.unit u).request && u.val == 1) ∧
      (∀ v, v ≠ u → t.unit v = s.unit v) ∧ t.parityPending = (s.parityPending && !(u == 5 && s.parityEnabled))
    ((∀ v, due v = false) → s.waiting = true → step s = .next s.turnTaken.settled) ∧
    (due u = true → (∀ v, v < u → due v = false) →
      (p ≠ 0 → odd p = false → ∃ t, step s = .next t ∧
        Switched (s.writeHalf (p + 2) (s.sensed u)) (beside t) .io (BitVec.ofNat 16 u.val) ∧ after t) ∧
      (p = 0 ∨ odd p = true → ∃ t, step s = .next t ∧
        Switched s (beside t) .io (0x8000 ||| BitVec.ofNat 16 u.val) ∧ after t))

/-- The S/360 reset: the interrupt with code 2 whatever the masks and the inhibit say and whatever instruction is aborted, MSR and
PC from the S/360 class's cells as the aborted instruction left them; in the wait state no instruction is aborted and memory is
otherwise kept, and else what the aborted instruction did not store to is as it left it. -/
def Obligations.S360Reset : Prop :=
  ∀ s : State, Quiet s → s.panel.stopped = false → s.interface.resetSignal = true →
    ∃ t, step s = .next t ∧
      t.readHalf 0x26 = 2 ∧ t.msr = t.readHalf 0x28 ∧ t.pc = t.readHalf 0x2A ∧ t.interface.resetSignal = false ∧
      (s.waiting = true → MemoryKept s t (Touched 0x22 6)) ∧
      (∀ v, s.waiting = false → runInstruction s.turnTaken = .next v →
        MemoryKept v t (either (Touched 0x22 6) fun a => ∃ b ∈ v.storedTo, phys a = phys b))

/-- An initial selection by the S/360, taken first. Test I/O: the current status is sent and reset, but perhaps for busy, or busy is
sent where there is no valid UCB pointer, and no interrupt. Another command: Busy while Initial Select interrupts are off, Unit
Exception and the interrupt with bit 0 of its code on where there is no valid UCB pointer, a status kept ORed with busy and
reset; and else the command is stored, its initial status sent, and the interrupt taken with bit 2 of its code on. Devices above
3 are refused. -/
def Obligations.InitialSelection : Prop :=
  ∀ (s : State) (d : BitVec 4) (command : Byte), Turn s → s.inhibit = false →
    s.interface.selection = some { device := d, command := command } →
    let p := s.readHalf (0x46 + 2 * d.setWidth 16)
    let field := p + Config.ucbStatus
    let status := s.byteAt field
    let sent := fun (v : State) (b : Byte) (t : State) =>
      t.outputs = v.outputs ++ [.initialStatus d b] ∧ t.interface = { v.interface with selection := none }
    let beside := fun (v t : State) => { t with
      outputs := v.outputs, interface := v.interface, nsi := v.nsi, schedule := v.schedule }
    (4 ≤ d.toNat → step s = .refused (.undefinedDevice d)) ∧
    (d.toNat < 4 → command = 0 → p ≠ 0 → odd p = false → ∃ t, step s = .next t ∧ sent s status t ∧
      (t.byteAt field = 0 ∨ t.byteAt field = status &&& Config.statusBusy) ∧
      Frame s (beside s t) [] [] (Touched field 1)) ∧
    (d.toNat < 4 → (command = 0 ∧ (p = 0 ∨ odd p = true)) ∨ (command ≠ 0 ∧ s.selectEnabled = false) →
      ∃ t, step s = .next t ∧ sent s Config.statusBusy t ∧ Frame s (beside s t) [] [] noByte) ∧
    (d.toNat < 4 → command ≠ 0 → s.selectEnabled = true → p = 0 ∨ odd p = true → ∃ t, step s = .next t ∧
      sent s Config.statusUnitException t ∧ Switched s (beside s t) .s360 (0x8000 ||| d.setWidth 16)) ∧
    (d.toNat < 4 → command ≠ 0 → s.selectEnabled = true → p ≠ 0 → odd p = false → status ≠ 0 → ∃ t, step s = .next t ∧
      sent s (status ||| Config.statusBusy) t ∧ t.byteAt field = 0 ∧ Frame s (beside s t) [] [] (Touched field 1)) ∧
    (d.toNat < 4 → command ≠ 0 → s.selectEnabled = true → p ≠ 0 → odd p = false → status = 0 → ∃ t, step s = .next t ∧
      sent s (s.byteAt (p + Config.ucbStatusTable + command.setWidth 16)) t ∧
      Switched (s.setByte (p + Config.ucbCommand) command) (beside s t) .s360 (0x2000 ||| d.setWidth 16))

/-- A unit's store within a turn (the model's schedule, log 50). After the numbered accesses, behind the turn's first `n` others, or
all of them and so many of its interrupt's loads: every byte the turn stores later holds what the last of those stores puts there, a
byte copied within memory what the unit left at its source, or what was read there before the unit came, every other byte is the
unit's, and a register loaded later holds what then stands where it is loaded from, as the MSR and the PC of an SVC, and of an IPL
(a turn of its own, log 43) after its record's bytes, each a store. Among the numbered accesses: the reads before it see memory as
it was, the test of the I/O mask first, then the fetch, as CLC shows on one byte, and an instruction that stores between its reads,
as MVC of one byte, meets it where it falls, before the store or behind it. LZ and SWP store their halfword at once, and TSL, which
excludes the units, leaves nothing for a unit to come before. -/
def Obligations.UnitStoreInsideInstruction : Prop :=
  (∀ (s t : State) (n : Nat) (a : Word) (bytes : List Byte) (rest : List Due), Undisturbed s →
    s.schedule = { turns := 0, event := .memoryWrite a bytes, moment := .storing n } :: rest →
    (∀ d ∈ rest.head?, d.lands = false) → cpuTurn s.turnTaken = .next t →
    let later := t.wrote.take (t.wrote.length - n)
    let last := (t.wrote.drop (t.wrote.length - n)).head?
    let loads := t.loaded.drop (n - t.wrote.length)
    ∃ u, step s = .next u ∧ Undisturbed u ∧
      (∀ c, lastAt later c = none → u.byteAt c = (t.writeBytes a bytes).byteAt c) ∧
      (∀ c x, lastAt later c = some x → (x.source = none → u.byteAt c = x.new) ∧
        ∀ b, x.source = some b → lastAt later b = none → (∀ bs, last ≠ some (.read bs)) →
          u.byteAt c = (t.writeBytes a bytes).byteAt b ||| x.ored) ∧
      (∀ c x b v bs, lastAt later c = some x → lastAt later.dropLast c = none → x.source = some b → last = some (.read bs) →
        bs.lookup b = some v → u.byteAt c = v ||| x.ored) ∧
      (∀ r, (∀ l ∈ loads, l.1 ≠ r) → u.stored r = t.stored r) ∧
      (∀ r b l1 l2, loads = l1 ++ (r, b) :: l2 → (∀ l ∈ l2, l.1 ≠ r) → u.stored r = u.readHalf b)) ∧
  (∀ (s : State) (i1 : Byte), Completes (.svc i1) s fun t => t.loaded = s.loaded ++ [(0, 0x0A), (1, 0x0C)]) ∧
  (∀ (s : State) (record : List Byte), s.panel.ipl = some record → ∃ t, cpuTurn s = .next t ∧
    t.wrote.length = s.wrote.length + record.length ∧ t.loaded = s.loaded ++ [(0, 0), (1, 2)]) ∧
  (∀ (s : State) (k : Nat) (a : Word) (bytes : List Byte) (rest : List Due), Undisturbed s →
    s.schedule = { turns := 0, event := .memoryWrite a bytes, moment := .reading k } :: rest →
    (∀ d ∈ rest.head?, d.lands = false) →
    let x := { mem := s.mem, units := s.units : Snapshot }
    let v := { s.turnTaken with
      mem := (s.writeBytes a bytes).mem
      earlier := List.replicate (k - 1) x ++ List.replicate (k - (k - 1)) { x with next := [.memoryWrite a bytes] } }
    (∀ t, cpuTurn v = .next t → step s = .next t.settled) ∧
      (∀ i, (v.seenAt i).mem = if i < k then s.mem else (s.writeBytes a bytes).mem) ∧
      (0 < k → ∀ u, v.maskAllows u = s.maskAllows u) ∧ (∀ j, j + 1 < k → v.fetchHalf j = s.fetchHalf j)) ∧
  (∀ (s : State) (b1 : Reg) (d1 : Disp) (b2 : Reg) (d2 : Disp),
    let x := (s.seenAt 0).byteAt (s.ea b1 d1)
    let y := (s.seenAt 1).byteAt (s.ea b2 d2)
    Completes (.clc 1 b1 d1 b2 d2) s fun t =>
      Condition t (x == y) (decide (y.toNat < x.toNat)) (decide (x.toNat < y.toNat))) ∧
  (∀ (s : State) (x y : Snapshot) (b1 : Reg) (d1 : Disp) (b2 : Reg) (d2 : Disp) (a : Word) (bytes : List Byte),
    let e := s.ea b1 d1
    let before := { s with mem := x.mem }
    let b := x.mem.read (phys (s.ea b2 d2))
    (s.earlier = [{ x with next := [.memoryWrite a bytes] }] → Completes (.mvc 1 b1 d1 b2 d2) s fun t =>
      t.done = e :: s.storedTo ∧ ∀ c, t.byteAt c = ((before.writeBytes a bytes).setByte e b).byteAt c) ∧
    (s.earlier = [{ x with next := [] }, { y with next := [.memoryWrite a bytes] }] → Completes (.mvc 1 b1 d1 b2 d2) s fun t =>
      t.done = e :: s.storedTo ∧ ∀ c, t.byteAt c = ((before.setByte e b).writeBytes a bytes).byteAt c)) ∧
  (∀ (s : State) (r1 x2 b2 : Reg) (d2 : Disp), let e := s.eaRX x2 b2 d2
    odd e = false → ∀ p ∈ ([(.lz r1 x2 b2 d2, 0), (.swp r1 x2 b2 d2, s.reg r1)] : List (Instr × Word)),
      Completes p.1 s fun t => t.wrote =
        .store [{ addr := e, old := s.byteAt e, new := p.2.extractLsb' 8 8 },
          { addr := e + 1, old := s.byteAt (e + 1), new := p.2.extractLsb' 0 8 }] :: s.wrote) ∧
  (∀ (s : State) (i2 : Byte) (b1 : Reg) (d1 : Disp), s.byteAt (s.ea b1 d1) &&& i2 = 0 →
    Completes (.tsl i2 b1 d1) s fun t => t.wrote = [])
end

