-- ==== Sys2Proof/Laws/State.lean ====
section
/-! SUPPORT. One lemma per field per update: every primitive update of the state leaves the other fields as they were. -/

namespace Sys2Proof.Machine

variable (s : State)

@[simp] theorem State.setByte_regs (a : Word) (b : Byte) : (s.setByte a b).regs = s.regs := rfl
@[simp] theorem State.setByte_inhibit (a : Word) (b : Byte) : (s.setByte a b).inhibit = s.inhibit := rfl
@[simp] theorem State.setByte_nsi (a : Word) (b : Byte) : (s.setByte a b).nsi = s.nsi := rfl
@[simp] theorem State.setByte_units (a : Word) (b : Byte) : (s.setByte a b).units = s.units := rfl
@[simp] theorem State.setByte_parityPending (a : Word) (b : Byte) : (s.setByte a b).parityPending = s.parityPending := rfl
@[simp] theorem State.setByte_terminal (a : Word) (b : Byte) : (s.setByte a b).terminal = s.terminal := rfl
@[simp] theorem State.setByte_hostTerminal (a : Word) (b : Byte) : (s.setByte a b).hostTerminal = s.hostTerminal := rfl
@[simp] theorem State.setByte_disk (a : Word) (b : Byte) : (s.setByte a b).disk = s.disk := rfl
@[simp] theorem State.setByte_panel (a : Word) (b : Byte) : (s.setByte a b).panel = s.panel := rfl
@[simp] theorem State.setByte_interface (a : Word) (b : Byte) : (s.setByte a b).interface = s.interface := rfl
@[simp] theorem State.setByte_outputs (a : Word) (b : Byte) : (s.setByte a b).outputs = s.outputs := rfl
@[simp] theorem State.setByte_inExecute (a : Word) (b : Byte) : (s.setByte a b).inExecute = s.inExecute := rfl
@[simp] theorem State.setByte_runningIlc (a : Word) (b : Byte) : (s.setByte a b).runningIlc = s.runningIlc := rfl
@[simp] theorem State.setByte_freeCount (a : Word) (b : Byte) : (s.setByte a b).freeCount = s.freeCount := rfl
@[simp] theorem State.setByte_schedule (a : Word) (b : Byte) : (s.setByte a b).schedule = s.schedule := rfl
@[simp] theorem State.setByte_loaded (a : Word) (b : Byte) : (s.setByte a b).loaded = s.loaded := rfl
@[simp] theorem State.setByte_done (a : Word) (b : Byte) : (s.setByte a b).done = s.done := rfl
@[simp] theorem State.setByte_earlier (a : Word) (b : Byte) : (s.setByte a b).earlier = s.earlier := rfl
@[simp] theorem State.setByte_ownUsh (a : Word) (b : Byte) : (s.setByte a b).ownUsh = s.ownUsh := rfl

@[simp] theorem State.setReg_mem (r : Reg) (v : Word) : (s.setReg r v).mem = s.mem := rfl
@[simp] theorem State.setReg_inhibit (r : Reg) (v : Word) : (s.setReg r v).inhibit = s.inhibit := rfl
@[simp] theorem State.setReg_nsi (r : Reg) (v : Word) : (s.setReg r v).nsi = s.nsi := rfl
@[simp] theorem State.setReg_units (r : Reg) (v : Word) : (s.setReg r v).units = s.units := rfl
@[simp] theorem State.setReg_parityPending (r : Reg) (v : Word) : (s.setReg r v).parityPending = s.parityPending := rfl
@[simp] theorem State.setReg_terminal (r : Reg) (v : Word) : (s.setReg r v).terminal = s.terminal := rfl
@[simp] theorem State.setReg_hostTerminal (r : Reg) (v : Word) : (s.setReg r v).hostTerminal = s.hostTerminal := rfl
@[simp] theorem State.setReg_disk (r : Reg) (v : Word) : (s.setReg r v).disk = s.disk := rfl
@[simp] theorem State.setReg_panel (r : Reg) (v : Word) : (s.setReg r v).panel = s.panel := rfl
@[simp] theorem State.setReg_interface (r : Reg) (v : Word) : (s.setReg r v).interface = s.interface := rfl
@[simp] theorem State.setReg_outputs (r : Reg) (v : Word) : (s.setReg r v).outputs = s.outputs := rfl
@[simp] theorem State.setReg_inExecute (r : Reg) (v : Word) : (s.setReg r v).inExecute = s.inExecute := rfl
@[simp] theorem State.setReg_runningIlc (r : Reg) (v : Word) : (s.setReg r v).runningIlc = s.runningIlc := rfl
@[simp] theorem State.setReg_freeCount (r : Reg) (v : Word) : (s.setReg r v).freeCount = s.freeCount := rfl
@[simp] theorem State.setReg_schedule (r : Reg) (v : Word) : (s.setReg r v).schedule = s.schedule := rfl
@[simp] theorem State.setReg_wrote (r : Reg) (v : Word) : (s.setReg r v).wrote = s.wrote := rfl
@[simp] theorem State.setReg_loaded (r : Reg) (v : Word) : (s.setReg r v).loaded = s.loaded := rfl
@[simp] theorem State.setReg_done (r : Reg) (v : Word) : (s.setReg r v).done = s.done := rfl
@[simp] theorem State.setReg_earlier (r : Reg) (v : Word) : (s.setReg r v).earlier = s.earlier := rfl
@[simp] theorem State.setReg_ownUsh (r : Reg) (v : Word) : (s.setReg r v).ownUsh = s.ownUsh := rfl

@[simp] theorem State.setCc_mem (c : CcWrite) : (s.setCc c).mem = s.mem := rfl
@[simp] theorem State.setCc_inhibit (c : CcWrite) : (s.setCc c).inhibit = s.inhibit := rfl
@[simp] theorem State.setCc_nsi (c : CcWrite) : (s.setCc c).nsi = s.nsi := rfl
@[simp] theorem State.setCc_units (c : CcWrite) : (s.setCc c).units = s.units := rfl
@[simp] theorem State.setCc_parityPending (c : CcWrite) : (s.setCc c).parityPending = s.parityPending := rfl
@[simp] theorem State.setCc_terminal (c : CcWrite) : (s.setCc c).terminal = s.terminal := rfl
@[simp] theorem State.setCc_hostTerminal (c : CcWrite) : (s.setCc c).hostTerminal = s.hostTerminal := rfl
@[simp] theorem State.setCc_disk (c : CcWrite) : (s.setCc c).disk = s.disk := rfl
@[simp] theorem State.setCc_panel (c : CcWrite) : (s.setCc c).panel = s.panel := rfl
@[simp] theorem State.setCc_interface (c : CcWrite) : (s.setCc c).interface = s.interface := rfl
@[simp] theorem State.setCc_outputs (c : CcWrite) : (s.setCc c).outputs = s.outputs := rfl
@[simp] theorem State.setCc_inExecute (c : CcWrite) : (s.setCc c).inExecute = s.inExecute := rfl
@[simp] theorem State.setCc_runningIlc (c : CcWrite) : (s.setCc c).runningIlc = s.runningIlc := rfl
@[simp] theorem State.setCc_freeCount (c : CcWrite) : (s.setCc c).freeCount = s.freeCount := rfl
@[simp] theorem State.setCc_schedule (c : CcWrite) : (s.setCc c).schedule = s.schedule := rfl
@[simp] theorem State.setCc_wrote (c : CcWrite) : (s.setCc c).wrote = s.wrote := rfl
@[simp] theorem State.setCc_loaded (c : CcWrite) : (s.setCc c).loaded = s.loaded := rfl
@[simp] theorem State.setCc_done (c : CcWrite) : (s.setCc c).done = s.done := rfl
@[simp] theorem State.setCc_earlier (c : CcWrite) : (s.setCc c).earlier = s.earlier := rfl
@[simp] theorem State.setCc_ownUsh (c : CcWrite) : (s.setCc c).ownUsh = s.ownUsh := rfl

@[simp] theorem State.consume_regs (n : Nat) : (s.consume n).regs = s.regs := rfl
@[simp] theorem State.consume_mem (n : Nat) : (s.consume n).mem = s.mem := rfl
@[simp] theorem State.consume_inhibit (n : Nat) : (s.consume n).inhibit = s.inhibit := rfl
@[simp] theorem State.consume_nsi (n : Nat) : (s.consume n).nsi = s.nsi := rfl
@[simp] theorem State.consume_units (n : Nat) : (s.consume n).units = s.units := rfl
@[simp] theorem State.consume_parityPending (n : Nat) : (s.consume n).parityPending = s.parityPending := rfl
@[simp] theorem State.consume_terminal (n : Nat) : (s.consume n).terminal = s.terminal := rfl
@[simp] theorem State.consume_hostTerminal (n : Nat) : (s.consume n).hostTerminal = s.hostTerminal := rfl
@[simp] theorem State.consume_disk (n : Nat) : (s.consume n).disk = s.disk := rfl
@[simp] theorem State.consume_panel (n : Nat) : (s.consume n).panel = s.panel := rfl
@[simp] theorem State.consume_interface (n : Nat) : (s.consume n).interface = s.interface := rfl
@[simp] theorem State.consume_outputs (n : Nat) : (s.consume n).outputs = s.outputs := rfl
@[simp] theorem State.consume_inExecute (n : Nat) : (s.consume n).inExecute = s.inExecute := rfl
@[simp] theorem State.consume_runningIlc (n : Nat) : (s.consume n).runningIlc = s.runningIlc := rfl
@[simp] theorem State.consume_schedule (n : Nat) : (s.consume n).schedule = s.schedule := rfl
@[simp] theorem State.consume_wrote (n : Nat) : (s.consume n).wrote = s.wrote := rfl
@[simp] theorem State.consume_loaded (n : Nat) : (s.consume n).loaded = s.loaded := rfl
@[simp] theorem State.consume_done (n : Nat) : (s.consume n).done = s.done := rfl
@[simp] theorem State.consume_earlier (n : Nat) : (s.consume n).earlier = s.earlier := rfl
@[simp] theorem State.consume_ownUsh (n : Nat) : (s.consume n).ownUsh = s.ownUsh := rfl

@[simp] theorem State.send_regs (o : Output) : (s.send o).regs = s.regs := rfl
@[simp] theorem State.send_mem (o : Output) : (s.send o).mem = s.mem := rfl
@[simp] theorem State.send_inhibit (o : Output) : (s.send o).inhibit = s.inhibit := rfl
@[simp] theorem State.send_nsi (o : Output) : (s.send o).nsi = s.nsi := rfl
@[simp] theorem State.send_units (o : Output) : (s.send o).units = s.units := rfl
@[simp] theorem State.send_parityPending (o : Output) : (s.send o).parityPending = s.parityPending := rfl
@[simp] theorem State.send_terminal (o : Output) : (s.send o).terminal = s.terminal := rfl
@[simp] theorem State.send_hostTerminal (o : Output) : (s.send o).hostTerminal = s.hostTerminal := rfl
@[simp] theorem State.send_disk (o : Output) : (s.send o).disk = s.disk := rfl
@[simp] theorem State.send_panel (o : Output) : (s.send o).panel = s.panel := rfl
@[simp] theorem State.send_interface (o : Output) : (s.send o).interface = s.interface := rfl
@[simp] theorem State.send_inExecute (o : Output) : (s.send o).inExecute = s.inExecute := rfl
@[simp] theorem State.send_runningIlc (o : Output) : (s.send o).runningIlc = s.runningIlc := rfl
@[simp] theorem State.send_freeCount (o : Output) : (s.send o).freeCount = s.freeCount := rfl
@[simp] theorem State.send_schedule (o : Output) : (s.send o).schedule = s.schedule := rfl
@[simp] theorem State.send_wrote (o : Output) : (s.send o).wrote = s.wrote := rfl
@[simp] theorem State.send_loaded (o : Output) : (s.send o).loaded = s.loaded := rfl
@[simp] theorem State.send_done (o : Output) : (s.send o).done = s.done := rfl
@[simp] theorem State.send_earlier (o : Output) : (s.send o).earlier = s.earlier := rfl
@[simp] theorem State.send_ownUsh (o : Output) : (s.send o).ownUsh = s.ownUsh := rfl

@[simp] theorem State.setUnit_regs (u : Fin 11) (l : LocalUnit) : (s.setUnit u l).regs = s.regs := rfl
@[simp] theorem State.setUnit_mem (u : Fin 11) (l : LocalUnit) : (s.setUnit u l).mem = s.mem := rfl
@[simp] theorem State.setUnit_inhibit (u : Fin 11) (l : LocalUnit) : (s.setUnit u l).inhibit = s.inhibit := rfl
@[simp] theorem State.setUnit_nsi (u : Fin 11) (l : LocalUnit) : (s.setUnit u l).nsi = s.nsi := rfl
@[simp] theorem State.setUnit_parityPending (u : Fin 11) (l : LocalUnit) : (s.setUnit u l).parityPending = s.parityPending := rfl
@[simp] theorem State.setUnit_terminal (u : Fin 11) (l : LocalUnit) : (s.setUnit u l).terminal = s.terminal := rfl
@[simp] theorem State.setUnit_hostTerminal (u : Fin 11) (l : LocalUnit) : (s.setUnit u l).hostTerminal = s.hostTerminal := rfl
@[simp] theorem State.setUnit_disk (u : Fin 11) (l : LocalUnit) : (s.setUnit u l).disk = s.disk := rfl
@[simp] theorem State.setUnit_panel (u : Fin 11) (l : LocalUnit) : (s.setUnit u l).panel = s.panel := rfl
@[simp] theorem State.setUnit_interface (u : Fin 11) (l : LocalUnit) : (s.setUnit u l).interface = s.interface := rfl
@[simp] theorem State.setUnit_outputs (u : Fin 11) (l : LocalUnit) : (s.setUnit u l).outputs = s.outputs := rfl
@[simp] theorem State.setUnit_inExecute (u : Fin 11) (l : LocalUnit) : (s.setUnit u l).inExecute = s.inExecute := rfl
@[simp] theorem State.setUnit_runningIlc (u : Fin 11) (l : LocalUnit) : (s.setUnit u l).runningIlc = s.runningIlc := rfl
@[simp] theorem State.setUnit_freeCount (u : Fin 11) (l : LocalUnit) : (s.setUnit u l).freeCount = s.freeCount := rfl
@[simp] theorem State.setUnit_schedule (u : Fin 11) (l : LocalUnit) : (s.setUnit u l).schedule = s.schedule := rfl
@[simp] theorem State.setUnit_wrote (u : Fin 11) (l : LocalUnit) : (s.setUnit u l).wrote = s.wrote := rfl
@[simp] theorem State.setUnit_loaded (u : Fin 11) (l : LocalUnit) : (s.setUnit u l).loaded = s.loaded := rfl
@[simp] theorem State.setUnit_done (u : Fin 11) (l : LocalUnit) : (s.setUnit u l).done = s.done := rfl
@[simp] theorem State.setUnit_earlier (u : Fin 11) (l : LocalUnit) : (s.setUnit u l).earlier = s.earlier := rfl
@[simp] theorem State.setUnit_ownUsh (u : Fin 11) (l : LocalUnit) : (s.setUnit u l).ownUsh = s.ownUsh := rfl

@[simp] theorem State.indivisible_regs : (s.indivisible).regs = s.regs := rfl
@[simp] theorem State.indivisible_mem : (s.indivisible).mem = s.mem := rfl
@[simp] theorem State.indivisible_inhibit : (s.indivisible).inhibit = s.inhibit := rfl
@[simp] theorem State.indivisible_nsi : (s.indivisible).nsi = s.nsi := rfl
@[simp] theorem State.indivisible_units : (s.indivisible).units = s.units := rfl
@[simp] theorem State.indivisible_parityPending : (s.indivisible).parityPending = s.parityPending := rfl
@[simp] theorem State.indivisible_terminal : (s.indivisible).terminal = s.terminal := rfl
@[simp] theorem State.indivisible_hostTerminal : (s.indivisible).hostTerminal = s.hostTerminal := rfl
@[simp] theorem State.indivisible_disk : (s.indivisible).disk = s.disk := rfl
@[simp] theorem State.indivisible_panel : (s.indivisible).panel = s.panel := rfl
@[simp] theorem State.indivisible_interface : (s.indivisible).interface = s.interface := rfl
@[simp] theorem State.indivisible_outputs : (s.indivisible).outputs = s.outputs := rfl
@[simp] theorem State.indivisible_inExecute : (s.indivisible).inExecute = s.inExecute := rfl
@[simp] theorem State.indivisible_runningIlc : (s.indivisible).runningIlc = s.runningIlc := rfl
@[simp] theorem State.indivisible_freeCount : (s.indivisible).freeCount = s.freeCount := rfl
@[simp] theorem State.indivisible_schedule : (s.indivisible).schedule = s.schedule := rfl
@[simp] theorem State.indivisible_wrote : (s.indivisible).wrote = [] := rfl
@[simp] theorem State.indivisible_loaded : (s.indivisible).loaded = [] := rfl
@[simp] theorem State.indivisible_done : (s.indivisible).done = s.storedTo := rfl
@[simp] theorem State.indivisible_earlier : (s.indivisible).earlier = s.earlier := rfl
@[simp] theorem State.indivisible_ownUsh : (s.indivisible).ownUsh = s.ownUsh := rfl

@[simp] theorem State.setByte_hidden (a : Word) (b : Byte) : (s.setByte a b).hidden = s.hidden := rfl
@[simp] theorem State.setReg_hidden (r : Reg) (v : Word) : (s.setReg r v).hidden = s.hidden := rfl
@[simp] theorem State.setCc_hidden (c : CcWrite) : (s.setCc c).hidden = s.hidden := rfl
@[simp] theorem State.consume_hidden (n : Nat) : (s.consume n).hidden = s.hidden := rfl
@[simp] theorem State.indivisible_hidden : (s.indivisible).hidden = s.hidden := rfl

/-! The recursive updates, by the primitive ones. -/

/-- `writeHalf` changes the memory, and the list of bytes the turn has stored. -/
theorem State.writeHalf_eq (a w : Word) :
    s.writeHalf a w = { s with mem := (s.writeHalf a w).mem, wrote := (s.writeHalf a w).wrote } := by
  rfl

@[simp] theorem State.writeHalf_regs (a w : Word) : (s.writeHalf a w).regs = s.regs :=
  (congrArg State.regs (s.writeHalf_eq a w) :)
@[simp] theorem State.writeHalf_inhibit (a w : Word) : (s.writeHalf a w).inhibit = s.inhibit :=
  (congrArg State.inhibit (s.writeHalf_eq a w) :)
@[simp] theorem State.writeHalf_nsi (a w : Word) : (s.writeHalf a w).nsi = s.nsi :=
  (congrArg State.nsi (s.writeHalf_eq a w) :)
@[simp] theorem State.writeHalf_units (a w : Word) : (s.writeHalf a w).units = s.units :=
  (congrArg State.units (s.writeHalf_eq a w) :)
@[simp] theorem State.writeHalf_parityPending (a w : Word) : (s.writeHalf a w).parityPending = s.parityPending :=
  (congrArg State.parityPending (s.writeHalf_eq a w) :)
@[simp] theorem State.writeHalf_terminal (a w : Word) : (s.writeHalf a w).terminal = s.terminal :=
  (congrArg State.terminal (s.writeHalf_eq a w) :)
@[simp] theorem State.writeHalf_hostTerminal (a w : Word) : (s.writeHalf a w).hostTerminal = s.hostTerminal :=
  (congrArg State.hostTerminal (s.writeHalf_eq a w) :)
@[simp] theorem State.writeHalf_disk (a w : Word) : (s.writeHalf a w).disk = s.disk :=
  (congrArg State.disk (s.writeHalf_eq a w) :)
@[simp] theorem State.writeHalf_panel (a w : Word) : (s.writeHalf a w).panel = s.panel :=
  (congrArg State.panel (s.writeHalf_eq a w) :)
@[simp] theorem State.writeHalf_interface (a w : Word) : (s.writeHalf a w).interface = s.interface :=
  (congrArg State.interface (s.writeHalf_eq a w) :)
@[simp] theorem State.writeHalf_outputs (a w : Word) : (s.writeHalf a w).outputs = s.outputs :=
  (congrArg State.outputs (s.writeHalf_eq a w) :)
@[simp] theorem State.writeHalf_inExecute (a w : Word) : (s.writeHalf a w).inExecute = s.inExecute :=
  (congrArg State.inExecute (s.writeHalf_eq a w) :)
@[simp] theorem State.writeHalf_runningIlc (a w : Word) : (s.writeHalf a w).runningIlc = s.runningIlc :=
  (congrArg State.runningIlc (s.writeHalf_eq a w) :)
@[simp] theorem State.writeHalf_freeCount (a w : Word) : (s.writeHalf a w).freeCount = s.freeCount :=
  (congrArg State.freeCount (s.writeHalf_eq a w) :)
@[simp] theorem State.writeHalf_schedule (a w : Word) : (s.writeHalf a w).schedule = s.schedule :=
  (congrArg State.schedule (s.writeHalf_eq a w) :)
@[simp] theorem State.writeHalf_earlier (a w : Word) : (s.writeHalf a w).earlier = s.earlier :=
  (congrArg State.earlier (s.writeHalf_eq a w) :)
@[simp] theorem State.writeHalf_loaded (a w : Word) : (s.writeHalf a w).loaded = s.loaded :=
  (congrArg State.loaded (s.writeHalf_eq a w) :)
@[simp] theorem State.writeHalf_done (a w : Word) : (s.writeHalf a w).done = s.done :=
  (congrArg State.done (s.writeHalf_eq a w) :)
@[simp] theorem State.writeHalf_ownUsh (a w : Word) : (s.writeHalf a w).ownUsh = s.ownUsh :=
  (congrArg State.ownUsh (s.writeHalf_eq a w) :)
@[simp] theorem State.writeHalf_hidden (a w : Word) : (s.writeHalf a w).hidden = s.hidden :=
  (congrArg State.hidden (s.writeHalf_eq a w) :)

/-- `writeBytes` changes the memory, and the list of bytes the turn has stored. -/
theorem State.writeBytes_eq (a : Word) (bs : List Byte) :
    s.writeBytes a bs = { s with mem := (s.writeBytes a bs).mem, wrote := (s.writeBytes a bs).wrote } := by
  induction bs generalizing s a with
  | nil => rfl
  | cons _ _ ih => exact ih _ _

@[simp] theorem State.writeBytes_regs (a : Word) (bs : List Byte) : (s.writeBytes a bs).regs = s.regs :=
  (congrArg State.regs (s.writeBytes_eq a bs) :)
@[simp] theorem State.writeBytes_inhibit (a : Word) (bs : List Byte) : (s.writeBytes a bs).inhibit = s.inhibit :=
  (congrArg State.inhibit (s.writeBytes_eq a bs) :)
@[simp] theorem State.writeBytes_nsi (a : Word) (bs : List Byte) : (s.writeBytes a bs).nsi = s.nsi :=
  (congrArg State.nsi (s.writeBytes_eq a bs) :)
@[simp] theorem State.writeBytes_units (a : Word) (bs : List Byte) : (s.writeBytes a bs).units = s.units :=
  (congrArg State.units (s.writeBytes_eq a bs) :)
@[simp] theorem State.writeBytes_parityPending (a : Word) (bs : List Byte) : (s.writeBytes a bs).parityPending = s.parityPending :=
  (congrArg State.parityPending (s.writeBytes_eq a bs) :)
@[simp] theorem State.writeBytes_terminal (a : Word) (bs : List Byte) : (s.writeBytes a bs).terminal = s.terminal :=
  (congrArg State.terminal (s.writeBytes_eq a bs) :)
@[simp] theorem State.writeBytes_hostTerminal (a : Word) (bs : List Byte) : (s.writeBytes a bs).hostTerminal = s.hostTerminal :=
  (congrArg State.hostTerminal (s.writeBytes_eq a bs) :)
@[simp] theorem State.writeBytes_disk (a : Word) (bs : List Byte) : (s.writeBytes a bs).disk = s.disk :=
  (congrArg State.disk (s.writeBytes_eq a bs) :)
@[simp] theorem State.writeBytes_panel (a : Word) (bs : List Byte) : (s.writeBytes a bs).panel = s.panel :=
  (congrArg State.panel (s.writeBytes_eq a bs) :)
@[simp] theorem State.writeBytes_interface (a : Word) (bs : List Byte) : (s.writeBytes a bs).interface = s.interface :=
  (congrArg State.interface (s.writeBytes_eq a bs) :)
@[simp] theorem State.writeBytes_outputs (a : Word) (bs : List Byte) : (s.writeBytes a bs).outputs = s.outputs :=
  (congrArg State.outputs (s.writeBytes_eq a bs) :)
@[simp] theorem State.writeBytes_inExecute (a : Word) (bs : List Byte) : (s.writeBytes a bs).inExecute = s.inExecute :=
  (congrArg State.inExecute (s.writeBytes_eq a bs) :)
@[simp] theorem State.writeBytes_runningIlc (a : Word) (bs : List Byte) : (s.writeBytes a bs).runningIlc = s.runningIlc :=
  (congrArg State.runningIlc (s.writeBytes_eq a bs) :)
@[simp] theorem State.writeBytes_freeCount (a : Word) (bs : List Byte) : (s.writeBytes a bs).freeCount = s.freeCount :=
  (congrArg State.freeCount (s.writeBytes_eq a bs) :)
@[simp] theorem State.writeBytes_schedule (a : Word) (bs : List Byte) : (s.writeBytes a bs).schedule = s.schedule :=
  (congrArg State.schedule (s.writeBytes_eq a bs) :)
@[simp] theorem State.writeBytes_earlier (a : Word) (bs : List Byte) : (s.writeBytes a bs).earlier = s.earlier :=
  (congrArg State.earlier (s.writeBytes_eq a bs) :)
@[simp] theorem State.writeBytes_loaded (a : Word) (bs : List Byte) : (s.writeBytes a bs).loaded = s.loaded :=
  (congrArg State.loaded (s.writeBytes_eq a bs) :)
@[simp] theorem State.writeBytes_done (a : Word) (bs : List Byte) : (s.writeBytes a bs).done = s.done :=
  (congrArg State.done (s.writeBytes_eq a bs) :)
@[simp] theorem State.writeBytes_ownUsh (a : Word) (bs : List Byte) : (s.writeBytes a bs).ownUsh = s.ownUsh :=
  (congrArg State.ownUsh (s.writeBytes_eq a bs) :)
@[simp] theorem State.writeBytes_hidden (a : Word) (bs : List Byte) : (s.writeBytes a bs).hidden = s.hidden :=
  (congrArg State.hidden (s.writeBytes_eq a bs) :)

/-- `orByte` is the store of the byte, but for what the turn's list of accesses says of it. -/
theorem State.orByte_eq (a : Word) (m : Byte) :
    s.orByte a m = { s.setByte a (s.byteAt a ||| m) with wrote := (s.orByte a m).wrote } := rfl

/-- `writeHalves` changes the memory, and the list of bytes the turn has stored. -/
theorem State.writeHalves_eq (a : Word) (ws : List Word) :
    s.writeHalves a ws = { s with mem := (s.writeHalves a ws).mem, wrote := (s.writeHalves a ws).wrote } := by
  induction ws generalizing s a with
  | nil => rfl
  | cons _ _ ih => exact ih _ _

@[simp] theorem State.writeHalves_regs (a : Word) (ws : List Word) : (s.writeHalves a ws).regs = s.regs :=
  (congrArg State.regs (s.writeHalves_eq a ws) :)
@[simp] theorem State.writeHalves_inhibit (a : Word) (ws : List Word) : (s.writeHalves a ws).inhibit = s.inhibit :=
  (congrArg State.inhibit (s.writeHalves_eq a ws) :)
@[simp] theorem State.writeHalves_nsi (a : Word) (ws : List Word) : (s.writeHalves a ws).nsi = s.nsi :=
  (congrArg State.nsi (s.writeHalves_eq a ws) :)
@[simp] theorem State.writeHalves_units (a : Word) (ws : List Word) : (s.writeHalves a ws).units = s.units :=
  (congrArg State.units (s.writeHalves_eq a ws) :)
@[simp] theorem State.writeHalves_parityPending (a : Word) (ws : List Word) : (s.writeHalves a ws).parityPending = s.parityPending :=
  (congrArg State.parityPending (s.writeHalves_eq a ws) :)
@[simp] theorem State.writeHalves_terminal (a : Word) (ws : List Word) : (s.writeHalves a ws).terminal = s.terminal :=
  (congrArg State.terminal (s.writeHalves_eq a ws) :)
@[simp] theorem State.writeHalves_hostTerminal (a : Word) (ws : List Word) : (s.writeHalves a ws).hostTerminal = s.hostTerminal :=
  (congrArg State.hostTerminal (s.writeHalves_eq a ws) :)
@[simp] theorem State.writeHalves_disk (a : Word) (ws : List Word) : (s.writeHalves a ws).disk = s.disk :=
  (congrArg State.disk (s.writeHalves_eq a ws) :)
@[simp] theorem State.writeHalves_panel (a : Word) (ws : List Word) : (s.writeHalves a ws).panel = s.panel :=
  (congrArg State.panel (s.writeHalves_eq a ws) :)
@[simp] theorem State.writeHalves_interface (a : Word) (ws : List Word) : (s.writeHalves a ws).interface = s.interface :=
  (congrArg State.interface (s.writeHalves_eq a ws) :)
@[simp] theorem State.writeHalves_outputs (a : Word) (ws : List Word) : (s.writeHalves a ws).outputs = s.outputs :=
  (congrArg State.outputs (s.writeHalves_eq a ws) :)
@[simp] theorem State.writeHalves_inExecute (a : Word) (ws : List Word) : (s.writeHalves a ws).inExecute = s.inExecute :=
  (congrArg State.inExecute (s.writeHalves_eq a ws) :)
@[simp] theorem State.writeHalves_runningIlc (a : Word) (ws : List Word) : (s.writeHalves a ws).runningIlc = s.runningIlc :=
  (congrArg State.runningIlc (s.writeHalves_eq a ws) :)
@[simp] theorem State.writeHalves_freeCount (a : Word) (ws : List Word) : (s.writeHalves a ws).freeCount = s.freeCount :=
  (congrArg State.freeCount (s.writeHalves_eq a ws) :)
@[simp] theorem State.writeHalves_schedule (a : Word) (ws : List Word) : (s.writeHalves a ws).schedule = s.schedule :=
  (congrArg State.schedule (s.writeHalves_eq a ws) :)
@[simp] theorem State.writeHalves_earlier (a : Word) (ws : List Word) : (s.writeHalves a ws).earlier = s.earlier :=
  (congrArg State.earlier (s.writeHalves_eq a ws) :)
@[simp] theorem State.writeHalves_loaded (a : Word) (ws : List Word) : (s.writeHalves a ws).loaded = s.loaded :=
  (congrArg State.loaded (s.writeHalves_eq a ws) :)
@[simp] theorem State.writeHalves_done (a : Word) (ws : List Word) : (s.writeHalves a ws).done = s.done :=
  (congrArg State.done (s.writeHalves_eq a ws) :)
@[simp] theorem State.writeHalves_ownUsh (a : Word) (ws : List Word) : (s.writeHalves a ws).ownUsh = s.ownUsh :=
  (congrArg State.ownUsh (s.writeHalves_eq a ws) :)
@[simp] theorem State.writeHalves_hidden (a : Word) (ws : List Word) : (s.writeHalves a ws).hidden = s.hidden :=
  (congrArg State.hidden (s.writeHalves_eq a ws) :)

/-- `copyHalf` is the store of the halfword, but for what the turn's list of stores says of it. -/
theorem State.copyHalf_eq (dst src : Word) :
    s.copyHalf dst src = { s.writeHalf dst (s.readHalf src) with wrote := (s.copyHalf dst src).wrote } := rfl

/-- `copyHalves` changes the memory, and the list of bytes the turn has stored. -/
theorem State.copyHalves_eq (dst src : Word) (n : Nat) :
    s.copyHalves dst src n = { s with mem := (s.copyHalves dst src n).mem, wrote := (s.copyHalves dst src n).wrote } := by
  induction n generalizing s dst src with
  | zero => rfl
  | succ _ ih => exact ih _ _ _

@[simp] theorem State.copyHalves_regs (dst src : Word) (n : Nat) : (s.copyHalves dst src n).regs = s.regs :=
  (congrArg State.regs (s.copyHalves_eq dst src n) :)
@[simp] theorem State.copyHalves_inhibit (dst src : Word) (n : Nat) : (s.copyHalves dst src n).inhibit = s.inhibit :=
  (congrArg State.inhibit (s.copyHalves_eq dst src n) :)
@[simp] theorem State.copyHalves_nsi (dst src : Word) (n : Nat) : (s.copyHalves dst src n).nsi = s.nsi :=
  (congrArg State.nsi (s.copyHalves_eq dst src n) :)
@[simp] theorem State.copyHalves_units (dst src : Word) (n : Nat) : (s.copyHalves dst src n).units = s.units :=
  (congrArg State.units (s.copyHalves_eq dst src n) :)
@[simp] theorem State.copyHalves_parityPending (dst src : Word) (n : Nat) : (s.copyHalves dst src n).parityPending = s.parityPending :=
  (congrArg State.parityPending (s.copyHalves_eq dst src n) :)
@[simp] theorem State.copyHalves_terminal (dst src : Word) (n : Nat) : (s.copyHalves dst src n).terminal = s.terminal :=
  (congrArg State.terminal (s.copyHalves_eq dst src n) :)
@[simp] theorem State.copyHalves_hostTerminal (dst src : Word) (n : Nat) : (s.copyHalves dst src n).hostTerminal = s.hostTerminal :=
  (congrArg State.hostTerminal (s.copyHalves_eq dst src n) :)
@[simp] theorem State.copyHalves_disk (dst src : Word) (n : Nat) : (s.copyHalves dst src n).disk = s.disk :=
  (congrArg State.disk (s.copyHalves_eq dst src n) :)
@[simp] theorem State.copyHalves_panel (dst src : Word) (n : Nat) : (s.copyHalves dst src n).panel = s.panel :=
  (congrArg State.panel (s.copyHalves_eq dst src n) :)
@[simp] theorem State.copyHalves_interface (dst src : Word) (n : Nat) : (s.copyHalves dst src n).interface = s.interface :=
  (congrArg State.interface (s.copyHalves_eq dst src n) :)
@[simp] theorem State.copyHalves_outputs (dst src : Word) (n : Nat) : (s.copyHalves dst src n).outputs = s.outputs :=
  (congrArg State.outputs (s.copyHalves_eq dst src n) :)
@[simp] theorem State.copyHalves_inExecute (dst src : Word) (n : Nat) : (s.copyHalves dst src n).inExecute = s.inExecute :=
  (congrArg State.inExecute (s.copyHalves_eq dst src n) :)
@[simp] theorem State.copyHalves_runningIlc (dst src : Word) (n : Nat) : (s.copyHalves dst src n).runningIlc = s.runningIlc :=
  (congrArg State.runningIlc (s.copyHalves_eq dst src n) :)
@[simp] theorem State.copyHalves_freeCount (dst src : Word) (n : Nat) : (s.copyHalves dst src n).freeCount = s.freeCount :=
  (congrArg State.freeCount (s.copyHalves_eq dst src n) :)
@[simp] theorem State.copyHalves_schedule (dst src : Word) (n : Nat) : (s.copyHalves dst src n).schedule = s.schedule :=
  (congrArg State.schedule (s.copyHalves_eq dst src n) :)
@[simp] theorem State.copyHalves_earlier (dst src : Word) (n : Nat) : (s.copyHalves dst src n).earlier = s.earlier :=
  (congrArg State.earlier (s.copyHalves_eq dst src n) :)
@[simp] theorem State.copyHalves_loaded (dst src : Word) (n : Nat) : (s.copyHalves dst src n).loaded = s.loaded :=
  (congrArg State.loaded (s.copyHalves_eq dst src n) :)
@[simp] theorem State.copyHalves_done (dst src : Word) (n : Nat) : (s.copyHalves dst src n).done = s.done :=
  (congrArg State.done (s.copyHalves_eq dst src n) :)
@[simp] theorem State.copyHalves_ownUsh (dst src : Word) (n : Nat) : (s.copyHalves dst src n).ownUsh = s.ownUsh :=
  (congrArg State.ownUsh (s.copyHalves_eq dst src n) :)
@[simp] theorem State.copyHalves_hidden (dst src : Word) (n : Nat) : (s.copyHalves dst src n).hidden = s.hidden :=
  (congrArg State.hidden (s.copyHalves_eq dst src n) :)

/-- `writeRegs` changes the registers. -/
theorem State.writeRegs_eq (ws : List (Reg × Word)) : s.writeRegs ws = { s with regs := (s.writeRegs ws).regs } := by
  induction ws generalizing s with
  | nil => rfl
  | cons _ _ ih => exact ih _

@[simp] theorem State.writeRegs_mem (ws : List (Reg × Word)) : (s.writeRegs ws).mem = s.mem :=
  (congrArg State.mem (s.writeRegs_eq ws) :)
@[simp] theorem State.writeRegs_inhibit (ws : List (Reg × Word)) : (s.writeRegs ws).inhibit = s.inhibit :=
  (congrArg State.inhibit (s.writeRegs_eq ws) :)
@[simp] theorem State.writeRegs_nsi (ws : List (Reg × Word)) : (s.writeRegs ws).nsi = s.nsi :=
  (congrArg State.nsi (s.writeRegs_eq ws) :)
@[simp] theorem State.writeRegs_units (ws : List (Reg × Word)) : (s.writeRegs ws).units = s.units :=
  (congrArg State.units (s.writeRegs_eq ws) :)
@[simp] theorem State.writeRegs_parityPending (ws : List (Reg × Word)) : (s.writeRegs ws).parityPending = s.parityPending :=
  (congrArg State.parityPending (s.writeRegs_eq ws) :)
@[simp] theorem State.writeRegs_terminal (ws : List (Reg × Word)) : (s.writeRegs ws).terminal = s.terminal :=
  (congrArg State.terminal (s.writeRegs_eq ws) :)
@[simp] theorem State.writeRegs_hostTerminal (ws : List (Reg × Word)) : (s.writeRegs ws).hostTerminal = s.hostTerminal :=
  (congrArg State.hostTerminal (s.writeRegs_eq ws) :)
@[simp] theorem State.writeRegs_disk (ws : List (Reg × Word)) : (s.writeRegs ws).disk = s.disk :=
  (congrArg State.disk (s.writeRegs_eq ws) :)
@[simp] theorem State.writeRegs_panel (ws : List (Reg × Word)) : (s.writeRegs ws).panel = s.panel :=
  (congrArg State.panel (s.writeRegs_eq ws) :)
@[simp] theorem State.writeRegs_interface (ws : List (Reg × Word)) : (s.writeRegs ws).interface = s.interface :=
  (congrArg State.interface (s.writeRegs_eq ws) :)
@[simp] theorem State.writeRegs_outputs (ws : List (Reg × Word)) : (s.writeRegs ws).outputs = s.outputs :=
  (congrArg State.outputs (s.writeRegs_eq ws) :)
@[simp] theorem State.writeRegs_inExecute (ws : List (Reg × Word)) : (s.writeRegs ws).inExecute = s.inExecute :=
  (congrArg State.inExecute (s.writeRegs_eq ws) :)
@[simp] theorem State.writeRegs_runningIlc (ws : List (Reg × Word)) : (s.writeRegs ws).runningIlc = s.runningIlc :=
  (congrArg State.runningIlc (s.writeRegs_eq ws) :)
@[simp] theorem State.writeRegs_freeCount (ws : List (Reg × Word)) : (s.writeRegs ws).freeCount = s.freeCount :=
  (congrArg State.freeCount (s.writeRegs_eq ws) :)
@[simp] theorem State.writeRegs_schedule (ws : List (Reg × Word)) : (s.writeRegs ws).schedule = s.schedule :=
  (congrArg State.schedule (s.writeRegs_eq ws) :)
@[simp] theorem State.writeRegs_wrote (ws : List (Reg × Word)) : (s.writeRegs ws).wrote = s.wrote :=
  (congrArg State.wrote (s.writeRegs_eq ws) :)
@[simp] theorem State.writeRegs_loaded (ws : List (Reg × Word)) : (s.writeRegs ws).loaded = s.loaded :=
  (congrArg State.loaded (s.writeRegs_eq ws) :)
@[simp] theorem State.writeRegs_done (ws : List (Reg × Word)) : (s.writeRegs ws).done = s.done :=
  (congrArg State.done (s.writeRegs_eq ws) :)
@[simp] theorem State.writeRegs_earlier (ws : List (Reg × Word)) : (s.writeRegs ws).earlier = s.earlier :=
  (congrArg State.earlier (s.writeRegs_eq ws) :)
@[simp] theorem State.writeRegs_ownUsh (ws : List (Reg × Word)) : (s.writeRegs ws).ownUsh = s.ownUsh :=
  (congrArg State.ownUsh (s.writeRegs_eq ws) :)
@[simp] theorem State.writeRegs_hidden (ws : List (Reg × Word)) : (s.writeRegs ws).hidden = s.hidden :=
  (congrArg State.hidden (s.writeRegs_eq ws) :)

/-- `writeWithCc` changes the registers and the free-value counter. -/
theorem State.writeWithCc_eq (ws : List (Reg × Word)) (c : CcWrite) :
    s.writeWithCc ws c = { s with regs := (s.writeWithCc ws c).regs, freeCount := (s.writeWithCc ws c).freeCount } := by
  unfold State.writeWithCc
  split <;> rw [State.writeRegs_eq] <;> rfl

@[simp] theorem State.writeWithCc_mem (ws : List (Reg × Word)) (c : CcWrite) : (s.writeWithCc ws c).mem = s.mem :=
  (congrArg State.mem (s.writeWithCc_eq ws c) :)
@[simp] theorem State.writeWithCc_inhibit (ws : List (Reg × Word)) (c : CcWrite) : (s.writeWithCc ws c).inhibit = s.inhibit :=
  (congrArg State.inhibit (s.writeWithCc_eq ws c) :)
@[simp] theorem State.writeWithCc_nsi (ws : List (Reg × Word)) (c : CcWrite) : (s.writeWithCc ws c).nsi = s.nsi :=
  (congrArg State.nsi (s.writeWithCc_eq ws c) :)
@[simp] theorem State.writeWithCc_units (ws : List (Reg × Word)) (c : CcWrite) : (s.writeWithCc ws c).units = s.units :=
  (congrArg State.units (s.writeWithCc_eq ws c) :)
@[simp] theorem State.writeWithCc_parityPending (ws : List (Reg × Word)) (c : CcWrite) : (s.writeWithCc ws c).parityPending = s.parityPending :=
  (congrArg State.parityPending (s.writeWithCc_eq ws c) :)
@[simp] theorem State.writeWithCc_terminal (ws : List (Reg × Word)) (c : CcWrite) : (s.writeWithCc ws c).terminal = s.terminal :=
  (congrArg State.terminal (s.writeWithCc_eq ws c) :)
@[simp] theorem State.writeWithCc_hostTerminal (ws : List (Reg × Word)) (c : CcWrite) : (s.writeWithCc ws c).hostTerminal = s.hostTerminal :=
  (congrArg State.hostTerminal (s.writeWithCc_eq ws c) :)
@[simp] theorem State.writeWithCc_disk (ws : List (Reg × Word)) (c : CcWrite) : (s.writeWithCc ws c).disk = s.disk :=
  (congrArg State.disk (s.writeWithCc_eq ws c) :)
@[simp] theorem State.writeWithCc_panel (ws : List (Reg × Word)) (c : CcWrite) : (s.writeWithCc ws c).panel = s.panel :=
  (congrArg State.panel (s.writeWithCc_eq ws c) :)
@[simp] theorem State.writeWithCc_interface (ws : List (Reg × Word)) (c : CcWrite) : (s.writeWithCc ws c).interface = s.interface :=
  (congrArg State.interface (s.writeWithCc_eq ws c) :)
@[simp] theorem State.writeWithCc_outputs (ws : List (Reg × Word)) (c : CcWrite) : (s.writeWithCc ws c).outputs = s.outputs :=
  (congrArg State.outputs (s.writeWithCc_eq ws c) :)
@[simp] theorem State.writeWithCc_inExecute (ws : List (Reg × Word)) (c : CcWrite) : (s.writeWithCc ws c).inExecute = s.inExecute :=
  (congrArg State.inExecute (s.writeWithCc_eq ws c) :)
@[simp] theorem State.writeWithCc_runningIlc (ws : List (Reg × Word)) (c : CcWrite) : (s.writeWithCc ws c).runningIlc = s.runningIlc :=
  (congrArg State.runningIlc (s.writeWithCc_eq ws c) :)
@[simp] theorem State.writeWithCc_schedule (ws : List (Reg × Word)) (c : CcWrite) : (s.writeWithCc ws c).schedule = s.schedule :=
  (congrArg State.schedule (s.writeWithCc_eq ws c) :)
@[simp] theorem State.writeWithCc_wrote (ws : List (Reg × Word)) (c : CcWrite) : (s.writeWithCc ws c).wrote = s.wrote :=
  (congrArg State.wrote (s.writeWithCc_eq ws c) :)
@[simp] theorem State.writeWithCc_loaded (ws : List (Reg × Word)) (c : CcWrite) : (s.writeWithCc ws c).loaded = s.loaded :=
  (congrArg State.loaded (s.writeWithCc_eq ws c) :)
@[simp] theorem State.writeWithCc_done (ws : List (Reg × Word)) (c : CcWrite) : (s.writeWithCc ws c).done = s.done :=
  (congrArg State.done (s.writeWithCc_eq ws c) :)
@[simp] theorem State.writeWithCc_earlier (ws : List (Reg × Word)) (c : CcWrite) : (s.writeWithCc ws c).earlier = s.earlier :=
  (congrArg State.earlier (s.writeWithCc_eq ws c) :)
@[simp] theorem State.writeWithCc_ownUsh (ws : List (Reg × Word)) (c : CcWrite) : (s.writeWithCc ws c).ownUsh = s.ownUsh :=
  (congrArg State.ownUsh (s.writeWithCc_eq ws c) :)
@[simp] theorem State.writeWithCc_hidden (ws : List (Reg × Word)) (c : CcWrite) : (s.writeWithCc ws c).hidden = s.hidden :=
  (congrArg State.hidden (s.writeWithCc_eq ws c) :)

/-- `result` changes the registers and the free-value counter. -/
theorem State.result_eq (r : Reg) (v : Word) (c : CcWrite) :
    s.result r v c = { s with regs := (s.result r v c).regs, freeCount := (s.result r v c).freeCount } :=
  State.writeWithCc_eq s _ _

@[simp] theorem State.result_mem (r : Reg) (v : Word) (c : CcWrite) : (s.result r v c).mem = s.mem :=
  (congrArg State.mem (s.result_eq r v c) :)
@[simp] theorem State.result_inhibit (r : Reg) (v : Word) (c : CcWrite) : (s.result r v c).inhibit = s.inhibit :=
  (congrArg State.inhibit (s.result_eq r v c) :)
@[simp] theorem State.result_nsi (r : Reg) (v : Word) (c : CcWrite) : (s.result r v c).nsi = s.nsi :=
  (congrArg State.nsi (s.result_eq r v c) :)
@[simp] theorem State.result_units (r : Reg) (v : Word) (c : CcWrite) : (s.result r v c).units = s.units :=
  (congrArg State.units (s.result_eq r v c) :)
@[simp] theorem State.result_parityPending (r : Reg) (v : Word) (c : CcWrite) : (s.result r v c).parityPending = s.parityPending :=
  (congrArg State.parityPending (s.result_eq r v c) :)
@[simp] theorem State.result_terminal (r : Reg) (v : Word) (c : CcWrite) : (s.result r v c).terminal = s.terminal :=
  (congrArg State.terminal (s.result_eq r v c) :)
@[simp] theorem State.result_hostTerminal (r : Reg) (v : Word) (c : CcWrite) : (s.result r v c).hostTerminal = s.hostTerminal :=
  (congrArg State.hostTerminal (s.result_eq r v c) :)
@[simp] theorem State.result_disk (r : Reg) (v : Word) (c : CcWrite) : (s.result r v c).disk = s.disk :=
  (congrArg State.disk (s.result_eq r v c) :)
@[simp] theorem State.result_panel (r : Reg) (v : Word) (c : CcWrite) : (s.result r v c).panel = s.panel :=
  (congrArg State.panel (s.result_eq r v c) :)
@[simp] theorem State.result_interface (r : Reg) (v : Word) (c : CcWrite) : (s.result r v c).interface = s.interface :=
  (congrArg State.interface (s.result_eq r v c) :)
@[simp] theorem State.result_outputs (r : Reg) (v : Word) (c : CcWrite) : (s.result r v c).outputs = s.outputs :=
  (congrArg State.outputs (s.result_eq r v c) :)
@[simp] theorem State.result_inExecute (r : Reg) (v : Word) (c : CcWrite) : (s.result r v c).inExecute = s.inExecute :=
  (congrArg State.inExecute (s.result_eq r v c) :)
@[simp] theorem State.result_runningIlc (r : Reg) (v : Word) (c : CcWrite) : (s.result r v c).runningIlc = s.runningIlc :=
  (congrArg State.runningIlc (s.result_eq r v c) :)
@[simp] theorem State.result_schedule (r : Reg) (v : Word) (c : CcWrite) : (s.result r v c).schedule = s.schedule :=
  (congrArg State.schedule (s.result_eq r v c) :)
@[simp] theorem State.result_wrote (r : Reg) (v : Word) (c : CcWrite) : (s.result r v c).wrote = s.wrote :=
  (congrArg State.wrote (s.result_eq r v c) :)
@[simp] theorem State.result_loaded (r : Reg) (v : Word) (c : CcWrite) : (s.result r v c).loaded = s.loaded :=
  (congrArg State.loaded (s.result_eq r v c) :)
@[simp] theorem State.result_done (r : Reg) (v : Word) (c : CcWrite) : (s.result r v c).done = s.done :=
  (congrArg State.done (s.result_eq r v c) :)
@[simp] theorem State.result_earlier (r : Reg) (v : Word) (c : CcWrite) : (s.result r v c).earlier = s.earlier :=
  (congrArg State.earlier (s.result_eq r v c) :)
@[simp] theorem State.result_ownUsh (r : Reg) (v : Word) (c : CcWrite) : (s.result r v c).ownUsh = s.ownUsh :=
  (congrArg State.ownUsh (s.result_eq r v c) :)
@[simp] theorem State.result_hidden (r : Reg) (v : Word) (c : CcWrite) : (s.result r v c).hidden = s.hidden :=
  (congrArg State.hidden (s.result_eq r v c) :)


end Sys2Proof.Machine
end

