-- ==== Sys2Proof/Laws/Memory.lean ====
section
/-! SUPPORT. What the memory operations do: reading after writing, the bytes a field's store changes, and that every
operation keeps the canonical form. -/

namespace Sys2Proof.Machine

/-! ## The list -/

theorem lookupCell_filter (a c : Nat) (h : c ≠ a) (l : List Host.Cell) :
    lookupCell c (l.filter fun x => x.1 != a) = lookupCell c l := by
  induction l with
  | nil => rfl
  | cons x xs ih =>
    by_cases hx : x.1 = a
    · have : x.1 ≠ c := fun e => h (e ▸ hx)
      simp [lookupCell, hx, ih, Ne.symm h]
    · simp [lookupCell, hx, ih]

theorem lookupCell_filter_self (a : Nat) (l : List Host.Cell) :
    lookupCell a (l.filter fun x => x.1 != a) = Config.initialByte := by
  induction l with
  | nil => rfl
  | cons x xs ih => by_cases hx : x.1 = a <;> simp [lookupCell, hx, ih]

theorem lookupCell_insert_self (a : Nat) (b : Byte) (l : List Host.Cell) (h : ∀ x ∈ l, x.1 ≠ a) :
    lookupCell a (insertCell a b l) = b := by
  induction l with
  | nil => simp [insertCell, lookupCell]
  | cons x xs ih =>
    have hx : x.1 ≠ a := h x (by simp)
    unfold insertCell
    split
    · simp [lookupCell]
    · simp [lookupCell, hx, ih fun y hy => h y (by simp [hy])]

theorem lookupCell_insert (a c : Nat) (b : Byte) (h : c ≠ a) (l : List Host.Cell) :
    lookupCell c (insertCell a b l) = lookupCell c l := by
  induction l with
  | nil => simp [insertCell, lookupCell, Ne.symm h]
  | cons x xs ih =>
    unfold insertCell
    split
    · simp [lookupCell, Ne.symm h]
    · simp [lookupCell, ih]

/-- Reading after writing: the byte written at its address, the old bytes elsewhere. -/
@[simp] theorem Memory.read_write (m : Memory) (a c : Nat) (b : Byte) :
    (m.write a b).read c = if c = a then b else m.read c := by
  by_cases h : c = a
  · subst h
    simp only [Memory.read, Memory.write, if_true]
    split
    · rename_i hb; rw [lookupCell_filter_self, hb]
    · exact lookupCell_insert_self _ _ _ (by simp)
  · simp only [Memory.read, Memory.write, h, if_false]
    split
    · exact lookupCell_filter _ _ h _
    · rw [lookupCell_insert _ _ _ h, lookupCell_filter _ _ h]

/-! ## The canonical form -/

theorem mem_insertCell {a : Nat} {b : Byte} {l : List Host.Cell} {x : Host.Cell} (h : x ∈ insertCell a b l) :
    x = (a, b) ∨ x ∈ l := by
  induction l with
  | nil => simp [insertCell] at h; exact .inl h
  | cons y ys ih =>
    unfold insertCell at h
    split at h
    · simpa using h
    · rcases List.mem_cons.1 h with rfl | h
      · simp
      · rcases ih h with h | h <;> simp [h]

theorem insertCell_pairwise {a : Nat} {b : Byte} {l : List Host.Cell} (h : l.Pairwise fun c d => c.1 < d.1)
    (hn : ∀ x ∈ l, x.1 ≠ a) : (insertCell a b l).Pairwise fun c d => c.1 < d.1 := by
  induction l with
  | nil => simp [insertCell]
  | cons y ys ih =>
    rw [List.pairwise_cons] at h
    unfold insertCell
    split
    · rename_i hy
      refine List.pairwise_cons.2 ⟨fun z hz => ?_, List.pairwise_cons.2 h⟩
      rcases List.mem_cons.1 hz with rfl | hz
      · exact hy
      · exact Nat.lt_trans hy (h.1 z hz)
    · rename_i hy
      refine List.pairwise_cons.2 ⟨fun z hz => ?_, ih h.2 fun x hx => hn x (by simp [hx])⟩
      have := hn y (by simp)
      rcases mem_insertCell hz with rfl | hz
      · simp only; omega
      · exact h.1 z hz

/-- The canonical form, in words: addresses rising, below the size, no cell with the byte an unlisted address has. -/
theorem Memory.wf_iff (size : Nat) (m : Memory) :
    m.wf size = true ↔ (m.cells.Pairwise fun c d => c.1 < d.1) ∧ ∀ c ∈ m.cells, c.1 < size ∧ c.2 ≠ Config.initialByte := by
  simp [Memory.wf]

theorem Memory.write_wf {size : Nat} {m : Memory} {a : Nat} {b : Byte} (h : m.wf size = true) (ha : a < size) :
    (m.write a b).wf size = true := by
  rw [Memory.wf_iff] at h ⊢
  have hp := h.1.filter fun c => c.1 != a
  have hm : ∀ c ∈ m.cells.filter (fun c => c.1 != a), c.1 < size ∧ c.2 ≠ Config.initialByte :=
    fun c hc => h.2 c (List.mem_filter.1 hc).1
  unfold Memory.write
  by_cases hb : b = Config.initialByte
  · simp only [hb, if_true]; exact ⟨hp, hm⟩
  · simp only [hb, if_false]
    refine ⟨insertCell_pairwise hp (by simp), fun c hc => ?_⟩
    rcases mem_insertCell hc with rfl | hc
    · exact ⟨ha, hb⟩
    · exact hm c hc

theorem Memory.empty_wf (size : Nat) : (Memory.mk []).wf size = true := by simp [Memory.wf]

theorem Memory.filled_wf (size : Nat) (f : Nat → Byte) : (Memory.filled size f).wf size = true := by
  rw [Memory.wf_iff]
  refine ⟨?_, fun c hc => ?_⟩
  · refine List.pairwise_lt_range.filterMap _ fun a b hab c hc d hd => ?_
    split at hc
    · cases hc
    · split at hd
      · cases hd
      · cases hc; cases hd; exact hab
  · simp only [Memory.filled, List.mem_filterMap, List.mem_range] at hc
    obtain ⟨a, ha, hc⟩ := hc
    split at hc
    · cases hc
    · cases hc; exact ⟨ha, by assumption⟩

theorem Memory.writeList_wf {size : Nat} {m : Memory} {a : Nat} (bs : List Byte) (h : m.wf size = true)
    (ha : a + bs.length ≤ size) : (m.writeList a bs).wf size = true := by
  induction bs generalizing m a with
  | nil => exact h
  | cons b bs ih =>
    simp only [List.length_cons] at ha
    exact ih (Memory.write_wf h (by omega)) (by omega)

theorem phys_lt (a : Word) : phys a < Config.memSize := Nat.mod_lt _ (by decide)

theorem State.setByte_wf {s : State} (a : Word) (b : Byte) (h : s.mem.wf Config.memSize = true) :
    (s.setByte a b).mem.wf Config.memSize = true := Memory.write_wf h (phys_lt a)

/-- A halfword store leaves the memory that the stores of its two bytes leave. -/
theorem State.writeHalf_mem (s : State) (a w : Word) :
    (s.writeHalf a w).mem = ((s.setByte a (w.extractLsb' 8 8)).setByte (a + 1) (w.extractLsb' 0 8)).mem := rfl

theorem State.store_wf {s : State} (bs : List (Word × Byte)) (h : s.mem.wf Config.memSize = true) :
    (s.store bs).mem.wf Config.memSize = true := by
  show (bs.foldl (fun m b => m.write (phys b.1) b.2) s.mem).wf Config.memSize = true
  generalize s.mem = m at h
  induction bs generalizing m with
  | nil => exact h
  | cons b bs ih => exact ih _ (Memory.write_wf h (phys_lt b.1))

theorem State.writeHalf_wf {s : State} (a w : Word) (h : s.mem.wf Config.memSize = true) :
    (s.writeHalf a w).mem.wf Config.memSize = true := State.store_wf _ h

theorem State.writeBytes_wf {s : State} (a : Word) (bs : List Byte) (h : s.mem.wf Config.memSize = true) :
    (s.writeBytes a bs).mem.wf Config.memSize = true := by
  induction bs generalizing s a with
  | nil => exact h
  | cons _ _ ih => exact ih _ (State.setByte_wf _ _ h)

theorem State.writeHalves_wf {s : State} (a : Word) (ws : List Word) (h : s.mem.wf Config.memSize = true) :
    (s.writeHalves a ws).mem.wf Config.memSize = true := by
  induction ws generalizing s a with
  | nil => exact h
  | cons _ _ ih => exact ih _ (State.writeHalf_wf _ _ h)

theorem State.copyHalves_wf {s : State} (dst src : Word) (n : Nat) (h : s.mem.wf Config.memSize = true) :
    (s.copyHalves dst src n).mem.wf Config.memSize = true := by
  induction n generalizing s dst src with
  | zero => exact h
  | succ _ ih => exact ih _ _ (State.writeHalf_wf _ _ h)

/-! ## Bytes and halfwords at addresses -/

@[simp] theorem State.byteAt_setByte (s : State) (a c : Word) (b : Byte) :
    (s.setByte a b).byteAt c = if phys c = phys a then b else s.byteAt c := by
  simp [State.byteAt, State.setByte, State.store]

@[simp] theorem State.byteAt_setReg (s : State) (r : Reg) (v : Word) (a : Word) : (s.setReg r v).byteAt a = s.byteAt a := rfl
@[simp] theorem State.byteAt_setCc (s : State) (c : CcWrite) (a : Word) : (s.setCc c).byteAt a = s.byteAt a := rfl
@[simp] theorem State.byteAt_consume (s : State) (n : Nat) (a : Word) : (s.consume n).byteAt a = s.byteAt a := rfl
@[simp] theorem State.byteAt_indivisible (s : State) (a : Word) : s.indivisible.byteAt a = s.byteAt a := rfl
@[simp] theorem State.byteAt_writeRegs (s : State) (ws : List (Reg × Word)) (a : Word) :
    (s.writeRegs ws).byteAt a = s.byteAt a := by simp [State.byteAt]
@[simp] theorem State.byteAt_writeWithCc (s : State) (ws : List (Reg × Word)) (c : CcWrite) (a : Word) :
    (s.writeWithCc ws c).byteAt a = s.byteAt a := by simp [State.byteAt]
@[simp] theorem State.readHalf_setReg (s : State) (r : Reg) (v a : Word) : (s.setReg r v).readHalf a = s.readHalf a := rfl
@[simp] theorem State.readHalf_setCc (s : State) (c : CcWrite) (a : Word) : (s.setCc c).readHalf a = s.readHalf a := rfl
@[simp] theorem State.readHalf_consume (s : State) (n : Nat) (a : Word) : (s.consume n).readHalf a = s.readHalf a := rfl

/-- The address arithmetic of the memory's size (R47): two addresses are one byte when their difference is a multiple. -/
theorem phys_eq_iff (a c : Word) : phys a = phys c ↔ (a - c).toNat % Config.memSize = 0 := by
  simp only [phys, Config.memSize, BitVec.toNat_sub]
  omega

/-- Neighbouring bytes are different bytes. -/
theorem phys_succ_ne (a : Word) : phys (a + 1) ≠ phys a := by
  simp only [phys, Config.memSize, BitVec.toNat_add]
  simp
  omega

/-- A store of bytes leaves every byte outside the field as it was. -/
theorem State.byteAt_writeBytes_outside (s : State) (a c : Word) (bs : List Byte)
    (h : ¬ Touched a bs.length c) : (s.writeBytes a bs).byteAt c = s.byteAt c := by
  induction bs generalizing s a with
  | nil => rfl
  | cons b bs ih =>
    have h0 : phys c ≠ phys a := fun e => h ⟨0, by simp, by simpa using e⟩
    rw [State.writeBytes, ih, State.byteAt_setByte, if_neg h0]
    rintro ⟨k, hk, e⟩
    refine h ⟨k + 1, by simpa using hk, ?_⟩
    rw [e]; congr 1; rw [BitVec.ofNat_add]; ac_rfl

/-- After a store of bytes byte `k` of the field is byte `k`, where no later byte of the field falls on it (R47). -/
theorem State.byteAt_writeBytes_inside (s : State) (a : Word) (bs : List Byte) (k : Nat) (hk : k < bs.length)
    (hl : bs.length ≤ k + Config.memSize) : (s.writeBytes a bs).byteAt (a + BitVec.ofNat 16 k) = bs[k] := by
  induction bs generalizing s a k with
  | nil => simp at hk
  | cons b bs ih =>
    rw [State.writeBytes]
    cases k with
    | zero =>
      rw [State.byteAt_writeBytes_outside]
      · simp
      · rintro ⟨j, hj, e⟩
        simp only [List.length_cons] at hl
        rw [phys_eq_iff] at e
        simp only [Config.memSize, BitVec.toNat_sub, BitVec.toNat_add, BitVec.toNat_ofNat] at e hl
        simp at e
        omega
    | succ k =>
      simp only [List.length_cons] at hl hk
      have := ih (s.setByte a b) (a + 1) k (by omega) (by omega)
      rw [show a + BitVec.ofNat 16 (k + 1) = a + 1 + BitVec.ofNat 16 k by rw [BitVec.ofNat_add]; ac_rfl, this]
      simp

/-- After a store of bytes a byte is one of them that falls on it, or, where none does, what it was. -/
theorem State.byteAt_writeBytes_cases (s : State) (a c : Word) (bs : List Byte) :
    (∃ k, ∃ h : k < bs.length, phys c = phys (a + BitVec.ofNat 16 k) ∧ (s.writeBytes a bs).byteAt c = bs[k]) ∨
      (¬ Touched a bs.length c ∧ (s.writeBytes a bs).byteAt c = s.byteAt c) := by
  by_cases ht : Touched a bs.length c
  · left
    induction bs generalizing s a with
    | nil => obtain ⟨k, hk, _⟩ := ht; exact absurd hk (by simp)
    | cons b bs ih =>
      have sh (k : Nat) : a + BitVec.ofNat 16 (k + 1) = a + 1 + BitVec.ofNat 16 k := by rw [BitVec.ofNat_add]; ac_rfl
      by_cases h : Touched (a + 1) bs.length c
      · obtain ⟨k, hk, hp, hb⟩ := ih (s.setByte a b) (a + 1) h
        exact ⟨k + 1, Nat.succ_lt_succ hk, by rw [sh]; exact hp, hb⟩
      · obtain ⟨k, hk, hp⟩ := ht
        cases k with
        | zero =>
          simp only [BitVec.add_zero] at hp
          refine ⟨0, Nat.zero_lt_succ _, by simpa using hp, ?_⟩
          rw [State.writeBytes, State.byteAt_writeBytes_outside _ _ _ _ h, State.byteAt_setByte, if_pos hp]; rfl
        | succ k => exact absurd ⟨k, Nat.lt_of_succ_lt_succ hk, by rw [← sh]; exact hp⟩ h
  · exact .inr ⟨ht, State.byteAt_writeBytes_outside _ _ _ _ ht⟩

/-- Bits put on in a byte. -/
@[simp] theorem State.byteAt_orByte (s : State) (a c : Word) (m : Byte) :
    (s.orByte a m).byteAt c = if phys c = phys a then s.byteAt a ||| m else s.byteAt c := State.byteAt_setByte ..

/-- The bytes of a halfword store. -/
theorem State.byteAt_writeHalf (s : State) (a w c : Word) :
    (s.writeHalf a w).byteAt c = (s.writeBytes a [w.extractLsb' 8 8, w.extractLsb' 0 8]).byteAt c := rfl

/-- Reading a halfword back. -/
@[simp] theorem State.readHalf_writeHalf (s : State) (a w : Word) : (s.writeHalf a w).readHalf a = w := by
  have h : phys a ≠ phys (a + 1) := (phys_succ_ne a).symm
  simp only [State.readHalf, State.byteAt_writeHalf, State.writeBytes, State.byteAt_setByte, if_neg h, if_true]
  rw [BitVec.extractLsb'_append_extractLsb'_eq_extractLsb' (by simp)]
  simp

/-- A halfword store leaves every byte but its two as it was. -/
theorem State.byteAt_writeHalf_outside (s : State) (a w c : Word) (h : ¬ Touched a 2 c) :
    (s.writeHalf a w).byteAt c = s.byteAt c :=
  State.byteAt_writeBytes_outside s a c [w.extractLsb' 8 8, w.extractLsb' 0 8] h

/-- A store of halfwords leaves every byte outside the field as it was. -/
theorem State.byteAt_writeHalves_outside (s : State) (a c : Word) (ws : List Word)
    (h : ¬ Touched a (2 * ws.length) c) : (s.writeHalves a ws).byteAt c = s.byteAt c := by
  induction ws generalizing s a with
  | nil => rfl
  | cons w ws ih =>
    rw [State.writeHalves, ih, State.byteAt_writeHalf_outside]
    · rintro ⟨k, hk, e⟩
      exact h ⟨k, by simp; omega, e⟩
    · rintro ⟨k, hk, e⟩
      refine h ⟨k + 2, by simp; omega, ?_⟩
      rw [e]; congr 1; rw [BitVec.ofNat_add]; ac_rfl

/-- A halfword is the same where its two bytes are. -/
theorem State.readHalf_congr {s t : State} {a : Word} (h0 : t.byteAt a = s.byteAt a)
    (h1 : t.byteAt (a + 1) = s.byteAt (a + 1)) : t.readHalf a = s.readHalf a := by
  rw [State.readHalf, State.readHalf, h0, h1]

/-- The bytes of a halfword that lies outside a field. -/
theorem touched_half {a e : Word} {n : Nat} (h : ∀ k, k < n → phys a ≠ phys (e + BitVec.ofNat 16 k))
    (h' : ∀ k, k < n → phys (a + 1) ≠ phys (e + BitVec.ofNat 16 k)) : ¬ Touched e n a ∧ ¬ Touched e n (a + 1) :=
  ⟨fun ⟨k, hk, x⟩ => h k hk x, fun ⟨k, hk, x⟩ => h' k hk x⟩

/-- Halfword `k` of a field no longer than memory is read back. -/
theorem State.readHalf_writeHalves_inside (s : State) (a : Word) (ws : List Word) (k : Nat) (hk : k < ws.length)
    (hl : 2 * ws.length ≤ Config.memSize) : (s.writeHalves a ws).readHalf (a + 2 * BitVec.ofNat 16 k) = ws[k] := by
  induction ws generalizing s a k with
  | nil => simp at hk
  | cons w ws ih =>
    rw [State.writeHalves]
    cases k with
    | zero =>
      have key : ∀ j : Nat, j < 2 → ¬ Touched (a + 2) (2 * ws.length) (a + BitVec.ofNat 16 j) := by
        rintro j hj ⟨i, hi, e⟩
        simp only [List.length_cons] at hl
        rw [phys_eq_iff] at e
        simp only [Config.memSize, BitVec.toNat_sub, BitVec.toNat_add, BitVec.toNat_ofNat] at e hl
        simp at e
        omega
      have k0 := key 0 (by omega)
      have k1 := key 1 (by omega)
      simp only [BitVec.ofNat_eq_ofNat, BitVec.add_zero, BitVec.mul_zero] at k0 k1 ⊢
      rw [State.readHalf_congr (State.byteAt_writeHalves_outside _ _ _ _ k0)
        (State.byteAt_writeHalves_outside _ _ _ _ k1), State.readHalf_writeHalf]
      rfl
    | succ k =>
      simp only [List.length_cons] at hl hk
      have := ih (s.writeHalf a w) (a + 2) k (by omega) (by omega)
      rw [show a + 2 * BitVec.ofNat 16 (k + 1) = a + 2 + 2 * BitVec.ofNat 16 k by
        rw [BitVec.ofNat_add, BitVec.mul_add, show (2 : Word) * BitVec.ofNat 16 1 = 2 by decide]; ac_rfl, this]
      simp

end Sys2Proof.Machine
end

