-- ==== Sys2Proof/Laws/Ops.lean ====
section
/-! SUPPORT. What the shared operations can do, once each: register reads and writes, condition-code writes, the checks that
may take an interrupt, and the frames of these. -/

namespace Sys2Proof.Machine

/-! ## Bits of the MSR -/

theorem getMsbD_putBit (w : Word) (i j : Nat) (b : Bool) (h : i < 16) :
    (putBit w i b).getMsbD j = if j = i then b else w.getMsbD j := by
  by_cases hj : j < 16
  · unfold putBit
    cases b
    · simp [BitVec.getMsbD, hj]
      interval_cases i <;> interval_cases j <;> simp
    · simp [BitVec.getMsbD, hj]
      interval_cases i <;> interval_cases j <;> simp
  · have : j ≠ i := by omega
    simp [BitVec.getMsbD, hj, this]

theorem getMsbD_putBit? (w : Word) (i j : Nat) (b : Option Bool) (h : i < 16) :
    (putBit? w i b).getMsbD j = if j = i then b.getD (w.getMsbD j) else w.getMsbD j := by
  cases b with
  | none => simp [putBit?]
  | some b => simp [putBit?, getMsbD_putBit, h]

/-- The bits a condition-code write leaves. -/
theorem CcWrite.getMsbD_apply (c : CcWrite) (m : Word) (j : Nat) :
    (c.apply m).getMsbD j =
      if j = 0 then c.c0.getD (m.getMsbD 0) else if j = 1 then c.c1.getD (m.getMsbD 1)
      else if j = 2 then c.c2.getD (m.getMsbD 2) else m.getMsbD j := by
  simp only [CcWrite.apply, getMsbD_putBit? _ _ _ _ (show 0 < 16 by decide), getMsbD_putBit? _ _ _ _ (show 1 < 16 by decide),
    getMsbD_putBit? _ _ _ _ (show 2 < 16 by decide)]
  by_cases h2 : j = 2
  · subst h2; simp
  · by_cases h1 : j = 1
    · subst h1; simp
    · by_cases h0 : j = 0
      · subst h0; simp
      · simp [h0, h1, h2]

/-- Replacing ILC keeps every other bit. -/
theorem getMsbD_withIlc (m : Word) (l : BitVec 2) (j : Nat) (h4 : j ≠ 4) (h5 : j ≠ 5) :
    (withIlc m l).getMsbD j = m.getMsbD j := by
  by_cases hj : j < 16
  · simp only [withIlc, BitVec.getMsbD, BitVec.getLsbD_or, BitVec.getLsbD_and, BitVec.getLsbD_shiftLeft,
      BitVec.getLsbD_setWidth]
    interval_cases j <;> simp_all
  · simp [BitVec.getMsbD, hj]

theorem extractLsb'_withIlc (m : Word) (l : BitVec 2) : (withIlc m l).extractLsb' 10 2 = l := by
  ext i hi
  simp only [withIlc, BitVec.getElem_extractLsb', BitVec.getLsbD_or, BitVec.getLsbD_and, BitVec.getLsbD_shiftLeft,
    BitVec.getLsbD_setWidth]
  interval_cases i <;> simp

/-- The bits a merged write of register 0 leaves: the result's, but for condition-code bits the write touches (U2). -/
theorem getMsbD_mergeCc (keep : BitVec 3) (c : CcWrite) (v : Word) (j : Nat) :
    (mergeCc keep c v).getMsbD j = v.getMsbD j ∨ (mergeCc keep c v).getMsbD j = (c.apply v).getMsbD j := by
  simp only [mergeCc, CcWrite.getMsbD_apply]
  by_cases h0 : j = 0
  · subst h0; cases keep.getLsbD 0 <;> simp
  · by_cases h1 : j = 1
    · subst h1; cases keep.getLsbD 1 <;> simp
    · by_cases h2 : j = 2
      · subst h2; cases keep.getLsbD 2 <;> simp
      · simp [h0, h1, h2]

/-! ## Registers -/

theorem State.stored_setReg (s : State) (r q : Reg) (v : Word) :
    (s.setReg r v).stored q = if q = r then v else s.stored q := by
  simp only [State.stored, State.setReg, Vector.getElem_set]
  by_cases h : q = r
  · simp [h]
  · have : r.toNat ≠ q.toNat := fun e => h (BitVec.eq_of_toNat_eq e.symm)
    simp [h, this]

@[simp] theorem State.stored_setReg_self (s : State) (r : Reg) (v : Word) : (s.setReg r v).stored r = v := by
  simp [State.stored_setReg]

theorem State.stored_setReg_ne (s : State) {r q : Reg} (v : Word) (h : q ≠ r) :
    (s.setReg r v).stored q = s.stored q := by
  simp [State.stored_setReg, h]

/-- Registers read alike where they are alike. -/
theorem State.stored_congr {s t : State} (h : s.regs = t.regs) (r : Reg) : s.stored r = t.stored r := by
  simp [State.stored, h]

theorem State.reg_congr {s t : State} (h : s.regs = t.regs) (hi : s.runningIlc = t.runningIlc) (r : Reg) :
    s.reg r = t.reg r := by
  simp [State.reg, State.stored, h, hi]

theorem State.msr_congr {s t : State} (h : s.regs = t.regs) : s.msr = t.msr := State.stored_congr h 0
theorem State.pc_congr {s t : State} (h : s.regs = t.regs) : s.pc = t.pc := State.stored_congr h 1

@[simp] theorem State.stored_setByte (s : State) (a : Word) (b : Byte) (r : Reg) : (s.setByte a b).stored r = s.stored r := rfl
@[simp] theorem State.stored_writeHalf (s : State) (a w : Word) (r : Reg) : (s.writeHalf a w).stored r = s.stored r := rfl
@[simp] theorem State.stored_consume (s : State) (n : Nat) (r : Reg) : (s.consume n).stored r = s.stored r := rfl
@[simp] theorem State.stored_writeBytes (s : State) (a : Word) (bs : List Byte) (r : Reg) :
    (s.writeBytes a bs).stored r = s.stored r := State.stored_congr (by simp) r
@[simp] theorem State.stored_writeHalves (s : State) (a : Word) (ws : List Word) (r : Reg) :
    (s.writeHalves a ws).stored r = s.stored r := State.stored_congr (by simp) r
@[simp] theorem State.stored_copyHalves (s : State) (dst src : Word) (n : Nat) (r : Reg) :
    (s.copyHalves dst src n).stored r = s.stored r := State.stored_congr (by simp) r

theorem State.stored_setCc (s : State) (c : CcWrite) (r : Reg) :
    (s.setCc c).stored r = if r = 0 then c.apply s.msr else s.stored r := State.stored_setReg _ _ _ _

@[simp] theorem State.msr_setCc (s : State) (c : CcWrite) : (s.setCc c).msr = c.apply s.msr := by
  simp [State.msr, State.setCc]

@[simp] theorem State.msr_setReg_zero (s : State) (v : Word) : (s.setReg 0 v).msr = v := State.stored_setReg_self _ _ _

/-- A register other than 0 is what is stored. -/
theorem State.reg_of_ne (s : State) {r : Reg} (h : r ≠ 0) : s.reg r = s.stored r := if_neg h

/-- The registers of a range are those reached from its first. -/
theorem mem_regRange {r q : Reg} {n : Nat} : q ∈ regRange r n ↔ ∃ k, k < n ∧ q = r + BitVec.ofNat 4 k := by
  induction n generalizing r with
  | zero => simp [regRange]
  | succ n ih =>
    rw [regRange, List.mem_cons, ih]
    constructor
    · rintro (rfl | ⟨k, hk, rfl⟩)
      · exact ⟨0, by omega, by simp⟩
      · exact ⟨k + 1, by omega, by rw [BitVec.ofNat_add]; ac_rfl⟩
    · rintro ⟨k, hk, rfl⟩
      cases k with
      | zero => simp
      | succ k => exact .inr ⟨k, by omega, by rw [BitVec.ofNat_add]; ac_rfl⟩

@[simp] theorem length_regRange (r : Reg) (n : Nat) : (regRange r n).length = n := by
  induction n generalizing r with
  | zero => rfl
  | succ _ ih => simp [regRange, ih]

/-- Writes of registers leave the others. -/
theorem State.stored_writeRegs_other (s : State) (ws : List (Reg × Word)) (q : Reg) (h : ∀ w ∈ ws, w.1 ≠ q) :
    (s.writeRegs ws).stored q = s.stored q := by
  induction ws generalizing s with
  | nil => rfl
  | cons w ws ih =>
    rw [State.writeRegs, ih _ fun x hx => h x (by simp [hx]), State.stored_setReg_ne]
    exact fun e => h w (by simp) e.symm

/-- Registers `r`, `r + 1`, … get the words in order. -/
theorem State.stored_writeRegs_range (s : State) (r : Reg) (n k : Nat) (ws : List Word) (hn : n ≤ 16) (hk : k < n)
    (hw : ws.length = n) :
    (s.writeRegs ((regRange r n).zip ws)).stored (r + BitVec.ofNat 4 k) = ws[k] := by
  induction n generalizing s r k ws with
  | zero => omega
  | succ n ih =>
    obtain _ | ⟨w, ws⟩ := ws
    · simp at hw
    · simp only [regRange, List.zip_cons_cons, State.writeRegs]
      cases k with
      | zero =>
        rw [State.stored_writeRegs_other]
        · simp
        · rintro ⟨q, v⟩ hx e
          obtain ⟨j, hj, hq⟩ := mem_regRange.1 (List.of_mem_zip hx).1
          simp only at e
          have := congrArg BitVec.toNat (hq.symm.trans e)
          simp [BitVec.toNat_add] at this
          omega
      | succ k =>
        have := ih (s.setReg r w) (r + 1) k ws (by omega) (by omega) (by simpa using hw)
        rw [show r + BitVec.ofNat 4 (k + 1) = r + 1 + BitVec.ofNat 4 k by rw [BitVec.ofNat_add]; ac_rfl, this]
        simp

/-- A register other than 0 after results and condition code are written. -/
theorem State.stored_writeWithCc (s : State) (ws : List (Reg × Word)) (c : CcWrite) (q : Reg) (h : q ≠ 0) :
    (s.writeWithCc ws c).stored q = (s.writeRegs ws).stored q := by
  unfold State.writeWithCc
  split
  · exact State.stored_setReg_ne _ _ h
  · exact State.stored_setReg_ne _ _ h

/-- The MSR after results and condition code are written: with register 0 no result, the code's write; with it a result, bit by
bit the result or, freely, the code's write (U2). -/
theorem State.msr_writeWithCc (s : State) (ws : List (Reg × Word)) (c : CcWrite) :
    ((∀ w ∈ ws, w.1 ≠ 0) → (s.writeWithCc ws c).msr = c.apply s.msr) ∧
    ((∃ w ∈ ws, w.1 = 0) → ∀ j, (s.writeWithCc ws c).msr.getMsbD j = (s.writeRegs ws).msr.getMsbD j ∨
      (s.writeWithCc ws c).msr.getMsbD j = (c.apply (s.writeRegs ws).msr).getMsbD j) := by
  constructor
  · intro h
    have : ws.any (fun w => w.1 == 0) = false := by simpa using h
    simp only [State.writeWithCc, this, Bool.false_eq_true, if_false, State.msr_setCc]
    rw [show (s.writeRegs ws).msr = s.msr from State.stored_writeRegs_other _ _ _ h]
  · rintro ⟨w, hw, h0⟩ j
    have : ws.any (fun w => w.1 == 0) = true := List.any_eq_true.2 ⟨w, hw, by simp [h0]⟩
    have e : (s.writeWithCc ws c).msr = mergeCc (Config.freeMerge s.freeCount) c (s.writeRegs ws).msr := by
      rw [State.writeWithCc, if_pos this]
      exact State.msr_setReg_zero _ _
    rw [e]
    exact getMsbD_mergeCc (Config.freeMerge s.freeCount) c (s.writeRegs ws).msr j

/-! ## The checks -/

theorem aligned_even {ilc : BitVec 2} {a : Word} {s : State} {k : Result} (h : odd a = false) : aligned ilc a s k = k := by
  simp [aligned, h]

theorem aligned_odd {ilc : BitVec 2} {a : Word} {s : State} {k : Result} (h : odd a = true) :
    aligned ilc a s k = .next (s.programInterrupt ilc .alignment) := by
  simp [aligned, h, raiseProgram]

theorem withHalf_even {ilc : BitVec 2} {a : Word} {s : State} {k : Word → Result} (h : odd a = false) :
    withHalf ilc a s k = k (s.readHalf a) := aligned_even h

theorem withHalf_odd {ilc : BitVec 2} {a : Word} {s : State} {k : Word → Result} (h : odd a = true) :
    withHalf ilc a s k = .next (s.programInterrupt ilc .alignment) := aligned_odd h

/-- Where no unit stores among the reads, each read sees memory as it is (log 50). -/
theorem Undisturbed.seenAt {s : State} (h : Undisturbed s) (i : Nat) : s.seenAt i = s := by
  have : ((s.earlier[i]?).map Snapshot.mem).getD s.mem = s.mem := by rw [show s.earlier = [] from h]; rfl
  rw [State.seenAt, this]

/-- Reads before the end of the list see the memory it holds, later ones memory itself. -/
theorem State.seenAt_mem (s : State) (i : Nat) : (s.seenAt i).mem = ((s.earlier[i]?).map Snapshot.mem).getD s.mem := rfl

theorem withHalfAt_undisturbed {i : Nat} {ilc : BitVec 2} {a : Word} {s : State} {k : Word → Result} (h : Undisturbed s) :
    withHalfAt i ilc a s k = withHalf ilc a s k := by rw [withHalfAt, h.seenAt]; rfl

theorem withHalfAt_odd {i : Nat} {ilc : BitVec 2} {a : Word} {s : State} {k : Word → Result} (h : odd a = true) :
    withHalfAt i ilc a s k = .next (s.programInterrupt ilc .alignment) := aligned_odd h

theorem withHalfAt_even {i : Nat} {ilc : BitVec 2} {a : Word} {s : State} {k : Word → Result} (h : odd a = false) :
    withHalfAt i ilc a s k = k ((s.seenAt i).readHalf a) := aligned_even h

theorem pairRegister_of_ne {ilc : BitVec 2} {r : Reg} {s : State} {k : Result} (h : r ≠ 15) :
    pairRegister ilc r s k = k := if_neg h

theorem pairRegister_15 {ilc : BitVec 2} {s : State} {k : Result} :
    pairRegister ilc 15 s k = .next (s.programInterrupt ilc .registerSpecification) := by simp [pairRegister, raiseProgram]

theorem whenPrivileged_on {ilc : BitVec 2} {s : State} {k : Result} (h : s.privileged = true) :
    whenPrivileged ilc s k = k := by simp [whenPrivileged, h]

theorem whenPrivileged_off {ilc : BitVec 2} {s : State} {k : Result} (h : s.privileged = false) :
    whenPrivileged ilc s k = .next (s.programInterrupt ilc .privilege) := by simp [whenPrivileged, h, raiseProgram]

theorem overflowProcedure_stores {ilc : BitVec 2} {ovf : Bool} {c : CcWrite} {s t : State}
    (h : ovf = false ∨ s.overflowMask = false) : overflowProcedure ilc ovf c s t = .next t := by
  rcases h with h | h <;> simp [overflowProcedure, h]

theorem overflowProcedure_traps {ilc : BitVec 2} {ovf : Bool} {c : CcWrite} {s t : State} (h : ovf = true)
    (ho : s.overflowMask = true) :
    overflowProcedure ilc ovf c s t = .next ((s.setCc c).programInterrupt ilc .arithmeticOverflow) := by
  simp [overflowProcedure, h, ho, raiseProgram]

/-! ## Frames -/

/-- What stands between two states that differ in their registers, memory and free-value counter only. -/
theorem Frame.intro {s t : State} {rs : List Reg} {bits : List Nat} {stored : Word → Prop}
    (hr : ∀ r, r ≠ 0 → r ∉ rs → t.stored r = s.stored r)
    (hb : 0 ∉ rs → ∀ i, i ∉ bits → t.msr.getMsbD i = s.msr.getMsbD i)
    (hm : ∀ a, ¬ stored a → t.byteAt a = s.byteAt a) (hh : t.hidden = s.hidden) : Frame s t rs bits stored :=
  ⟨hr, hb, hm, hh⟩

/-- Memory is kept where it is the same. -/
theorem MemoryKept.of_mem {s t : State} {stored : Word → Prop} (h : t.mem = s.mem) : MemoryKept s t stored :=
  fun a _ => by simp [State.byteAt, h]

/-- The frame of a register write. -/
theorem Frame.setReg (s : State) (r : Reg) (v : Word) : Frame s (s.setReg r v) [r] [] noByte :=
  .intro (fun q _ h => State.stored_setReg_ne _ _ (by simpa using h))
    (fun h i _ => by rw [State.msr, State.stored_setReg_ne _ _ (by simpa using h), State.msr])
    (MemoryKept.of_mem rfl) rfl

/-- The frame of a condition-code write: the bits it writes. -/
theorem Frame.setCc (s : State) (c : CcWrite) (bits : List Nat) (h0 : c.c0 = none ∨ 0 ∈ bits) (h1 : c.c1 = none ∨ 1 ∈ bits)
    (h2 : c.c2 = none ∨ 2 ∈ bits) : Frame s (s.setCc c) [] bits noByte := by
  refine .intro (fun q hq _ => State.stored_setReg_ne _ _ hq) (fun _ i hi => ?_) (MemoryKept.of_mem rfl) rfl
  rw [State.msr_setCc, CcWrite.getMsbD_apply]
  split
  · next h => subst h; simp [h0.resolve_right hi]
  · split
    · next h => subst h; simp [h1.resolve_right hi]
    · split
      · next h => subst h; simp [h2.resolve_right hi]
      · rfl

/-- The frame of a halfword store and of a store of bytes. -/
theorem Frame.writeHalf (s : State) (a w : Word) : Frame s (s.writeHalf a w) [] [] (Touched a 2) :=
  .intro (fun _ _ _ => rfl) (fun _ _ _ => rfl) (fun c h => State.byteAt_writeHalf_outside s a w c h) rfl

theorem Frame.writeBytes (s : State) (a : Word) (bs : List Byte) :
    Frame s (s.writeBytes a bs) [] [] (Touched a bs.length) :=
  .intro (fun _ _ _ => by simp) (fun _ _ _ => by rw [State.msr_congr (State.writeBytes_regs s a bs)])
    (fun c h => State.byteAt_writeBytes_outside s a c bs h) (by simp)

theorem Frame.writeHalves (s : State) (a : Word) (ws : List Word) :
    Frame s (s.writeHalves a ws) [] [] (Touched a (2 * ws.length)) :=
  .intro (fun _ _ _ => by simp) (fun _ _ _ => by rw [State.msr_congr (State.writeHalves_regs s a ws)])
    (fun c h => State.byteAt_writeHalves_outside s a c ws h) (by simp)

/-- The frame of results and condition code: the registers written and the bits the code writes. -/
theorem Frame.writeWithCc (s : State) (ws : List (Reg × Word)) (c : CcWrite) (rs : List Reg) (bits : List Nat)
    (hw : ∀ w ∈ ws, w.1 ∈ rs) (h0 : c.c0 = none ∨ 0 ∈ bits) (h1 : c.c1 = none ∨ 1 ∈ bits) (h2 : c.c2 = none ∨ 2 ∈ bits) :
    Frame s (s.writeWithCc ws c) rs bits noByte := by
  refine .intro (fun q hq hn => ?_) (fun hz i hi => ?_) (MemoryKept.of_mem (by simp)) ?_
  · rw [State.stored_writeWithCc _ _ _ _ hq, State.stored_writeRegs_other]
    exact fun w h e => hn (e ▸ hw w h)
  · rw [(State.msr_writeWithCc s ws c).1 fun w h e => hz (e ▸ hw w h), ← State.msr_setCc]
    exact (Frame.setCc s c bits h0 h1 h2).2.1 (by simp) i hi
  · rw [State.writeWithCc_eq]; rfl

/-- Frames one after the other. -/
theorem Frame.trans {s t u : State} {rs rs' : List Reg} {bits bits' : List Nat} {p q : Word → Prop}
    (h : Frame s t rs bits p) (h' : Frame t u rs' bits' q) : Frame s u (rs ++ rs') (bits ++ bits') (either p q) := by
  refine .intro (fun r hr hn => ?_) (fun hz i hi => ?_) (fun a ha => ?_) (h'.2.2.2.trans h.2.2.2)
  · rw [List.mem_append, not_or] at hn; rw [h'.1 r hr hn.2, h.1 r hr hn.1]
  · rw [List.mem_append, not_or] at hz hi; rw [h'.2.1 hz.2 i hi.2, h.2.1 hz.1 i hi.1]
  · rw [h'.2.2.1 a fun x => ha (.inr x), h.2.2.1 a fun x => ha (.inl x)]

/-- A frame that allows more. -/
theorem Frame.mono {s t : State} {rs rs' : List Reg} {bits bits' : List Nat} {p q : Word → Prop} (h : Frame s t rs bits p)
    (hr : ∀ r ∈ rs, r ∈ rs') (hb : ∀ i ∈ bits, i ∈ bits') (hp : ∀ a, p a → q a) : Frame s t rs' bits' q :=
  .intro (fun r h0 hn => h.1 r h0 fun x => hn (hr r x)) (fun hz i hi => h.2.1 (fun x => hz (hr 0 x)) i fun x => hi (hb i x))
    (fun a ha => h.2.2.1 a fun x => ha (hp a x)) h.2.2.2

theorem Frame.refl (s : State) : Frame s s [] [] noByte :=
  .intro (fun _ _ _ => rfl) (fun _ _ _ => rfl) (fun _ _ => rfl) rfl

/-- Consuming free values changes nothing a frame keeps. -/
theorem Frame.consume (s : State) (n : Nat) : Frame s (s.consume n) [] [] noByte :=
  .intro (fun _ _ _ => rfl) (fun _ _ _ => rfl) (fun _ _ => rfl) rfl

end Sys2Proof.Machine
end

