-- ==== Sys2Proof/Laws/Interrupts.lean ====
section
/-! SUPPORT. What the interrupt sequence does, and what the checks that raise one answer. -/

namespace Sys2Proof.Machine

/-- The cells of two halfwords of one class are different bytes of memory. -/
theorem InterruptClass.cells_apart (c : InterruptClass) :
    (∀ i j : Fin 5, i ≠ j → ∀ x y : Fin 2,
      phys (c.base + 2 * BitVec.ofNat 16 i.val + BitVec.ofNat 16 x.val) ≠
        phys (c.base + 2 * BitVec.ofNat 16 j.val + BitVec.ofNat 16 y.val)) := by
  cases c <;> decide

/-- A halfword store leaves the halfwords that share no byte with it. -/
theorem State.readHalf_writeHalf_apart (s : State) (a b w : Word) (h : ∀ x y : Fin 2,
    phys (b + BitVec.ofNat 16 x.val) ≠ phys (a + BitVec.ofNat 16 y.val)) :
    (s.writeHalf a w).readHalf b = s.readHalf b := by
  refine State.readHalf_congr (State.byteAt_writeHalf_outside _ _ _ _ ?_) (State.byteAt_writeHalf_outside _ _ _ _ ?_)
  · rintro ⟨k, hk, e⟩; exact h 0 ⟨k, hk⟩ (by simpa using e)
  · rintro ⟨k, hk, e⟩; exact h 1 ⟨k, hk⟩ e

/-- A register loaded from memory is a register written with what stands there, but for the turn's list of loads (log 50). -/
theorem State.loadReg_eq (s : State) (r : Reg) (a : Word) :
    s.loadReg r a = { s.setReg r (s.readHalf a) with loaded := s.loaded ++ [(r, a)] } := rfl
@[simp] theorem State.loadReg_mem (s : State) (r : Reg) (a : Word) : (s.loadReg r a).mem = s.mem := rfl
@[simp] theorem State.loadReg_hidden (s : State) (r : Reg) (a : Word) : (s.loadReg r a).hidden = s.hidden := rfl
@[simp] theorem State.readHalf_loadReg (s : State) (r : Reg) (a b : Word) : (s.loadReg r a).readHalf b = s.readHalf b := rfl
@[simp] theorem State.stored_loadReg_self (s : State) (r : Reg) (a : Word) : (s.loadReg r a).stored r = s.readHalf a :=
  State.stored_setReg_self s r _
theorem State.stored_loadReg_ne (s : State) {r q : Reg} (a : Word) (h : q ≠ r) : (s.loadReg r a).stored q = s.stored q :=
  State.stored_setReg_ne s _ h
theorem Frame.loadReg (s : State) (r : Reg) (a : Word) : Frame s (s.loadReg r a) [r] [] noByte := Frame.setReg s r _

/-- The interrupt sequence leaves everything but registers and memory. -/
@[simp] theorem State.takeInterrupt_hidden (s : State) (c : InterruptClass) (oldMsr code : Word) :
    (s.takeInterrupt c oldMsr code).hidden = s.hidden := by simp [State.takeInterrupt]
@[simp] theorem State.asynchronousInterrupt_hidden (s : State) (c : InterruptClass) (code : Word) :
    (s.asynchronousInterrupt c code).hidden = s.hidden := by simp [State.asynchronousInterrupt]
@[simp] theorem State.synchronousInterrupt_hidden (s : State) (c : InterruptClass) (ilc : BitVec 2) (code : Word) :
    (s.synchronousInterrupt c ilc code).hidden = s.hidden := by simp [State.synchronousInterrupt]

/-- Everything the interrupt sequence does (R398). -/
theorem State.takeInterrupt_spec (s : State) (c : InterruptClass) (oldMsr code : Word) :
    let t := s.takeInterrupt c oldMsr code
    t.readHalf c.base = oldMsr ∧ t.readHalf (c.base + 2) = s.pc ∧ t.readHalf (c.base + 4) = code ∧
      t.msr = s.readHalf (c.base + 6) ∧ t.pc = s.readHalf (c.base + 8) ∧ Frame s t [0, 1] [] (Touched c.base 6) := by
  have ap (i j : Fin 5) (h : i ≠ j) (u : State) (w : Word) :
      (u.writeHalf (c.base + 2 * BitVec.ofNat 16 i.val) w).readHalf (c.base + 2 * BitVec.ofNat 16 j.val) =
        u.readHalf (c.base + 2 * BitVec.ofNat 16 j.val) :=
    State.readHalf_writeHalf_apart _ _ _ _ (c.cells_apart j i (Ne.symm h))
  have e0 : c.base + 2 * BitVec.ofNat 16 (0 : Fin 5).val = c.base := by cases c <;> rfl
  have e1 : c.base + 2 * BitVec.ofNat 16 (1 : Fin 5).val = c.base + 2 := by cases c <;> rfl
  have e2 : c.base + 2 * BitVec.ofNat 16 (2 : Fin 5).val = c.base + 4 := by cases c <;> rfl
  have e3 : c.base + 2 * BitVec.ofNat 16 (3 : Fin 5).val = c.base + 6 := by cases c <;> rfl
  have e4 : c.base + 2 * BitVec.ofNat 16 (4 : Fin 5).val = c.base + 8 := by cases c <;> rfl
  have h01 := ap 0 1 (by decide); have h02 := ap 0 2 (by decide); have h10 := ap 1 0 (by decide)
  have h12 := ap 1 2 (by decide); have h20 := ap 2 0 (by decide); have h21 := ap 2 1 (by decide)
  have h03 := ap 0 3 (by decide); have h13 := ap 1 3 (by decide); have h23 := ap 2 3 (by decide)
  have h04 := ap 0 4 (by decide); have h14 := ap 1 4 (by decide); have h24 := ap 2 4 (by decide)
  rw [e0] at h01 h02 h10 h20 h03 h04; rw [e1] at h01 h10 h12 h21 h13 h14; rw [e2] at h02 h12 h20 h21 h23 h24
  rw [e3] at h03 h13 h23; rw [e4] at h04 h14 h24
  dsimp only
  refine ⟨?_, ?_, ?_, ?_, ?_, ?_⟩
  · simp only [State.takeInterrupt, State.readHalf_loadReg, h20, h10, State.readHalf_writeHalf]
  · simp only [State.takeInterrupt, State.readHalf_loadReg, h21, State.readHalf_writeHalf]
  · simp only [State.takeInterrupt, State.readHalf_loadReg, State.readHalf_writeHalf]
  · rw [State.takeInterrupt, State.msr, State.stored_loadReg_ne _ _ (by decide), State.stored_loadReg_self, h23, h13, h03]
  · rw [State.takeInterrupt, State.pc, State.stored_loadReg_self]
    simp only [State.readHalf_loadReg, h24, h14, h04]
  · refine ((((Frame.writeHalf s _ _).trans (Frame.writeHalf _ _ _)).trans (Frame.writeHalf _ _ _)).trans
      ((Frame.loadReg _ 0 _).trans (Frame.loadReg _ 1 _))).mono (by simp) (by simp) ?_
    have sub (k : Nat) (d a : Word) (hd : k ≤ 4) (he : d = BitVec.ofNat 16 k) (h : Touched (c.base + d) 2 a) :
        Touched c.base 6 a := by
      obtain ⟨j, hj, e⟩ := h
      exact ⟨k + j, by omega, by rw [e, he, BitVec.ofNat_add, BitVec.add_assoc]⟩
    rintro a (((h | h) | h) | h | h)
    · exact sub 0 0 a (by omega) rfl (by simpa using h)
    · exact sub 2 2 a (by omega) rfl h
    · exact sub 4 4 a (by omega) rfl h
    · exact h.elim
    · exact h.elim

end Sys2Proof.Machine
end

