-- ==== Sys2Proof/Laws/Addresses.lean ====
section
/-! SUPPORT. Fields of memory, even addresses, register ranges and copies of halfwords. -/

namespace Sys2Proof.Machine

/-- A byte lies in a field exactly where its offset, around the installed memory, is below the length. -/
theorem touched_iff (e a : Word) (n : Nat) : Touched e n a ↔ offsetIn e a < n := by
  constructor
  · rintro ⟨k, hk, h⟩
    rw [phys_eq_iff] at h
    unfold offsetIn
    have : (a - e).toNat % Config.memSize = k % Config.memSize := by
      have e1 : a - e = (a - (e + BitVec.ofNat 16 k)) + BitVec.ofNat 16 k := by
        bv_omega
      rw [e1, BitVec.toNat_add, BitVec.toNat_ofNat]
      unfold Config.memSize at *
      omega
    rw [this]
    exact lt_of_le_of_lt (Nat.mod_le _ _) hk
  · intro h
    refine ⟨_, h, ?_⟩
    rw [phys_eq_iff]
    unfold offsetIn Config.memSize at *
    have e1 : (a - (e + BitVec.ofNat 16 ((a - e).toNat % 32768))).toNat = ((a - e).toNat + (65536 - (a - e).toNat % 32768))
        % 65536 := by
      have : a - (e + BitVec.ofNat 16 ((a - e).toNat % 32768)) = (a - e) - BitVec.ofNat 16 ((a - e).toNat % 32768) := by
        bv_omega
      rw [this, BitVec.toNat_sub, BitVec.toNat_ofNat]
      omega
    rw [e1]; omega

/-- An even address is one that is a multiple of two. -/
theorem odd_eq_false_iff (a : Word) : odd a = false ↔ a.toNat % 2 = 0 := by
  rw [odd, BitVec.getLsbD, Nat.testBit_zero]; simp

/-- Whole halfwords on, an address is as even as before. -/
theorem odd_add_halfwords (a : Word) (k : Nat) (h : odd a = false) : odd (a + 2 * BitVec.ofNat 16 k) = false := by
  simp only [odd] at *
  rw [BitVec.getLsbD, Nat.testBit_zero] at *
  rw [BitVec.toNat_add, BitVec.toNat_mul]
  simp at *
  omega

theorem odd_add_two (a : Word) : odd (a + 2) = odd a := by
  simp only [odd]; rw [BitVec.getLsbD, BitVec.getLsbD, Nat.testBit_zero, Nat.testBit_zero, BitVec.toNat_add]; simp

/-- Halfwords at different even addresses share no byte. -/
theorem State.readHalf_writeHalf_even (s : State) (a b w : Word) (ha : odd a = false) (hb :
    odd b = false) (h : phys a ≠ phys b) :
    (s.writeHalf b w).readHalf a = s.readHalf a := by
  refine State.readHalf_writeHalf_apart _ _ _ _ fun x y => ?_
  simp only [odd] at ha hb
  have ha' : a.toNat % 2 = 0 := by
    have := ha; rw [BitVec.getLsbD, Nat.testBit_zero] at this; simpa using this
  have hb' : b.toNat % 2 = 0 := by
    have := hb; rw [BitVec.getLsbD, Nat.testBit_zero] at this; simpa using this
  unfold phys Config.memSize at *
  rw [BitVec.toNat_add, BitVec.toNat_add]
  fin_cases x <;> fin_cases y <;> simp <;> omega

/-- The two halfwords of a stored pair, read back. -/
theorem State.readHalf_writeHalves_pair (s : State) (a u v : Word) : (s.writeHalves a [u, v]).readHalf a = u ∧
    (s.writeHalves a [u, v]).readHalf (a + 2) = v := by
  have h0 := State.readHalf_writeHalves_inside s a [u, v] 0 (by simp) (by simp [Config.memSize])
  have h1 := State.readHalf_writeHalves_inside s a [u, v] 1 (by simp) (by simp [Config.memSize])
  exact ⟨by simpa using h0, by simpa using h1⟩

/-- A byte store changes that byte and nothing else. -/
theorem Frame.setByte (s : State) (a : Word) (b : Byte) : Frame s (s.setByte a b) [] [] (Touched a 1) :=
    Frame.writeBytes s a [b]

theorem Frame.orByte (s : State) (a : Word) (m : Byte) : Frame s (s.orByte a m) [] [] (Touched a 1) :=
    Frame.setByte s a (s.byteAt a ||| m)

/-- The registers of a range, counted from its first. -/
theorem getElem_regRange (r : Reg) (n k : Nat) (h : k < (regRange r n).length) : (regRange r n)[k] = r + BitVec.ofNat 4 k :=
    by
  induction n generalizing r k with
  | zero => simp [regRange] at h
  | succ n ih =>
    cases k with
    | zero => simp [regRange]
    | succ k =>
      simp only [regRange, List.getElem_cons_succ]
      rw [ih, BitVec.ofNat_add]; ac_rfl

/-- The frame of a halfword copied. -/
theorem Frame.copyHalf (s : State) (dst src : Word) : Frame s (s.copyHalf dst src) [] [] (Touched dst 2) :=
  Frame.writeHalf s dst (s.readHalf src)

/-- What a copy of halfwords can do: it stores to its destination only and, where no byte of the source lies in it, the
destination holds what the source held. -/
theorem State.copyHalves_spec (s : State) (dst src : Word) (n : Nat) :
    Frame s (s.copyHalves dst src n) [] [] (Touched dst (2 * n)) ∧
    ((∀ j, j < 2 * n → ¬ Touched dst (2 * n) (src + BitVec.ofNat 16 j)) → ∀ k, k < n →
      (s.copyHalves dst src n).readHalf (dst + 2 * BitVec.ofNat 16 k) = s.readHalf (src + 2 * BitVec.ofNat 16 k)) := by
  induction n generalizing s dst src with
  | zero => exact ⟨(Frame.refl s).mono (by simp) (by simp) fun _ h => h.elim, fun _ k hk => by omega⟩
  | succ n ih =>
    obtain ⟨f, g⟩ := ih (s.copyHalf dst src) (dst + 2) (src + 2)
    have sub : ∀ a, Touched (dst + 2) (2 * n) a → Touched dst (2 * (n + 1)) a := by
      rintro a ⟨k, hk, h⟩
      exact ⟨k + 2, by omega, by rw [h, BitVec.add_assoc, Nat.add_comm, BitVec.ofNat_add]; rfl⟩
    have sub0 : ∀ a, Touched dst 2 a → Touched dst (2 * (n + 1)) a := by
      rintro a ⟨k, hk, h⟩; exact ⟨k, by omega, h⟩
    refine ⟨((Frame.copyHalf s dst src).trans f).mono (by simp) (by simp) fun a h => h.elim (sub0 a) (sub a),
        fun h k hk => ?_⟩
    have hsz : 2 * (n + 1) < Config.memSize := by
      by_contra hc
      refine h 0 (by omega) ((touched_iff _ _ _).2 (lt_of_lt_of_le (Nat.mod_lt _ (by decide)) (Nat.le_of_not_lt hc)))
    rw [State.copyHalves]
    cases k with
    | zero =>
      simp only [BitVec.ofNat_eq_ofNat, BitVec.mul_zero, BitVec.add_zero]
      have hk0 : ∀ i, i < 2 → ¬ Touched (dst + 2) (2 * n) (dst + BitVec.ofNat 16 i) := by
        intro i hi; rw [touched_iff]; unfold offsetIn Config.memSize at *
        have : (dst + BitVec.ofNat 16 i - (dst + 2)).toNat = 65534 + i := by
          have : dst + BitVec.ofNat 16 i - (dst + 2) = BitVec.ofNat 16 (65534 + i) := by
            interval_cases i <;> bv_omega
          rw [this, BitVec.toNat_ofNat]; omega
        omega
      show ((s.copyHalf dst src).copyHalves (dst + 2) (src + 2) n).readHalf dst = _
      rw [State.readHalf_congr (by simpa using f.2.2.1 dst (by simpa using hk0 0 (by omega)))
        (f.2.2.1 (dst + 1) (hk0 1 (by omega)))]
      exact State.readHalf_writeHalf s dst _
    | succ k =>
      have e (x : Word) : x + 2 * BitVec.ofNat 16 (k + 1) = x + 2 + 2 * BitVec.ofNat 16 k := by
        rw [BitVec.ofNat_add, BitVec.mul_add, show (2 : Word) * BitVec.ofNat 16 1 = 2 by decide]; ac_rfl
      rw [e, e, g (fun j hj ht => h (j + 2) (by omega) (by
        have := sub _ ht
        rwa [show src + BitVec.ofNat 16 (j + 2) = src + 2 + BitVec.ofNat 16 j by
          rw [BitVec.ofNat_add, BitVec.add_assoc, BitVec.add_comm 2]; rfl])) k (by omega)]
      have hh (i : Nat) (hi : i < 2) : ¬ Touched dst 2 (src + 2 + 2 * BitVec.ofNat 16 k + BitVec.ofNat 16 i) := fun ht => by
        refine h (2 * k + 2 + i) (by omega) (sub0 _ ?_)
        rwa [show src + BitVec.ofNat 16 (2 * k + 2 + i) = src + 2 + 2 * BitVec.ofNat 16 k + BitVec.ofNat 16 i by
          rw [BitVec.ofNat_add, BitVec.ofNat_add, BitVec.ofNat_mul, show BitVec.ofNat 16 2 = (2 : Word) from rfl]; ac_rfl]
      exact State.readHalf_congr (State.byteAt_writeHalf_outside _ _ _ _ (by simpa using hh 0 (by omega)))
          (State.byteAt_writeHalf_outside _ _ _ _ (hh 1 (by omega)))

end Sys2Proof.Machine
end

