-- ==== Sys2Proof/Laws/Branches.lean ====
section
/-! SUPPORT. What a branch after a register write can do. -/

namespace Sys2Proof.Machine

/-- A register write and a branch change that register and the PC only. -/
theorem Frame.setReg_branchTo (s : State) (k : Nat) (r : Reg) (v : Word) (b : Bool) (w : Word) :
    Frame s (((s.consume k).setReg r v).branchTo b w) [r, 1] [] noByte := by
  rw [State.branchTo]
  split
  · exact (((Frame.consume s k).trans (Frame.setReg _ r v)).trans (Frame.setReg _ 1 w)).mono (by simp) (by simp) fun a h =>
        h.elim (fun h => h.elim id id) id
  · exact ((Frame.consume s k).trans (Frame.setReg _ r v)).mono (by simp) (by simp) fun a h => h.elim id id

/-- An RR branch is a branch that R2 = 0 forbids (R338). -/
theorem State.branchRR_eq (s : State) (b : Bool) (r2 : Reg) (w : Word) : s.branchRR b r2 w = s.branchTo (b && r2 != 0) w :=
    rfl

/-- Taken, the PC is the target; the register holds what was written. -/
theorem State.pc_branchTo (s : State) (k : Nat) (r : Reg) (v w : Word) :
    (((s.consume k).setReg r v).branchTo true w).pc = w := State.stored_setReg_self _ _ _

theorem State.stored_branchTo (s : State) (k : Nat) (r : Reg) (v w : Word) (b : Bool) (h : r ≠ 1) :
    (((s.consume k).setReg r v).branchTo b w).stored r = v := by
  rw [State.branchTo]; split
  · rw [State.stored_setReg_ne _ _ h, State.stored_setReg_self]
  · exact State.stored_setReg_self _ _ _

theorem State.branchTo_false (s : State) (k : Nat) (r : Reg) (v w : Word) :
    (((s.consume k).setReg r v).branchTo false w).stored r = v ∧
    (r ≠ 1 → (((s.consume k).setReg r v).branchTo false w).pc = s.pc) :=
  ⟨State.stored_setReg_self _ _ _, fun h => State.stored_setReg_ne _ _ h.symm⟩

end Sys2Proof.Machine
end

