-- ==== Sys2Proof/Laws/Decoding.lean ====
section
/-! SUPPORT. The fields of encoded halfwords, and what the decoder and the encoder make of each other. -/

namespace Sys2Proof.Machine

/-- The fields of an encoded halfword are those it was made of. -/
theorem opOf_head44 (op : Byte) (a b : Reg) : opOf (head44 op a b) = op := by
  refine BitVec.eq_of_getLsbD_eq fun i hi => ?_
  simp only [opOf, head44, BitVec.getLsbD_append, BitVec.getLsbD_extractLsb']; interval_cases i <;> simp

theorem field1_head44 (op : Byte) (a b : Reg) : field1 (head44 op a b) = a := by
  refine BitVec.eq_of_getLsbD_eq fun i hi => ?_
  simp only [field1, head44, BitVec.getLsbD_append, BitVec.getLsbD_extractLsb']; interval_cases i <;> simp

theorem field2_head44 (op : Byte) (a b : Reg) : field2 (head44 op a b) = b := by
  refine BitVec.eq_of_getLsbD_eq fun i hi => ?_
  simp only [field2, head44, BitVec.getLsbD_append, BitVec.getLsbD_extractLsb']; interval_cases i <;> simp

theorem opOf_head8 (op i : Byte) : opOf (head8 op i) = op := by
  refine BitVec.eq_of_getLsbD_eq fun i hi => ?_
  simp only [opOf, head8, BitVec.getLsbD_append, BitVec.getLsbD_extractLsb']; interval_cases i <;> simp

theorem byteField_head8 (op i : Byte) : byteField (head8 op i) = i := by
  refine BitVec.eq_of_getLsbD_eq fun i hi => ?_
  simp only [byteField, head8, BitVec.getLsbD_append, BitVec.getLsbD_extractLsb']; interval_cases i <;> simp

theorem baseField_addrHalf (b : Reg) (d : Disp) : baseField (addrHalf b d) = b := by
  refine BitVec.eq_of_getLsbD_eq fun i hi => ?_
  simp only [baseField, addrHalf, BitVec.getLsbD_append, BitVec.getLsbD_extractLsb']; interval_cases i <;> simp

theorem dispField_addrHalf (b : Reg) (d : Disp) : dispField (addrHalf b d) = d := by
  refine BitVec.eq_of_getLsbD_eq fun i hi => ?_
  simp only [dispField, addrHalf, BitVec.getLsbD_append, BitVec.getLsbD_extractLsb']; interval_cases i <;> simp

/-- A halfword is its two bytes, and two bytes are those of their halfword. -/
theorem bytes_append (h : Word) : (h.extractLsb' 8 8 ++ h.extractLsb' 0 8 : Word) = h := by
  refine BitVec.eq_of_getLsbD_eq fun i hi => ?_
  simp only [BitVec.getLsbD_append, BitVec.getLsbD_extractLsb']; interval_cases i <;> simp

theorem bytesOf_append (a b : Byte) : bytesOf (a ++ b) = [a, b] := by
  unfold bytesOf; congr 1
  · refine BitVec.eq_of_getLsbD_eq fun i hi => ?_
    simp only [BitVec.getLsbD_append, BitVec.getLsbD_extractLsb']; interval_cases i <;> simp
  · congr 1; refine BitVec.eq_of_getLsbD_eq fun i hi => ?_
    simp only [BitVec.getLsbD_append, BitVec.getLsbD_extractLsb']; interval_cases i <;> simp

/-- The bytes of a halfword are read as that halfword. -/
theorem halfwordsOf_bytesOf (h : Word) (rest : List Byte) : halfwordsOf (bytesOf h ++ rest) = h :: halfwordsOf rest :=
  congrArg (· :: halfwordsOf rest) (bytes_append h)

/-- A halfword is made of its fields. -/
theorem head44_fields (h : Word) : head44 (opOf h) (field1 h) (field2 h) = h := by
  refine BitVec.eq_of_getLsbD_eq fun i hi => ?_
  simp only [opOf, head44, field1, field2, BitVec.getLsbD_append, BitVec.getLsbD_extractLsb']; interval_cases i <;> simp

theorem head8_fields (h : Word) : head8 (opOf h) (byteField h) = h := by
  refine BitVec.eq_of_getLsbD_eq fun i hi => ?_
  simp only [opOf, head8, byteField, BitVec.getLsbD_append, BitVec.getLsbD_extractLsb']; interval_cases i <;> simp

theorem addrHalf_fields (h : Word) : addrHalf (baseField h) (dispField h) = h := by
  refine BitVec.eq_of_getLsbD_eq fun i hi => ?_
  simp only [addrHalf, baseField, dispField, BitVec.getLsbD_append, BitVec.getLsbD_extractLsb']; interval_cases i <;> simp

/-- What each format's decoder accepts encodes to the halfwords it came from. -/
theorem decodeRR_encode (op i1 : Byte) (a b : Reg) (h : head8 op i1 = head44 op a b) (i : Instr) (hd :
    decodeRR op i1 a b = some i) : encode i = [head44 op a b] := by
  unfold decodeRR at hd
  split at hd <;> first | (cases hd; first | rfl | exact congrArg (fun x => [x]) h) | cases hd

theorem decodeRX_encode (op : Byte) (a b c : Reg) (d : Disp) (i : Instr) (hd : decodeRX op a b c d = some i) :
    encode i = [head44 op a b, addrHalf c d] := by
  unfold decodeRX at hd
  split at hd <;> first | (cases hd; rfl) | cases hd

theorem decodeRS_encode (op : Byte) (a b c : Reg) (d : Disp) (i : Instr) (hd : decodeRS op a b c d = some i) :
    encode i = [head44 op a b, addrHalf c d] := by
  unfold decodeRS at hd
  split at hd <;> first | (cases hd; rfl) | cases hd

theorem decodeBX_encode (op : Byte) (a b : Reg) (c : Word) (i : Instr) (hd : decodeBX op a b c = some i) :
    encode i = [head44 op a b, c] := by
  unfold decodeBX at hd
  split at hd <;> first | (cases hd; rfl) | cases hd

theorem decodeRI_encode (op : Byte) (a b : Reg) (c : Word) (i : Instr) (hd : decodeRI op a b c = some i) :
    encode i = [head44 op a b, c] := by
  unfold decodeRI at hd
  split at hd <;> first | (cases hd; rfl) | cases hd

theorem decodeSI_encode (op : Byte) (a : Byte) (b : Reg) (c : Disp) (i : Instr) (hd : decodeSI op a b c = some i) :
    encode i = [head8 op a, addrHalf b c] := by
  unfold decodeSI at hd
  split at hd
  all_goals first | (cases hd; rfl) | (split at hd <;> first | (rename_i h; cases hd; rw [h]; rfl) | cases hd)

theorem decodeVSS_encode (op : Byte) (a : Byte) (b : Reg) (c : Disp) (e : Reg) (f : Disp) (i : Instr) (hd :
    decodeVSS op a b c e f = some i) : encode i = [head8 op a, addrHalf b c, addrHalf e f] := by
  unfold decodeVSS at hd
  split at hd <;> first | (cases hd; rfl) | cases hd

theorem decodeFSS_encode (op : Byte) (a : Byte) (b : Reg) (c : Disp) (e : Reg) (f : Disp) (i : Instr) (hd :
    decodeFSS op a b c e f = some i) : encode i = [head8 op a, addrHalf b c, addrHalf e f] := by
  unfold decodeFSS at hd
  split at hd
  all_goals first | (cases hd; rfl) | (split at hd <;> first | (rename_i h; cases hd; rw [h]; rfl) | cases hd)

theorem decodeVSSLong_encode (op : Byte) (a a' b : Reg) (c : Disp) (e : Reg) (f : Disp) (i : Instr) (hd :
    decodeVSSLong op a a' b c e f = some i) : encode i = [head44 op a a', addrHalf b c, addrHalf e f] := by
  unfold decodeVSSLong at hd
  split at hd <;> first | (cases hd; rfl) | cases hd

/-- The bytes of the halfwords of some bytes. -/
theorem flatMap_bytesOf (bs : List Byte) (n : Nat) (h : n ≤ (halfwordsOf bs).length) :
    ((halfwordsOf bs).take n).flatMap bytesOf = bs.take (2 * n) ∧ 2 * n ≤ bs.length := by
  induction bs using halfwordsOf.induct generalizing n with
  | case1 hi lo rest ih =>
    cases n with
    | zero => simp
    | succ n =>
      have := ih n (by simp [halfwordsOf] at h; omega)
      constructor
      · rw [halfwordsOf, List.take_succ_cons, List.flatMap_cons, this.1, bytesOf_append]; rfl
      · simp; omega
  | case2 bs hbs =>
    have : halfwordsOf bs = [] := by
      unfold halfwordsOf
      split
      · exact absurd rfl (hbs _ _ _)
      · rfl
    rw [this] at h ⊢; simp at h; subst h; simp

theorem decodeRX_ex {op : Byte} {r x b : Reg} {d : Disp} {r1 x2 b2 d2} (h : decodeRX op r x b d = some (.ex r1 x2 b2 d2)) :
    op = 0x54 := by
  unfold decodeRX at h
  split at h <;> first | rfl | (simp at h)

/-- Only operation code 54 decodes to EX. -/
theorem decode_ex {h0 h1 h2 : Word} {r1 x2 b2 d2} (h : decode h0 h1 h2 = .ok (.ex r1 x2 b2 d2)) : opOf h0 = 0x54 := by
  unfold decode at h
  split at h
  · next i hi =>
    cases h
    unfold decodeFields at hi
    split at hi
    · unfold decodeRR at hi; split at hi <;> simp at hi
    · exact decodeRX_ex hi
    · unfold decodeSI at hi; split at hi <;> first | (simp at hi; done) | (split at hi <;> simp at hi)
    · unfold decodeRS at hi; split at hi <;> simp at hi
    · unfold decodeBX at hi; split at hi <;> simp at hi
    · unfold decodeRI at hi; split at hi <;> simp at hi
    · unfold decodeVSS at hi; split at hi <;> simp at hi
    · unfold decodeVSSLong at hi; split at hi <;> simp at hi
    · unfold decodeFSS at hi; split at hi <;> first | (simp at hi; done) | (split at hi <;> simp at hi)
  · simp at h

/-- Any subject but EX has the meaning it has alone (R362). -/
theorem execSubject_eq (j : Instr) (s : State) (h : ∀ r1 x2 b2 d2, j ≠ .ex r1 x2 b2 d2) : execSubject j s = exec j s := by
  cases j <;> first | rfl | exact absurd rfl (h _ _ _ _)

end Sys2Proof.Machine
end

