-- ==== Sys2Proof/Laws/Results.lean ====
section
/-! SUPPORT. From the state a meaning answers to what the statements say of it. -/

namespace Sys2Proof.Machine

/-- A register write is a register result. -/
theorem RegisterResult.of_setReg {i : Instr} {s : State} {r : Reg} {v : Word} (h : exec i s = .next (s.setReg r v)) :
    RegisterResult i s r v :=
  ⟨_, h, State.stored_setReg_self _ _ _, Frame.setReg _ _ _⟩

/-- A register among the results written with a condition code: what was written to it, but in register 0 for the bits the code
writes too. -/
theorem holds_writeWithCc (s : State) (ws : List (Reg × Word)) (c : CcWrite) (r : Reg) (v : Word) (bits : List Nat)
    (hv : (s.writeRegs ws).stored r = v) (h : r = 0 → ∃ w ∈ ws, w.1 = 0) (h0 : c.c0 = none ∨ 0 ∈ bits)
    (h1 : c.c1 = none ∨ 1 ∈ bits) (h2 : c.c2 = none ∨ 2 ∈ bits) : Holds (s.writeWithCc ws c) r v bits := by
  intro i hi
  by_cases hr : r = 0
  · subst hr
    rcases (State.msr_writeWithCc s ws c).2 (h rfl) i with h | h
    · rw [State.msr, State.msr, hv] at h; exact h
    · rw [State.msr, State.msr, hv, CcWrite.getMsbD_apply] at h
      refine h.trans ?_
      have hi := hi rfl
      split
      · next e => subst e; simp [h0.resolve_right hi]
      · split
        · next e => subst e; simp [h1.resolve_right hi]
        · split
          · next e => subst e; simp [h2.resolve_right hi]
          · rfl
  · rw [State.stored_writeWithCc _ _ _ _ hr, hv]

/-- One result register and condition code, written together. -/
theorem holds_result (s : State) (r : Reg) (v : Word) (c : CcWrite) (bits : List Nat) (h0 : c.c0 = none ∨ 0 ∈ bits)
    (h1 : c.c1 = none ∨ 1 ∈ bits) (h2 : c.c2 = none ∨ 2 ∈ bits) : Holds (s.result r v c) r v bits :=
  holds_writeWithCc s [(r, v)] c r v bits (State.stored_setReg_self s r v) (fun h => ⟨_, List.mem_singleton_self _, h⟩) h0 h1 h2

/-- A condition-code bit a result's instruction writes. -/
theorem flag_writeWithCc (s : State) (ws : List (Reg × Word)) (c : CcWrite) (n : Nat) (b : Bool) (r : Reg) (v : Word)
    (hc : ∀ m : Word, (c.apply m).getMsbD n = b) (h0 : (∀ w ∈ ws, w.1 ≠ 0) ∨ (r = 0 ∧ (s.writeRegs ws).msr = v)) :
    Flag (s.writeWithCc ws c) n b r v := by
  by_cases hw : ∀ w ∈ ws, w.1 ≠ 0
  · left; rw [(State.msr_writeWithCc s ws c).1 hw]; exact hc _
  · obtain ⟨hr, hv⟩ := h0.resolve_left hw
    have hz : ∃ w ∈ ws, w.1 = 0 := by simpa using hw
    rcases (State.msr_writeWithCc s ws c).2 hz n with h | h
    · right; exact ⟨hr, by rw [h, hv]⟩
    · left; rw [h]; exact hc _

theorem flag_result (s : State) (r : Reg) (v : Word) (c : CcWrite) (n : Nat) (b : Bool)
    (hc : ∀ m : Word, (c.apply m).getMsbD n = b) : Flag (s.result r v c) n b r v := by
  refine flag_writeWithCc s _ c n b r v hc ?_
  by_cases hr : r = 0
  · subst hr; exact .inr ⟨rfl, State.msr_setReg_zero _ _⟩
  · exact .inl fun w hw => by rw [List.mem_singleton.1 hw]; exact hr

/-- A result and one condition-code bit. -/
theorem FlaggedResult.of_result {i : Instr} {s : State} {r : Reg} {v : Word} {c : CcWrite} {n : Nat} {b : Bool} {k : Nat}
    (h : exec i s = .next ((s.consume k).result r v c)) (hc : ∀ m : Word, (c.apply m).getMsbD n = b)
    (h0 : c.c0 = none ∨ 0 = n) (h1 : c.c1 = none ∨ 1 = n) (h2 : c.c2 = none ∨ 2 = n) : FlaggedResult i s r v n b := by
  have g0 : c.c0 = none ∨ 0 ∈ [n] := by simpa using h0
  have g1 : c.c1 = none ∨ 1 ∈ [n] := by simpa using h1
  have g2 : c.c2 = none ∨ 2 ∈ [n] := by simpa using h2
  refine ⟨_, h, holds_result _ _ _ _ _ g0 g1 g2, flag_result _ _ _ _ _ _ hc, ?_⟩
  exact ((Frame.consume s k).trans (Frame.writeWithCc _ [(r, v)] c [r] [n] (by simp) g0 g1 g2)).mono
    (by simp) (by simp) fun a ha => ha.elim id id

/-- The two registers of a pair. -/
theorem stored_pair (s : State) (r : Reg) (hi lo : Word) (c : CcWrite) (hr : r ≠ 15) :
    (s.writeWithCc [(r, hi), (r + 1, lo)] c).stored (r + 1) = lo := by
  rw [State.stored_writeWithCc]
  · exact State.stored_setReg_self _ _ _
  · intro h; apply hr; bv_omega

theorem pair_ne (r : Reg) : r ≠ r + 1 := by bv_omega

/-- The first register of a pair, the condition-code bits left out where that is register 0. -/
theorem holds_pair (s : State) (r : Reg) (hi lo : Word) (c : CcWrite) (bits : List Nat) (h0 : c.c0 = none ∨ 0 ∈ bits)
    (h1 : c.c1 = none ∨ 1 ∈ bits) (h2 : c.c2 = none ∨ 2 ∈ bits) :
    Holds (s.writeWithCc [(r, hi), (r + 1, lo)] c) r hi bits := by
  refine holds_writeWithCc s _ c r hi bits ?_ (fun h => ⟨_, List.mem_cons_self, h⟩) h0 h1 h2
  simp only [State.writeRegs]
  rw [State.stored_setReg_ne _ _ (pair_ne r), State.stored_setReg_self]

theorem flag_pair (s : State) (r : Reg) (hi lo : Word) (c : CcWrite) (n : Nat) (b : Bool) (hr : r ≠ 15)
    (hc : ∀ m : Word, (c.apply m).getMsbD n = b) : Flag (s.writeWithCc [(r, hi), (r + 1, lo)] c) n b r hi := by
  refine flag_writeWithCc s _ c n b r hi hc ?_
  by_cases h : r = 0
  · subst h
    refine .inr ⟨rfl, ?_⟩
    simp only [State.writeRegs, State.msr]
    rw [State.stored_setReg_ne _ _ (by decide), State.stored_setReg_self]
  · refine .inl fun w hw => ?_
    simp only [List.mem_cons, List.not_mem_nil, or_false] at hw
    rcases hw with rfl | rfl
    · exact h
    · intro e; apply hr; bv_omega

/-- A pair of results and condition code. -/
theorem frame_pair (s : State) (k : Nat) (r : Reg) (hi lo : Word) (c : CcWrite) (bits : List Nat) (h0 : c.c0 = none ∨ 0 ∈ bits)
    (h1 : c.c1 = none ∨ 1 ∈ bits) (h2 : c.c2 = none ∨ 2 ∈ bits) :
    Frame s ((s.consume k).writeWithCc [(r, hi), (r + 1, lo)] c) [r, r + 1] bits noByte :=
  ((Frame.consume s k).trans (Frame.writeWithCc _ [(r, hi), (r + 1, lo)] c [r, r + 1] bits (by simp) h0 h1 h2)).mono
    (by simp) (by simp) fun a ha => ha.elim id id

/-- A write of all three condition-code bits is a comparison's effect. -/
theorem Compared.of_setCc {i : Instr} {s : State} {a b c : Bool} (h : exec i s = .next (s.setCc (.all a b c))) :
    Compared i s a b c := by
  refine ⟨_, h, ⟨?_, ?_, ?_⟩, Frame.setCc _ _ _ (.inr (by simp)) (.inr (by simp)) (.inr (by simp))⟩
  · rw [State.c0, State.msr_setCc, CcWrite.getMsbD_apply]; rfl
  · rw [State.c1, State.msr_setCc, CcWrite.getMsbD_apply]; rfl
  · rw [State.c2, State.msr_setCc, CcWrite.getMsbD_apply]; rfl

/-- A halfword store. -/
theorem HalfStored.of_writeHalf {i : Instr} {s : State} {e v : Word} (h : exec i s = .next (s.writeHalf e v)) :
    HalfStored i s e v :=
  ⟨_, h, State.readHalf_writeHalf _ _ _, Frame.writeHalf _ _ _⟩

/-- A store of bytes. -/
theorem BytesStored.of_writeBytes {i : Instr} {s : State} {e : Word} {bs : List Byte}
    (h : exec i s = .next (s.writeBytes e bs)) : BytesStored i s e bs :=
  ⟨_, h, fun _ hk hl => State.byteAt_writeBytes_inside _ _ _ _ hk hl, Frame.writeBytes _ _ _⟩

/-- Bytes read one access after the other, where no unit stores among them. -/
theorem Undisturbed.readEach {s : State} (h : Undisturbed s) (i k : Nat) (a : Word) (n : Nat) :
    s.readEach i k a n = s.readBytes a n := by
  induction n generalizing i a with
  | zero => rfl
  | succ n ih => rw [State.readEach, ih, h.seenAt]; rfl

@[simp] theorem length_readEach (s : State) (i k : Nat) (a : Word) (n : Nat) : (s.readEach i k a n).length = n := by
  induction n generalizing i a with
  | zero => rfl
  | succ _ ih => simp [State.readEach, ih]

theorem getElem_readEach (s : State) (i step : Nat) (a : Word) (n k : Nat) (h : k < (s.readEach i step a n).length) :
    (s.readEach i step a n)[k] = (s.seenAt (i + k * step)).byteAt (a + BitVec.ofNat 16 k) := by
  induction n generalizing i a k with
  | zero => simp [State.readEach] at h
  | succ n ih =>
    cases k with
    | zero => simp [State.readEach]
    | succ k =>
      simp only [State.readEach, List.getElem_cons_succ]
      rw [ih, BitVec.ofNat_add, Nat.add_mul, Nat.one_mul, Nat.add_assoc, Nat.add_comm step]; congr 1; ac_rfl

@[simp] theorem length_readBytes (s : State) (a : Word) (n : Nat) : (s.readBytes a n).length = n := by
  induction n generalizing a with
  | zero => rfl
  | succ _ ih => simp [State.readBytes, ih]

@[simp] theorem length_readHalves (s : State) (a : Word) (n : Nat) : (s.readHalves a n).length = n := by
  induction n generalizing a with
  | zero => rfl
  | succ _ ih => simp [State.readHalves, ih]

theorem getElem_readBytes (s : State) (a : Word) (n k : Nat) (h : k < (s.readBytes a n).length) :
    (s.readBytes a n)[k] = s.byteAt (a + BitVec.ofNat 16 k) := by
  induction n generalizing a k with
  | zero => simp [State.readBytes] at h
  | succ n ih =>
    cases k with
    | zero => simp [State.readBytes]
    | succ k =>
      simp only [State.readBytes, List.getElem_cons_succ]
      rw [ih, show a + BitVec.ofNat 16 (k + 1) = a + 1 + BitVec.ofNat 16 k by rw [BitVec.ofNat_add]; ac_rfl]

theorem getElem_readHalves (s : State) (a : Word) (n k : Nat) (h : k < (s.readHalves a n).length) :
    (s.readHalves a n)[k] = s.readHalf (a + 2 * BitVec.ofNat 16 k) := by
  induction n generalizing a k with
  | zero => simp [State.readHalves] at h
  | succ n ih =>
    cases k with
    | zero => simp [State.readHalves]
    | succ k =>
      simp only [State.readHalves, List.getElem_cons_succ]
      rw [ih, show a + 2 * BitVec.ofNat 16 (k + 1) = a + 2 + 2 * BitVec.ofNat 16 k by
        rw [BitVec.ofNat_add, BitVec.mul_add, show (2 : Word) * BitVec.ofNat 16 1 = 2 by decide]; ac_rfl]

end Sys2Proof.Machine
end

