-- ==== Sys2Proof/Laws/Flags.lean ====
section
/-! SUPPORT. The result and flag computations of Flags.lean, by exact numbers. -/

namespace Sys2Proof.Machine

theorem negative_eq (v : Word) : negative v = BitVec.ofInt 16 (-(v.toInt.natAbs : Int)) := by
  unfold negative
  split
  · rw [show -(v.toInt.natAbs : Int) = -v.toInt by omega]
    simp [BitVec.ofInt_neg]
  · rw [show -(v.toInt.natAbs : Int) = v.toInt by omega]
    simp

theorem complement_eq (v : Word) : complement v = BitVec.ofInt 16 (-v.toInt) := by
  simp [complement, BitVec.ofInt_neg]

theorem positive_eq (v : Word) : positive v = BitVec.ofInt 16 (v.toInt.natAbs : Int) := by
  unfold positive
  split
  · rw [show (v.toInt.natAbs : Int) = -v.toInt by omega]
    simp [BitVec.ofInt_neg]
  · rw [show (v.toInt.natAbs : Int) = v.toInt by omega]
    simp

theorem toInt_bounds (v : Word) : -32768 ≤ v.toInt ∧ v.toInt < 32768 := ⟨v.le_toInt, v.toInt_lt⟩

theorem complementOverflows_eq (v : Word) : complementOverflows v = !fits16 (-v.toInt) := by
  have h := toInt_bounds v
  by_cases e : v = 0x8000
  · subst e; decide
  · have : v.toInt ≠ -32768 := fun h => e (BitVec.eq_of_toInt_eq (h.trans (by decide)))
    rw [complementOverflows, beq_eq_false_iff_ne.2 e, fits16, decide_eq_true (by omega)]
    rfl

theorem complementOverflows_eq_abs (v : Word) : complementOverflows v = !fits16 (v.toInt.natAbs : Int) := by
  have h := toInt_bounds v
  rw [complementOverflows_eq, fits16, fits16]
  congr 1
  exact decide_eq_decide.2 (by omega)

theorem swapBytes_eq (v : Word) : swapBytes v = (v <<< 8) ||| (v >>> 8) := by
  unfold swapBytes lowByte highByte
  ext i hi
  simp only [BitVec.getElem_append, BitVec.getElem_or]
  interval_cases i <;> simp

theorem add_eq (a b : Word) : a + b = BitVec.ofInt 16 (a.toInt + b.toInt) := by simp [BitVec.ofInt_add]
theorem sub_eq (a b : Word) : a - b = BitVec.ofInt 16 (a.toInt - b.toInt) := by
  rw [Int.sub_eq_add_neg, BitVec.ofInt_add, BitVec.ofInt_neg, BitVec.ofInt_toInt, BitVec.ofInt_toInt, BitVec.sub_eq_add_neg]

/-- A digit and an immediate byte, zero-extended, are the numbers they are. -/
theorem toInt_digit (r : Reg) : (digit r).toInt = (r.toNat : Int) := by
  have := r.isLt
  rw [digit, BitVec.toInt_eq_toNat_of_lt] <;> simp <;> omega

theorem toInt_zeroExtended (b : Byte) : (zeroExtended b).toInt = (b.toNat : Int) := by
  have := b.isLt
  rw [zeroExtended, BitVec.toInt_eq_toNat_of_lt] <;> simp <;> omega

end Sys2Proof.Machine
end

