-- ==== Sys2Proof/Laws/Shifts.lean ====
section
/-! SUPPORT. Condition-code writes bit by bit, comparisons, tests under mask, sign classes, and what n single shifts make. -/

namespace Sys2Proof.Machine

/-- The bits a condition-code write writes. -/
theorem CcWrite.c0Only_bit (b : Bool) (m : Word) : ((CcWrite.c0Only b).apply m).getMsbD 0 = b :=
    by rw [CcWrite.getMsbD_apply]; rfl

theorem CcWrite.c1Only_bit (b : Bool) (m : Word) : ((CcWrite.c1Only b).apply m).getMsbD 1 = b :=
    by rw [CcWrite.getMsbD_apply]; rfl

theorem CcWrite.c2Only_bit (b : Bool) (m : Word) : ((CcWrite.c2Only b).apply m).getMsbD 2 = b :=
    by rw [CcWrite.getMsbD_apply]; rfl

theorem CcWrite.c1c2_bit1 (a b : Bool) (m : Word) : ((CcWrite.c1c2 a b).apply m).getMsbD 1 = a :=
    by rw [CcWrite.getMsbD_apply]; rfl

theorem CcWrite.c1c2_bit2 (a b : Bool) (m : Word) : ((CcWrite.c1c2 a b).apply m).getMsbD 2 = b :=
    by rw [CcWrite.getMsbD_apply]; rfl

/-- A write of all three bits leaves exactly these. -/
theorem condition_setCc (s : State) (a b c : Bool) : Condition (s.setCc (.all a b c)) a b c := by
  refine ⟨?_, ?_, ?_⟩
  · rw [State.c0, State.msr_setCc, CcWrite.getMsbD_apply]; rfl
  · rw [State.c1, State.msr_setCc, CcWrite.getMsbD_apply]; rfl
  · rw [State.c2, State.msr_setCc, CcWrite.getMsbD_apply]; rfl

theorem Frame.setCcAll (s : State) (a b c : Bool) : Frame s (s.setCc (.all a b c)) [] [0, 1, 2] noByte :=
    Frame.setCc _ _ _ (.inr (by simp)) (.inr (by simp)) (.inr (by simp))

/-- The comparisons of R146 and R216, as three bits. -/
theorem compareSigned_eq (a b : Word) : compareSigned a b =
    .all (decide (a.toInt = b.toInt)) (decide (b.toInt < a.toInt)) (decide (a.toInt < b.toInt)) := by
  unfold compareSigned compareCc
  rcases lt_trichotomy a.toInt b.toInt with h | h | h
  · simp [h, h.ne, h.not_gt]
  · simp [h]
  · simp [h, h.ne', h.not_gt]

theorem compareLogical_eq {w : Nat} (a b : BitVec w) : compareLogical a b =
    .all (decide (a.toNat = b.toNat)) (decide (b.toNat < a.toNat)) (decide (a.toNat < b.toNat)) := by
  unfold compareLogical compareCc
  have : (a == b) = decide (a.toNat = b.toNat) := by
    rw [Bool.eq_iff_iff]; simp [BitVec.toNat_inj]
  rw [this]
  rcases lt_trichotomy a.toNat b.toNat with h | h | h
  · simp [h, h.ne, h.not_gt]
  · simp [h]
  · simp [h, h.ne', h.not_gt]

/-- The test under mask of R260, as three bits. -/
theorem testUnderMask_eq {w : Nat} (a m : BitVec w) : testUnderMask a m = .all (a &&& m == 0) (a &&& m != 0 && a &&& m == m)
    (a &&& m != 0 && a &&& m != m) := by
  unfold testUnderMask
  by_cases h : a &&& m = 0
  · simp [h]
  · by_cases h2 : a &&& m = m
    · have : m ≠ 0 := by rw [h2] at h; exact h
      rw [if_neg h, if_pos h2, h2, beq_eq_false_iff_ne.2 this, bne, beq_eq_false_iff_ne.2 this]; simp
    · rw [if_neg h, if_neg h2, bne, bne, beq_eq_false_iff_ne.2 h, beq_eq_false_iff_ne.2 h2]; rfl

theorem toInt_eq_zero (d : Word) : d.toInt = 0 ↔ d = 0 := by
  constructor
  · intro h; exact BitVec.eq_of_toInt_eq (by simpa using h)
  · rintro rfl; rfl

/-- The sign classes of R339, on numbers. -/
theorem isZero_eq (v : Word) : isZero v = decide (v.toInt = 0) := by
  rw [isZero, Bool.eq_iff_iff, beq_iff_eq, decide_eq_true_iff]
  exact ⟨by rintro rfl; rfl, fun h => BitVec.eq_of_toInt_eq (by simpa using h)⟩

theorem isMinus_eq (v : Word) : isMinus v = decide (v.toInt < 0) := by
  rw [isMinus, BitVec.msb_eq_toInt]

theorem not_isPositive (v : Word) : (!isPositive v) = decide (v.toInt ≤ 0) := by
  rw [isPositive, ← decide_not, decide_eq_decide]; exact Int.not_lt

theorem not_isMinus (v : Word) : (!isMinus v) = decide (0 ≤ v.toInt) := by
  rw [isMinus_eq, ← decide_not, decide_eq_decide]; exact Int.not_lt

theorem not_isZero (v : Word) : (!isZero v) = decide (v.toInt ≠ 0) := by
  rw [isZero_eq, ← decide_not]

/-- n left algebraic shifts: the sign stays, the other bits move left by n, the overflow sees every
bit that leaves, and the last to leave is bit n. -/
theorem shiftLeftAlgebraic_spec {w : Nat} (hw : 0 < w) (f : Shifted w) (n : Nat) :
    (∀ j, j < w → (shiftLeftAlgebraic f n).value.getMsbD j = if j = 0 then f.value.msb else f.value.getMsbD (j + n)) ∧
    (shiftLeftAlgebraic f n).overflow = (f.overflow || (List.range n).any fun k => f.value.getMsbD (k + 1) != f.value.msb) ∧
    (shiftLeftAlgebraic f n).out = if n = 0 then f.out else some (f.value.getMsbD n) := by
  induction n generalizing f with
  | zero =>
    refine ⟨fun j hj => ?_, by simp [shiftLeftAlgebraic], rfl⟩
    split
    · next e => subst e; rfl
    · rfl
  | succ n ih =>
    have step (j : Nat) :
        (if f.value.msb then (f.value <<< 1) ||| BitVec.intMin w else (f.value <<< 1) &&& ~~~(BitVec.intMin w)).getMsbD j =
        if j = 0 then f.value.msb else f.value.getMsbD (j + 1) := by
      split <;> rename_i h <;> simp only [BitVec.getMsbD_or, BitVec.getMsbD_and, BitVec.getMsbD_not, BitVec.getMsbD_shiftLeft,
          BitVec.getMsbD_intMin] <;> by_cases hj : j = 0 <;> simp_all
      intro h1
      by_contra hc
      have : f.value.getMsbD (j + 1) = false := BitVec.getMsbD_of_ge _ _ (by omega)
      simp_all
    obtain ⟨h1, h2, h3⟩ := ih
      { value := if f.value.msb then (f.value <<< 1) ||| BitVec.intMin w else (f.value <<< 1) &&& ~~~(BitVec.intMin w)
        overflow := f.overflow || f.value.getMsbD 1 != f.value.msb
        out := some (f.value.getMsbD 1) }
    dsimp only at h1 h2 h3
    have m : (if f.value.msb then (f.value <<< 1) ||| BitVec.intMin w
        else (f.value <<< 1) &&& ~~~(BitVec.intMin w)).msb = f.value.msb := by
      rw [BitVec.msb, step, if_pos rfl]
    refine ⟨fun j hj => ?_, ?_, ?_⟩
    · rw [shiftLeftAlgebraic, h1 j hj, m, step]
      by_cases hj : j = 0 <;> simp [hj, Nat.add_assoc]
    · rw [shiftLeftAlgebraic, h2, m, List.range_succ_eq_map, List.any_cons, List.any_map, ← Bool.or_assoc]
      simp only [step, Function.comp_def, Nat.succ_ne_zero, Nat.add_one_ne_zero, if_false, Nat.succ_eq_add_one, Nat.zero_add]
    · rw [shiftLeftAlgebraic, h3, step]
      by_cases hn : n = 0 <;> simp [hn]

/-- The same, on 16 and on 32 bits, by masks. -/
theorem shiftLeftAlgebraic_value16 (v : BitVec 16) (n : Nat) :
    (shiftLeftAlgebraic (unshifted v) n).value = ((v <<< n) &&& 0x7FFF) ||| (v &&& 0x8000) := by
  apply BitVec.eq_of_getMsbD_eq
  intro j hj
  rw [(shiftLeftAlgebraic_spec (by decide) _ n).1 j hj]
  simp only [unshifted, BitVec.getMsbD_or, BitVec.getMsbD_and, BitVec.getMsbD_shiftLeft]
  interval_cases j <;> simp [BitVec.msb]

theorem shiftLeftAlgebraic_value32 (v : BitVec 32) (n : Nat) :
    (shiftLeftAlgebraic (unshifted v) n).value = ((v <<< n) &&& 0x7FFFFFFF) ||| (v &&& 0x80000000) := by
  apply BitVec.eq_of_getMsbD_eq
  intro j hj
  rw [(shiftLeftAlgebraic_spec (by decide) _ n).1 j hj]
  simp only [unshifted, BitVec.getMsbD_or, BitVec.getMsbD_and, BitVec.getMsbD_shiftLeft]
  interval_cases j <;> simp [BitVec.msb]

/-- n right algebraic shifts. -/
theorem shiftRightAlgebraic_spec {w : Nat} (f : Shifted w) (n : Nat) :
    (shiftRightAlgebraic f n).value = f.value.sshiftRight n ∧
        (shiftRightAlgebraic f n).out = if n = 0 then f.out else some ((f.value.sshiftRight (n - 1)).getLsbD 0) := by
  induction n generalizing f with
  | zero => simp [shiftRightAlgebraic]
  | succ n ih =>
    rw [shiftRightAlgebraic, (ih _).1, (ih _).2]
    refine ⟨by simp only; rw [← BitVec.sshiftRight_add, Nat.add_comm], ?_⟩
    cases n with
    | zero => simp
    | succ n => simp only [Nat.add_one_ne_zero, if_false, Nat.add_sub_cancel]; rw [← BitVec.sshiftRight_add, Nat.add_comm]

/-- n logical shifts, right and left. -/
theorem shiftRightLogical_spec {w : Nat} (f : Shifted w) (n : Nat) :
    (shiftRightLogical f n).value = f.value >>> n ∧
    (shiftRightLogical f n).out = if n = 0 then f.out else some ((f.value >>> (n - 1)).getLsbD 0) := by
  induction n generalizing f with
  | zero => simp [shiftRightLogical]
  | succ n ih =>
    rw [shiftRightLogical, (ih _).1, (ih _).2]
    refine ⟨by simp only; rw [← BitVec.shiftRight_add, Nat.add_comm], ?_⟩
    cases n with
    | zero => simp
    | succ n => simp only [Nat.add_one_ne_zero, if_false, Nat.add_sub_cancel]; rw [← BitVec.shiftRight_add, Nat.add_comm]

theorem shiftLeftLogical_spec {w : Nat} (f : Shifted w) (n : Nat) :
    (shiftLeftLogical f n).value = f.value <<< n ∧
    (shiftLeftLogical f n).out = if n = 0 then f.out else some ((f.value <<< (n - 1)).msb) := by
  induction n generalizing f with
  | zero => simp [shiftLeftLogical]
  | succ n ih =>
    rw [shiftLeftLogical, (ih _).1, (ih _).2]
    refine ⟨by simp only; rw [← BitVec.shiftLeft_add, Nat.add_comm], ?_⟩
    cases n with
    | zero => simp
    | succ n => simp only [Nat.add_one_ne_zero, if_false, Nat.add_sub_cancel]; rw [← BitVec.shiftLeft_add, Nat.add_comm]

end Sys2Proof.Machine
end

