-- ==== Sys2Proof/Laws/Devices.lean ====
section
/-! SUPPORT. The local units and the S/360 interface: what each shared operation can do. -/

namespace Sys2Proof.Machine

/-- A unit write changes that unit and no other. -/
theorem State.unit_setUnit (s : State) (u v : Fin 11) (l : LocalUnit) :
    (s.setUnit u l).unit v = if v = u then l else s.unit v := by
  simp only [State.unit, State.setUnit, Vector.getElem_set]
  split <;> rename_i h <;> split <;> rename_i h2
  · rfl
  · exact absurd (Fin.ext h).symm h2
  · exact absurd (congrArg Fin.val h2).symm h
  · rfl

/-- The installed units are 1 to 6. -/
theorem installedUnit_some (c : BitVec 4) (u : Fin 11) (h1 : 1 ≤ c.toNat) (h2 : c.toNat ≤ 6) (h : u.val = c.toNat) :
    installedUnit c = some u := by
  have : c.toNat ∈ Config.installed := by simp only [Config.installed]; interval_cases c.toNat <;> simp
  rw [installedUnit, dif_pos (by omega), if_pos this]
  exact congrArg some (Fin.ext h.symm)

theorem installedUnit_none (c : BitVec 4) (h : c.toNat = 0 ∨ 7 ≤ c.toNat) : installedUnit c = none := by
  rw [installedUnit]; split
  · rw [if_neg]; simp only [Config.installed, List.mem_cons, List.not_mem_nil, or_false]; omega
  · rfl

/-- An answer stores the status halfword and sets the condition code (R384). -/
theorem State.answer_frame (s : State) (u p a b c) : Frame s (s.answer u p (.all a b c)) [] [0, 1, 2] (Touched (p + 2) 2) :=
  ((Frame.writeHalf s (p + 2) (s.sensed u)).trans (Frame.setCcAll _ _ _ _)).mono (by simp) (by simp) fun x h =>
      h.elim id False.elim

/-- What an answered command leaves: what it did itself, the status halfword in the UCB, and the condition code (R384). -/
theorem State.answer_spec {s t : State} {stored : Word → Prop} (h : Frame s t [] [] stored) (u : Fin 11) (p : Word) (a b c : Bool) :
    let v := t.answer u p (.all a b c)
    Condition v a b c ∧ v.readHalf (p + 2) = v.sensed u ∧
      (∀ x, odd x = false → odd p = false → phys x ≠ phys (p + 2) → v.readHalf x = t.readHalf x) ∧
      Frame s v [] [0, 1, 2] (either stored (Touched (p + 2) 2)) :=
  ⟨condition_setCc _ a b c, State.readHalf_writeHalf t (p + 2) _,
    fun x hx hp hn => State.readHalf_writeHalf_even t x (p + 2) _ hx ((odd_add_two p).trans hp) hn,
    (h.trans (State.answer_frame t u p a b c)).mono (by simp) (by simp) fun _ => id⟩

/-- A cleared request is the unit's own. -/
theorem State.unit_clearRequest (s : State) (u v : Fin 11) :
    (s.clearRequest u).unit v = if v = u then { s.unit u with request := false } else s.unit v := s.unit_setUnit u v _

/-- A command that completes at once keeps the registers, the other units, and all memory but the halfword it names. -/
theorem State.perform_keeps (s : State) (u : Fin 11) (c : Iocc) (k : Command) (hk : k.begins = false) :
    (s.perform u c k).regs = s.regs ∧ (∀ v, v ≠ u → (s.perform u c k).unit v = s.unit v) ∧
        MemoryKept s (s.perform u c k) (Touched c.address 2) := by
  have w (w : Word) : MemoryKept s (s.writeHalf c.address w) (Touched c.address 2) := (Frame.writeHalf s c.address w).2.2.1
  cases k <;> simp only [Command.begins, Bool.true_eq_false] at hk
  · simp only [State.perform]; split
    · exact ⟨rfl, fun v hv => by rw [State.unit_clearRequest, if_neg hv], fun _ _ => rfl⟩
    · exact ⟨rfl, fun v hv => rfl, fun _ _ => rfl⟩
  · exact ⟨rfl, fun v hv => rfl, fun _ _ => rfl⟩
  · exact ⟨rfl, fun v hv => rfl, w _⟩
  · simp only [State.perform]; split
    · exact ⟨rfl, fun v hv => by rw [State.unit_setUnit, if_neg hv]; exact (State.unit_setUnit s u v _).trans (if_neg hv),
          fun _ _ => rfl⟩
    · exact ⟨rfl, fun v hv => (State.unit_setUnit s u v _).trans (if_neg hv), fun _ _ => rfl⟩
  · rename_i h; simp only [State.perform]
    cases h <;> split <;> exact ⟨rfl, fun v hv => rfl, fun _ _ => rfl⟩
  · exact ⟨rfl, fun v hv => (State.unit_setUnit _ u v _).trans (if_neg hv), w _⟩
  · exact ⟨rfl, fun v hv => rfl, w _⟩
  · exact ⟨rfl, fun v hv => rfl, fun _ _ => rfl⟩
  · exact ⟨rfl, fun v hv => rfl, fun _ _ => rfl⟩

/-- Only three of the commands that complete at once store into memory. -/
theorem State.perform_mem (s : State) (u : Fin 11) (c : Iocc) (k : Command) (hk : k.begins = false)
    (h : k ∉ ([.readB, .terminalRead true, .terminalRead false, .panelRead] : List Command)) :
    (s.perform u c k).mem = s.mem := by
  rcases k with _ | _ | _ | _ | host | host | _ | _ | _ | _ | _ | _ | _ <;>
    simp only [Command.begins, Bool.true_eq_false] at hk <;>
    first
      | (cases host <;> simp at h; done)
      | (simp at h; done)
      | (simp only [State.perform]; split <;> rfl)
      | rfl
      | (cases host <;> simp only [State.perform] <;> split <;> rfl)

/-- Only the disk, the card reader and the terminals have commands that begin an operation. -/
theorem commandOf_begins {c : Iocc} {k : Command} (h : commandOf c = some k) (hb : k.begins = true) :
    c.unit.toNat = 2 ∨ c.unit.toNat = 3 ∨ c.unit.toNat = 4 ∨ c.unit.toNat = 6 := by
  by_contra hn
  unfold commandOf at h
  dsimp only at h
  split at h
  · next e =>
    obtain rfl := Option.some.inj h
    split at e <;> first | omega | (repeat' split at e) <;> first | (cases e; done) | (obtain rfl := Option.some.inj e; cases hb)
  · split at h
    · obtain rfl := Option.some.inj h; cases hb
    · cases h

/-- A begun operation is in progress, and nothing but its unit has changed. -/
theorem State.begin_keeps (s : State) (u : Fin 11) (c : Iocc) (k : Command) (n : Nat) :
    (s.begin u c k n).regs = s.regs ∧ (s.begin u c k n).mem = s.mem ∧
      (∀ v, v ≠ u → (s.begin u c k n).unit v = s.unit v) ∧
        ((s.begin u c k n).unit u).operation = some { iocc := c, count := n, moved := [] } := by
  have a (v) (hv : v ≠ u) (l) : (s.setUnit u l).unit v = s.unit v := (State.unit_setUnit s u v l).trans (if_neg hv)
  have b (l) : (s.setUnit u l).unit u = l := (State.unit_setUnit s u u l).trans (if_pos rfl)
  unfold State.begin
  dsimp only
  cases k <;> (first | exact ⟨rfl, rfl, fun v hv => a v hv _, by rw [b]⟩ | exact ⟨rfl, rfl, fun v hv => a v hv _,
      (congrArg LocalUnit.operation (b _))⟩)

/-- A sector is full, whatever is written to it (R433). -/
theorem length_sectorImage (count : Nat) (data : List Word) : (sectorImage count data).length = recordBytes := by
  rw [sectorImage, List.length_take, List.length_append, List.length_append, List.length_replicate,
    show (bytesOf (BitVec.ofNat 16 count)).length = 2 from rfl, recordBytes]
  omega

/-- The checks of the S/360 instructions: an undefined device, an invalid UCB pointer, and else the rest. -/
theorem withDevice_undefined (ilc : BitVec 2) (d : Reg) (s : State) (k) (hp : s.privileged = true) (h : 4 ≤ d.toNat) :
    withDevice ilc d s k = .refused (.undefinedDevice d) := by
  rw [withDevice, whenPrivileged_on hp, if_pos h]

theorem withDevice_invalid (ilc : BitVec 2) (d : Reg) (s : State) (k) (hu : Undisturbed s) (hp : s.privileged = true) (h : d.toNat < 4) (hv :
    s.readHalf (0x46 + 2 * d.setWidth 16) = 0 ∨ odd (s.readHalf (0x46 + 2 * d.setWidth 16)) = true) :
    withDevice ilc d s k = .next (s.programInterrupt ilc .invalidUcbAddress) := by
  rw [withDevice, whenPrivileged_on hp, if_neg (by omega), if_pos]; · rfl
  rw [hu.seenAt, channelEntry, ucbValid]; rcases hv with hv | hv
  · rw [hv]; rfl
  · rw [hv]; simp

theorem withDevice_valid (ilc : BitVec 2) (d : Reg) (s : State) (k) (hu : Undisturbed s) (hp : s.privileged = true) (h : d.toNat < 4) (h0 :
    s.readHalf (0x46 + 2 * d.setWidth 16) ≠ 0) (h1 : odd (s.readHalf (0x46 + 2 * d.setWidth 16)) = false) :
    withDevice ilc d s k = k (s.readHalf (0x46 + 2 * d.setWidth 16)) := by
  rw [withDevice, whenPrivileged_on hp, if_neg (by omega), hu.seenAt, if_neg]; · rfl
  rw [channelEntry, ucbValid, h1]; simpa using h0

theorem length_channelBytes (c n : Nat) : (channelBytes c n).length = n := by
  induction n generalizing c with
  | zero => rfl
  | succ n ih => simp [channelBytes, ih]

/-- A transfer stores what comes in or sends what goes out (R385). -/
theorem State.transfer_spec (s : State) (i : Nat) (d : Reg) (cmd : Byte) (a : Word) (n : Nat) :
   (s.transfer i d cmd a n).outputs =
      (if cmd.getLsbD 0 then s.outputs else s.outputs ++ (s.readEach i 1 a n).map (Output.channelData d)) ∧
   Frame { s with outputs := (s.transfer i d cmd a n).outputs } (s.transfer i d cmd a n)
       [] [] (if cmd.getLsbD 0 then Touched a n else noByte) := by
  unfold State.transfer
  split
  · have := Frame.writeBytes s a (channelBytes s.freeCount n)
    rw [length_channelBytes] at this
    have e : (s.writeBytes a (channelBytes s.freeCount n)).outputs = s.outputs := by simp
    refine ⟨e, ?_⟩
    rw [e]; exact this
  · exact ⟨rfl, Frame.intro (fun q _ hq => rfl) (fun hz i _ => rfl) (fun _ _ => rfl) rfl⟩

/-- A recorded ending changes the sense and status bytes only. -/
theorem State.recordEnding_frame (s : State) (p : Word) (e : Ending) :
    Frame s (s.recordEnding p e) [] [] (either (Touched (p + Config.ucbSense) 1) (Touched (p + Config.ucbStatus) 1)) := by
  unfold State.recordEnding
  split
  · exact ((Frame.orByte _ _ _).trans (Frame.orByte _ _ _)).mono (by simp) (by simp) fun a h => h
  · exact (Frame.refl s).mono (by simp) (by simp) fun a h => h.elim

theorem State.recordEnding_outputs (s : State) (p : Word) (e : Ending) : (s.recordEnding p e).outputs = s.outputs := by
  unfold State.recordEnding; split <;> rfl

theorem transferLength_le (e : Ending) (c n : Nat) : transferLength e c n ≤ c := by
  cases e <;> simp [transferLength]

/-- Each ending sets exactly one of C0, C1, C2. -/
theorem Ending.cc_spec (u : State) (n : Nat) (e : Ending) : let t := (u.setCc e.cc).consume n
   (Condition t true false false ∨ Condition t false true false ∨ Condition t false false true) ∧ t.outputs = u.outputs ∧
       Frame u t [] [0, 1, 2] noByte ∧ (t.c0 = false → e ≠ .busOutCheck) := by
  dsimp only
  have fr : Frame u ((u.setCc e.cc).consume n) [] [0, 1, 2] noByte := by
    refine ((Frame.setCc u e.cc [0, 1, 2] (.inr (by simp)) (.inr (by simp)) (.inr (by simp))).trans
      (Frame.consume _ n)).mono (by simp) (by simp) fun a h => h.elim id id
  cases e
  · exact ⟨.inl (condition_setCc _ _ _ _), rfl, fr, fun _ => by simp⟩
  · refine ⟨.inl (condition_setCc _ _ _ _), rfl, fr, fun h => ?_⟩
    have := (condition_setCc u true false false).1
    exact absurd (this.symm.trans h) (by simp)
  · exact ⟨.inr (.inl (condition_setCc _ _ _ _)), rfl, fr, fun _ => by simp⟩
  · exact ⟨.inr (.inr (condition_setCc _ _ _ _)), rfl, fr, fun _ => by simp⟩

/-- A Bus-Out Check is on in both bytes, even where they are one (R385). -/
theorem State.recordEnding_checked (s : State) (p : Word) : let t := s.recordEnding p .busOutCheck
    (t.byteAt (p + Config.ucbSense)).getMsbD 2 = true ∧ (t.byteAt (p + Config.ucbStatus)).getMsbD 6 = true := by
  have o (b c : Byte) (i : Nat) (h : c.getMsbD i = true) : (b ||| c).getMsbD i = true := by
    rw [BitVec.getMsbD_or, h, Bool.or_true]
  have o' (b c : Byte) (i : Nat) (h : b.getMsbD i = true) : (b ||| c).getMsbD i = true := by
    rw [BitVec.getMsbD_or, h, Bool.true_or]
  dsimp only
  rw [State.recordEnding, if_pos rfl]
  constructor
  · rw [State.byteAt_orByte]
    split
    · rename_i h
      refine o' _ _ _ ?_
      rw [State.byteAt_orByte, if_pos h.symm]; exact o _ _ _ (by decide)
    · rw [State.byteAt_orByte, if_pos rfl]; exact o _ _ _ (by decide)
  · rw [State.byteAt_orByte, if_pos rfl]; exact o _ _ _ (by decide)

/-- C0 is on only for a transfer that succeeds and for a Bus-Out Check. -/
theorem Ending.of_c0 (u : State) (n : Nat) (e : Ending) (h : ((u.setCc e.cc).consume n).c0 = true) :
    e = .successful ∨ e = .busOutCheck := by
  cases e
  · exact .inl rfl
  · exact .inr rfl
  · exact absurd ((condition_setCc u false true false).1.symm.trans h) (by simp)
  · exact absurd ((condition_setCc u false false true).1.symm.trans h) (by simp)

/-- A presented status is sent, answered by one of C0, C1, C2, and kept where it is stacked (R387). -/
theorem State.presentStatus_spec (s : State) (d : Reg) (p : Word) (st : Byte) : let t := s.presentStatus d p st
   (Condition t true false false ∨ Condition t false true false ∨ Condition t false false true) ∧
       t.outputs = s.outputs ++ [.channelStatus d st] ∧ (t.c1 = true → t.byteAt (p + Config.ucbStatus) = st) ∧
   Frame { s with outputs := s.outputs ++ [.channelStatus d st] } t [] [0, 1, 2] (Touched (p + Config.ucbStatus) 1) := by
  dsimp only
  have f0 : Frame { s with outputs := s.outputs ++ [.channelStatus d st] } ((s.send (.channelStatus d st)).consume 1)
      [] [] noByte := Frame.intro (fun q _ hq => rfl) (fun hz i _ => rfl) (fun _ _ => rfl) rfl
  have fa (a b c) := (f0.trans (Frame.setCcAll ((s.send (.channelStatus d st)).consume 1) a b c)).mono (rs' := []) (bits' :=
      [0, 1, 2]) (q := Touched (p + Config.ucbStatus) 1) (by simp) (by simp) fun a h => h.elim False.elim False.elim
  have fb (a b c) := ((f0.trans (Frame.setByte ((s.send (.channelStatus d st)).consume 1) (p + Config.ucbStatus) st)).trans
    (Frame.setCcAll _ a b c)).mono (rs' := []) (bits' := [0, 1, 2]) (q := Touched (p + Config.ucbStatus) 1) (by simp)
    (by simp) fun a h => h.elim (fun h => h.elim False.elim id) False.elim
  unfold State.presentStatus
  dsimp only
  split
  · refine ⟨.inl (condition_setCc _ _ _ _), rfl, fun h => ?_, fa _ _ _⟩
    exact absurd ((condition_setCc ((s.send (.channelStatus d st)).consume 1) true false false).2.1.symm.trans h) (by simp)
  · refine ⟨.inr (.inl (condition_setCc _ _ _ _)), rfl, fun h => ?_, fb _ _ _⟩
    rw [State.byteAt_setCc, State.byteAt_setByte, if_pos rfl]
  · refine ⟨.inr (.inr (condition_setCc _ _ _ _)), rfl, fun h => ?_, fb _ _ _⟩
    rw [State.byteAt_setCc, State.byteAt_setByte, if_pos rfl]
  · refine ⟨.inr (.inr (condition_setCc _ _ _ _)), rfl, fun h => ?_, fa _ _ _⟩
    exact absurd ((condition_setCc ((s.send (.channelStatus d st)).consume 1) false false true).2.1.symm.trans h) (by simp)

end Sys2Proof.Machine
end

