-- ==== Sys2Proof/Laws/Invariant.lean ====
section
/-! SUPPORT. What every update, check and shared operation keeps of the machine's invariant, to be put together meaning by
meaning. -/

namespace Sys2Proof.Machine

/-- Memory is in canonical form, and so is every memory that a numbered access of the turn finds (log 50). -/
def State.Canonical (s : State) : Prop :=
  s.mem.wf Config.memSize = true ∧ ∀ x ∈ s.earlier, x.mem.wf Config.memSize = true

/-- From `s` to `t` the memory keeps its canonical form, the disk is as it was, and the EX flag is not set: what every meaning does
to the parts of the invariant. -/
def Stays (s t : State) : Prop := (s.Canonical → t.Canonical) ∧ t.disk = s.disk ∧ (s.inExecute = false → t.inExecute = false)

/-- An answer that, where it is a next state, is one that `s` stays in. -/
def Keeps (s : State) (r : Result) : Prop := ∀ t, r = .next t → Stays s t


theorem Stays.refl (s : State) : Stays s s := ⟨id, rfl, id⟩
theorem Stays.trans {s t u : State} (h : Stays s t) (k : Stays t u) : Stays s u :=
  ⟨fun w => k.1 (h.1 w), k.2.1.trans h.2.1, fun w => k.2.2 (h.2.2 w)⟩
theorem Stays.updated {s t u : State} (h : Stays s t) (hm : t.mem.wf Config.memSize = true → u.mem.wf Config.memSize = true)
    (hd : u.disk = t.disk := by simp) (he : u.inExecute = t.inExecute := by simp) (hx : u.earlier = t.earlier := by simp) :
    Stays s u :=
  ⟨fun w => ⟨hm (h.1 w).1, hx ▸ (h.1 w).2⟩, hd.trans h.2.1, fun w => he.trans (h.2.2 w)⟩
theorem Stays.same {s t u : State} (h : Stays s t) (hm : u.mem = t.mem) (hd : u.disk = t.disk)
    (he : u.inExecute = t.inExecute) (hx : u.earlier = t.earlier := by first | rfl | simp) : Stays s u :=
  h.updated (fun w => hm ▸ w) hd he hx

/-! ## The updates -/

variable {s t : State}

theorem Stays.setReg (h : Stays s t) (r : Reg) (v : Word) : Stays s (t.setReg r v) := h.same rfl rfl rfl
theorem Stays.setCc (h : Stays s t) (c : CcWrite) : Stays s (t.setCc c) := h.same rfl rfl rfl
theorem Stays.consume (h : Stays s t) (n : Nat) : Stays s (t.consume n) := h.same rfl rfl rfl
theorem Stays.send (h : Stays s t) (o : Output) : Stays s (t.send o) := h.same rfl rfl rfl
theorem Stays.setUnit (h : Stays s t) (u : Fin 11) (l : LocalUnit) : Stays s (t.setUnit u l) := h.same rfl rfl rfl
theorem Stays.clearStatus (h : Stays s t) (u : Fin 11) (l : Word) : Stays s (t.clearStatus u l) := h.same rfl rfl rfl
theorem Stays.setTerminal (h : Stays s t) (b : Bool) (l : Terminal) : Stays s (t.setTerminal b l) := by
  unfold State.setTerminal; split <;> exact h.same rfl rfl rfl
theorem Stays.sendData (h : Stays s t) (d : Reg) (l : List Byte) : Stays s (t.sendData d l) := h.same rfl rfl rfl
theorem Stays.writeRegs (h : Stays s t) (ws) : Stays s (t.writeRegs ws) := h.same (by simp) (by simp) (by simp)
theorem Stays.writeWithCc (h : Stays s t) (ws c) : Stays s (t.writeWithCc ws c) := h.same (by simp) (by simp) (by simp)
theorem Stays.result (h : Stays s t) (r v c) : Stays s (t.result r v c) := h.writeWithCc _ _
theorem Stays.setByte (h : Stays s t) (a b) : Stays s (t.setByte a b) := h.updated (State.setByte_wf _ _)
theorem Stays.writeHalf (h : Stays s t) (a b) : Stays s (t.writeHalf a b) := (h.setByte _ _).setByte _ _
theorem Stays.writeBytes (h : Stays s t) (a b) : Stays s (t.writeBytes a b) := h.updated (State.writeBytes_wf _ _)
theorem Stays.orByte (h : Stays s t) (a m) : Stays s (t.orByte a m) := (h.setByte a (t.byteAt a ||| m)).same rfl rfl rfl
theorem Stays.writeHalves (h : Stays s t) (a b) : Stays s (t.writeHalves a b) := h.updated (State.writeHalves_wf _ _)
theorem Stays.copyHalf (h : Stays s t) (a b) : Stays s (t.copyHalf a b) :=
  (h.writeHalf a (t.readHalf b)).same rfl rfl rfl
theorem Stays.copyHalves (h : Stays s t) (a b n) : Stays s (t.copyHalves a b n) := h.updated (State.copyHalves_wf _ _ _)
theorem Stays.loadReg (h : Stays s t) (r : Reg) (a : Word) : Stays s (t.loadReg r a) := h.same rfl rfl rfl
theorem Stays.takeInterrupt (h : Stays s t) (c a b) : Stays s (t.takeInterrupt c a b) :=
  ((((h.writeHalf _ _).writeHalf _ _).writeHalf _ _).loadReg _ _).loadReg _ _
theorem Stays.synchronousInterrupt (h : Stays s t) (c a b) : Stays s (t.synchronousInterrupt c a b) :=
  (h.takeInterrupt _ _ _).consume _
theorem Stays.programInterrupt (h : Stays s t) (a b) : Stays s (t.programInterrupt a b) := h.synchronousInterrupt _ _ _
theorem Stays.svcInterrupt (h : Stays s t) (a b) : Stays s (t.svcInterrupt a b) := h.synchronousInterrupt _ _ _
theorem Stays.asynchronousInterrupt (h : Stays s t) (a b) : Stays s (t.asynchronousInterrupt a b) :=
  (h.takeInterrupt _ _ _).consume _
theorem Stays.loadMultiple (h : Stays s t) (a b c) : Stays s (t.loadMultiple a b c) := (h.writeRegs _).same rfl rfl rfl
theorem Stays.storeMultiple (h : Stays s t) (a b c) : Stays s (t.storeMultiple a b c) := h.writeHalves _ _
theorem Stays.branchRR (h : Stays s t) (a b c) : Stays s (t.branchRR a b c) :=
  by unfold State.branchRR; split; exacts [h.setReg _ _, h]
theorem Stays.branchTo (h : Stays s t) (a b) : Stays s (t.branchTo a b) :=
  by unfold State.branchTo; split; exacts [h.setReg _ _, h]
theorem Stays.endSearch (h : Stays s t) (b) : Stays s (t.endSearch b) := (((h.setReg _ _).setReg _ _).setReg _ _).setCc _
theorem Stays.answer (h : Stays s t) (a b c) : Stays s (t.answer a b c) := (h.writeHalf _ _).setCc _
theorem Stays.begin (h : Stays s t) (u c k n) : Stays s (t.begin u c k n) :=
  by unfold State.begin; dsimp only; split; exacts [(h.setUnit _ _).send _, h.setUnit _ _]
theorem Stays.perform (h : Stays s t) (u c k) : Stays s (t.perform u c k) := by
  cases k <;> unfold State.perform <;> dsimp only
  · split; exacts [h.same rfl rfl rfl, h]
  · exact h.same rfl rfl rfl
  · exact h.writeHalf _ _
  · split; exacts [((h.clearStatus _ _).send _).setUnit _ _, (h.clearStatus _ _).send _]
  · split; exacts [((h.setTerminal _ _).send _).send _, (h.setTerminal _ _).send _]
  · exact (h.writeHalf _ _).clearStatus _ _
  · exact h.writeHalf _ _
  · exact h.same rfl rfl rfl
  all_goals exact h
theorem Stays.indivisible (h : Stays s t) : Stays s t.indivisible := h.same rfl rfl rfl
theorem Stays.noteMoved (h : Stays s t) (u o k v) : Stays s (t.noteMoved u o k v) := h.setUnit _ _
theorem Stays.storeRest (h : Stays s t) (o k ws) : Stays s (t.storeRest o k ws) := by
  induction ws generalizing t k with
  | nil => exact h
  | cons w ws ih => refine ih ?_ _; split; exacts [h, h.writeHalf _ _]
theorem Stays.transferEarly (h : Stays s t) (u k c) : Stays s (t.transferEarly u k c) := by
  unfold State.transferEarly; split
  · exact h
  · split
    · exact h
    · split
      · exact h.noteMoved ..
      · split
        · exact (h.writeHalf _ _).noteMoved ..
        · split; exacts [(h.writeHalf _ _).noteMoved .., h]
theorem Stays.move (h : Stays s t) (e) : Stays s (t.move e) := by
  unfold State.move; split; exacts [h.transferEarly .., h.writeBytes .., h]
theorem Stays.fire (h : Stays s t) (i) : Stays s (t.fire i) := by
  unfold State.fire
  generalize ((t.earlier[i]?).map Snapshot.next).getD [] = es
  refine Stays.same ?_ rfl rfl rfl
  induction es generalizing t with
  | nil => exact h
  | cons e _ ih => exact ih (h.move e)
theorem Stays.fireFrom (h : Stays s t) (i n) : Stays s (t.fireFrom i n) := by
  induction n generalizing t i with
  | zero => exact h
  | succ _ ih => exact ih (h.fire i) _
theorem Stays.rewound (h : Stays s t) : Stays s t.rewound := by
  unfold State.rewound; split
  · exact h
  · next x l e => exact ⟨fun w => ⟨(h.1 w).2 x (by rw [e]; exact List.mem_cons_self ..), (h.1 w).2⟩, h.2.1, h.2.2⟩
theorem Stays.alterBytes (h : Stays s t) (r v a j n) : Stays s (t.alterBytes r v a j n).1 := by
  induction n generalizing t j with
  | zero => exact h
  | succ _ ih => exact ih ((((h.fire _).fireFrom _ _).setByte _ _).fire _) _
theorem Stays.alterString (h : Stays s t) (r v a n) : Stays s (t.alterString r v a n).1 := by
  have k := (h.rewound.alterBytes r v a 0 n).fireFrom (n * (r + 1)) (t.earlier.length - n * (r + 1))
  exact ⟨fun w => ⟨(k.1 w).1, fun _ hx => absurd hx (List.not_mem_nil)⟩, k.2.1, k.2.2⟩
theorem Stays.transfer (h : Stays s t) (i d c a n) : Stays s (t.transfer i d c a n) :=
  by unfold State.transfer; split; exacts [h.writeBytes _ _, h.sendData _ _]
theorem Stays.recordEnding (h : Stays s t) (d c) : Stays s (t.recordEnding d c) :=
  by unfold State.recordEnding; split; exacts [(h.orByte _ _).orByte _ _, h]
theorem Stays.presentStatus (h : Stays s t) (d c a) : Stays s (t.presentStatus d c a) := by
  have h' := (h.send (.channelStatus d a)).consume 1
  unfold State.presentStatus; dsimp only; split
  exacts [h'.setCc _, (h'.setByte _ _).setCc _, (h'.setByte _ _).setCc _, h'.setCc _]


/-! ## The answers and the shared checks -/

theorem Keeps.next (h : Stays s t) : Keeps s (.next t) := by rintro _ ⟨⟩; exact h
theorem Keeps.fault (f) : Keeps s (.fault f) := by rintro _ ⟨⟩
theorem Keeps.refused (f) : Keeps s (.refused f) := by rintro _ ⟨⟩
theorem Keeps.raiseProgram (h : Stays s t) (a b) : Keeps s (raiseProgram a b t) := .next (h.programInterrupt _ _)
theorem Keeps.ite {p : Prop} [Decidable p] {a b : Result} (h : p → Keeps s a) (k : ¬ p → Keeps s b) :
    Keeps s (if p then a else b) :=
  by split <;> simp_all
theorem Keeps.aligned {k} (ilc a) (h : Keeps s k) : Keeps s (aligned ilc a s k) :=
  .ite (fun _ => .raiseProgram (.refl s) _ _) fun _ => h
theorem Keeps.withHalf {k} (ilc a) (h : ∀ w, Keeps s (k w)) : Keeps s (withHalf ilc a s k) := .aligned _ _ (h _)
theorem Keeps.withHalfAt {k} (i ilc a) (h : ∀ w, Keeps s (k w)) : Keeps s (withHalfAt i ilc a s k) := .aligned _ _ (h _)
theorem Keeps.pairRegister {k} (ilc a) (h : Keeps s k) : Keeps s (pairRegister ilc a s k) :=
  .ite (fun _ => .raiseProgram (.refl s) _ _) fun _ => h
theorem Keeps.whenPrivileged {k} (ilc) (h : Keeps s k) : Keeps s (whenPrivileged ilc s k) :=
  .ite (fun _ => h) fun _ => .raiseProgram (.refl s) _ _
theorem Keeps.overflowProcedure {u} (ilc o c) (h : Stays s t) (k : Stays s u) : Keeps s (overflowProcedure ilc o c t u) :=
  .ite (fun _ => .raiseProgram (h.setCc _) _ _) fun _ => .next k
theorem Keeps.divide (ilc n d store) (h : ∀ q r c u, Stays s u → Stays s (store q r c u)) :
    Keeps s (divide ilc n d s store) :=
  by
  unfold Sys2Proof.Machine.divide
  refine .ite (fun _ => .raiseProgram (.refl s) _ _) fun _ => ?_
  refine .overflowProcedure _ _ _ (.refl s) ?_
  split; exacts [h _ _ _ _ ((Stays.refl s).consume _), h _ _ _ _ (.refl s)]
theorem Keeps.finishShift {w} (ws) (h : Shifted w) : Keeps s (finishShift ws h s) :=
  .next (((Stays.refl s).consume _).writeWithCc _ _)
theorem Keeps.finishLeftAlgebraic {w} (ilc ws) (h : Shifted w) : Keeps s (finishLeftAlgebraic ilc ws h s) :=
  .overflowProcedure _ _ _ ((Stays.refl s).consume _) (((Stays.refl s).consume _).writeWithCc _ _)
theorem Keeps.stackCheckFails (ilc c) : Keeps s (stackCheckFails ilc c s) :=
  .ite (fun _ => .raiseProgram ((Stays.refl s).setCc _) _ _) fun _ => .next ((Stays.refl s).setCc _)
theorem Keeps.pushChecked {k} (ilc a m) (h : ∀ w, Keeps s (k w)) : Keeps s (pushChecked ilc a m s k) :=
  .withHalfAt _ _ _ fun _ => .aligned _ _ (.ite (fun _ => .stackCheckFails _ _) fun _ => h _)
theorem Keeps.popChecked {k} (ilc a m) (h : ∀ w, Keeps s (k w)) : Keeps s (popChecked ilc a m s k) :=
  .withHalfAt _ _ _ fun _ => .aligned _ _ (.ite (fun _ => .stackCheckFails _ _) fun _ => h _)
theorem Keeps.withDevice {k} (ilc a) (h : ∀ w, Keeps s (k w)) : Keeps s (withDevice ilc a s k) :=
  .whenPrivileged _ (.ite (fun _ => .refused _) fun _ => .ite (fun _ => .raiseProgram (.refl s) _ _) fun _ => h _)
theorem Keeps.respond (u p c k) : Keeps s (respond u p c k s) := by
  unfold Sys2Proof.Machine.respond
  refine .ite (fun _ => .next (((Stays.refl s).perform _ _ _).answer _ _ _)) fun _ =>
      .ite (fun _ => .next ((Stays.refl s).answer _ _ _)) fun _ => .ite (fun _ => ?_) fun _ =>
      .next (((Stays.refl s).perform _ _ _).answer _ _ _)
  exact .ite (fun _ => .refused _) fun _ => .next (((Stays.refl s).begin _ _ _ _).answer _ _ _)
theorem Keeps.startIo (ilc a b) : Keeps s (startIo ilc a b s) := by
  unfold Sys2Proof.Machine.startIo
  refine .ite (fun _ => .raiseProgram (.refl s) _ _) fun _ => ?_
  split
  · exact .raiseProgram ((Stays.refl s).writeHalf _ _) _ _
  · refine .ite (fun _ => .raiseProgram ((Stays.refl s).writeHalf _ _) _ _) fun _ => ?_
    split
    · exact .refused _
    · exact .ite (fun _ => .raiseProgram (.refl s) _ _) fun _ => .respond _ _ _ _
theorem Keeps.convertFound (r n f) : Keeps s (convertFound r n f s) := by
  unfold Sys2Proof.Machine.convertFound
  refine .ite (fun _ => .next (((Stays.refl s).consume _).writeWithCc _ _)) fun _ =>
      .ite (fun _ => .next (((Stays.refl s).consume _).writeWithCc _ _)) fun _ =>
      .ite (fun _ => .raiseProgram (((Stays.refl s).setReg _ _).setCc _) _ _) fun _ =>
      .next (((Stays.refl s).consume _).writeWithCc _ _)

/-! ## The aborted instruction -/

/-- The memory an aborted instruction leaves is in canonical form. -/
theorem abortedMemory_wf (after : Memory) (stored : List Word) (n : Nat) (h : after.wf Config.memSize = true) :
    (abortedMemory after stored n).wf Config.memSize = true := by
  unfold abortedMemory
  induction stored generalizing after with
  | nil => exact h
  | cons a _ ih => exact ih _ (Memory.write_wf h (phys_lt a))

end Sys2Proof.Machine
end

