-- ==== Sys2Proof/Laws/PerInstr.lean ====
section
/-! SUPPORT. Laws of every instruction, constructor by constructor: the length of its encoding is that of its format (R73). -/

namespace Sys2Proof.Laws

open Sys2Proof.Machine

/-- The instruction encodes to as many halfwords as the format of its operation code has (R73). -/
def Length.Statement (i : Instr) : Prop := (encode i).length = (Format.ofOp (opOf ((encode i).headD 0))).halfwords

/-- It does where the format of the first halfword's operation code has as many. -/
theorem length_of_head44 {i : Instr} (op : Byte) (a b : Reg) (rest : List Word) (h : encode i = head44 op a b :: rest)
    (n : (Format.ofOp op).halfwords = rest.length + 1) : Length.Statement i := by
  rw [Length.Statement, h, List.headD_cons, opOf_head44, n, List.length_cons]

theorem length_of_head8 {i : Instr} (op a : Byte) (rest : List Word) (h : encode i = head8 op a :: rest)
    (n : (Format.ofOp op).halfwords = rest.length + 1) : Length.Statement i := by
  rw [Length.Statement, h, List.headD_cons, opOf_head8, n, List.length_cons]

theorem Length.ret (r1 r2 : Reg) : Length.Statement (.ret r1 r2) :=
  length_of_head44 _ _ _ _ rfl rfl
theorem Length.lpr (r1 r2 : Reg) : Length.Statement (.lpr r1 r2) :=
  length_of_head44 _ _ _ _ rfl rfl
theorem Length.lnr (r1 r2 : Reg) : Length.Statement (.lnr r1 r2) :=
  length_of_head44 _ _ _ _ rfl rfl
theorem Length.lcr (r1 r2 : Reg) : Length.Statement (.lcr r1 r2) :=
  length_of_head44 _ _ _ _ rfl rfl
theorem Length.lxbr (r1 r2 : Reg) : Length.Statement (.lxbr r1 r2) :=
  length_of_head44 _ _ _ _ rfl rfl
theorem Length.stdr (r1 r2 : Reg) : Length.Statement (.stdr r1 r2) :=
  length_of_head44 _ _ _ _ rfl rfl
theorem Length.ldr (r1 r2 : Reg) : Length.Statement (.ldr r1 r2) :=
  length_of_head44 _ _ _ _ rfl rfl
theorem Length.sior (r1 r2 : Reg) : Length.Statement (.sior r1 r2) :=
  length_of_head44 _ _ _ _ rfl rfl
theorem Length.sd (r1 r2 : Reg) : Length.Statement (.sd r1 r2) :=
  length_of_head44 _ _ _ _ rfl rfl
theorem Length.slli (r1 r2 : Reg) : Length.Statement (.slli r1 r2) :=
  length_of_head44 _ _ _ _ rfl rfl
theorem Length.srli (r1 r2 : Reg) : Length.Statement (.srli r1 r2) :=
  length_of_head44 _ _ _ _ rfl rfl
theorem Length.sldli (r1 r2 : Reg) : Length.Statement (.sldli r1 r2) :=
  length_of_head44 _ _ _ _ rfl rfl
theorem Length.srdli (r1 r2 : Reg) : Length.Statement (.srdli r1 r2) :=
  length_of_head44 _ _ _ _ rfl rfl
theorem Length.slai (r1 r2 : Reg) : Length.Statement (.slai r1 r2) :=
  length_of_head44 _ _ _ _ rfl rfl
theorem Length.srai (r1 r2 : Reg) : Length.Statement (.srai r1 r2) :=
  length_of_head44 _ _ _ _ rfl rfl
theorem Length.sldai (r1 r2 : Reg) : Length.Statement (.sldai r1 r2) :=
  length_of_head44 _ _ _ _ rfl rfl
theorem Length.srdai (r1 r2 : Reg) : Length.Statement (.srdai r1 r2) :=
  length_of_head44 _ _ _ _ rfl rfl
theorem Length.iost (r1 r2 : Reg) : Length.Statement (.iost r1 r2) :=
  length_of_head44 _ _ _ _ rfl rfl
theorem Length.excc (r1 r2 : Reg) : Length.Statement (.excc r1 r2) :=
  length_of_head44 _ _ _ _ rfl rfl
theorem Length.lx (r1 r2 : Reg) : Length.Statement (.lx r1 r2) :=
  length_of_head44 _ _ _ _ rfl rfl
theorem Length.ax (r1 r2 : Reg) : Length.Statement (.ax r1 r2) :=
  length_of_head44 _ _ _ _ rfl rfl
theorem Length.sx (r1 r2 : Reg) : Length.Statement (.sx r1 r2) :=
  length_of_head44 _ _ _ _ rfl rfl
theorem Length.bczr (r1 r2 : Reg) : Length.Statement (.bczr r1 r2) :=
  length_of_head44 _ _ _ _ rfl rfl
theorem Length.bcor (r1 r2 : Reg) : Length.Statement (.bcor r1 r2) :=
  length_of_head44 _ _ _ _ rfl rfl
theorem Length.balr (r1 r2 : Reg) : Length.Statement (.balr r1 r2) :=
  length_of_head44 _ _ _ _ rfl rfl
theorem Length.tbpr (r1 r2 : Reg) : Length.Statement (.tbpr r1 r2) :=
  length_of_head44 _ _ _ _ rfl rfl
theorem Length.tbzr (r1 r2 : Reg) : Length.Statement (.tbzr r1 r2) :=
  length_of_head44 _ _ _ _ rfl rfl
theorem Length.tbnmr (r1 r2 : Reg) : Length.Statement (.tbnmr r1 r2) :=
  length_of_head44 _ _ _ _ rfl rfl
theorem Length.tbmr (r1 r2 : Reg) : Length.Statement (.tbmr r1 r2) :=
  length_of_head44 _ _ _ _ rfl rfl
theorem Length.tbnzr (r1 r2 : Reg) : Length.Statement (.tbnzr r1 r2) :=
  length_of_head44 _ _ _ _ rfl rfl
theorem Length.tbnpr (r1 r2 : Reg) : Length.Statement (.tbnpr r1 r2) :=
  length_of_head44 _ _ _ _ rfl rfl
theorem Length.bctr (r1 r2 : Reg) : Length.Statement (.bctr r1 r2) :=
  length_of_head44 _ _ _ _ rfl rfl
theorem Length.cr (r1 r2 : Reg) : Length.Statement (.cr r1 r2) :=
  length_of_head44 _ _ _ _ rfl rfl
theorem Length.svc (i1 : Byte) : Length.Statement (.svc i1) :=
  length_of_head8 _ _ _ rfl rfl
theorem Length.tmr (r1 r2 : Reg) : Length.Statement (.tmr r1 r2) :=
  length_of_head44 _ _ _ _ rfl rfl
theorem Length.lr (r1 r2 : Reg) : Length.Statement (.lr r1 r2) :=
  length_of_head44 _ _ _ _ rfl rfl
theorem Length.ar (r1 r2 : Reg) : Length.Statement (.ar r1 r2) :=
  length_of_head44 _ _ _ _ rfl rfl
theorem Length.sr (r1 r2 : Reg) : Length.Statement (.sr r1 r2) :=
  length_of_head44 _ _ _ _ rfl rfl
theorem Length.mr (r1 r2 : Reg) : Length.Statement (.mr r1 r2) :=
  length_of_head44 _ _ _ _ rfl rfl
theorem Length.dr (r1 r2 : Reg) : Length.Statement (.dr r1 r2) :=
  length_of_head44 _ _ _ _ rfl rfl
theorem Length.swpr (r1 r2 : Reg) : Length.Statement (.swpr r1 r2) :=
  length_of_head44 _ _ _ _ rfl rfl
theorem Length.nr (r1 r2 : Reg) : Length.Statement (.nr r1 r2) :=
  length_of_head44 _ _ _ _ rfl rfl
theorem Length.or (r1 r2 : Reg) : Length.Statement (.or r1 r2) :=
  length_of_head44 _ _ _ _ rfl rfl
theorem Length.xr (r1 r2 : Reg) : Length.Statement (.xr r1 r2) :=
  length_of_head44 _ _ _ _ rfl rfl
theorem Length.alr (r1 r2 : Reg) : Length.Statement (.alr r1 r2) :=
  length_of_head44 _ _ _ _ rfl rfl
theorem Length.slr (r1 r2 : Reg) : Length.Statement (.slr r1 r2) :=
  length_of_head44 _ _ _ _ rfl rfl
theorem Length.clr (r1 r2 : Reg) : Length.Statement (.clr r1 r2) :=
  length_of_head44 _ _ _ _ rfl rfl
theorem Length.deq (r1 x2 b2 : Reg) (d2 : Disp) : Length.Statement (.deq r1 x2 b2 d2) :=
  length_of_head44 _ _ _ _ rfl rfl
theorem Length.lp (r1 x2 b2 : Reg) (d2 : Disp) : Length.Statement (.lp r1 x2 b2 d2) :=
  length_of_head44 _ _ _ _ rfl rfl
theorem Length.ln (r1 x2 b2 : Reg) (d2 : Disp) : Length.Statement (.ln r1 x2 b2 d2) :=
  length_of_head44 _ _ _ _ rfl rfl
theorem Length.lc (r1 x2 b2 : Reg) (d2 : Disp) : Length.Statement (.lc r1 x2 b2 d2) :=
  length_of_head44 _ _ _ _ rfl rfl
theorem Length.lxb (r1 x2 b2 : Reg) (d2 : Disp) : Length.Statement (.lxb r1 x2 b2 d2) :=
  length_of_head44 _ _ _ _ rfl rfl
theorem Length.cvb (r1 x2 b2 : Reg) (d2 : Disp) : Length.Statement (.cvb r1 x2 b2 d2) :=
  length_of_head44 _ _ _ _ rfl rfl
theorem Length.cvd (r1 x2 b2 : Reg) (d2 : Disp) : Length.Statement (.cvd r1 x2 b2 d2) :=
  length_of_head44 _ _ _ _ rfl rfl
theorem Length.std (r1 x2 b2 : Reg) (d2 : Disp) : Length.Statement (.std r1 x2 b2 d2) :=
  length_of_head44 _ _ _ _ rfl rfl
theorem Length.ld (r1 x2 b2 : Reg) (d2 : Disp) : Length.Statement (.ld r1 x2 b2 d2) :=
  length_of_head44 _ _ _ _ rfl rfl
theorem Length.ex (r1 x2 b2 : Reg) (d2 : Disp) : Length.Statement (.ex r1 x2 b2 d2) :=
  length_of_head44 _ _ _ _ rfl rfl
theorem Length.ss (r1 x2 b2 : Reg) (d2 : Disp) : Length.Statement (.ss r1 x2 b2 d2) :=
  length_of_head44 _ _ _ _ rfl rfl
theorem Length.sio (r1 x2 b2 : Reg) (d2 : Disp) : Length.Statement (.sio r1 x2 b2 d2) :=
  length_of_head44 _ _ _ _ rfl rfl
theorem Length.ib (r1 x2 b2 : Reg) (d2 : Disp) : Length.Statement (.ib r1 x2 b2 d2) :=
  length_of_head44 _ _ _ _ rfl rfl
theorem Length.stb (r1 x2 b2 : Reg) (d2 : Disp) : Length.Statement (.stb r1 x2 b2 d2) :=
  length_of_head44 _ _ _ _ rfl rfl
theorem Length.lb (r1 x2 b2 : Reg) (d2 : Disp) : Length.Statement (.lb r1 x2 b2 d2) :=
  length_of_head44 _ _ _ _ rfl rfl
theorem Length.lsb (r1 x2 b2 : Reg) (d2 : Disp) : Length.Statement (.lsb r1 x2 b2 d2) :=
  length_of_head44 _ _ _ _ rfl rfl
theorem Length.sa (r1 x2 b2 : Reg) (d2 : Disp) : Length.Statement (.sa r1 x2 b2 d2) :=
  length_of_head44 _ _ _ _ rfl rfl
theorem Length.la (r1 x2 b2 : Reg) (d2 : Disp) : Length.Statement (.la r1 x2 b2 d2) :=
  length_of_head44 _ _ _ _ rfl rfl
theorem Length.lz (r1 x2 b2 : Reg) (d2 : Disp) : Length.Statement (.lz r1 x2 b2 d2) :=
  length_of_head44 _ _ _ _ rfl rfl
theorem Length.clb (r1 x2 b2 : Reg) (d2 : Disp) : Length.Statement (.clb r1 x2 b2 d2) :=
  length_of_head44 _ _ _ _ rfl rfl
theorem Length.trb (r1 x2 b2 : Reg) (d2 : Disp) : Length.Statement (.trb r1 x2 b2 d2) :=
  length_of_head44 _ _ _ _ rfl rfl
theorem Length.c (r1 x2 b2 : Reg) (d2 : Disp) : Length.Statement (.c r1 x2 b2 d2) :=
  length_of_head44 _ _ _ _ rfl rfl
theorem Length.st (r1 x2 b2 : Reg) (d2 : Disp) : Length.Statement (.st r1 x2 b2 d2) :=
  length_of_head44 _ _ _ _ rfl rfl
theorem Length.l (r1 x2 b2 : Reg) (d2 : Disp) : Length.Statement (.l r1 x2 b2 d2) :=
  length_of_head44 _ _ _ _ rfl rfl
theorem Length.a (r1 x2 b2 : Reg) (d2 : Disp) : Length.Statement (.a r1 x2 b2 d2) :=
  length_of_head44 _ _ _ _ rfl rfl
theorem Length.s (r1 x2 b2 : Reg) (d2 : Disp) : Length.Statement (.s r1 x2 b2 d2) :=
  length_of_head44 _ _ _ _ rfl rfl
theorem Length.m (r1 x2 b2 : Reg) (d2 : Disp) : Length.Statement (.m r1 x2 b2 d2) :=
  length_of_head44 _ _ _ _ rfl rfl
theorem Length.d (r1 x2 b2 : Reg) (d2 : Disp) : Length.Statement (.d r1 x2 b2 d2) :=
  length_of_head44 _ _ _ _ rfl rfl
theorem Length.swp (r1 x2 b2 : Reg) (d2 : Disp) : Length.Statement (.swp r1 x2 b2 d2) :=
  length_of_head44 _ _ _ _ rfl rfl
theorem Length.n (r1 x2 b2 : Reg) (d2 : Disp) : Length.Statement (.n r1 x2 b2 d2) :=
  length_of_head44 _ _ _ _ rfl rfl
theorem Length.o (r1 x2 b2 : Reg) (d2 : Disp) : Length.Statement (.o r1 x2 b2 d2) :=
  length_of_head44 _ _ _ _ rfl rfl
theorem Length.x (r1 x2 b2 : Reg) (d2 : Disp) : Length.Statement (.x r1 x2 b2 d2) :=
  length_of_head44 _ _ _ _ rfl rfl
theorem Length.al (r1 x2 b2 : Reg) (d2 : Disp) : Length.Statement (.al r1 x2 b2 d2) :=
  length_of_head44 _ _ _ _ rfl rfl
theorem Length.sl (r1 x2 b2 : Reg) (d2 : Disp) : Length.Statement (.sl r1 x2 b2 d2) :=
  length_of_head44 _ _ _ _ rfl rfl
theorem Length.cl (r1 x2 b2 : Reg) (d2 : Disp) : Length.Statement (.cl r1 x2 b2 d2) :=
  length_of_head44 _ _ _ _ rfl rfl
theorem Length.chi (i2 : Byte) (b1 : Reg) (d1 : Disp) : Length.Statement (.chi i2 b1 d1) :=
  length_of_head8 _ _ _ rfl rfl
theorem Length.svcs (i2 : Byte) (b1 : Reg) (d1 : Disp) : Length.Statement (.svcs i2 b1 d1) :=
  length_of_head8 _ _ _ rfl rfl
theorem Length.tmbi (i2 : Byte) (b1 : Reg) (d1 : Disp) : Length.Statement (.tmbi i2 b1 d1) :=
  length_of_head8 _ _ _ rfl rfl
theorem Length.mvhi (i2 : Byte) (b1 : Reg) (d1 : Disp) : Length.Statement (.mvhi i2 b1 d1) :=
  length_of_head8 _ _ _ rfl rfl
theorem Length.ahi (i2 : Byte) (b1 : Reg) (d1 : Disp) : Length.Statement (.ahi i2 b1 d1) :=
  length_of_head8 _ _ _ rfl rfl
theorem Length.shi (i2 : Byte) (b1 : Reg) (d1 : Disp) : Length.Statement (.shi i2 b1 d1) :=
  length_of_head8 _ _ _ rfl rfl
theorem Length.tsl (i2 : Byte) (b1 : Reg) (d1 : Disp) : Length.Statement (.tsl i2 b1 d1) :=
  length_of_head8 _ _ _ rfl rfl
theorem Length.nbi (i2 : Byte) (b1 : Reg) (d1 : Disp) : Length.Statement (.nbi i2 b1 d1) :=
  length_of_head8 _ _ _ rfl rfl
theorem Length.obi (i2 : Byte) (b1 : Reg) (d1 : Disp) : Length.Statement (.obi i2 b1 d1) :=
  length_of_head8 _ _ _ rfl rfl
theorem Length.xbi (i2 : Byte) (b1 : Reg) (d1 : Disp) : Length.Statement (.xbi i2 b1 d1) :=
  length_of_head8 _ _ _ rfl rfl
theorem Length.mvbi (i2 : Byte) (b1 : Reg) (d1 : Disp) : Length.Statement (.mvbi i2 b1 d1) :=
  length_of_head8 _ _ _ rfl rfl
theorem Length.clbi (i2 : Byte) (b1 : Reg) (d1 : Disp) : Length.Statement (.clbi i2 b1 d1) :=
  length_of_head8 _ _ _ rfl rfl
theorem Length.stmd (r1 r3 b2 : Reg) (d2 : Disp) : Length.Statement (.stmd r1 r3 b2 d2) :=
  length_of_head44 _ _ _ _ rfl rfl
theorem Length.lmd (r1 r3 b2 : Reg) (d2 : Disp) : Length.Statement (.lmd r1 r3 b2 d2) :=
  length_of_head44 _ _ _ _ rfl rfl
theorem Length.stm (r1 r3 b2 : Reg) (d2 : Disp) : Length.Statement (.stm r1 r3 b2 d2) :=
  length_of_head44 _ _ _ _ rfl rfl
theorem Length.lm (r1 r3 b2 : Reg) (d2 : Disp) : Length.Statement (.lm r1 r3 b2 d2) :=
  length_of_head44 _ _ _ _ rfl rfl
theorem Length.pshm (r1 r3 b2 : Reg) (d2 : Disp) : Length.Statement (.pshm r1 r3 b2 d2) :=
  length_of_head44 _ _ _ _ rfl rfl
theorem Length.popm (r1 r3 b2 : Reg) (d2 : Disp) : Length.Statement (.popm r1 r3 b2 d2) :=
  length_of_head44 _ _ _ _ rfl rfl
theorem Length.sll (r1 r3 b2 : Reg) (d2 : Disp) : Length.Statement (.sll r1 r3 b2 d2) :=
  length_of_head44 _ _ _ _ rfl rfl
theorem Length.srl (r1 r3 b2 : Reg) (d2 : Disp) : Length.Statement (.srl r1 r3 b2 d2) :=
  length_of_head44 _ _ _ _ rfl rfl
theorem Length.sldl (r1 r3 b2 : Reg) (d2 : Disp) : Length.Statement (.sldl r1 r3 b2 d2) :=
  length_of_head44 _ _ _ _ rfl rfl
theorem Length.srdl (r1 r3 b2 : Reg) (d2 : Disp) : Length.Statement (.srdl r1 r3 b2 d2) :=
  length_of_head44 _ _ _ _ rfl rfl
theorem Length.sla (r1 r3 b2 : Reg) (d2 : Disp) : Length.Statement (.sla r1 r3 b2 d2) :=
  length_of_head44 _ _ _ _ rfl rfl
theorem Length.sra (r1 r3 b2 : Reg) (d2 : Disp) : Length.Statement (.sra r1 r3 b2 d2) :=
  length_of_head44 _ _ _ _ rfl rfl
theorem Length.slda (r1 r3 b2 : Reg) (d2 : Disp) : Length.Statement (.slda r1 r3 b2 d2) :=
  length_of_head44 _ _ _ _ rfl rfl
theorem Length.srda (r1 r3 b2 : Reg) (d2 : Disp) : Length.Statement (.srda r1 r3 b2 d2) :=
  length_of_head44 _ _ _ _ rfl rfl
theorem Length.bxh (r1 x2 : Reg) (d2 : Word) : Length.Statement (.bxh r1 x2 d2) :=
  length_of_head44 _ _ _ _ rfl rfl
theorem Length.bxle (r1 x2 : Reg) (d2 : Word) : Length.Statement (.bxle r1 x2 d2) :=
  length_of_head44 _ _ _ _ rfl rfl
theorem Length.bcz (r1 x2 : Reg) (d2 : Word) : Length.Statement (.bcz r1 x2 d2) :=
  length_of_head44 _ _ _ _ rfl rfl
theorem Length.bco (r1 x2 : Reg) (d2 : Word) : Length.Statement (.bco r1 x2 d2) :=
  length_of_head44 _ _ _ _ rfl rfl
theorem Length.bal (r1 x2 : Reg) (d2 : Word) : Length.Statement (.bal r1 x2 d2) :=
  length_of_head44 _ _ _ _ rfl rfl
theorem Length.tbp (r1 x2 : Reg) (d2 : Word) : Length.Statement (.tbp r1 x2 d2) :=
  length_of_head44 _ _ _ _ rfl rfl
theorem Length.tbz (r1 x2 : Reg) (d2 : Word) : Length.Statement (.tbz r1 x2 d2) :=
  length_of_head44 _ _ _ _ rfl rfl
theorem Length.tbnm (r1 x2 : Reg) (d2 : Word) : Length.Statement (.tbnm r1 x2 d2) :=
  length_of_head44 _ _ _ _ rfl rfl
theorem Length.tbm (r1 x2 : Reg) (d2 : Word) : Length.Statement (.tbm r1 x2 d2) :=
  length_of_head44 _ _ _ _ rfl rfl
theorem Length.tbnz (r1 x2 : Reg) (d2 : Word) : Length.Statement (.tbnz r1 x2 d2) :=
  length_of_head44 _ _ _ _ rfl rfl
theorem Length.tbnp (r1 x2 : Reg) (d2 : Word) : Length.Statement (.tbnp r1 x2 d2) :=
  length_of_head44 _ _ _ _ rfl rfl
theorem Length.bct (r1 x2 : Reg) (d2 : Word) : Length.Statement (.bct r1 x2 d2) :=
  length_of_head44 _ _ _ _ rfl rfl
theorem Length.ci (r1s r1f : Reg) (i2 : Word) : Length.Statement (.ci r1s r1f i2) :=
  length_of_head44 _ _ _ _ rfl rfl
theorem Length.stdi (r1s r1f : Reg) (i2 : Word) : Length.Statement (.stdi r1s r1f i2) :=
  length_of_head44 _ _ _ _ rfl rfl
theorem Length.tmi (r1s r1f : Reg) (i2 : Word) : Length.Statement (.tmi r1s r1f i2) :=
  length_of_head44 _ _ _ _ rfl rfl
theorem Length.li (r1s r1f : Reg) (i2 : Word) : Length.Statement (.li r1s r1f i2) :=
  length_of_head44 _ _ _ _ rfl rfl
theorem Length.ai (r1s r1f : Reg) (i2 : Word) : Length.Statement (.ai r1s r1f i2) :=
  length_of_head44 _ _ _ _ rfl rfl
theorem Length.si (r1s r1f : Reg) (i2 : Word) : Length.Statement (.si r1s r1f i2) :=
  length_of_head44 _ _ _ _ rfl rfl
theorem Length.mi (r1s r1f : Reg) (i2 : Word) : Length.Statement (.mi r1s r1f i2) :=
  length_of_head44 _ _ _ _ rfl rfl
theorem Length.di (r1s r1f : Reg) (i2 : Word) : Length.Statement (.di r1s r1f i2) :=
  length_of_head44 _ _ _ _ rfl rfl
theorem Length.ldi (r1s r1f : Reg) (i2 : Word) : Length.Statement (.ldi r1s r1f i2) :=
  length_of_head44 _ _ _ _ rfl rfl
theorem Length.ni (r1s r1f : Reg) (i2 : Word) : Length.Statement (.ni r1s r1f i2) :=
  length_of_head44 _ _ _ _ rfl rfl
theorem Length.oi (r1s r1f : Reg) (i2 : Word) : Length.Statement (.oi r1s r1f i2) :=
  length_of_head44 _ _ _ _ rfl rfl
theorem Length.xi (r1s r1f : Reg) (i2 : Word) : Length.Statement (.xi r1s r1f i2) :=
  length_of_head44 _ _ _ _ rfl rfl
theorem Length.ali (r1s r1f : Reg) (i2 : Word) : Length.Statement (.ali r1s r1f i2) :=
  length_of_head44 _ _ _ _ rfl rfl
theorem Length.sli (r1s r1f : Reg) (i2 : Word) : Length.Statement (.sli r1s r1f i2) :=
  length_of_head44 _ _ _ _ rfl rfl
theorem Length.ent (r1s r1f : Reg) (i2 : Word) : Length.Statement (.ent r1s r1f i2) :=
  length_of_head44 _ _ _ _ rfl rfl
theorem Length.cli (r1s r1f : Reg) (i2 : Word) : Length.Statement (.cli r1s r1f i2) :=
  length_of_head44 _ _ _ _ rfl rfl
theorem Length.sle (len : Byte) (b1 : Reg) (d1 : Disp) (b2 : Reg) (d2 : Disp) : Length.Statement (.sle len b1 d1 b2 d2) :=
  length_of_head8 _ _ _ rfl rfl
theorem Length.sre (len : Byte) (b1 : Reg) (d1 : Disp) (b2 : Reg) (d2 : Disp) : Length.Statement (.sre len b1 d1 b2 d2) :=
  length_of_head8 _ _ _ rfl rfl
theorem Length.slne (len : Byte) (b1 : Reg) (d1 : Disp) (b2 : Reg) (d2 : Disp) : Length.Statement (.slne len b1 d1 b2 d2) :=
  length_of_head8 _ _ _ rfl rfl
theorem Length.srne (len : Byte) (b1 : Reg) (d1 : Disp) (b2 : Reg) (d2 : Disp) : Length.Statement (.srne len b1 d1 b2 d2) :=
  length_of_head8 _ _ _ rfl rfl
theorem Length.mvc (len : Byte) (b1 : Reg) (d1 : Disp) (b2 : Reg) (d2 : Disp) : Length.Statement (.mvc len b1 d1 b2 d2) :=
  length_of_head8 _ _ _ rfl rfl
theorem Length.mvcn (len : Byte) (b1 : Reg) (d1 : Disp) (b2 : Reg) (d2 : Disp) : Length.Statement (.mvcn len b1 d1 b2 d2) :=
  length_of_head8 _ _ _ rfl rfl
theorem Length.pshh (len : Byte) (b1 : Reg) (d1 : Disp) (b2 : Reg) (d2 : Disp) : Length.Statement (.pshh len b1 d1 b2 d2) :=
  length_of_head8 _ _ _ rfl rfl
theorem Length.poph (len : Byte) (b1 : Reg) (d1 : Disp) (b2 : Reg) (d2 : Disp) : Length.Statement (.poph len b1 d1 b2 d2) :=
  length_of_head8 _ _ _ rfl rfl
theorem Length.fill (len : Byte) (b1 : Reg) (d1 : Disp) (b2 : Reg) (d2 : Disp) : Length.Statement (.fill len b1 d1 b2 d2) :=
  length_of_head8 _ _ _ rfl rfl
theorem Length.nc (len : Byte) (b1 : Reg) (d1 : Disp) (b2 : Reg) (d2 : Disp) : Length.Statement (.nc len b1 d1 b2 d2) :=
  length_of_head8 _ _ _ rfl rfl
theorem Length.oc (len : Byte) (b1 : Reg) (d1 : Disp) (b2 : Reg) (d2 : Disp) : Length.Statement (.oc len b1 d1 b2 d2) :=
  length_of_head8 _ _ _ rfl rfl
theorem Length.xc (len : Byte) (b1 : Reg) (d1 : Disp) (b2 : Reg) (d2 : Disp) : Length.Statement (.xc len b1 d1 b2 d2) :=
  length_of_head8 _ _ _ rfl rfl
theorem Length.stl (len : Byte) (b1 : Reg) (d1 : Disp) (b2 : Reg) (d2 : Disp) : Length.Statement (.stl len b1 d1 b2 d2) :=
  length_of_head8 _ _ _ rfl rfl
theorem Length.str (len : Byte) (b1 : Reg) (d1 : Disp) (b2 : Reg) (d2 : Disp) : Length.Statement (.str len b1 d1 b2 d2) :=
  length_of_head8 _ _ _ rfl rfl
theorem Length.tr (len : Byte) (b1 : Reg) (d1 : Disp) (b2 : Reg) (d2 : Disp) : Length.Statement (.tr len b1 d1 b2 d2) :=
  length_of_head8 _ _ _ rfl rfl
theorem Length.clc (len : Byte) (b1 : Reg) (d1 : Disp) (b2 : Reg) (d2 : Disp) : Length.Statement (.clc len b1 d1 b2 d2) :=
  length_of_head8 _ _ _ rfl rfl
theorem Length.slel (u rl b1 : Reg) (d1 : Disp) (b2 : Reg) (d2 : Disp) : Length.Statement (.slel u rl b1 d1 b2 d2) :=
  length_of_head44 _ _ _ _ rfl rfl
theorem Length.srel (u rl b1 : Reg) (d1 : Disp) (b2 : Reg) (d2 : Disp) : Length.Statement (.srel u rl b1 d1 b2 d2) :=
  length_of_head44 _ _ _ _ rfl rfl
theorem Length.slnel (u rl b1 : Reg) (d1 : Disp) (b2 : Reg) (d2 : Disp) : Length.Statement (.slnel u rl b1 d1 b2 d2) :=
  length_of_head44 _ _ _ _ rfl rfl
theorem Length.srnel (u rl b1 : Reg) (d1 : Disp) (b2 : Reg) (d2 : Disp) : Length.Statement (.srnel u rl b1 d1 b2 d2) :=
  length_of_head44 _ _ _ _ rfl rfl
theorem Length.mvcl (u rl b1 : Reg) (d1 : Disp) (b2 : Reg) (d2 : Disp) : Length.Statement (.mvcl u rl b1 d1 b2 d2) :=
  length_of_head44 _ _ _ _ rfl rfl
theorem Length.mvcnl (u rl b1 : Reg) (d1 : Disp) (b2 : Reg) (d2 : Disp) : Length.Statement (.mvcnl u rl b1 d1 b2 d2) :=
  length_of_head44 _ _ _ _ rfl rfl
theorem Length.pshhl (u rl b1 : Reg) (d1 : Disp) (b2 : Reg) (d2 : Disp) : Length.Statement (.pshhl u rl b1 d1 b2 d2) :=
  length_of_head44 _ _ _ _ rfl rfl
theorem Length.pophl (u rl b1 : Reg) (d1 : Disp) (b2 : Reg) (d2 : Disp) : Length.Statement (.pophl u rl b1 d1 b2 d2) :=
  length_of_head44 _ _ _ _ rfl rfl
theorem Length.filll (u rl b1 : Reg) (d1 : Disp) (b2 : Reg) (d2 : Disp) : Length.Statement (.filll u rl b1 d1 b2 d2) :=
  length_of_head44 _ _ _ _ rfl rfl
theorem Length.ncl (u rl b1 : Reg) (d1 : Disp) (b2 : Reg) (d2 : Disp) : Length.Statement (.ncl u rl b1 d1 b2 d2) :=
  length_of_head44 _ _ _ _ rfl rfl
theorem Length.ocl (u rl b1 : Reg) (d1 : Disp) (b2 : Reg) (d2 : Disp) : Length.Statement (.ocl u rl b1 d1 b2 d2) :=
  length_of_head44 _ _ _ _ rfl rfl
theorem Length.xcl (u rl b1 : Reg) (d1 : Disp) (b2 : Reg) (d2 : Disp) : Length.Statement (.xcl u rl b1 d1 b2 d2) :=
  length_of_head44 _ _ _ _ rfl rfl
theorem Length.stll (u rl b1 : Reg) (d1 : Disp) (b2 : Reg) (d2 : Disp) : Length.Statement (.stll u rl b1 d1 b2 d2) :=
  length_of_head44 _ _ _ _ rfl rfl
theorem Length.strl (u rl b1 : Reg) (d1 : Disp) (b2 : Reg) (d2 : Disp) : Length.Statement (.strl u rl b1 d1 b2 d2) :=
  length_of_head44 _ _ _ _ rfl rfl
theorem Length.trl (u rl b1 : Reg) (d1 : Disp) (b2 : Reg) (d2 : Disp) : Length.Statement (.trl u rl b1 d1 b2 d2) :=
  length_of_head44 _ _ _ _ rfl rfl
theorem Length.clcl (u rl b1 : Reg) (d1 : Disp) (b2 : Reg) (d2 : Disp) : Length.Statement (.clcl u rl b1 d1 b2 d2) :=
  length_of_head44 _ _ _ _ rfl rfl
theorem Length.ch (i3 : Byte) (b1 : Reg) (d1 : Disp) (b2 : Reg) (d2 : Disp) : Length.Statement (.ch i3 b1 d1 b2 d2) :=
  length_of_head8 _ _ _ rfl rfl
theorem Length.svcd (i3 : Byte) (b1 : Reg) (d1 : Disp) (b2 : Reg) (d2 : Disp) : Length.Statement (.svcd i3 b1 d1 b2 d2) :=
  length_of_head8 _ _ _ rfl rfl
theorem Length.mva (i3 : Byte) (b1 : Reg) (d1 : Disp) (b2 : Reg) (d2 : Disp) : Length.Statement (.mva i3 b1 d1 b2 d2) :=
  length_of_head8 _ _ _ rfl rfl
theorem Length.mvh (i3 : Byte) (b1 : Reg) (d1 : Disp) (b2 : Reg) (d2 : Disp) : Length.Statement (.mvh i3 b1 d1 b2 d2) :=
  length_of_head8 _ _ _ rfl rfl
theorem Length.ah (i3 : Byte) (b1 : Reg) (d1 : Disp) (b2 : Reg) (d2 : Disp) : Length.Statement (.ah i3 b1 d1 b2 d2) :=
  length_of_head8 _ _ _ rfl rfl
theorem Length.sh (i3 : Byte) (b1 : Reg) (d1 : Disp) (b2 : Reg) (d2 : Disp) : Length.Statement (.sh i3 b1 d1 b2 d2) :=
  length_of_head8 _ _ _ rfl rfl
theorem Length.mh (i3 : Byte) (b1 : Reg) (d1 : Disp) (b2 : Reg) (d2 : Disp) : Length.Statement (.mh i3 b1 d1 b2 d2) :=
  length_of_head8 _ _ _ rfl rfl
theorem Length.dh (i3 : Byte) (b1 : Reg) (d1 : Disp) (b2 : Reg) (d2 : Disp) : Length.Statement (.dh i3 b1 d1 b2 d2) :=
  length_of_head8 _ _ _ rfl rfl
theorem Length.enq (i3 : Byte) (b1 : Reg) (d1 : Disp) (b2 : Reg) (d2 : Disp) : Length.Statement (.enq i3 b1 d1 b2 d2) :=
  length_of_head8 _ _ _ rfl rfl
theorem Length.srch (i3 : Byte) (b1 : Reg) (d1 : Disp) (b2 : Reg) (d2 : Disp) : Length.Statement (.srch i3 b1 d1 b2 d2) :=
  length_of_head8 _ _ _ rfl rfl
theorem Length.clh (i3 : Byte) (b1 : Reg) (d1 : Disp) (b2 : Reg) (d2 : Disp) : Length.Statement (.clh i3 b1 d1 b2 d2) :=
  length_of_head8 _ _ _ rfl rfl

end Sys2Proof.Laws
end

