-- ==== Sys2Proof/Laws/Scans.lean ====
section
/-! SUPPORT. What the loops find: string compares, scans, the digits of CVB, searches. -/

namespace Sys2Proof.Machine

/-- The first unequal pair of two strings (R225): none where all are equal, else the first. -/
theorem firstUnequal_eq (s : State) (hu : Undisturbed s) (i : Nat) (a1 a2 : Word) (n : Nat) :
    ((∀ k, k < n → s.byteAt (a1 + BitVec.ofNat 16 k) = s.byteAt (a2 + BitVec.ofNat 16 k)) →
      firstUnequal s i a1 a2 n = none) ∧
    (∀ k, k < n → (∀ j, j < k → s.byteAt (a1 + BitVec.ofNat 16 j) = s.byteAt (a2 + BitVec.ofNat 16 j)) →
      s.byteAt (a1 + BitVec.ofNat 16 k) ≠ s.byteAt (a2 + BitVec.ofNat 16 k) →
      firstUnequal s i a1 a2 n = some (a1 + BitVec.ofNat 16 k, s.byteAt (a1 + BitVec.ofNat 16 k),
          s.byteAt (a2 + BitVec.ofNat 16 k))) := by
  have sh : ∀ (a : Word) (k : Nat), a + BitVec.ofNat 16 (k + 1) = a + 1 + BitVec.ofNat 16 k := fun a k => by
    rw [BitVec.ofNat_add]; ac_rfl
  induction n generalizing i a1 a2 with
  | zero => exact ⟨fun _ => rfl, fun k hk => by omega⟩
  | succ n ih =>
    simp only [firstUnequal, hu.seenAt]
    constructor
    · intro h
      have h0 := h 0 (by omega)
      simp only [BitVec.ofNat_eq_ofNat, BitVec.add_zero] at h0
      rw [if_pos h0]
      exact (ih _ _ _).1 fun k hk => by rw [← sh, ← sh]; exact h (k + 1) (by omega)
    · intro k hk hj hne
      cases k with
      | zero =>
        simp only [BitVec.ofNat_eq_ofNat, BitVec.add_zero] at hne ⊢
        rw [if_neg hne]
      | succ k =>
        have h0 := hj 0 (by omega)
        simp only [BitVec.ofNat_eq_ofNat, BitVec.add_zero] at h0
        rw [if_pos h0, sh, sh]
        exact (ih _ _ _).2 k (by omega) (fun j hjk => by rw [← sh, ← sh]; exact hj (j + 1) (by omega)) (by rwa [← sh, ← sh])

/-- A scan finds the first position whose byte hits (R290, R296). -/
theorem firstHit_eq (s : State) (hu : Undisturbed s) (hit : State → Byte → Bool) (step : Word) (pos : Nat → Word) (i : Nat)
    (a : Word) (n : Nat)
    (hp : ∀ k, pos k = a + BitVec.ofNat 16 k * step) :
    ((∀ k, k < n → hit s (s.byteAt (pos k)) = false) → firstHit s hit step i a n = none) ∧
    (∀ k, k < n → (∀ j, j < k → hit s (s.byteAt (pos j)) = false) → hit s (s.byteAt (pos k)) = true →
        firstHit s hit step i a n = some (pos k, i + 2 * k)) := by
  induction n generalizing i a pos with
  | zero => exact ⟨fun _ => rfl, fun k h => by omega⟩
  | succ n ih =>
    have p0 : pos 0 = a := by rw [hp]; simp
    have sh : ∀ k, pos (k + 1) = a + step + BitVec.ofNat 16 k * step := fun k => by
      rw [hp, BitVec.ofNat_add, BitVec.add_mul, show BitVec.ofNat 16 1 * step = step by simp]; ac_rfl
    obtain ⟨i1, i2⟩ := ih (fun k => pos (k + 1)) (i + 2) (a + step) sh
    simp only [firstHit, hu.seenAt]
    constructor
    · intro h
      have h0 := h 0 (by omega); rw [p0] at h0
      rw [h0, if_neg (by simp)]
      exact i1 fun k hk => h (k + 1) (by omega)
    · intro k hk hj hh
      cases k with
      | zero => rw [p0] at hh ⊢; rw [if_pos hh]; rfl
      | succ k =>
        have h0 := hj 0 (by omega); rw [p0] at h0
        rw [h0, if_neg (by simp), show i + 2 * (k + 1) = i + 2 + 2 * k by omega]
        exact i2 k (by omega) (fun j hjk => hj (j + 1) (by omega)) hh

/-- The positions of scans to the right and to the left. -/
theorem rightward_pos (a : Word) (k : Nat) : a + BitVec.ofNat 16 k = a + BitVec.ofNat 16 k * rightward := by simp [rightward]

theorem leftward_pos (a : Word) (k : Nat) : a - BitVec.ofNat 16 k = a + BitVec.ofNat 16 k * leftward := by
  rw [BitVec.sub_eq_add_neg, leftward, BitVec.mul_neg, show (1 : Word) = 1#16 from rfl, BitVec.mul_one]

/-- Blanks skipped (R174). -/
theorem skipBlanks_eq (s : State) (hu : Undisturbed s) (i n fuel : Nat) (p : Word) (hf : n < fuel) (hb : ∀ k, k < n →
    s.byteAt (p + BitVec.ofNat 16 k) = 0x40)
    (hs : s.byteAt (p + BitVec.ofNat 16 n) ≠ 0x40) : skipBlanks s i p fuel = some (p + BitVec.ofNat 16 n, i + n) := by
  induction n generalizing i p fuel with
  | zero =>
    obtain ⟨fuel, rfl⟩ : ∃ f, fuel = f + 1 := ⟨fuel - 1, by omega⟩
    simp only [BitVec.ofNat_eq_ofNat, BitVec.add_zero] at hs ⊢
    rw [skipBlanks, hu.seenAt, if_neg (show s.byteAt p ≠ Config.chBlank from hs)]; rfl
  | succ n ih =>
    obtain ⟨fuel, rfl⟩ : ∃ f, fuel = f + 1 := ⟨fuel - 1, by omega⟩
    have h0 := hb 0 (by omega)
    simp only [BitVec.ofNat_eq_ofNat, BitVec.add_zero] at h0
    have sh (k : Nat) : p + BitVec.ofNat 16 (k + 1) = p + 1 + BitVec.ofNat 16 k := by rw [BitVec.ofNat_add]; ac_rfl
    rw [skipBlanks, hu.seenAt, if_pos (show s.byteAt p = Config.chBlank from h0), sh,
      show i + (n + 1) = i + 1 + n by omega]
    exact ih _ _ _ (by omega) (fun k hk => by rw [← sh]; exact hb (k + 1) (by omega)) (by rwa [← sh])

/-- Digits scanned (R174). -/
theorem scanDigits_eq (s : State) (hu : Undisturbed s) (i : Nat) (ds : List Nat) (fuel : Nat) (p : Word) (v c : Nat) (hf : ds.length < fuel)
    (hb : ∀ k, (h : k < ds.length) → ds[k] < 10 ∧
        s.byteAt (p + BitVec.ofNat 16 k) = BitVec.ofNat 8 (0xF0 + ds[k]))
    (hs : (s.byteAt (p + BitVec.ofNat 16 ds.length)).toNat < 0xF0 ∨ 0xFA ≤ (s.byteAt (p + BitVec.ofNat 16 ds.length)).toNat) :
    scanDigits s i p v c fuel =
      some ⟨p + BitVec.ofNat 16 ds.length, ds.foldl (fun n d => n * 10 + d) v, c + ds.length⟩ := by
  induction ds generalizing i p fuel v c with
  | nil =>
    obtain ⟨fuel, rfl⟩ : ∃ f, fuel = f + 1 := ⟨fuel - 1, by simp at hf; omega⟩
    simp only [List.length_nil, BitVec.ofNat_eq_ofNat, BitVec.add_zero] at hs ⊢
    have : isDigit (s.byteAt p) = false := by
      rw [isDigit, decide_eq_false_iff_not]
      have : Config.chZero.toNat = 0xF0 := rfl
      omega
    rw [scanDigits, hu.seenAt, this]; rfl
  | cons d ds ih =>
    obtain ⟨fuel, rfl⟩ : ∃ f, fuel = f + 1 := ⟨fuel - 1, by simp at hf; omega⟩
    obtain ⟨h9, h0⟩ := hb 0 (by simp)
    simp only [BitVec.ofNat_eq_ofNat, BitVec.add_zero, List.getElem_cons_zero] at h0 h9
    have sh (k : Nat) : p + BitVec.ofNat 16 (k + 1) = p + 1 + BitVec.ofNat 16 k := by rw [BitVec.ofNat_add]; ac_rfl
    have hz : Config.chZero.toNat = 0xF0 := rfl
    have hn : (s.byteAt p).toNat = 0xF0 + d := by rw [h0, BitVec.toNat_ofNat]; omega
    have : isDigit (s.byteAt p) = true := by rw [isDigit, decide_eq_true_iff]; omega
    have hv : digitValue (s.byteAt p) = d := by rw [digitValue]; omega
    simp only [List.length_cons] at hs hf
    rw [scanDigits, hu.seenAt, if_pos this, hv, ih (i + 1) fuel (p + 1) _ _ (by omega) (fun k hk => by
      have := hb (k + 1) (by simpa using hk)
      rwa [sh, List.getElem_cons_succ] at this) (by rwa [sh] at hs)]
    simp only [List.length_cons, List.foldl_cons, sh, Nat.add_assoc, Nat.add_comm 1]

/-- Where no unit stores among the reads, a key's match does not depend on when it is read. -/
theorem keyMatches_at (e : Edb) (s : State) (hu : Undisturbed s) (i j : Nat) (k a1 : Word) (n : Nat) :
    keyMatches e s i k a1 n = keyMatches e s j k a1 n := by
  have f (m : Nat) (a b : Word) (i j : Nat) : firstUnequal s i a b m = firstUnequal s j a b m := by
    induction m generalizing i j a b with
    | zero => rfl
    | succ m ih => simp only [firstUnequal, hu.seenAt]; split; exacts [ih _ _ _ _, rfl]
  simp only [keyMatches, testKey, compareKey, hu.seenAt, f _ _ _ i j]

/-- The table search (R326): the first entry that matches, or the end of the count. -/
theorem searchTable_spec (e : Edb) (s : State) (hu : Undisturbed s) (i : Nat) (a1 : Word) (n : Nat) (prev c0 : Word) :
    let cur := fun k : Nat => c0 + BitVec.ofNat 16 k * e.first
    let pv := fun k : Nat => if k = 0 then prev else cur (k - 1)
    let hit := fun (a : Word) (k : Nat) => keyMatches e s 0 (s.reg 4 + a + e.keyDisp) a1 (s.freeCount + 2 * (n - 1 - k))
    (∀ k, k < n → (∀ j, j < k → hit (cur j) j = false) → hit (cur k) k = true →
      searchTable e s i a1 prev c0 n = { reg2 := pv k, reg3 := BitVec.ofNat 16 (n - k), reg5 := cur k, cc := ccFound }) ∧
    ((∀ j, j < n → hit (cur j) j = false) → searchTable e s i a1 prev c0 n = { reg2 := pv n, reg3 := 0, reg5 := cur n, cc :=
        ccCount }) := by
  induction n generalizing i prev c0 with
  | zero => exact ⟨fun k hk => by omega, fun _ => by simp [searchTable]⟩
  | succ n ih =>
    obtain ⟨i1, i2⟩ := ih (i + e.reads) c0 (c0 + e.first)
    have sh (k : Nat) : c0 + BitVec.ofNat 16 (k + 1) * e.first = c0 + e.first + BitVec.ofNat 16 k * e.first := by
      rw [BitVec.ofNat_add, BitVec.add_mul, show BitVec.ofNat 16 1 * e.first = e.first by simp]; ac_rfl
    have z : c0 + BitVec.ofNat 16 0 * e.first = c0 := by simp
    have pvs (k : Nat) : (if k = 0 then c0 else c0 + e.first + BitVec.ofNat 16 (k - 1) * e.first)
        = c0 + BitVec.ofNat 16 k * e.first := by
      cases k with
      | zero => simp
      | succ k => rw [if_neg (by omega), Nat.add_sub_cancel, sh]
    simp only [pvs] at i1 i2
    dsimp only
    constructor
    · intro k hk hj hh
      cases k with
      | zero =>
        rw [z] at hh ⊢
        simp only [Nat.add_sub_cancel, Nat.sub_zero] at hh
        rw [searchTable, keyMatches_at e s hu i 0, if_pos hh]; rfl
      | succ k =>
        have h0 := hj 0 (by omega)
        rw [z] at h0
        simp only [Nat.add_sub_cancel, Nat.sub_zero] at h0
        have ex (j : Nat) : n + 1 - 1 - (j + 1) = n - 1 - j := by omega
        have later (j : Nat) (hjk : j < k) := hj (j + 1) (by omega)
        simp only [sh, ex] at later hh
        rw [searchTable, keyMatches_at e s hu i 0, h0, if_neg (by simp), i1 k (by omega) later hh]
        simp only [sh, Nat.add_one_ne_zero, if_false, Nat.add_sub_cancel, Nat.add_sub_add_right]
    · intro hj
      have h0 := hj 0 (by omega)
      rw [z] at h0
      simp only [Nat.add_sub_cancel, Nat.sub_zero] at h0
      have ex (j : Nat) : n + 1 - 1 - (j + 1) = n - 1 - j := by omega
      rw [searchTable, keyMatches_at e s hu i 0, h0, if_neg (by simp), i2 (fun j hjk => by have := hj (j + 1) (by omega); rwa [sh, ex] at this)]
      simp only [sh, Nat.add_one_ne_zero, if_false, Nat.add_sub_cancel]

/-- The linked-list search (R327): the first entry that matches, a null pointer, the end of the count, or an odd pointer. -/
theorem searchList_spec (e : Edb) (s : State) (hu : Undisturbed s) (i : Nat) (a1 : Word) (n : Nat) (r2 r5 : Word) (p f : Nat → Word)
    (hf : ∀ k, f k = s.readHalf (s.reg 4 + p k)) (hp : ∀ k, p (k + 1) = f k + e.first) :
    let hit := fun (a : Word) (k : Nat) => keyMatches e s 0 (s.reg 4 + a + e.keyDisp) a1 (s.freeCount + 2 * (n - 1 - k))
    let passed := fun k : Nat => odd (s.reg 4 + p k) = false ∧ f k ≠ 0 ∧ hit (f k) k = false
    (∀ k, k < n → (∀ j, j < k → passed j) → odd (s.reg 4 + p k) = false → f k ≠ 0 → hit (f k) k = true →
      searchList e s i a1 r2 r5 (p 0) n = some { reg2 := p k, reg3 := BitVec.ofNat 16 (n - k), reg5 := f k, cc := ccFound }) ∧
    (∀ k, k < n → (∀ j, j < k → passed j) → odd (s.reg 4 + p k) = false → f k = 0 →
      searchList e s i a1 r2 r5 (p 0) n =
        some ⟨if k = 0 then r2 else p (k - 1), BitVec.ofNat 16 (n - k), if k = 0 then r5 else f (k - 1), ccNull⟩) ∧
    ((∀ j, j < n → passed j) → searchList e s i a1 r2 r5 (p 0) n =
        some ⟨if n = 0 then r2 else p (n - 1), 0, if n = 0 then r5 else f (n - 1), ccCount⟩) ∧
    (∀ k, k < n → (∀ j, j < k → passed j) → odd (s.reg 4 + p k) = true → searchList e s i a1 r2 r5 (p 0) n = none) := by
  induction n generalizing i r2 r5 p f with
  | zero => exact ⟨fun k hk => by omega, fun k hk => by omega, fun _ => by simp [searchList], fun k hk => by omega⟩
  | succ n ih =>
    obtain ⟨i1, i2, i3, i4⟩ := ih (i + e.reads) (p 0) (f 0) (fun k => p (k + 1)) (fun k => f (k + 1)) (fun k => hf _) (fun k => hp _)
    dsimp only at i1 i2 i3 i4 ⊢
    have ex (j : Nat) : n + 1 - 1 - (j + 1) = n - 1 - j := by omega
    have one (h : odd (s.reg 4 + p 0) = false ∧ f 0 ≠ 0 ∧
        keyMatches e s 0 (s.reg 4 + f 0 + e.keyDisp) a1 (s.freeCount + 2 * (n + 1 - 1 - 0)) = false) :
        searchList e s i a1 r2 r5 (p 0) (n + 1) = searchList e s (i + e.reads) a1 (p 0) (f 0) (p (0 + 1)) n := by
      obtain ⟨h1, h2, h3⟩ := h
      simp only [Nat.add_sub_cancel, Nat.sub_zero] at h3
      rw [searchList, h1, if_neg (by simp)]
      dsimp only
      rw [hu.seenAt, ← hf, if_neg h2, keyMatches_at e s hu _ 0, h3, if_neg (by simp), hp]
    refine ⟨fun k hk hj h1 h2 h3 => ?_, fun k hk hj h1 h2 => ?_, fun hj => ?_, fun k hk hj h1 => ?_⟩
    · cases k with
      | zero =>
        simp only [Nat.add_sub_cancel, Nat.sub_zero] at h3
        rw [searchList, h1, if_neg (by simp)]
        dsimp only
        rw [hu.seenAt, ← hf, if_neg h2, keyMatches_at e s hu _ 0, if_pos h3]; rfl
      | succ k =>
        have later (j : Nat) (hjk : j < k) := hj (j + 1) (by omega)
        simp only [ex] at later h3
        rw [one (hj 0 (by omega)), i1 k (by omega) later h1 h2 h3, Nat.add_sub_add_right]
    · cases k with
      | zero =>
        rw [searchList, h1, if_neg (by simp)]
        dsimp only
        rw [hu.seenAt, ← hf, if_pos h2]; rfl
      | succ k =>
        rw [one (hj 0 (by omega)), i2 k (by omega) (fun j hjk => by have := hj (j + 1) (by omega); rwa [ex] at this) h1 h2]
        cases k <;> simp [Nat.add_sub_add_right]
    · rw [one (hj 0 (by omega)), i3 (fun j hjk => by have := hj (j + 1) (by omega); rwa [ex] at this)]
      cases n <;> rfl
    · cases k with
      | zero => rw [searchList, if_pos h1]
      | succ k =>
        rw [one (hj 0 (by omega)), i4 k (by omega) (fun j hjk => by have := hj (j + 1) (by omega); rwa [ex] at this) h1]

end Sys2Proof.Machine
end

