-- ==== Sys2Proof/Laws/Step.lean ====
section
/-! SUPPORT. The turns of the CPU, and the events that land inside one. -/

namespace Sys2Proof.Machine

/-- Where an event is due later, a turn drops no event. -/
theorem takeWhile_lands (l : List Due) (h : ∀ d ∈ l.head?, d.lands = false) : l.takeWhile Due.lands = [] := by
  cases l with
  | nil => rfl
  | cons d rest => rw [List.takeWhile_cons, h d rfl]; rfl

theorem Due.lands_of_pos (d : Due) (h : 0 < d.turns) : d.lands = false := by
  rw [Due.lands, beq_eq_false_iff_ne.2 (Nat.ne_of_gt h)]; rfl

/-- A step is a turn of the CPU, with what falls within it, where no event comes before the turn. -/
theorem step_eq_landing (s : State) (h : ∀ d ∈ s.schedule.head?, d.turns = 0 → d.moment ≠ .between) :
    let ds := s.schedule.takeWhile Due.lands
    step s = landing ds (cpuTurn (s.turnTaken.overtake ds)) := by
  intro ds
  unfold step advance
  split
  · rename_i e rest hs
    exact absurd rfl (h ⟨0, e, .between⟩ (by rw [hs]; rfl) rfl)
  · rfl

/-- A turn's answer where no event falls within the turn. -/
@[simp] theorem landing_nil_next (t : State) : landing [] (.next t) = .next t.settled := rfl
@[simp] theorem landing_fault (ds : List Due) (f : Fault) : landing ds (.fault f) = .fault f := rfl
@[simp] theorem landing_refused (ds : List Due) (r : Refusal) : landing ds (.refused r) = .refused r := rfl

/-- Where no event is due a step is a turn of the CPU. -/
theorem step_of_turn (s : State) (h : ∀ d ∈ s.schedule.head?, 0 < d.turns) : step s = landing [] (cpuTurn s.turnTaken) := by
  have := step_eq_landing s fun d hd h0 => absurd h0 (Nat.ne_of_gt (h d hd))
  rwa [takeWhile_lands _ fun d hd => d.lands_of_pos (h d hd)] at this

/-- A turn taken changes the schedule only, and between turns nothing of a turn's accesses is kept. -/
theorem State.turnTaken_eq (s : State) : s.turnTaken = { s with schedule := s.turnTaken.schedule } := rfl
theorem State.settled_eq (s : State) : s.settled = { s with wrote := [], loaded := [], done := [], earlier := [] } := rfl
@[simp] theorem State.settled_hidden (s : State) : s.settled.hidden = s.hidden := rfl
theorem Undisturbed.turnTaken {s : State} (h : Undisturbed s) : Undisturbed s.turnTaken := h

/-- Where no unit stores among the reads, the fetch reads memory as it is. -/
theorem Undisturbed.fetchHalf {s : State} (h : Undisturbed s) (k : Nat) :
    s.fetchHalf k = s.readHalf (s.fetchAddress (BitVec.ofNat 16 k)) := by rw [State.fetchHalf, h.seenAt]

/-- The first halfword of an instruction is at the PC, bit 15 ignored (R22). -/
theorem State.fetchAddress_zero (s : State) : s.fetchAddress 0 = s.pc &&& 0xFFFE := by
  rw [State.fetchAddress, show (2 : Word) * 0 = 0#16 from rfl, BitVec.add_zero]

/-- An NSI loaded from the panel is the next instruction's first halfword, in both readings of N46 (R44, R477; log 31). -/
theorem State.firstHalf_panelLoad (s : State) (v : Word) (hu : Undisturbed s) (hn : s.panel.registerSelect = .nsi) :
    (s.panelLoad v).firstHalf = v := by
  simp only [State.panelLoad, hn]
  split
  · exact (hu.fetchHalf (s := { s.writeHalf (s.pc &&& 0xFFFE) v with nsi := none }) 0).trans
      ((congrArg _ (State.fetchAddress_zero _)).trans (State.readHalf_writeHalf ..))
  · exact if_pos (by rw [State.fetchAddress_zero, Bool.true_or, Bool.and_true]; exact decide_eq_true rfl)

/-- A turn with nothing to take waits, or runs an instruction (R37). -/
theorem cpuTurn_quiet (u : State) (h0 : u.panel.ipl = none) (h1 : u.panel.stopped = false) (h2 : u.interface.resetSignal = false)
    (hi : u.inhibit = true ∨ (u.interface.selection = none ∧ u.dueUnit = none)) :
    cpuTurn u = if u.waiting then .next { u with inhibit := false } else runInstruction u := by
  unfold cpuTurn
  rw [h0]
  dsimp only
  rw [h1, h2, if_neg (by simp), if_neg (by simp)]
  rcases hi with hi | ⟨hs, hd⟩
  · simp only [hi, if_true]
  · simp only [hs, hd, ite_self]

/-- The panel's INT RUN bit is bit 0 of its status (R436). -/
theorem panelBitRun_on (w : Word) : (w &&& panelBitRun != 0) = w.getMsbD 0 := by
  cases h : w.getMsbD 0
  · rw [bne_eq_false_iff_eq]
    ext i hi
    rw [BitVec.getElem_and, show (0 : Word)[i] = false by simp]
    rcases Nat.lt_or_ge i 15 with hl | hl
    · rw [← BitVec.getLsbD_eq_getElem (x := panelBitRun),
        (show ∀ i : Fin 15, panelBitRun.getLsbD i.val = false by decide) ⟨i, hl⟩, Bool.and_false]
    · obtain rfl : i = 15 := by omega
      rw [show w[15] = false by simpa [BitVec.getMsbD_eq_getLsbD] using h, Bool.false_and]
  · rw [bne_iff_ne]
    intro e
    have := congrArg (fun x : Word => x.getMsbD 0) e
    rw [BitVec.getMsbD_and, h] at this; revert this; decide

/-! ## IPL -/

/-- Bytes stored one after the other are as many accesses (log 50). -/
theorem State.length_wrote_writeBytes (s : State) (a : Word) (bs : List Byte) :
    (s.writeBytes a bs).wrote.length = s.wrote.length + bs.length := by
  induction bs generalizing s a with
  | nil => rfl
  | cons b bs ih =>
    rw [State.writeBytes, ih, List.length_cons, State.setByte, State.store, List.length_cons]
    omega

/-- A turn of the CPU is an IPL where one is under way (R473, log 43). -/
theorem cpuTurn_ipl (s : State) (record : List Byte) (h : s.panel.ipl = some record) :
    cpuTurn s = .next (s.initialLoad record) := by unfold cpuTurn; rw [h]

/-- Everything an IPL does (R473): the record stands from location 0 on, MSR and PC are what then stands at 0 and 2, and the machine
runs; each byte is a store, and the two loads follow them (log 50). -/
theorem State.initialLoad_spec (s : State) (record : List Byte) :
    let t := s.initialLoad record
    (∀ a, t.byteAt a = (s.writeBytes 0 record).byteAt a) ∧ t.msr = t.readHalf 0 ∧ t.pc = t.readHalf 2 ∧
      (∀ r, r ≠ 0 → r ≠ 1 → t.stored r = s.stored r) ∧
      t.wrote.length = s.wrote.length + record.length ∧ t.loaded = s.loaded ++ [(0, 0), (1, 2)] ∧
      t = { s with
        regs := t.regs, mem := t.mem, wrote := t.wrote, loaded := t.loaded, inhibit := false, nsi := none
        panel := { s.panel with stopped := false, runMode := .run, iplLight := false, ipl := none } } := by
  let w := s.writeBytes 0 record
  have hr (r : Reg) : (s.initialLoad record).stored r = ((w.loadReg 0 0).loadReg 1 2).stored r := rfl
  dsimp only
  refine ⟨fun _ => rfl, ?_, ?_, fun r h0 h1 => ?_, ?_, ?_, ?_⟩
  · rw [State.msr, hr, State.stored_loadReg_ne _ _ (by decide), State.stored_loadReg_self]; rfl
  · rw [State.pc, hr, State.stored_loadReg_self]; rfl
  · rw [hr, State.stored_loadReg_ne _ _ h1, State.stored_loadReg_ne _ _ h0]
    exact State.stored_congr (State.writeBytes_regs ..) r
  · exact s.length_wrote_writeBytes 0 record
  · show (w.loaded ++ [(0, 0)]) ++ [(1, 2)] = _
    rw [List.append_assoc, State.writeBytes_loaded]; rfl
  · rw [State.initialLoad, State.loadReg_eq, State.loadReg_eq, State.writeBytes_eq]; rfl

/-! ## Events within a turn -/

/-- What every event within a turn keeps, all of them together keep. -/
theorem State.landAll_keeps {P : State → Prop} (h : ∀ (t : State) (n : Nat) (e : Event), P t → P (t.land n e)) (ds : List Due)
    {s : State} (n : Nat) (hs : P s) : P (s.landAll n ds) := by
  induction ds generalizing s n with
  | nil => exact hs
  | cons d ds ih =>
    unfold State.landAll
    split
    · exact ih _ hs
    · split
      · exact ih _ hs
      · exact ih _ (h _ _ _ hs)
    · exact ih _ (h _ _ _ hs)

/-- The addresses of a turn's stores name the byte at `c`. -/
def Names (l : List Access) (c : Word) : Prop := ∃ w ∈ l, ∃ x ∈ w.stored, phys x.addr = phys c

/-- After bytes are written one after the other, each byte holds what the last of them at it says, or what it held. -/
theorem read_foldl_write {α : Type} (l : List α) (at_ : α → Word) (b : α → Byte) (m : Memory) (c : Word) :
    (l.foldl (fun m x => m.write (phys (at_ x)) (b x)) m).read (phys c) =
      ((l.reverse.find? fun x => phys (at_ x) == phys c).map b).getD (m.read (phys c)) := by
  induction l generalizing m with
  | nil => rfl
  | cons x l ih =>
    rw [List.foldl_cons, ih, List.reverse_cons, List.find?_append]
    cases l.reverse.find? fun x => phys (at_ x) == phys c with
    | some y => rfl
    | none =>
      rw [Option.none_or, Memory.read_write, List.find?_singleton]
      by_cases h : phys c = phys (at_ x)
      · rw [if_pos h, if_pos (beq_iff_eq.2 h.symm)]; rfl
      · rw [if_neg h, if_neg (fun e => h (beq_iff_eq.1 e).symm)]

theorem lastAt_none {l : List Access} {c : Word} : lastAt l c = none ↔ ¬ Names l c := by
  simp only [lastAt, Names, List.find?_eq_none, List.mem_flatMap, List.mem_reverse, beq_iff_eq]
  exact ⟨fun h ⟨w, hw, x, hx, e⟩ => h x ⟨w, hw, hx⟩ e, fun h x ⟨w, hw, hx⟩ e => h ⟨w, hw, x, hx, e⟩⟩

theorem Names.tail {w : Access} {l : List Access} {c : Word} : Names l c → Names (w :: l) c :=
  fun ⟨v, hv, x⟩ => ⟨v, List.mem_cons_of_mem _ hv, x⟩

/-- Accesses taken back change the memory only, at the bytes they name. -/
theorem State.foldl_undo (l : List Access) (s : State) :
    (∀ c, ¬ Names l c → (l.foldl State.undo s).byteAt c = s.byteAt c) ∧
      l.foldl State.undo s = { s with mem := (l.foldl State.undo s).mem } := by
  induction l generalizing s with
  | nil => exact ⟨fun _ _ => rfl, rfl⟩
  | cons w l ih =>
    obtain ⟨h1, h2⟩ := ih (s.undo w)
    refine ⟨fun c hc => ?_, h2⟩
    rw [List.foldl_cons, h1 c fun h => hc h.tail]
    refine (read_foldl_write w.stored (·.addr) (·.old) s.mem c).trans ?_
    rw [List.find?_eq_none.2 fun x hx e => hc ⟨w, List.mem_cons_self .., x, List.mem_reverse.1 hx, beq_iff_eq.1 e⟩]; rfl

/-- After an access done again, the byte a next store would copy is the one memory then holds, where the access does not store it. -/
theorem State.latched_redo (s : State) (w : Access) (a : Word) (h : ∀ c, ¬ Names [w] c → (s.redo w).byteAt c = s.byteAt c)
    (hn : ¬ Names [w] a) : (s.redo w).latched a = (s.redo w).byteAt a := by
  unfold State.latched
  cases w with
  | store bs => rfl
  | read bs =>
    show ((bs.map fun b => (b.1, s.byteAt b.1)).lookup a).getD ((s.redo (.read bs)).byteAt a) = (s.redo (.read bs)).byteAt a
    rw [h a hn]
    induction bs with
    | nil => rfl
    | cons b bs ih =>
      rw [List.map_cons, List.lookup_cons]
      by_cases e : a = b.1
      · rw [e, beq_self_eq_true]; rfl
      · rw [beq_false_of_ne e]
        exact ih (fun _ _ => rfl) fun ⟨_, hv, x, hx, _⟩ => by rw [List.mem_singleton.1 hv] at hx; exact nomatch hx

/-- Accesses done again change the memory and the list of the turn's accesses only. A byte of memory then holds what it held, or what
the last of them at it stores: what it stored the first time or, where it copied a byte that none of them is at, that byte as it is
now, unless the access before them all is the read of what the first of them copies, which is not done again. -/
theorem State.foldl_redo (l : List Access) (s : State) :
    (∀ c, ¬ Names l c → (l.reverse.foldl State.redo s).byteAt c = s.byteAt c) ∧
      (∀ c x, lastAt l c = some x → (x.source = none → (l.reverse.foldl State.redo s).byteAt c = x.new) ∧
        ∀ b, x.source = some b → ¬ Names l b → (∀ bs, s.wrote.head? ≠ some (.read bs)) →
          (l.reverse.foldl State.redo s).byteAt c = s.byteAt b ||| x.ored) ∧
      (∀ c x b v bs, lastAt l c = some x → ¬ Names l.dropLast c → x.source = some b → s.wrote.head? = some (.read bs) →
        bs.lookup b = some v → (l.reverse.foldl State.redo s).byteAt c = v ||| x.ored) ∧
      l.reverse.foldl State.redo s =
        { s with mem := (l.reverse.foldl State.redo s).mem, wrote := (l.reverse.foldl State.redo s).wrote } := by
  have one (t : State) (w : Access) (c : Word) : (t.redo w).byteAt c =
      ((w.stored.reverse.find? fun x => phys x.addr == phys c).map (·.value t)).getD (t.byteAt c) :=
    read_foldl_write w.stored (·.addr) (·.value t) t.mem c
  have keep (t : State) (w : Access) (c : Word) (h : ¬ Names [w] c) : (t.redo w).byteAt c = t.byteAt c := by
    rw [one, List.find?_eq_none.2 fun x hx e => h ⟨w, List.mem_cons_self .., x, List.mem_reverse.1 hx, beq_iff_eq.1 e⟩]; rfl
  have latch (l : List Access) (b : Word) (hn : ¬ Names l b) (hs : ∀ bs, s.wrote.head? ≠ some (.read bs)) :
      (l.reverse.foldl State.redo s).latched b = (l.reverse.foldl State.redo s).byteAt b := by
    cases l with
    | nil =>
      unfold State.latched; split
      · rename_i h; exact absurd (by rw [List.reverse_nil, List.foldl_nil] at h; rw [h]; rfl) (hs _)
      · rfl
    | cons w l =>
      simp only [List.reverse_cons, List.foldl_append, List.foldl_cons, List.foldl_nil]
      exact State.latched_redo _ w b (keep _ w) fun ⟨v, hv, x⟩ => hn ⟨v, by rw [List.mem_singleton.1 hv]; exact List.mem_cons_self .., x⟩
  induction l with
  | nil => exact ⟨fun _ _ => rfl, nofun, nofun, rfl⟩
  | cons w l ih =>
    obtain ⟨h1, h2, h3, h4⟩ := ih
    have lt := latch l
    simp only [List.reverse_cons, List.foldl_append, List.foldl_cons, List.foldl_nil]
    have h0 : l = [] → l.reverse.foldl State.redo s = s := fun e => by rw [e]; rfl
    generalize l.reverse.foldl State.redo s = t at h0 h1 h2 h3 h4 lt ⊢
    refine ⟨fun c hc => ?_, fun c x hx => ?_, fun c x b v bs hx hd e hb hv => ?_, by rw [h4]; rfl⟩
    · rw [keep t w c fun ⟨v, hv, x⟩ => hc ⟨v, by rw [List.mem_singleton.1 hv]; exact List.mem_cons_self .., x⟩]
      exact h1 c fun h => hc h.tail
    · rw [lastAt, List.flatMap_cons, List.find?_append] at hx
      rw [one]
      cases hw : w.stored.reverse.find? fun x => phys x.addr == phys c with
      | none =>
        rw [hw, Option.none_or] at hx
        exact ⟨(h2 c x hx).1, fun b hb hn => (h2 c x hx).2 b hb fun h => hn h.tail⟩
      | some y =>
        rw [hw] at hx
        obtain rfl : y = x := Option.some.inj hx
        refine ⟨fun e => ?_, fun b e hn hs => ?_⟩
        · show Stored.value y t = _; rw [Stored.value, e]
        · show Stored.value y t = _
          rw [Stored.value, e]
          have hb := fun h => hn (Names.tail (w := w) h)
          show t.latched b ||| y.ored = _
          rw [lt b hb hs, h1 b hb]
    · rw [lastAt, List.flatMap_cons, List.find?_append] at hx
      rw [one]
      cases hw : w.stored.reverse.find? fun x => phys x.addr == phys c with
      | none =>
        rw [hw, Option.none_or] at hx
        refine h3 c x b v bs hx (fun h => hd ?_) e hb hv
        cases l with
        | nil => cases hx
        | cons w' l => exact h.tail
      | some y =>
        rw [hw] at hx
        obtain rfl : y = x := Option.some.inj hx
        cases l with
        | cons w' l =>
          have hy := List.find?_some hw
          exact absurd ⟨w, List.mem_cons_self .., y, List.mem_reverse.1 (List.mem_of_find?_eq_some hw), beq_iff_eq.1 hy⟩ hd
        | nil =>
          obtain rfl := h0 rfl
          show Stored.value y t = _
          rw [Stored.value, e]
          show t.latched b ||| y.ored = _
          unfold State.latched
          cases hq : t.wrote with
          | nil => rw [hq] at hb; cases hb
          | cons q qs =>
            rw [hq] at hb
            obtain rfl : q = .read bs := Option.some.inj hb
            show (bs.lookup b).getD _ ||| _ = _
            rw [hv]; rfl

/-- Loads done again change the registers they name only, and each then holds what stands where its last load is from. -/
theorem State.reload_spec (s : State) (n : Nat) :
    s.reload n = { s with regs := (s.reload n).regs } ∧
      (∀ r, (∀ l ∈ s.loaded.drop n, l.1 ≠ r) → (s.reload n).stored r = s.stored r) ∧
      ∀ r b l1 l2, s.loaded.drop n = l1 ++ (r, b) :: l2 → (∀ l ∈ l2, l.1 ≠ r) → (s.reload n).stored r = s.readHalf b := by
  have gen (l : List (Reg × Word)) (t : State) :
      l.foldl (fun t l => t.setReg l.1 (t.readHalf l.2)) t =
          { t with regs := (l.foldl (fun t l => t.setReg l.1 (t.readHalf l.2)) t).regs } ∧
        ∀ r, (∀ x ∈ l, x.1 ≠ r) → (l.foldl (fun t l => t.setReg l.1 (t.readHalf l.2)) t).stored r = t.stored r := by
    induction l generalizing t with
    | nil => exact ⟨rfl, fun _ _ => rfl⟩
    | cons x l ih =>
      obtain ⟨h1, h2⟩ := ih (t.setReg x.1 (t.readHalf x.2))
      exact ⟨h1, fun r hr => (h2 r fun y hy => hr y (List.mem_cons_of_mem _ hy)).trans
        (State.stored_setReg_ne _ _ (hr x (List.mem_cons_self ..)).symm)⟩
  refine ⟨(gen _ s).1, (gen _ s).2, fun r b l1 l2 h hl => ?_⟩
  rw [State.reload, h, List.foldl_append, List.foldl_cons, (gen l2 _).2 r hl, State.stored_setReg_self, (gen l1 s).1]
  rfl

/-- What is done behind `n` accesses of a turn (log 50) finds memory without the later ones, and these come after it: all else is as
it leaves it. -/
theorem State.behind_spec (s : State) (n : Nat) (f : State → State) :
    let later := s.wrote.take (s.wrote.length - n)
    ∃ before : State, before = { s with mem := before.mem, wrote := s.wrote.drop (s.wrote.length - n) } ∧
      (∀ c, ¬ Names later c → before.byteAt c = s.byteAt c ∧ (s.behind n f).byteAt c = (f before).byteAt c) ∧
      (∀ c x, lastAt later c = some x → (x.source = none → (s.behind n f).byteAt c = x.new) ∧
        ∀ b, x.source = some b → ¬ Names later b → (∀ bs, before.wrote.head? ≠ some (.read bs)) →
          (s.behind n f).byteAt c = (f before).byteAt b ||| x.ored) ∧
      (∀ c x b v bs, lastAt later c = some x → ¬ Names later.dropLast c → x.source = some b →
        before.wrote.head? = some (.read bs) → bs.lookup b = some v → (s.behind n f).byteAt c = v ||| x.ored) ∧
      s.behind n f = { f before with mem := (s.behind n f).mem, wrote := (s.behind n f).wrote, loaded := s.loaded } := by
  intro later
  obtain ⟨u1, u2⟩ := State.foldl_undo later s
  let before := { later.foldl State.undo s with wrote := s.wrote.drop (s.wrote.length - n) }
  obtain ⟨r1, r2, r3, r4⟩ := State.foldl_redo later { f before with wrote := before.wrote, loaded := s.loaded }
  refine ⟨before, congrArg (fun t : State => { t with wrote := s.wrote.drop (s.wrote.length - n) }) u2,
    fun c hc => ⟨u1 c hc, r1 c hc⟩, r2, r3, r4⟩

/-- What an event of a unit does that falls behind `n` accesses of a turn (log 50): the later ones come after it, then the later
loads, and all else is as the event leaves it. -/
theorem State.land_spec (s : State) (n : Nat) (e : Event) (h : e.stealsCycles = true) :
    let later := s.wrote.take (s.wrote.length - n)
    ∃ before : State, before = { s with mem := before.mem, wrote := s.wrote.drop (s.wrote.length - n) } ∧
      (∀ c, ¬ Names later c → before.byteAt c = s.byteAt c ∧ (s.land n e).byteAt c = (before.apply e).byteAt c) ∧
      (∀ c x, lastAt later c = some x → (x.source = none → (s.land n e).byteAt c = x.new) ∧
        ∀ b, x.source = some b → ¬ Names later b → (∀ bs, before.wrote.head? ≠ some (.read bs)) →
          (s.land n e).byteAt c = (before.apply e).byteAt b ||| x.ored) ∧
      (∀ c x b v bs, lastAt later c = some x → ¬ Names later.dropLast c → x.source = some b →
        before.wrote.head? = some (.read bs) → bs.lookup b = some v → (s.land n e).byteAt c = v ||| x.ored) ∧
      (∀ r, (∀ l ∈ s.loaded.drop (n - s.wrote.length), l.1 ≠ r) → (s.land n e).stored r = (before.apply e).stored r) ∧
      (∀ r b l1 l2, s.loaded.drop (n - s.wrote.length) = l1 ++ (r, b) :: l2 → (∀ l ∈ l2, l.1 ≠ r) →
        (s.land n e).stored r = (s.land n e).readHalf b) ∧
      s.land n e = { before.apply e with
        mem := (s.land n e).mem, wrote := (s.land n e).wrote, regs := (s.land n e).regs, loaded := s.loaded } := by
  intro later
  obtain ⟨before, hb, r1, r2, r3, r4⟩ := State.behind_spec s n fun t => t.apply e
  have hl : s.land n e = (s.behind n fun t => t.apply e).reload (n - s.wrote.length) := by rw [State.land, if_pos h]
  rw [hl]
  generalize s.behind n (fun t => t.apply e) = again at r1 r2 r3 r4
  obtain ⟨l1, l2, l3⟩ := State.reload_spec again (n - s.wrote.length)
  have hd : again.loaded = s.loaded := (congrArg State.loaded r4 :)
  have hm (c : Word) : (again.reload (n - s.wrote.length)).byteAt c = again.byteAt c := by rw [l1]; rfl
  rw [hd] at l2 l3
  refine ⟨before, hb, fun c hc => ⟨(r1 c hc).1, (hm c).trans (r1 c hc).2⟩,
    fun c x hx => ⟨fun e => (hm c).trans ((r2 c x hx).1 e), fun b hb hn hh => (hm c).trans ((r2 c x hx).2 b hb hn hh)⟩,
    fun c x b v bs h1 h2 h3 h4 h5 => (hm c).trans (r3 c x b v bs h1 h2 h3 h4 h5),
    fun r hr => (l2 r hr).trans (State.stored_congr (show _ = (before.apply e).regs from (congrArg State.regs r4 :)) r),
    fun r b k1 k2 hk hn => (l3 r b k1 k2 hk hn).trans (State.readHalf_congr (hm b) (hm (b + 1))).symm, ?_⟩
  rw [l1, r4]

/-- Accesses taken back and done again keep the canonical form. -/
theorem foldl_write_bytes_wf {α : Type} (l : List α) (at_ : α → Word) (b : α → Byte) {m : Memory} (h : m.wf Config.memSize = true) :
    (l.foldl (fun m x => m.write (phys (at_ x)) (b x)) m).wf Config.memSize = true := by
  induction l generalizing m with
  | nil => exact h
  | cons x l ih => exact ih (Memory.write_wf h (phys_lt (at_ x)))

theorem State.foldl_undo_wf (l : List Access) (s : State) (h : s.mem.wf Config.memSize = true) :
    (l.foldl State.undo s).mem.wf Config.memSize = true := by
  induction l generalizing s with
  | nil => exact h
  | cons w l ih => exact ih _ (foldl_write_bytes_wf w.stored (·.addr) (·.old) h)

theorem State.foldl_redo_wf (l : List Access) (s : State) (h : s.mem.wf Config.memSize = true) :
    (l.foldl State.redo s).mem.wf Config.memSize = true := by
  induction l generalizing s with
  | nil => exact h
  | cons w l ih => exact ih _ (foldl_write_bytes_wf w.stored (·.addr) (·.value s) h)

/-! ## The S/360 reset -/

/-- Free memory leaves every other field. -/
@[simp] theorem State.anyMemory_disk (s : State) : s.anyMemory.disk = s.disk := by rw [State.anyMemory]; rfl
@[simp] theorem State.anyMemory_inExecute (s : State) : s.anyMemory.inExecute = s.inExecute := by rw [State.anyMemory]; rfl
theorem State.anyMemory_wf (s : State) : s.anyMemory.mem.wf Config.memSize = true := Memory.filled_wf _ _

/-! ## Asynchronous interrupts -/

/-- What an asynchronous interrupt does to registers and memory rests on those, and on the free-value counter, alone. -/
theorem State.asynchronousInterrupt_congr {s t : State} (c : InterruptClass) (code : Word)
    (h : t = { t with regs := s.regs, mem := s.mem, freeCount := s.freeCount }) :
    (t.asynchronousInterrupt c code).regs = (s.asynchronousInterrupt c code).regs ∧
      (t.asynchronousInterrupt c code).mem = (s.asynchronousInterrupt c code).mem := by
  rw [h]; exact ⟨rfl, rfl⟩

end Sys2Proof.Machine
end

