-- ==== Sys2Proof/Laws/Strings.lean ====
section
/-! SUPPORT. The strings that are read and stored byte by byte: what the units' accesses among theirs can change, and what they store
where there are none. -/

namespace Sys2Proof.Machine

/-! ## Whatever comes among the accesses -/

/-- A unit's access changes memory and the units only, besides the turn's list. -/
theorem State.move_eq (s : State) (e : Event) :
    s.move e = { s with mem := (s.move e).mem, units := (s.move e).units, wrote := (s.move e).wrote } := by
  cases e <;> try rfl
  · simp only [State.move, State.transferEarly]; (repeat' split) <;> rfl
  · simp only [State.move]; rw [State.writeBytes_eq]

theorem State.fire_eq (s : State) (i : Nat) :
    s.fire i = { s with mem := (s.fire i).mem, units := (s.fire i).units } := by
  unfold State.fire
  generalize ((s.earlier[i]?).map Snapshot.next).getD [] = es
  have : es.foldl State.move s = { s with
      mem := (es.foldl State.move s).mem, units := (es.foldl State.move s).units, wrote := (es.foldl State.move s).wrote } := by
    induction es generalizing s with
    | nil => rfl
    | cons e es ih => rw [List.foldl_cons, ih, s.move_eq]
  rw [this]

theorem State.fireFrom_eq (s : State) (i n : Nat) :
    s.fireFrom i n = { s with mem := (s.fireFrom i n).mem, units := (s.fireFrom i n).units } := by
  induction n generalizing s i with
  | zero => rfl
  | succ n ih => rw [State.fireFrom, ih, s.fire_eq]

theorem State.alterBytes_eq (s : State) (reads : Nat) (v : Nat → State → State → Byte) (a : Word) (j n : Nat) :
    (s.alterBytes reads v a j n).2.length = n ∧
      (s.alterBytes reads v a j n).1 = { s with
        mem := (s.alterBytes reads v a j n).1.mem, units := (s.alterBytes reads v a j n).1.units
        wrote := (s.alterBytes reads v a j n).1.wrote } := by
  induction n generalizing s j with
  | zero => exact ⟨rfl, rfl⟩
  | succ n ih =>
    simp only [State.alterBytes]
    refine ⟨congrArg Nat.succ (ih ..).1, (ih ..).2.trans ?_⟩
    rw [State.fire_eq (State.setByte ..), State.fireFrom_eq, State.fire_eq s]; rfl

/-- A string's replacement changes memory and the units, and leaves no access that a unit's could come before. -/
theorem State.alterString_eq (s : State) (reads : Nat) (v : Nat → State → State → Byte) (a : Word) (n : Nat) :
    (s.alterString reads v a n).2.length = n ∧
      (s.alterString reads v a n).1 = { s with
        mem := (s.alterString reads v a n).1.mem, units := (s.alterString reads v a n).1.units
        done := (s.alterString reads v a n).1.done, earlier := [] } := by
  have h := s.rewound.alterBytes_eq reads v a 0 n
  have w : s.rewound = { s with mem := s.rewound.mem, units := s.rewound.units } := by unfold State.rewound; split <;> rfl
  refine ⟨h.1, ?_⟩
  simp only [State.alterString]
  rw [State.fireFrom_eq, h.2, w]

/-! ## Where no unit comes -/

theorem Undisturbed.fire {s : State} (h : Undisturbed s) (i : Nat) : s.fire i = s := by
  unfold State.fire; rw [show s.earlier = [] from h]; rfl

theorem Undisturbed.fireFrom {s : State} (h : Undisturbed s) (i n : Nat) : s.fireFrom i n = s := by
  induction n generalizing i with
  | zero => rfl
  | succ n ih => rw [State.fireFrom, h.fire, ih]

theorem Undisturbed.rewound {s : State} (h : Undisturbed s) : s.rewound = s := by
  unfold State.rewound; rw [show s.earlier = [] from h]

/-- Byte by byte is then one store of the bytes, each of them the function of the state that the stores before it leave. -/
theorem Undisturbed.alterBytes {s : State} (h : Undisturbed s) (reads : Nat) (v : Nat → State → State → Byte) (a : Word) (j n : Nat) :
    let r := s.alterBytes reads v a j n
    r.1 = s.writeBytes (a + BitVec.ofNat 16 j) r.2 ∧ ∀ k, (hk : k < r.2.length) →
      let t := s.writeBytes (a + BitVec.ofNat 16 j) (r.2.take k)
      r.2[k] = v (j + k) t t := by
  induction n generalizing s j with
  | zero => exact ⟨rfl, nofun⟩
  | succ n ih =>
    have hb (b : Byte) : Undisturbed (s.setByte (a + BitVec.ofNat 16 j) b) := h
    simp only [State.alterBytes, h.fire, h.fireFrom, (hb _).fire]
    obtain ⟨i1, i2⟩ := ih (hb (v j s s)) (j + 1)
    have sh : a + BitVec.ofNat 16 (j + 1) = a + BitVec.ofNat 16 j + 1 := by rw [BitVec.ofNat_add]; ac_rfl
    rw [sh] at i1 i2
    refine ⟨i1, fun k hk => ?_⟩
    cases k with
    | zero => rfl
    | succ k =>
      rw [show j + (k + 1) = j + 1 + k by omega]
      exact i2 k (Nat.lt_of_succ_lt_succ hk)

theorem Undisturbed.alterString {s : State} (h : Undisturbed s) (reads : Nat) (v : Nat → State → State → Byte) (a : Word) (n : Nat) :
    let r := s.alterString reads v a n
    r.2.length = n ∧ r.1 = { s.writeBytes a r.2 with wrote := s.wrote, done := r.1.done } ∧ ∀ k, (hk : k < r.2.length) →
      let t := s.writeBytes a (r.2.take k)
      r.2[k] = v k t t := by
  obtain ⟨a1, a2⟩ := h.alterBytes reads v a 0 n
  simp only [Nat.zero_add, BitVec.add_zero] at a1 a2
  have hn := (s.alterBytes_eq reads v a 0 n).1
  have hu : Undisturbed (s.alterBytes reads v a 0 n).1 := by rw [a1]; exact (State.writeBytes_earlier ..).trans h
  simp only [State.alterString, h.rewound, hu.fireFrom]
  refine ⟨hn, ?_, a2⟩
  generalize s.alterBytes reads v a 0 n = r at a1 hu ⊢
  have e : r.1 = { s.writeBytes a r.2 with earlier := [] } := by rw [← a1, ← show r.1.earlier = [] from hu]
  have e' : (s.writeBytes a r.2).earlier = [] := (State.writeBytes_earlier ..).trans h
  rw [e, e']

/-- Its frame: the string. -/
theorem Undisturbed.frame_alterString {s : State} (h : Undisturbed s) (reads : Nat) (v : Nat → State → State → Byte) (a : Word) (n : Nat) :
    Frame s (s.alterString reads v a n).1 [] [] (Touched a n) := by
  obtain ⟨hn, e, _⟩ := h.alterString reads v a n
  have := Frame.writeBytes s a (s.alterString reads v a n).2
  rw [hn] at this
  rw [e]; exact this

/-- The string then stands in memory, but where a later byte of a string longer than memory falls on it (R47). -/
theorem Undisturbed.bytesAt_alterString {s : State} (h : Undisturbed s) (reads : Nat) (v : Nat → State → State → Byte) (a : Word) (n : Nat) :
    BytesAt (s.alterString reads v a n).1 a (s.alterString reads v a n).2 := by
  obtain ⟨_, e, _⟩ := h.alterString reads v a n
  intro k hk hl
  rw [e]; exact State.byteAt_writeBytes_inside s a _ k hk hl

/-- Where a copy is not destructive, a byte of the source that an earlier byte of the destination falls on is the byte that was
copied there. -/
theorem phys_of_apart (e f : Word) (n i k : Nat) (hi : i < k) (hk : k < n) (hd : destructive e f n = false)
    (hp : phys (f + BitVec.ofNat 16 k) = phys (e + BitVec.ofNat 16 i)) :
    phys (f + BitVec.ofNat 16 i) = phys (f + BitVec.ofNat 16 k) := by
  simp only [destructive, Bool.or_eq_false_iff, offsetIn, BitVec.toNat_sub] at hd
  have ho := decide_eq_false_iff_not.1 hd.2
  clear hd
  have add (a : Word) (m : Nat) : phys (a + BitVec.ofNat 16 m) = (a.toNat + m) % 32768 := by
    simp only [phys, Config.memSize, BitVec.toNat_add, BitVec.toNat_ofNat]; omega
  rw [add, add] at hp ⊢
  have hf := f.isLt
  generalize f.toNat = y at *
  generalize e.toNat = x at *
  have o : (2 ^ 16 - y + x) % 2 ^ 16 % Config.memSize = (65536 - y + x) % 32768 := by unfold Config.memSize; omega
  rw [o] at ho
  clear o add
  rcases Nat.eq_zero_or_pos ((65536 - y + x) % 32768) with h | h
  · omega
  · have := Nat.le_of_not_lt fun g => ho ⟨h, g⟩
    omega

/-- A copy that is not destructive moves the bytes that were there (R232, U10). -/
theorem Undisturbed.moved {s : State} (h : Undisturbed s) (e f : Word) (n : Nat) (hd : destructive e f n = false) :
    (s.alterString 1 (fun j t _ => t.byteAt (f + BitVec.ofNat 16 j)) e n).2 = s.readBytes f n := by
  obtain ⟨hn, _, hv⟩ := h.alterString 1 (fun j t _ => t.byteAt (f + BitVec.ofNat 16 j)) e n
  generalize (s.alterString 1 (fun j t _ => t.byteAt (f + BitVec.ofNat 16 j)) e n).2 = l at hn hv
  refine List.ext_getElem (by rw [hn, length_readBytes]) fun k hk h' => ?_
  rw [getElem_readBytes]
  induction k using Nat.strong_induction_on with
  | _ k ih =>
    refine (hv k hk).trans ?_
    rcases s.byteAt_writeBytes_cases e (f + BitVec.ofNat 16 k) (l.take k) with ⟨i, hi, hp, hb⟩ | ⟨_, hb⟩
    · rw [hb, List.getElem_take, ih i (by rw [List.length_take] at hi; omega) (by rw [List.length_take] at hi; omega)
        (by rw [length_readBytes]; rw [List.length_take] at hi; omega)]
      rw [List.length_take] at hi
      have hk' : k < n := hn ▸ hk
      exact congrArg s.mem.read (phys_of_apart e f n i k (by omega) hk' hd hp)
    · exact hb

/-- A string Boolean operation on fields that coincide or do not overlap has no free byte (R259). -/
theorem Undisturbed.combined {s : State} (hu : Undisturbed s) (op : Byte → Byte → Byte)
    (hop : ∀ x, op (op x x) (op x x) = op x x) (e f : Word) (n count : Nat)
    (h : phys e = phys f ∨ (∀ k, k < n → ¬ Touched f n (e + BitVec.ofNat 16 k))) :
    (s.alterString 2 (booleanByte op e f n count) e n).2 = List.zipWith op (s.readBytes e n) (s.readBytes f n) := by
  obtain ⟨hn, _, hv⟩ := hu.alterString 2 (booleanByte op e f n count) e n
  generalize (s.alterString 2 (booleanByte op e f n count) e n).2 = l at hn hv
  have same (k : Nat) (hp : phys e = phys f) : phys (f + BitVec.ofNat 16 k) = phys (e + BitVec.ofNat 16 k) := by
    simp only [phys, Config.memSize, BitVec.toNat_add] at hp ⊢; omega
  refine List.ext_getElem (by simp [hn]) fun k hk h' => ?_
  rw [List.getElem_zipWith, getElem_readBytes, getElem_readBytes]
  induction k using Nat.strong_induction_on with
  | _ k ih =>
    have hkn : k < n := hn ▸ hk
    have hl : (l.take k).length = k := by rw [List.length_take]; omega
    refine (hv k hk).trans ?_
    rw [booleanByte, if_neg]
    · rcases h with h | h
      · have hb (t : State) : t.byteAt (f + BitVec.ofNat 16 k) = t.byteAt (e + BitVec.ofNat 16 k) := congrArg t.mem.read (same k h)
        rw [hb, hb]
        rcases s.byteAt_writeBytes_cases e (e + BitVec.ofNat 16 k) (l.take k) with ⟨i, hi, hp, hx⟩ | ⟨_, hx⟩
        · rw [hl] at hi
          rw [hx, List.getElem_take, ih i hi (by omega) (by simp; omega)]
          have h1 : s.byteAt (e + BitVec.ofNat 16 i) = s.byteAt (e + BitVec.ofNat 16 k) := congrArg s.mem.read hp.symm
          have h2 : s.byteAt (f + BitVec.ofNat 16 i) = s.byteAt (e + BitVec.ofNat 16 k) := congrArg s.mem.read ((same i h).trans hp.symm)
          rw [h1, h2, hop]
        · rw [hx]
      · have hs : n < Config.memSize := by
          by_contra hc
          exact h k hkn ((touched_iff ..).2 (lt_of_lt_of_le (Nat.mod_lt _ (by decide)) (Nat.le_of_not_lt hc)))
        congr 1
        · refine State.byteAt_writeBytes_outside _ _ _ _ ?_
          rintro ⟨i, hi, hp⟩
          rw [hl] at hi
          simp only [phys, Config.memSize, BitVec.toNat_add, BitVec.toNat_ofNat] at hp hs
          omega
        · refine State.byteAt_writeBytes_outside _ _ _ _ ?_
          rintro ⟨i, hi, hp⟩
          rw [hl] at hi
          exact h i (by omega) ⟨k, hkn, hp.symm⟩
    · simp only [Bool.and_eq_true, bne_iff_ne, Bool.or_eq_true, inField, decide_eq_true_eq, not_and]
      intro hne
      rcases h with h | h
      · exact absurd ((phys_eq_iff e f).1 h) hne
      · rw [← touched_iff, ← touched_iff]
        rintro (hh | ⟨j, hj, hp⟩)
        · exact h k hkn hh
        · exact h j hj ⟨k, hkn, hp.symm⟩

/-- A translated byte is the table's, where neither lies in the other's field (R280). -/
theorem Undisturbed.translated {s : State} (hu : Undisturbed s) (e f : Word) (n count k : Nat)
    (hk : k < (s.alterString 2 (translatedByte e f n count) e n).2.length)
    (h1 : ¬ Touched f 256 (e + BitVec.ofNat 16 k))
    (h2 : ¬ Touched e n (f + (s.byteAt (e + BitVec.ofNat 16 k)).setWidth 16)) :
    (s.alterString 2 (translatedByte e f n count) e n).2[k] = s.byteAt (f + (s.byteAt (e + BitVec.ofNat 16 k)).setWidth 16) := by
  obtain ⟨hn, _, hv⟩ := hu.alterString 2 (translatedByte e f n count) e n
  refine (hv k hk).trans ?_
  generalize (s.alterString 2 (translatedByte e f n count) e n).2 = l at hn hk
  have hkn : k < n := hn ▸ hk
  have hl : (l.take k).length = k := by rw [List.length_take]; omega
  have hs : n < Config.memSize := by
    by_contra hc
    exact h2 ((touched_iff ..).2 (lt_of_lt_of_le (Nat.mod_lt _ (by decide)) (Nat.le_of_not_lt hc)))
  have ha : (s.writeBytes e (l.take k)).byteAt (e + BitVec.ofNat 16 k) = s.byteAt (e + BitVec.ofNat 16 k) := by
    refine State.byteAt_writeBytes_outside _ _ _ _ ?_
    rintro ⟨i, hi, hp⟩
    rw [hl] at hi
    simp only [phys, Config.memSize, BitVec.toNat_add, BitVec.toNat_ofNat] at hp hs
    omega
  simp only [translatedByte, ha, tableAddress]
  rw [if_neg]
  · refine State.byteAt_writeBytes_outside _ _ _ _ ?_
    rintro ⟨i, hi, hp⟩
    exact h2 ⟨i, by omega, hp⟩
  · rw [touched_iff] at h1 h2
    simpa [inField] using ⟨Nat.le_of_not_lt h1, Nat.le_of_not_lt h2⟩

end Sys2Proof.Machine
end

