-- ==== Sys2Proof/Tests/Slice0.lean ====
section
/-! SUPPORT. Tests: well-formedness, the decoding of every code, the spec's vectors (95_test_vectors.md; the last part of a
name is the vector's number), cases worked out by hand from the rules, and for every statement with hypotheses a state that
meets them. -/

namespace Sys2Proof.Tests

open Sys2Proof.Machine

/-! ## Well-formedness -/

theorem test_illFormed_excc : Instr.wellFormed (.excc 4 0) = false := by decide
theorem test_illFormed_trb : Instr.wellFormed (.trb 15 0 0 0) = false := by decide
theorem test_illFormed_ss : Instr.wellFormed (.ss 4 0 0 0) = false := by decide
theorem test_wellFormed_devices :
    Instr.wellFormed (.excc 3 15) = true ∧ Instr.wellFormed (.trb 0 1 2 3) = true ∧ Instr.wellFormed (.ss 3 0 0 0) = true ∧
      Instr.wellFormed (.iost 15 15) = true := by decide

/-! ## Decoding: each code of R91 with its fields written out by the layout of its format (R74 to R82) -/

/-- The three halfwords decode to the instruction. -/
def decodesTo (p : Word × Word × Word × Instr) : Bool := decide (decode p.1 p.2.1 p.2.2.1 = .ok p.2.2.2)

theorem test_decode_RR : (
    [(0x0B12, 0x0, 0x0, .ret 1 2), (0x0C12, 0x0, 0x0, .lpr 1 2), (0x0D12, 0x0, 0x0, .lnr 1 2),
     (0x0E12, 0x0, 0x0, .lcr 1 2), (0x0F12, 0x0, 0x0, .lxbr 1 2), (0x1212, 0x0, 0x0, .stdr 1 2),
     (0x1312, 0x0, 0x0, .ldr 1 2), (0x1612, 0x0, 0x0, .sior 1 2), (0x1712, 0x0, 0x0, .sd 1 2),
     (0x1812, 0x0, 0x0, .slli 1 2), (0x1912, 0x0, 0x0, .srli 1 2), (0x1A12, 0x0, 0x0, .sldli 1 2),
     (0x1B12, 0x0, 0x0, .srdli 1 2), (0x1C12, 0x0, 0x0, .slai 1 2), (0x1D12, 0x0, 0x0, .srai 1 2),
     (0x1E12, 0x0, 0x0, .sldai 1 2), (0x1F12, 0x0, 0x0, .srdai 1 2), (0x2012, 0x0, 0x0, .iost 1 2),
     (0x2212, 0x0, 0x0, .excc 1 2), (0x2312, 0x0, 0x0, .lx 1 2), (0x2412, 0x0, 0x0, .ax 1 2), (0x2512, 0x0, 0x0, .sx 1 2),
     (0x2612, 0x0, 0x0, .bczr 1 2), (0x2712, 0x0, 0x0, .bcor 1 2), (0x2812, 0x0, 0x0, .balr 1 2),
     (0x2912, 0x0, 0x0, .tbpr 1 2), (0x2A12, 0x0, 0x0, .tbzr 1 2), (0x2B12, 0x0, 0x0, .tbnmr 1 2),
     (0x2C12, 0x0, 0x0, .tbmr 1 2), (0x2D12, 0x0, 0x0, .tbnzr 1 2), (0x2E12, 0x0, 0x0, .tbnpr 1 2),
     (0x2F12, 0x0, 0x0, .bctr 1 2), (0x3012, 0x0, 0x0, .cr 1 2), (0x31AB, 0x0, 0x0, .svc 0xAB),
     (0x3212, 0x0, 0x0, .tmr 1 2), (0x3312, 0x0, 0x0, .lr 1 2), (0x3412, 0x0, 0x0, .ar 1 2), (0x3512, 0x0, 0x0, .sr 1 2),
     (0x3612, 0x0, 0x0, .mr 1 2), (0x3712, 0x0, 0x0, .dr 1 2), (0x3812, 0x0, 0x0, .swpr 1 2), (0x3912, 0x0, 0x0, .nr 1 2),
     (0x3A12, 0x0, 0x0, .or 1 2), (0x3B12, 0x0, 0x0, .xr 1 2), (0x3C12, 0x0, 0x0, .alr 1 2), (0x3D12, 0x0, 0x0, .slr 1 2),
     (0x3F12, 0x0, 0x0, .clr 1 2)] :
    List (Word × Word × Word × Instr)).all decodesTo = true := by decide

theorem test_decode_RX : (
    [(0x4812, 0x3456, 0x0, .deq 1 2 3 0x456), (0x4C12, 0x3456, 0x0, .lp 1 2 3 0x456),
     (0x4D12, 0x3456, 0x0, .ln 1 2 3 0x456), (0x4E12, 0x3456, 0x0, .lc 1 2 3 0x456),
     (0x4F12, 0x3456, 0x0, .lxb 1 2 3 0x456), (0x5012, 0x3456, 0x0, .cvb 1 2 3 0x456),
     (0x5112, 0x3456, 0x0, .cvd 1 2 3 0x456), (0x5212, 0x3456, 0x0, .std 1 2 3 0x456),
     (0x5312, 0x3456, 0x0, .ld 1 2 3 0x456), (0x5412, 0x3456, 0x0, .ex 1 2 3 0x456),
     (0x5512, 0x3456, 0x0, .ss 1 2 3 0x456), (0x5612, 0x3456, 0x0, .sio 1 2 3 0x456),
     (0x5812, 0x3456, 0x0, .ib 1 2 3 0x456), (0x5912, 0x3456, 0x0, .stb 1 2 3 0x456),
     (0x5A12, 0x3456, 0x0, .lb 1 2 3 0x456), (0x5B12, 0x3456, 0x0, .lsb 1 2 3 0x456),
     (0x5C12, 0x3456, 0x0, .sa 1 2 3 0x456), (0x5D12, 0x3456, 0x0, .la 1 2 3 0x456),
     (0x5E12, 0x3456, 0x0, .lz 1 2 3 0x456), (0x5F12, 0x3456, 0x0, .clb 1 2 3 0x456),
     (0x6212, 0x3456, 0x0, .trb 1 2 3 0x456), (0x7012, 0x3456, 0x0, .c 1 2 3 0x456),
     (0x7212, 0x3456, 0x0, .st 1 2 3 0x456), (0x7312, 0x3456, 0x0, .l 1 2 3 0x456), (0x7412, 0x3456, 0x0, .a 1 2 3 0x456),
     (0x7512, 0x3456, 0x0, .s 1 2 3 0x456), (0x7612, 0x3456, 0x0, .m 1 2 3 0x456), (0x7712, 0x3456, 0x0, .d 1 2 3 0x456),
     (0x7812, 0x3456, 0x0, .swp 1 2 3 0x456), (0x7912, 0x3456, 0x0, .n 1 2 3 0x456), (0x7A12, 0x3456, 0x0, .o 1 2 3 0x456),
     (0x7B12, 0x3456, 0x0, .x 1 2 3 0x456), (0x7C12, 0x3456, 0x0, .al 1 2 3 0x456), (0x7D12, 0x3456, 0x0, .sl 1 2 3 0x456),
     (0x7F12, 0x3456, 0x0, .cl 1 2 3 0x456)] :
    List (Word × Word × Word × Instr)).all decodesTo = true := by decide

theorem test_decode_SI : (
    [(0x80AB, 0x3456, 0x0, .chi 0xAB 3 0x456), (0x81AB, 0x3456, 0x0, .svcs 0xAB 3 0x456),
     (0x82AB, 0x3456, 0x0, .tmbi 0xAB 3 0x456), (0x83AB, 0x3456, 0x0, .mvhi 0xAB 3 0x456),
     (0x84AB, 0x3456, 0x0, .ahi 0xAB 3 0x456), (0x85AB, 0x3456, 0x0, .shi 0xAB 3 0x456),
     (0x87AB, 0x3456, 0x0, .tsl 0xAB 3 0x456), (0x89AB, 0x3456, 0x0, .nbi 0xAB 3 0x456),
     (0x8AAB, 0x3456, 0x0, .obi 0xAB 3 0x456), (0x8BAB, 0x3456, 0x0, .xbi 0xAB 3 0x456),
     (0x8CAB, 0x3456, 0x0, .mvbi 0xAB 3 0x456), (0x8FAB, 0x3456, 0x0, .clbi 0xAB 3 0x456)] :
    List (Word × Word × Word × Instr)).all decodesTo = true := by decide

theorem test_decode_RS : (
    [(0x9012, 0x3456, 0x0, .stmd 1 2 3 0x456), (0x9112, 0x3456, 0x0, .lmd 1 2 3 0x456),
     (0x9212, 0x3456, 0x0, .stm 1 2 3 0x456), (0x9312, 0x3456, 0x0, .lm 1 2 3 0x456),
     (0x9612, 0x3456, 0x0, .pshm 1 2 3 0x456), (0x9712, 0x3456, 0x0, .popm 1 2 3 0x456),
     (0x9812, 0x3456, 0x0, .sll 1 2 3 0x456), (0x9912, 0x3456, 0x0, .srl 1 2 3 0x456),
     (0x9A12, 0x3456, 0x0, .sldl 1 2 3 0x456), (0x9B12, 0x3456, 0x0, .srdl 1 2 3 0x456),
     (0x9C12, 0x3456, 0x0, .sla 1 2 3 0x456), (0x9D12, 0x3456, 0x0, .sra 1 2 3 0x456),
     (0x9E12, 0x3456, 0x0, .slda 1 2 3 0x456), (0x9F12, 0x3456, 0x0, .srda 1 2 3 0x456)] :
    List (Word × Word × Word × Instr)).all decodesTo = true := by decide

theorem test_decode_BX : (
    [(0xA012, 0x3456, 0x0, .bxh 1 2 0x3456), (0xA112, 0x3456, 0x0, .bxle 1 2 0x3456),
     (0xA612, 0x3456, 0x0, .bcz 1 2 0x3456), (0xA712, 0x3456, 0x0, .bco 1 2 0x3456),
     (0xA812, 0x3456, 0x0, .bal 1 2 0x3456), (0xA912, 0x3456, 0x0, .tbp 1 2 0x3456),
     (0xAA12, 0x3456, 0x0, .tbz 1 2 0x3456), (0xAB12, 0x3456, 0x0, .tbnm 1 2 0x3456),
     (0xAC12, 0x3456, 0x0, .tbm 1 2 0x3456), (0xAD12, 0x3456, 0x0, .tbnz 1 2 0x3456),
     (0xAE12, 0x3456, 0x0, .tbnp 1 2 0x3456), (0xAF12, 0x3456, 0x0, .bct 1 2 0x3456)] :
    List (Word × Word × Word × Instr)).all decodesTo = true := by decide

theorem test_decode_RI : (
    [(0xB012, 0x3456, 0x0, .ci 1 2 0x3456), (0xB112, 0x3456, 0x0, .stdi 1 2 0x3456),
     (0xB212, 0x3456, 0x0, .tmi 1 2 0x3456), (0xB312, 0x3456, 0x0, .li 1 2 0x3456), (0xB412, 0x3456, 0x0, .ai 1 2 0x3456),
     (0xB512, 0x3456, 0x0, .si 1 2 0x3456), (0xB612, 0x3456, 0x0, .mi 1 2 0x3456), (0xB712, 0x3456, 0x0, .di 1 2 0x3456),
     (0xB812, 0x3456, 0x0, .ldi 1 2 0x3456), (0xB912, 0x3456, 0x0, .ni 1 2 0x3456), (0xBA12, 0x3456, 0x0, .oi 1 2 0x3456),
     (0xBB12, 0x3456, 0x0, .xi 1 2 0x3456), (0xBC12, 0x3456, 0x0, .ali 1 2 0x3456), (0xBD12, 0x3456, 0x0, .sli 1 2 0x3456),
     (0xBE12, 0x3456, 0x0, .ent 1 2 0x3456), (0xBF12, 0x3456, 0x0, .cli 1 2 0x3456)] :
    List (Word × Word × Word × Instr)).all decodesTo = true := by decide

theorem test_decode_VSS : (
    [(0xC0AB, 0x3456, 0x789C, .sle 0xAB 3 0x456 7 0x89C), (0xC1AB, 0x3456, 0x789C, .sre 0xAB 3 0x456 7 0x89C),
     (0xC2AB, 0x3456, 0x789C, .slne 0xAB 3 0x456 7 0x89C), (0xC3AB, 0x3456, 0x789C, .srne 0xAB 3 0x456 7 0x89C),
     (0xC4AB, 0x3456, 0x789C, .mvc 0xAB 3 0x456 7 0x89C), (0xC5AB, 0x3456, 0x789C, .mvcn 0xAB 3 0x456 7 0x89C),
     (0xC6AB, 0x3456, 0x789C, .pshh 0xAB 3 0x456 7 0x89C), (0xC7AB, 0x3456, 0x789C, .poph 0xAB 3 0x456 7 0x89C),
     (0xC8AB, 0x3456, 0x789C, .fill 0xAB 3 0x456 7 0x89C), (0xC9AB, 0x3456, 0x789C, .nc 0xAB 3 0x456 7 0x89C),
     (0xCAAB, 0x3456, 0x789C, .oc 0xAB 3 0x456 7 0x89C), (0xCBAB, 0x3456, 0x789C, .xc 0xAB 3 0x456 7 0x89C),
     (0xCCAB, 0x3456, 0x789C, .stl 0xAB 3 0x456 7 0x89C), (0xCDAB, 0x3456, 0x789C, .str 0xAB 3 0x456 7 0x89C),
     (0xCEAB, 0x3456, 0x789C, .tr 0xAB 3 0x456 7 0x89C), (0xCFAB, 0x3456, 0x789C, .clc 0xAB 3 0x456 7 0x89C)] :
    List (Word × Word × Word × Instr)).all decodesTo = true := by decide

theorem test_decode_VSSL : (
    [(0xD012, 0x3456, 0x789C, .slel 1 2 3 0x456 7 0x89C), (0xD112, 0x3456, 0x789C, .srel 1 2 3 0x456 7 0x89C),
     (0xD212, 0x3456, 0x789C, .slnel 1 2 3 0x456 7 0x89C), (0xD312, 0x3456, 0x789C, .srnel 1 2 3 0x456 7 0x89C),
     (0xD412, 0x3456, 0x789C, .mvcl 1 2 3 0x456 7 0x89C), (0xD512, 0x3456, 0x789C, .mvcnl 1 2 3 0x456 7 0x89C),
     (0xD612, 0x3456, 0x789C, .pshhl 1 2 3 0x456 7 0x89C), (0xD712, 0x3456, 0x789C, .pophl 1 2 3 0x456 7 0x89C),
     (0xD812, 0x3456, 0x789C, .filll 1 2 3 0x456 7 0x89C), (0xD912, 0x3456, 0x789C, .ncl 1 2 3 0x456 7 0x89C),
     (0xDA12, 0x3456, 0x789C, .ocl 1 2 3 0x456 7 0x89C), (0xDB12, 0x3456, 0x789C, .xcl 1 2 3 0x456 7 0x89C),
     (0xDC12, 0x3456, 0x789C, .stll 1 2 3 0x456 7 0x89C), (0xDD12, 0x3456, 0x789C, .strl 1 2 3 0x456 7 0x89C),
     (0xDE12, 0x3456, 0x789C, .trl 1 2 3 0x456 7 0x89C), (0xDF12, 0x3456, 0x789C, .clcl 1 2 3 0x456 7 0x89C)] :
    List (Word × Word × Word × Instr)).all decodesTo = true := by decide

theorem test_decode_FSS : (
    [(0xF0AB, 0x3456, 0x789C, .ch 0xAB 3 0x456 7 0x89C), (0xF1AB, 0x3456, 0x789C, .svcd 0xAB 3 0x456 7 0x89C),
     (0xF2AB, 0x3456, 0x789C, .mva 0xAB 3 0x456 7 0x89C), (0xF3AB, 0x3456, 0x789C, .mvh 0xAB 3 0x456 7 0x89C),
     (0xF4AB, 0x3456, 0x789C, .ah 0xAB 3 0x456 7 0x89C), (0xF5AB, 0x3456, 0x789C, .sh 0xAB 3 0x456 7 0x89C),
     (0xF6AB, 0x3456, 0x789C, .mh 0xAB 3 0x456 7 0x89C), (0xF7AB, 0x3456, 0x789C, .dh 0xAB 3 0x456 7 0x89C),
     (0xF8AB, 0x3456, 0x789C, .enq 0xAB 3 0x456 7 0x89C), (0xF9AB, 0x3456, 0x789C, .srch 0xAB 3 0x456 7 0x89C),
     (0xFBAB, 0x3456, 0x789C, .clh 0xAB 3 0x456 7 0x89C)] :
    List (Word × Word × Word × Instr)).all decodesTo = true := by decide

/-- Unassigned codes, the codes R92 leaves undetermined, and halfwords that end early are rejected by name. -/
theorem test_decode_rejects :
    decode 0x3E00 0 0 = .error (.unassigned 0x3E) ∧ decode 0x0000 0 0 = .error (.unassigned 0x00) ∧
    decode 0x8E00 0 0 = .error (.undetermined 0x8E) ∧ decode 0xFF00 0 0 = .error (.undetermined 0xFF) ∧
    decodeBytes [0x73] = .error .truncated ∧ decodeBytes [0x73, 0x20, 0x80] = .error .truncated := by decide

/-- Words as spec/opcode_table.json numbers them, one of each length. -/
theorem test_decode_tableWords :
    decodeTableWord 16 0x3343 = some (.lr 4 3) ∧ decodeTableWord 32 0x73208010 = some (.l 2 0 8 0x010) ∧
    decodeTableWord 32 0xC4058010 = some (.mvc 5 8 0x010 0 0) ∧ decodeTableWord 16 0x3E00 = none := by decide

/-! ## One step on a small state -/

/-- A state whose next instruction has these halfwords. -/
def placed (code : List Word) (regs : List (Reg × Word)) (msr : Word := 0) (halves : List (Word × Word) := [])
    (bytes : List (Word × Byte) := []) (at_ : Word := 0x100) : State :=
  let s := halves.foldl (fun s p => s.writeHalf p.1 p.2) (State.reset.writeHalves at_ code)
  let t := bytes.foldl (fun s p => s.setByte p.1 p.2) s
  (((t.writeRegs regs).setReg 0 msr).setReg 1 at_).settled

/-- No unit's store falls among the reads of such a state's step (log 50). -/
theorem placed_undisturbed (code : List Word) (regs : List (Reg × Word)) (msr : Word) (halves : List (Word × Word))
    (bytes : List (Word × Byte)) (at_ : Word) : Undisturbed (placed code regs msr halves bytes at_) := rfl

/-- Whether a step answers a next state with these registers, halfwords, bytes and condition code. -/
def ends (s : State) (regs : List (Reg × Word)) (halves : List (Word × Word) := []) (bytes : List (Word × Byte) := [])
    (cc : Option (Bool × Bool × Bool) := none) : Bool :=
  match step s with
  | .next t =>
    regs.all (fun p => t.stored p.1 == p.2) && halves.all (fun p => t.readHalf p.1 == p.2) &&
      bytes.all (fun p => t.byteAt p.1 == p.2) && (cc.all fun c => c == (t.c0, t.c1, t.c2))
  | _ => false

/-! ### The spec's vectors -/

theorem test_ret_P8 :
    ends (placed [0x0B00] [(15, 0x400)] (halves := [(0x400, 0), (0x402, 0x422), (0x422, 0xDE)]))
      [] (halves := [(0xE, 0x400), (0x10, 0x102), (0x12, 6)]) = true := by decide
theorem test_ret_RET :
    ends (placed [0x0B00] [(15, 0x422), (2, 0xBEEF)] (halves := [(0x400, 0), (0x402, 0x422), (0x422, 0x400), (0x424,
        0x44A), (0x44A, 0xB6), (0x42A, 0x1234), (0x440, 0x10C)]))
      [(15, 0x400), (2, 0x1234), (13, 0x10C), (1, 0x10C)] (halves := [(0x422, 0xDE), (0x424, 0)]) = true := by decide
theorem test_lpr_L19 : ends (placed [0x0C23] [(3, 0xFFFE)]) [(2, 2)] (cc := some (false, false, false)) = true := by decide
theorem test_lpr_L20 :
    ends (placed [0x0C23] [(3, 0x8000)])
      [(2, 0x8000)] (cc := some (false, true, false)) = true := by decide
theorem test_lnr_L21 :
    ends (placed [0x0D23] [(3, 3)] (msr := 0x4000))
      [(2, 0xFFFD)] (cc := some (false, true, false)) = true := by decide
theorem test_lnr_L22 : ends (placed [0x0D23] [(3, 0x8000)]) [(2, 0x8000)] = true := by decide
theorem test_lcr_L16 :
    ends (placed [0x0E23] [(3, 5)] (msr := 0x4000))
      [(2, 0xFFFB)] (cc := some (false, false, false)) = true := by decide
theorem test_lcr_L18 :
    ends (placed [0x0E23] [(3, 0x8000), (2, 0x1111)] (msr := 0x0080))
      [(2, 0x1111)] (halves := [(0xE, 0x4480), (0x10, 0x102), (0x12, 8)]) = true := by decide
theorem test_lxbr_B6 : ends (placed [0x0F23] [(3, 0x12AB)]) [(2, 0xAB12)] = true := by decide
theorem test_stdr_S1 :
    ends (placed [0x1227] [(2, 0xCAFE), (7, 0x200)])
      [] (bytes := [(0x200, 0xCA), (0x201, 0xFE)]) = true := by decide
theorem test_ldr_L5 : ends (placed [0x1327] [(7, 0x200)] (halves := [(0x200, 0xBEEF)])) [(2, 0xBEEF)] = true := by decide
theorem test_ldr_L6 :
    ends (placed [0x1327] [(7, 0x101)])
      [(2, 0)] (halves := [(0xE, 0x400), (0x10, 0x102), (0x12, 0xE)]) = true := by decide
theorem test_sior_P18 :
    ends (placed [0x1645] [(5, 0x4800)] (msr := 0x0100) (halves := [(0x42, 0x700)]))
      [] (halves := [(0xE, 0x500), (0x10, 0x102), (0x12, 0x1A), (0x50, 9)]) = true := by decide
theorem test_sior_SIOR :
    ends (placed [0x1645] [(4, 0x400), (5, 0x2A08)] (msr := 0x0100) (halves := [(0x3A, 0x700), (0x700, 5)]))
      [(1, 0x102)] (halves := [(0x400, 0), (0x702, 0)]) (cc := some (false, false, true)) = true := by decide
theorem test_sd_H19 :
    ends (placed [0x1720] [(2, 7), (3, 0x7FFF)])
      [(2, 0), (3, 7)] (cc := some (false, false, false)) = true := by decide
theorem test_sd_H20 : ends (placed [0x17F0] []) [] (halves := [(0xE, 0x400), (0x10, 0x102), (0x12, 0x10)]) = true := by decide
theorem test_slli_B24 :
    ends (placed [0x1821] [(2, 0x8001)] (msr := 0xC000))
      [(2, 2)] (cc := some (true, true, true)) = true := by decide
theorem test_srli_B25 :
    ends (placed [0x1921] [(2, 0x8001)])
      [(2, 0x4000)] (cc := some (false, false, true)) = true := by decide
theorem test_sldli_B29 :
    ends (placed [0x1A28] [(2, 0x1234), (3, 0xABCD)])
      [(2, 0x34AB), (3, 0xCD00)] (cc := some (false, false, false)) = true := by decide
theorem test_sldli_B31 :
    ends (placed [0x1A2F] [(2, 1), (3, 0x8000)])
      [(2, 0xC000), (3, 0)] (cc := some (false, false, false)) = true := by decide
theorem test_srdli_B30 :
    ends (placed [0x1B28] [(2, 0x1234), (3, 0xABCD)])
      [(2, 0x12), (3, 0x34AB)] (cc := some (false, false, true)) = true := by decide
theorem test_slai_H3 :
    ends (placed [0x1C21] [(2, 0x4000)] (msr := 0x0080))
      [(2, 0x4000)] (halves := [(0xE, 0x6480), (0x12, 8)]) = true := by decide
theorem test_slai_H5 :
    ends (placed [0x1C21] [(2, 0xBFFF)])
      [(2, 0xFFFE)] (cc := some (false, true, false)) = true := by decide
theorem test_srai_H10 :
    ends (placed [0x1D21] [(2, 0x8001)] (msr := 0x4000))
      [(2, 0xC000)] (cc := some (false, true, true)) = true := by decide
theorem test_sldai_H13 :
    ends (placed [0x1E21] [(3, 0x8000)])
      [(2, 1), (3, 0)] (cc := some (false, false, false)) = true := by decide
theorem test_sldai_H14 :
    ends (placed [0x1E21] [(2, 0x4000)])
      [(2, 0), (3, 0)] (cc := some (false, true, true)) = true := by decide
theorem test_srdai_H16 :
    ends (placed [0x1F24] [(2, 0xFFFF), (3, 0xFF08)])
      [(2, 0xFFFF), (3, 0xFFF0)] (cc := some (false, false, true)) = true := by decide
theorem test_lx_L1 : ends (placed [0x235F] []) [(5, 0xF)] = true := by decide
theorem test_ax_A5 : ends (placed [0x242F] [(2, 0x7FF8)]) [(2, 0x8007)] (cc := some (false, true, false)) = true := by decide
theorem test_ax_A6 : ends (placed [0x2421] [(2, 9)]) [(2, 0xA)] (cc := some (false, false, false)) = true := by decide
theorem test_sx_A16 : ends (placed [0x2521] []) [(2, 0xFFFF)] (cc := some (false, false, false)) = true := by decide
theorem test_bczr_J10 : ends (placed [0x2687] [(7, 0x300)] (msr := 0x4000)) [(1, 0x300)] = true := by decide
theorem test_bcor_J16 : ends (placed [0x2747] [(7, 0x300)]) [(1, 0x102)] = true := by decide
theorem test_balr_J18 : ends (placed [0x28E0] [] (at_ := 0x200)) [(14, 0x202), (1, 0x202)] = true := by decide
theorem test_balr_J19 : ends (placed [0x2877] [(7, 0x300)] (at_ := 0x200)) [(7, 0x202), (1, 0x300)] = true := by decide
theorem test_tbpr_J1 : ends (placed [0x2927] [(2, 1), (7, 0x300)]) [(1, 0x300)] = true := by decide
theorem test_tbpr_J2 : ends (placed [0x2927] [(7, 0x300)]) [(1, 0x102)] = true := by decide
theorem test_tbmr_J4 : ends (placed [0x2C27] [(2, 0x8000), (7, 0x301)]) [(1, 0x301)] = true := by decide
theorem test_bctr_J22 : ends (placed [0x2F37] [(3, 1), (7, 0x300)]) [(3, 0), (1, 0x102)] = true := by decide
theorem test_bctr_J24 : ends (placed [0x2F37] [(3, 0x8000), (7, 0x300)]) [(3, 0x7FFF), (1, 0x300)] = true := by decide
theorem test_cr_A28 :
    ends (placed [0x3023] [(2, 0x8000), (3, 0x7FFF)])
      [] (cc := some (false, false, true)) = true := by decide
theorem test_cr_A29 : ends (placed [0x3022] [(2, 5)]) [] (cc := some (true, false, false)) = true := by decide
theorem test_svc_I1 :
    ends (placed [0x3105] [] (msr := 0xA008) (halves := [(0xA, 0x100), (0xC, 0x300)]))
      [(1, 0x300)] (halves := [(4, 0xA408), (6, 0x102), (8, 5)]) (cc := some (false, false, false)) = true := by decide
theorem test_svc_I2 :
    ends (placed [0x31FF] [] (halves := [(0xA, 0x100), (0xC, 0x300)]))
      [] (halves := [(8, 0xFF)]) = true := by decide
theorem test_tmr_G30 : ends (placed [0x3223] [(2, 0xF0), (3, 0x30)]) [] (cc := some (false, true, false)) = true := by decide
theorem test_tmr_G31 : ends (placed [0x3223] [(2, 0xF0)]) [] (cc := some (true, false, false)) = true := by decide
theorem test_lr_L2 : ends (placed [0x3341] []) [(4, 0x102)] = true := by decide
theorem test_lr_L4 : ends (placed [0x3307] [(7, 0xA100)]) [] (cc := some (true, false, true)) = true := by decide
theorem test_ar_A2 :
    ends (placed [0x3423] [(2, 0x7FFF), (3, 1)] (msr := 0x0080))
      [(2, 0x7FFF)] (halves := [(0xE, 0x4480), (0x10, 0x102), (0x12, 8)]) = true := by decide
theorem test_ar_A3 :
    ends (placed [0x3423] [(2, 0xFFFF), (3, 1)] (msr := 0x4000))
      [(2, 0)] (cc := some (false, false, false)) = true := by decide
theorem test_sr_A14 :
    ends (placed [0x3523] [(2, 0x8000), (3, 1)])
      [(2, 0x7FFF)] (cc := some (false, true, false)) = true := by decide
theorem test_sr_A15 : ends (placed [0x3522] [(2, 0x1234)]) [(2, 0)] (cc := some (false, false, false)) = true := by decide
theorem test_mr_M3 :
    ends (placed [0x3623] [(2, 0x8000), (3, 0x8000)])
      [(2, 0x4000), (3, 0)] (cc := some (false, true, false)) = true := by decide
theorem test_mr_M6 : ends (placed [0x36F2] []) [] (halves := [(0xE, 0x400), (0x10, 0x102), (0x12, 0x10)]) = true := by decide
theorem test_dr_M10 : ends (placed [0x3724] [(2, 0xFFFF), (3, 0xFF9C), (4, 7)]) [(2, 0xFFF2), (3, 0xFFFE)] = true := by decide
theorem test_dr_M12 :
    ends (placed [0x3724] [(2, 1), (3, 2)] (msr := 0x4000))
      [(2, 1), (3, 2)] (halves := [(0xE, 0x4400), (0x10, 0x102), (0x12, 0xC)]) = true := by decide
theorem test_swpr_S12 : ends (placed [0x3823] [(2, 1), (3, 2)]) [(2, 2), (3, 1)] = true := by decide
theorem test_swpr_S13 : ends (placed [0x3817] [(7, 0x300)]) [(7, 0x102), (1, 0x300)] = true := by decide
theorem test_nr_G17 :
    ends (placed [0x3923] [(2, 0xF0F), (3, 0xFF)])
      [(2, 0xF)] (cc := some (false, false, false)) = true := by decide
theorem test_nr_G18 :
    ends (placed [0x3923] [(2, 0xF0F0), (3, 0xF0F)] (msr := 0x6000))
      [(2, 0)] (cc := some (true, true, true)) = true := by decide
theorem test_or_G22 : ends (placed [0x3A23] []) [] (cc := some (true, false, false)) = true := by decide
theorem test_xr_G25 : ends (placed [0x3B22] [(2, 0x1234)]) [(2, 0)] (cc := some (true, false, false)) = true := by decide
theorem test_alr_A21 :
    ends (placed [0x3C23] [(2, 0xFFFF), (3, 1)])
      [(2, 0)] (cc := some (false, true, false)) = true := by decide
theorem test_alr_A22 :
    ends (placed [0x3C23] [(2, 0x7FFF), (3, 1)] (msr := 0x0080))
      [(2, 0x8000)] (cc := some (false, false, false)) = true := by decide
theorem test_slr_A25 : ends (placed [0x3D23] [(3, 1)]) [(2, 0xFFFF)] (cc := some (false, false, false)) = true := by decide
theorem test_slr_A24 : ends (placed [0x3D23] [(2, 5), (3, 5)]) [(2, 0)] (cc := some (false, true, false)) = true := by decide
theorem test_clr_G1 : ends (placed [0x3F23] [(2, 0xFFFF), (3, 1)]) [] (cc := some (false, true, false)) = true := by decide
theorem test_deq_K19 :
    ends (placed [0x4860, 0x9000] [(9, 0x600), (4, 0x1000), (2, 0x20)] (msr := 0x8000) (halves := [(0x600, 0), (0x602, 2),
        (0x604, 1), (0x606, 0x8400), (0x1010, 0x20), (0x1020, 0x30), (0x1022, 0xC100), (0x1030, 0), (0x1032, 0xC200)]))
      [] (halves := [(0x1020, 0)]) (cc := some (false, false, false)) = true := by decide
theorem test_deq_K20 :
    ends (placed [0x4860, 0x9000] [(9, 0x600), (4, 0x1000), (2, 0x20)] (halves := [(0x600, 0), (0x602, 2), (0x604, 1),
        (0x606, 0x8400), (0x1010, 0x20), (0x1020, 0), (0x1022, 0xC100), (0x1030, 0), (0x1032, 0xC200)]))
      [] (halves := [(0x1020, 0)]) (cc := some (true, false, false)) = true := by decide
theorem test_lp_L24 :
    ends (placed [0x4C20, 0x8000] [(8, 0x400)] (halves := [(0x400, 0x8001)]))
      [(2, 0x7FFF)] (cc := some (false, false, false)) = true := by decide
theorem test_ln_L25 :
    ends (placed [0x4D20, 0x8000] [(8, 0x400)] (halves := [(0x400, 0x7FFF)]))
      [(2, 0x8001)] = true := by decide
theorem test_lc_L23 :
    ends (placed [0x4E20, 0x8000] [(8, 0x400)] (halves := [(0x400, 0xFFFF)]))
      [(2, 1)] (cc := some (false, false, false)) = true := by decide
theorem test_lxb_B7 :
    ends (placed [0x4F20, 0x8000] [(8, 0x400), (9, 0x500)] (halves := [(0x400, 0x102)]))
      [(2, 0x201)] = true := by decide
theorem test_cvb_M21 :
    ends (placed [0x5040, 0x8000] [(8, 0x400)] (bytes := [(0x400, 0x40), (0x401, 0x40), (0x402, 0x60), (0x403, 0xF1),
        (0x404, 0xF2), (0x405, 0xF3), (0x406, 0x6B)]))
      [(4, 0xFF85), (2, 0x406)] (cc := some (false, false, true)) = true := by decide
theorem test_cvb_M24 :
    ends (placed [0x5040, 0x8000] [(8, 0x400)] (bytes := [(0x400, 0xF3), (0x401, 0xF2), (0x402, 0xF7), (0x403, 0xF6),
        (0x404, 0xF8), (0x405, 0x40)]))
      [(2, 0x405)] (cc := some (false, true, false)) = true := by decide
theorem test_cvd_M28 :
    ends (placed [0x5140, 0x8000] [(8, 0x400), (4, 0xFF85)])
      [(2, 0x402), (3, 4)] (bytes := [(0x400, 0x40), (0x401, 0x40), (0x402, 0x60), (0x403, 0xF1), (0x404, 0xF2), (0x405,
        0xF3)]) = true := by decide
theorem test_cvd_M30 :
    ends (placed [0x5140, 0x8000] [(8, 0x400), (4, 0x8000)])
      [(2, 0x400), (3, 6)] (bytes := [(0x400, 0x60), (0x401, 0xF3), (0x402, 0xF2), (0x403, 0xF7), (0x404, 0xF6), (0x405,
        0xF8)]) = true := by decide
theorem test_std_S6 :
    ends (placed [0x5220, 0x8000] [(8, 0x400), (2, 9)] (halves := [(0x400, 0x500)]))
      [] (halves := [(0x500, 9)]) = true := by decide
theorem test_ld_L11 :
    ends (placed [0x5320, 0x8000] [(8, 0x400)] (halves := [(0x400, 0x500), (0x500, 0xAAAA)]))
      [(2, 0xAAAA)] = true := by decide
theorem test_ld_L12 :
    ends (placed [0x5320, 0x8000] [(8, 0x400)] (halves := [(0x400, 0x501)]))
      [] (halves := [(0xE, 0x800), (0x10, 0x104), (0x12, 0xE)]) = true := by decide
theorem test_ex_J30 :
    ends (placed [0x5430, 0x8000] [(3, 5), (8, 0x400), (6, 0x500), (7, 0x600)] (halves := [(0x400, 0xC400), (0x402,
        0x6000), (0x404, 0x7000)]) (bytes := [(0x600, 1), (0x601, 2), (0x602, 3), (0x603, 4), (0x604, 5), (0x605, 6)]))
      [(1, 0x104)] (halves := [(0x400, 0xC400)]) (bytes := [(0x500, 1), (0x501, 2), (0x502, 3), (0x503, 4), (0x504, 5),
        (0x505, 0)]) = true := by decide
theorem test_ex_J31 :
    ends (placed [0x5400, 0x8000] [(8, 0x400), (2, 4)] (halves := [(0x400, 0x2421)]))
      [(2, 5), (1, 0x104)] = true := by decide
theorem test_ib_B1 :
    ends (placed [0x5820, 0x8000] [(8, 0x400), (9, 0x500), (2, 0x1234)] (bytes := [(0x400, 0xAB)]))
      [(2, 0x12AB)] = true := by decide
theorem test_stb_B2 :
    ends (placed [0x5920, 0x8001] [(8, 0x400), (9, 0x500), (2, 0x12AB)])
      [] (halves := [(0x400, 0xAB)]) = true := by decide
theorem test_lb_L14 : ends (placed [0x5A20, 0x8001] [(8, 0x400)] (bytes := [(0x401, 0x80)])) [(2, 0x80)] = true := by decide
theorem test_lb_wrap : ends (placed [0x5A20, 0x8000] [(8, 0x8005)] (bytes := [(5, 7)])) [(2, 7)] = true := by decide
theorem test_lsb_L13 :
    ends (placed [0x5B20, 0x8001] [(8, 0x400)] (bytes := [(0x401, 0x80)]))
      [(2, 0xFF80)] = true := by decide
theorem test_sa_B10 : ends (placed [0x5C20, 0x0004] [(2, 0x10)]) [(2, 0xC)] = true := by decide
theorem test_sa_B11 : ends (placed [0x5C20, 0x2000] [(2, 0x1234)]) [(2, 0)] = true := by decide
theorem test_la_B8 : ends (placed [0x5D23, 0x8010] [(3, 2), (8, 0x1000)]) [(2, 0x1012)] = true := by decide
theorem test_la_B9 : ends (placed [0x5D20, 0x8FFF] [(8, 0xF001)]) [(2, 0)] = true := by decide
theorem test_lz_L15 :
    ends (placed [0x5E80, 0x8000] [(8, 0x400)] (halves := [(0x400, 0x1234)]))
      [(8, 0x1234)] (halves := [(0x400, 0)]) = true := by decide
theorem test_clb_G4 :
    ends (placed [0x5F20, 0x8000] [(2, 0x12C1), (8, 0x400)] (bytes := [(0x400, 0xC1)]))
      [] (cc := some (true, false, false)) = true := by decide
theorem test_c_A31 :
    ends (placed [0x7020, 0x8000] [(2, 0x7FFF), (8, 0x400)] (halves := [(0x400, 0x8000)]))
      [] (cc := some (false, true, false)) = true := by decide
theorem test_st_S4 : ends (placed [0x7220, 0x8000] [(8, 0x8004), (2, 0x123)]) [] (halves := [(4, 0x123)]) = true := by decide
theorem test_st_S15 :
    ends (placed [0x7220, 0x8001] [(8, 0x400), (2, 5)])
      [] (halves := [(0xE, 0x800), (0x10, 0x104), (0x12, 0xE), (0x400, 0)]) = true := by decide
theorem test_l_L9 :
    ends (placed [0x7323, 0x8010] [(3, 2), (8, 0x1000)] (halves := [(0x1012, 0xFF)]))
      [(2, 0xFF)] = true := by decide
theorem test_l_L10 :
    ends (placed [0x7320, 0x8001] [(8, 0x400), (2, 0x9999)])
      [(2, 0x9999)] (halves := [(0xE, 0x800), (0x10, 0x104), (0x12, 0xE)]) = true := by decide
theorem test_a_A8 : ends (placed [0x7420, 0x8010] [(2, 1), (8, 0x400)] (halves := [(0x410, 2)])) [(2, 3)] = true := by decide
theorem test_s_A18 :
    ends (placed [0x7520, 0x8000] [(2, 5), (8, 0x400)] (halves := [(0x400, 7)]))
      [(2, 0xFFFE)] (cc := some (false, false, false)) = true := by decide
theorem test_swp_S14 :
    ends (placed [0x7820, 0x8000] [(8, 0x400), (2, 1)] (halves := [(0x400, 2)]))
      [(2, 2)] (halves := [(0x400, 1)]) = true := by decide
theorem test_n_G20 :
    ends (placed [0x7920, 0x8000] [(2, 0xFFFF), (8, 0x400)] (halves := [(0x400, 0x8001)]))
      [(2, 0x8001)] = true := by decide
theorem test_cl_G3 :
    ends (placed [0x7F20, 0x8000] [(2, 5), (8, 0x400)] (halves := [(0x400, 5)]))
      [] (cc := some (true, false, false)) = true := by decide
theorem test_chi_A32 :
    ends (placed [0x8080, 0x8000] [(8, 0x400)] (halves := [(0x400, 0xFF80)]))
      [] (cc := some (true, false, false)) = true := by decide
theorem test_chi_A33 :
    ends (placed [0x8080, 0x8000] [(8, 0x400)] (halves := [(0x400, 0x80)]))
      [] (cc := some (false, true, false)) = true := by decide
theorem test_svcs_I3 :
    ends (placed [0x8107, 0x8100] [(8, 0x400), (9, 0x500)] (msr := 0xA008) (halves := [(0xA, 0x100), (0xC, 0x300)]))
      [(2, 0x500)] (halves := [(4, 0xA808), (6, 0x104), (8, 7)]) = true := by decide
theorem test_tmbi_G33 :
    ends (placed [0x8280, 0x8000] [(8, 0x400), (9, 0x500)] (bytes := [(0x400, 0x7F)]))
      [] (cc := some (true, false, false)) = true := by decide
theorem test_mvhi_S9 : ends (placed [0x8380, 0x8000] [(8, 0x400)]) [] (halves := [(0x400, 0xFF80)]) = true := by decide
theorem test_mvhi_S10 : ends (placed [0x837F, 0x8000] [(8, 0x400)]) [] (halves := [(0x400, 0x7F)]) = true := by decide
theorem test_ahi_A10 :
    ends (placed [0x84FF, 0x8000] [(8, 0x400)] (halves := [(0x400, 0x7FFF)]))
      [] (halves := [(0x400, 0x80FE)]) (cc := some (false, true, false)) = true := by decide
theorem test_ahi_A11 :
    ends (placed [0x84FF, 0x8000] [(8, 0x400)] (msr := 0x0080) (halves := [(0x400, 0x7FFF)]))
      [] (halves := [(0x400, 0x7FFF), (0xE, 0x4880), (0x12, 8)]) = true := by decide
theorem test_shi_A19 :
    ends (placed [0x8501, 0x8000] [(8, 0x400)])
      [] (halves := [(0x400, 0xFFFF)]) (cc := some (false, false, false)) = true := by decide
theorem test_tsl_G34 :
    ends (placed [0x8780, 0x8000] [(8, 0x400), (9, 0x500)])
      [] (bytes := [(0x400, 0x80)]) (cc := some (true, false, false)) = true := by decide
theorem test_tsl_G35 :
    ends (placed [0x8780, 0x8000] [(8, 0x400), (9, 0x500)] (bytes := [(0x400, 0x80)]))
      [] (bytes := [(0x400, 0x80)]) (cc := some (false, true, false)) = true := by decide
theorem test_nbi_G21 :
    ends (placed [0x890F, 0x8000] [(8, 0x400), (9, 0x500)] (bytes := [(0x400, 0xF0)]))
      [] (bytes := [(0x400, 0)]) (cc := some (true, false, false)) = true := by decide
theorem test_obi_G24 :
    ends (placed [0x8A80, 0x8000] [(8, 0x400), (9, 0x500)] (bytes := [(0x400, 1)]))
      [] (bytes := [(0x400, 0x81)]) (cc := some (false, false, false)) = true := by decide
theorem test_xbi_G26 :
    ends (placed [0x8BFF, 0x8000] [(8, 0x400), (9, 0x500)] (bytes := [(0x400, 0xF)]))
      [] (bytes := [(0x400, 0xF0)]) = true := by decide
theorem test_mvbi_G11 :
    ends (placed [0x8C40, 0x8000] [(8, 0x400), (9, 0x500)])
      [] (bytes := [(0x400, 0x40)]) = true := by decide
theorem test_clbi_G5 :
    ends (placed [0x8F40, 0x8000] [(8, 0x400), (9, 0x500)] (bytes := [(0x400, 0xC1)]))
      [] (cc := some (false, true, false)) = true := by decide
theorem test_stmd_S8 :
    ends (placed [0x9023, 0x8000] [(8, 0x400), (2, 1), (3, 2)] (halves := [(0x400, 0x500)]))
      [] (halves := [(0x500, 1), (0x502, 2)]) = true := by decide
theorem test_lmd_L31 :
    ends (placed [0x9123, 0x8000] [(8, 0x400)] (halves := [(0x400, 0x500), (0x500, 0x11), (0x502, 0x22)]))
      [(2, 0x11), (3, 0x22)] = true := by decide
theorem test_lm_L28 :
    ends (placed [0x93F1, 0x8000] [(8, 0x400)] (halves := [(0x400, 0x600), (0x402, 0x2000), (0x404, 0x300)]))
      [(15, 0x600), (1, 0x300)] (cc := some (false, false, true)) = true := by decide
theorem test_lm_L30 :
    ends (placed [0x9332, 0x8000] [(8, 0x400)] (halves := [(0x400, 0x1000), (0x402, 0x1001), (0x404, 0x1002), (0x406,
        0x1003), (0x408, 0x1004), (0x40A, 0x1005), (0x40C, 0x1006), (0x40E, 0x1007), (0x410, 0x1008), (0x412, 0x1009),
        (0x414, 0x100A), (0x416, 0x100B), (0x418, 0x100C), (0x41A, 0x100D), (0x41C, 0x100E), (0x41E, 0x100F)]))
      [(3, 0x1000), (4, 0x1001), (5, 0x1002), (6, 0x1003), (7, 0x1004), (8, 0x1005), (9, 0x1006), (10, 0x1007), (11,
        0x1008), (12, 0x1009), (13, 0x100A), (14, 0x100B), (15, 0x100C), (2, 0x100F), (1, 0x100E)] = true := by decide
theorem test_pshm_K1 :
    ends (placed [0x9623, 0x9000] [(9, 0x500), (2, 0x1111), (3, 0x2222)] (halves := [(0x500, 0x5FE), (0x502, 0x600),
        (0x504, 0x60E)]))
      [] (halves := [(0x600, 0x1111), (0x602, 0x2222), (0x500, 0x602)]) (cc := some (false, false, false)) = true := by decide
theorem test_pshm_K7 :
    ends (placed [0x962A, 0x9000] [(9, 0x500)] (msr := 0x0040) (halves := [(0x500, 0x5FE), (0x502, 0x600), (0x504, 0x60E)]))
      [] (halves := [(0x500, 0x5FE), (0xE, 0x4840), (0x12, 0x14)]) = true := by decide
theorem test_popm_K2 :
    ends (placed [0x9745, 0x9000] [(9, 0x500)] (halves := [(0x500, 0x602), (0x502, 0x600), (0x504, 0x60E), (0x600, 0x1111),
        (0x602, 0x2222)]))
      [(4, 0x1111), (5, 0x2222)] (halves := [(0x500, 0x5FE)]) (cc := some (false, false, false)) = true := by decide
theorem test_popm_K3 :
    ends (placed [0x9744, 0x9000] [(9, 0x500), (4, 0x1111)] (halves := [(0x500, 0x5FE), (0x502, 0x600), (0x504, 0x60E)]))
      [(4, 0x1111)] (halves := [(0x500, 0x5FE)]) (cc := some (false, true, false)) = true := by decide
theorem test_sll_B26 : ends (placed [0x9820, 0x0010] [(2, 1)]) [(2, 0)] (cc := some (false, false, true)) = true := by decide
theorem test_sll_B27 : ends (placed [0x9820, 0x0011] [(2, 1)]) [(2, 0)] (cc := some (false, false, false)) = true := by decide
theorem test_srl_B28 :
    ends (placed [0x9920, 0x0010] [(2, 0x8000)])
      [(2, 0)] (cc := some (false, false, true)) = true := by decide
theorem test_srdl_B32 :
    ends (placed [0x9B20, 0x001F] [(2, 0x8000), (3, 1)])
      [(2, 0), (3, 1)] (cc := some (false, false, false)) = true := by decide
theorem test_sla_H8 : ends (placed [0x9C20, 0x0021] [(2, 3)]) [(2, 6)] (cc := some (false, false, false)) = true := by decide
theorem test_slda_H15 :
    ends (placed [0x9E20, 0x001F] [(3, 1)])
      [(2, 0), (3, 0)] (cc := some (false, true, true)) = true := by decide +kernel
theorem test_bxh_J29 :
    ends (placed [0xA024, 0xFFF8] [(2, 0xA), (4, 0xFFFE)] (at_ := 0x108))
      [(2, 8), (1, 0x104)] = true := by decide
theorem test_bxle_J27 :
    ends (placed [0xA124, 0xFFF8] [(4, 2), (5, 6)] (at_ := 0x108))
      [(2, 2), (1, 0x104)] = true := by decide
theorem test_bxle_J28 : ends (placed [0xA125, 0xFFF8] [(5, 2)] (at_ := 0x108)) [(2, 2), (1, 0x104)] = true := by decide
theorem test_bcz_J11 : ends (placed [0xA660, 0x0010] [] (msr := 0x8000)) [(1, 0x114)] = true := by decide
theorem test_bcz_J12 : ends (placed [0xA660, 0x0010] [] (msr := 0x2000)) [(1, 0x104)] = true := by decide
theorem test_bco_J13 : ends (placed [0xA780, 0xFFF8] [] (msr := 0x8000) (at_ := 0x110)) [(1, 0x10C)] = true := by decide
theorem test_bco_J15 : ends (placed [0xA700, 0x0004] []) [(1, 0x108)] = true := by decide
theorem test_bal_J20 : ends (placed [0xA8E0, 0x0100] [] (at_ := 0x200)) [(14, 0x204), (1, 0x304)] = true := by decide
theorem test_tbz_J7 : ends (placed [0xAA20, 0x0006] []) [(1, 0x10A)] = true := by decide
theorem test_tbnm_J9 : ends (placed [0xAB20, 0x0004] [(2, 0x8000)]) [(1, 0x104)] = true := by decide
theorem test_tbm_J5 : ends (placed [0xAC23, 0x0000] [(2, 0xFFFF), (3, 0x10)]) [(1, 0x114)] = true := by decide
theorem test_tbnz_J6 : ends (placed [0xAD20, 0xFFFA] [(2, 1)] (at_ := 0x106)) [(1, 0x104)] = true := by decide
theorem test_tbnp_J8 : ends (placed [0xAE20, 0xFFFC] []) [(1, 0x100)] = true := by decide
theorem test_bct_J26 : ends (placed [0xAF30, 0xFFFC] [(3, 3)]) [(3, 2), (1, 0x100)] = true := by decide
theorem test_ci_A30 : ends (placed [0xB002, 0xFFFF] []) [] (cc := some (false, true, false)) = true := by decide
theorem test_stdi_S2 :
    ends (placed [0xB192, 0x0300] [(2, 0x1111), (9, 0x2222)])
      [] (halves := [(0x300, 0x1111)]) = true := by decide
theorem test_tmi_G32 : ends (placed [0xB202, 0x8001] [(2, 0x8000)]) [] (cc := some (false, false, true)) = true := by decide
theorem test_li_L7 : ends (placed [0xB369, 0x1234] [(9, 0x5555)]) [(6, 0x1234), (9, 0x5555)] = true := by decide
theorem test_ai_A7 :
    ends (placed [0xB423, 0xFFFF] [(3, 5)])
      [(2, 4), (3, 5)] (cc := some (false, false, false)) = true := by decide
theorem test_si_A17 : ends (placed [0xB522, 0x8000] []) [(2, 0x8000)] (cc := some (false, true, false)) = true := by decide
theorem test_mi_M7 : ends (placed [0xB642, 0x000A] [(2, 7)]) [(4, 0), (5, 0x46), (2, 7)] = true := by decide
theorem test_di_M18 : ends (placed [0xB742, 0x000A] [(3, 0x7B)]) [(4, 0xC), (5, 3), (2, 0), (3, 0x7B)] = true := by decide
theorem test_ldi_L8 : ends (placed [0xB820, 0x0300] [] (halves := [(0x300, 7)])) [(2, 7)] = true := by decide
theorem test_ni_G19 :
    ends (placed [0xB923, 0x00FF] [(3, 0x1234)])
      [(2, 0x34)] (cc := some (false, false, false)) = true := by decide
theorem test_ali_A23 :
    ends (placed [0xBC22, 0x8000] [(2, 0x8000)])
      [(2, 0)] (cc := some (false, true, false)) = true := by decide
theorem test_ent_P7 :
    ends (placed [0xBE00, 0x0100] [(15, 0x400)] (halves := [(0x400, 0), (0x402, 0x422), (0x422, 0xDE)]))
      [] (halves := [(0xE, 0x800), (0x10, 0x104), (0x12, 4), (0x422, 0xDE)]) = true := by decide
theorem test_cli_G2 : ends (placed [0xBF02, 0x8000] [(2, 0x7FFF)]) [] (cc := some (false, false, true)) = true := by decide
theorem test_sle_B18 :
    ends (placed [0xC005, 0x8004, 0x006B] [(8, 0x400), (9, 0x800)] (bytes := [(0x400, 0x40), (0x401, 0xF1), (0x402, 0x6B),
        (0x403, 0xF2), (0x404, 0x6B), (0x86B, 1)]))
      [(2, 0x404)] (cc := some (false, false, true)) = true := by decide
theorem test_sre_B17 :
    ends (placed [0xC105, 0x8000, 0x006B] [(8, 0x400), (9, 0x800)] (bytes := [(0x400, 0x40), (0x401, 0xF1), (0x402, 0x6B),
        (0x403, 0xF2), (0x404, 0x6B), (0x86B, 1)]))
      [(2, 0x402)] (cc := some (false, false, true)) = true := by decide
theorem test_sre_B21 :
    ends (placed [0xC105, 0x8000, 0x00C1] [(8, 0x400), (9, 0x800), (2, 0x7777)] (msr := 0x2000) (bytes := [(0x400, 0x40),
        (0x401, 0xF1), (0x402, 0x6B), (0x403, 0xF2), (0x404, 0x6B), (0x86B, 1)]))
      [(2, 0x7777)] (cc := some (false, false, false)) = true := by decide
theorem test_slne_B20 :
    ends (placed [0xC205, 0x8004, 0x006B] [(8, 0x400), (9, 0x800)] (bytes := [(0x400, 0x40), (0x401, 0xF1), (0x402, 0x6B),
        (0x403, 0xF2), (0x404, 0x6B), (0x86B, 1)]))
      [(2, 0x403)] (cc := some (false, false, true)) = true := by decide
theorem test_srne_B19 :
    ends (placed [0xC305, 0x8000, 0x0040] [(8, 0x400), (9, 0x800)] (bytes := [(0x400, 0x40), (0x401, 0xF1), (0x402, 0x6B),
        (0x403, 0xF2), (0x404, 0x6B), (0x86B, 1)]))
      [(2, 0x401)] (cc := some (false, false, true)) = true := by decide
theorem test_mvc_G12 :
    ends (placed [0xC404, 0x8000, 0x9000] [(8, 0x400), (9, 0x500)] (bytes := [(0x500, 1), (0x501, 2), (0x502, 3), (0x503,
        4)]))
      [] (bytes := [(0x400, 1), (0x401, 2), (0x402, 3), (0x403, 4)]) = true := by decide
theorem test_mvc_G13 :
    ends (placed [0xC404, 0x8000, 0x8001] [(8, 0x400), (9, 0x500)] (bytes := [(0x400, 1), (0x401, 2), (0x402, 3), (0x403,
        4), (0x404, 5)]))
      [] (bytes := [(0x400, 2), (0x401, 3), (0x402, 4), (0x403, 5), (0x404, 5)]) = true := by decide
theorem test_mvcn_G15 :
    ends (placed [0xC504, 0x8001, 0x8000] [(8, 0x400), (9, 0x500)] (bytes := [(0x400, 1), (0x401, 2), (0x402, 3), (0x403,
        4), (0x404, 5)]))
      [] (bytes := [(0x400, 1), (0x401, 1), (0x402, 2), (0x403, 3), (0x404, 4)]) = true := by decide
theorem test_pshh_K8 :
    ends (placed [0xC603, 0x8000, 0x9000] [(8, 0x400), (9, 0x500)] (halves := [(0x500, 0x5FE), (0x502, 0x600), (0x504,
        0x60E), (0x400, 0xAABB), (0x402, 0xCCDD)]))
      [] (halves := [(0x600, 0xAABB), (0x602, 0xCCDD), (0x500, 0x602)]) (cc := some (false, false, false)) = true := by decide
theorem test_pshh_K10 :
    ends (placed [0xC602, 0x8001, 0x9000] [(8, 0x400), (9, 0x500)] (halves := [(0x500, 0x5FE), (0x502, 0x600), (0x504,
        0x60E)]))
      [] (halves := [(0xE, 0xC00), (0x10, 0x106), (0x12, 0xE)]) = true := by decide
theorem test_poph_K9 :
    ends (placed [0xC704, 0x8000, 0x9000] [(8, 0x420), (9, 0x500)] (halves := [(0x500, 0x602), (0x502, 0x600), (0x504,
        0x60E), (0x600, 0xAABB), (0x602, 0xCCDD)]))
      [] (halves := [(0x420, 0xAABB), (0x422, 0xCCDD), (0x500, 0x5FE)]) (cc := some (false, false, false)) = true := by decide
theorem test_fill_B3 :
    ends (placed [0xC803, 0x8000, 0x0040] [(8, 0x400), (9, 0x500)])
      [] (bytes := [(0x400, 0x40), (0x401, 0x40), (0x402, 0x40), (0x403, 0)]) = true := by decide
theorem test_fill_B4 :
    ends (placed [0xC802, 0x8000, 0x91FF] [(8, 0x400), (9, 2)])
      [] (bytes := [(0x400, 1), (0x401, 1), (0x402, 0)]) = true := by decide
theorem test_nc_G28 :
    ends (placed [0xC900, 0x8000, 0x9000] [(8, 0x400), (9, 0x500)])
      [] (cc := some (true, false, false)) = true := by decide
theorem test_oc_G29 :
    ends (placed [0xCA02, 0x8000, 0x9000] [(8, 0x400), (9, 0x500)] (bytes := [(0x501, 1)]))
      [] (bytes := [(0x400, 0), (0x401, 1)]) (cc := some (false, false, false)) = true := by decide
theorem test_xc_G27 :
    ends (placed [0xCB04, 0x8000, 0x8000] [(8, 0x400), (9, 0x500)] (bytes := [(0x400, 1), (0x401, 2), (0x402, 3), (0x403,
        4)]))
      [] (bytes := [(0x400, 0), (0x401, 0), (0x402, 0), (0x403, 0)]) (cc := some (true, false, false)) = true := by decide
theorem test_stl_B15 :
    ends (placed [0xCC05, 0x8004, 0x9000] [(8, 0x400), (9, 0x800)] (bytes := [(0x400, 0x40), (0x401, 0xF1), (0x402, 0x6B),
        (0x403, 0xF2), (0x404, 0x6B), (0x86B, 1)]))
      [(3, 1), (2, 0x404)] (cc := some (false, false, true)) = true := by decide
theorem test_str_B14 :
    ends (placed [0xCD05, 0x8000, 0x9000] [(8, 0x400), (9, 0x800)] (bytes := [(0x400, 0x40), (0x401, 0xF1), (0x402, 0x6B),
        (0x403, 0xF2), (0x404, 0x6B), (0x86B, 1)]))
      [(3, 1), (2, 0x402)] (cc := some (false, false, true)) = true := by decide
theorem test_str_B16 :
    ends (placed [0xCD02, 0x8000, 0x9000] [(8, 0x400), (9, 0x800), (2, 0x7777), (3, 0x8888)] (bytes := [(0x400, 0x40),
        (0x401, 0xF1), (0x402, 0x6B), (0x403, 0xF2), (0x404, 0x6B), (0x86B, 1)]))
      [(3, 0x8888), (2, 0x7777)] (cc := some (false, false, false)) = true := by decide
theorem test_tr_B13 :
    ends (placed [0xCE03, 0x8000, 0x9000] [(8, 0x400), (9, 0x800)] (bytes := [(0x400, 0), (0x401, 1), (0x402, 2), (0x800,
        0xF0), (0x801, 0xF1), (0x802, 0xF2)]))
      [] (bytes := [(0x400, 0xF0), (0x401, 0xF1), (0x402, 0xF2)]) = true := by decide
theorem test_clc_G7 :
    ends (placed [0xCF03, 0x8000, 0x9000] [(8, 0x400), (9, 0x500)] (bytes := [(0x400, 0xC1), (0x401, 0xC2), (0x402, 0xC3),
        (0x500, 0xC1), (0x501, 0xC2), (0x502, 0xC4)]))
      [(2, 0x402)] (cc := some (false, false, true)) = true := by decide
theorem test_clc_G8 :
    ends (placed [0xCF03, 0x8000, 0x9000] [(8, 0x400), (9, 0x500), (2, 0x7777)] (bytes := [(0x400, 0xC1), (0x401, 0xC2),
        (0x402, 0xC3), (0x500, 0xC1), (0x501, 0xC2), (0x502, 0xC3)]))
      [(2, 0x7777)] (cc := some (true, false, false)) = true := by decide
theorem test_srel_B22 :
    ends (placed [0xD105, 0x8000, 0x006B] [(8, 0x400), (9, 0x800), (5, 2)] (bytes := [(0x400, 0x40), (0x401, 0xF1), (0x402,
        0x6B), (0x403, 0xF2), (0x404, 0x6B), (0x86B, 1)]))
      [] (cc := some (false, false, false)) = true := by decide
theorem test_filll_B5 :
    ends (placed [0xD805, 0x8000, 0x0000] [(8, 0x400), (9, 0x500)])
      [] (bytes := [(0x400, 0)]) = true := by decide
theorem test_clcl_G10 :
    ends (placed [0xDF05, 0x8000, 0x9000] [(8, 0x400), (9, 0x500), (5, 2)] (bytes := [(0x400, 0xFF), (0x401, 0), (0x500,
        1), (0x501, 0xFF)]))
      [(2, 0x400)] (cc := some (false, true, false)) = true := by decide
theorem test_ch_A34 :
    ends (placed [0xF000, 0x8000, 0x8002] [(8, 0x400)] (halves := [(0x400, 1), (0x402, 2)]))
      [] (cc := some (false, false, true)) = true := by decide
theorem test_svcd_I4 :
    ends (placed [0xF102, 0x8000, 0x9004] [(8, 0x400), (9, 0x500)] (msr := 0xA008) (halves := [(0xA, 0x100), (0xC, 0x300)]))
      [(2, 0x400), (3, 0x504), (1, 0x300)] (halves := [(4, 0xAC08), (6, 0x106), (8, 2)]) = true := by decide
theorem test_mva_B12 :
    ends (placed [0xF200, 0x8000, 0x9123] [(8, 0x400), (9, 0x2000)])
      [] (halves := [(0x400, 0x2123)]) = true := by decide
theorem test_mvh_S11 :
    ends (placed [0xF300, 0x8000, 0x8002] [(8, 0x400)] (halves := [(0x402, 0x5A5A)]))
      [] (halves := [(0x400, 0x5A5A)]) = true := by decide
theorem test_ah_A12 :
    ends (placed [0xF400, 0x8000, 0x8002] [(8, 0x400)] (halves := [(0x400, 3), (0x402, 4)]))
      [] (halves := [(0x400, 7)]) = true := by decide
theorem test_ah_A13 :
    ends (placed [0xF400, 0x8000, 0x8001] [(8, 0x400)])
      [] (halves := [(0xE, 0xC00), (0x10, 0x106), (0x12, 0xE)]) = true := by decide
theorem test_sh_A20 :
    ends (placed [0xF500, 0x8000, 0x8000] [(8, 0x400)] (halves := [(0x400, 0x1234)]))
      [] (halves := [(0x400, 0)]) = true := by decide
theorem test_mh_M8 :
    ends (placed [0xF600, 0x8000, 0x8004] [(8, 0x400)] (halves := [(0x400, 0x12C), (0x404, 0x12C)]))
      [] (halves := [(0x400, 1), (0x402, 0x5F90)]) (cc := some (false, true, false)) = true := by decide
theorem test_dh_M19 :
    ends (placed [0xF700, 0x8000, 0x8004] [(8, 0x400)] (halves := [(0x400, 0), (0x402, 0x11), (0x404, 5)]))
      [] (halves := [(0x400, 3), (0x402, 2)]) = true := by decide
theorem test_enq_K21 :
    ends (placed [0xF800, 0x0030, 0x9000] [(9, 0x600), (4, 0x1000), (2, 0x10)] (halves := [(0x600, 0), (0x602, 2), (0x604,
        1), (0x606, 0x8400), (0x1010, 0x20), (0x1020, 0), (0x1022, 0xC100), (0x1030, 0), (0x1032, 0xC200)]))
      [] (halves := [(0x1030, 0x20), (0x1010, 0x30)]) = true := by decide
theorem test_srch_K12 :
    ends (placed [0xF900, 0x0700, 0x9000] [(9, 0x600), (4, 0x1000), (3, 3)] (halves := [(0x600, 4), (0x602, 0), (0x604, 2),
        (0x606, 0x400), (0x1000, 3), (0x1002, 0xAAAA), (0x1004, 7), (0x1006, 0xBBBB), (0x1008, 9), (0x100A, 0xCCCC),
        (0x700, 7)]))
      [(5, 4), (2, 0), (3, 2)] (cc := some (false, false, true)) = true := by decide
theorem test_srch_K22 :
    ends (placed [0xF900, 0x0700, 0x9000] [(9, 0x600), (4, 0x1000), (2, 0x10), (3, 0xA)] (halves := [(0x600, 0), (0x602,
        2), (0x604, 1), (0x606, 0x8400), (0x1010, 0x30), (0x1020, 0), (0x1022, 0xC100), (0x1030, 0x20), (0x1032, 0xC200),
        (0x700, 0xC300)]))
      [(5, 0x20), (2, 0x30), (3, 8)] (cc := some (true, false, false)) = true := by decide
theorem test_clh_G6 :
    ends (placed [0xFB00, 0x8000, 0x8002] [(8, 0x400), (9, 0x500)] (halves := [(0x400, 0x8000), (0x402, 0x7FFF)]))
      [] (cc := some (false, true, false)) = true := by decide

/-! ### Worked out by hand -/

theorem test_tbzr_hand : ends (placed [0x2A23] [(3, 0x300)]) [(1, 0x300)] = true := by decide
theorem test_tbnmr_hand : ends (placed [0x2B23] [(2, 0x8000), (3, 0x300)]) [(1, 0x102)] = true := by decide
theorem test_tbnzr_hand : ends (placed [0x2D23] [(2, 0x8000), (3, 0x300)]) [(1, 0x300)] = true := by decide
theorem test_tbnpr_hand : ends (placed [0x2E23] [(2, 0), (3, 0x300)]) [(1, 0x300)] = true := by decide
theorem test_tbp_hand : ends (placed [0xA920, 0x0004] [(2, 1)]) [(1, 0x108)] = true := by decide
theorem test_m_hand :
    ends (placed [0x7620, 0x8000] [(2, 0x12C), (8, 0x400)] (halves := [(0x400, 0x12C)]))
      [(2, 1), (3, 0x5F90)] (cc := some (false, true, false)) = true := by decide
theorem test_d_hand :
    ends (placed [0x7720, 0x8000] [(3, 0x11), (8, 0x400)] (halves := [(0x400, 5)]))
      [(2, 3), (3, 2)] (cc := some (false, false, false)) = true := by decide
theorem test_o_hand :
    ends (placed [0x7A20, 0x8000] [(2, 0xF00), (8, 0x400)] (msr := 0x8000) (halves := [(0x400, 0xF0)]))
      [(2, 0xFF0)] (cc := some (false, false, false)) = true := by decide
theorem test_x_hand :
    ends (placed [0x7B20, 0x8000] [(2, 0x1234), (8, 0x400)] (halves := [(0x400, 0x1234)]))
      [(2, 0)] (cc := some (true, false, false)) = true := by decide
theorem test_xi_hand :
    ends (placed [0xBB23, 0xFFFF] [(3, 0xFF)])
      [(2, 0xFF00)] (cc := some (false, false, false)) = true := by decide
theorem test_al_hand :
    ends (placed [0x7C20, 0x8000] [(2, 0xFFFF), (8, 0x400)] (halves := [(0x400, 2)]))
      [(2, 1)] (cc := some (false, true, false)) = true := by decide
theorem test_sl_hand :
    ends (placed [0x7D20, 0x8000] [(2, 1), (8, 0x400)] (msr := 0x4000) (halves := [(0x400, 2)]))
      [(2, 0xFFFF)] (cc := some (false, false, false)) = true := by decide
theorem test_sli_hand : ends (placed [0xBD23, 0x0001] [(3, 1)]) [(2, 0)] (cc := some (false, true, false)) = true := by decide
theorem test_sldl_hand :
    ends (placed [0x9A20, 0x0001] [(2, 0x8000), (3, 0x8001)])
      [(2, 1), (3, 2)] (cc := some (false, false, true)) = true := by decide
theorem test_slel_hand :
    ends (placed [0xD007, 0x8000, 0x0041] [(7, 3), (8, 0x402)] (bytes := [(0x400, 0x41), (0x401, 0x42), (0x402, 0x43)]))
      [(2, 0x400)] (cc := some (false, false, true)) = true := by decide
theorem test_slnel_hand :
    ends (placed [0xD207, 0x8000, 0x0041] [(7, 3), (8, 0x402)] (bytes := [(0x400, 0x43), (0x401, 0x41), (0x402, 0x41)]))
      [(2, 0x400)] (cc := some (false, false, true)) = true := by decide
theorem test_srnel_hand :
    ends (placed [0xD307, 0x8000, 0x0041] [(7, 3), (8, 0x400)] (bytes := [(0x400, 0x41), (0x401, 0x42)]))
      [(2, 0x401)] (cc := some (false, false, true)) = true := by decide
theorem test_mvcl_hand :
    ends (placed [0xD407, 0x8000, 0x9000] [(7, 3), (8, 0x400), (9, 0x500)] (bytes := [(0x500, 1), (0x501, 2), (0x502, 3),
        (0x503, 4)]))
      [] (bytes := [(0x400, 1), (0x401, 2), (0x402, 3), (0x403, 0)]) = true := by decide
theorem test_mvcnl_hand :
    ends (placed [0xD507, 0x8000, 0x9000] [(7, 2), (8, 0x501), (9, 0x500)] (bytes := [(0x500, 1), (0x501, 2)]))
      [] (bytes := [(0x500, 1), (0x501, 1), (0x502, 2)]) = true := by decide
theorem test_pshhl_hand :
    ends (placed [0xD607, 0x8000, 0x9000] [(7, 3), (8, 0x400), (9, 0x500)] (halves := [(0x400, 1), (0x402, 2), (0x500,
        0x600), (0x504, 0x604)]))
      [] (halves := [(0x602, 1), (0x604, 2), (0x500, 0x604)]) (cc := some (false, false, false)) = true := by decide
theorem test_pophl_hand :
    ends (placed [0xD707, 0x8000, 0x9000] [(7, 3), (8, 0x400), (9, 0x500)] (halves := [(0x500, 0x604), (0x502, 0x602),
        (0x602, 7), (0x604, 8)]))
      [] (halves := [(0x400, 7), (0x402, 8), (0x500, 0x600)]) (cc := some (false, false, false)) = true := by decide
theorem test_ncl_hand :
    ends (placed [0xD907, 0x8000, 0x9000] [(7, 2), (8, 0x400), (9, 0x500)] (halves := [(0x400, 0xF0F0), (0x500, 0x3C0F)]))
      [] (halves := [(0x400, 0x3000)]) (cc := some (false, false, false)) = true := by decide
theorem test_ocl_hand :
    ends (placed [0xDA07, 0x8000, 0x9000] [(7, 2), (8, 0x400), (9, 0x500)] (halves := [(0x400, 0xF000), (0x500, 0xF0F)]))
      [] (halves := [(0x400, 0xFF0F)]) (cc := some (false, false, false)) = true := by decide
theorem test_xcl_hand :
    ends (placed [0xDB07, 0x8000, 0x9000] [(7, 2), (8, 0x400), (9, 0x500)] (halves := [(0x400, 0xF00F), (0x500, 0xF00F)]))
      [] (halves := [(0x400, 0)]) (cc := some (true, false, false)) = true := by decide
theorem test_stll_hand :
    ends (placed [0xDC07, 0x8000, 0x9000] [(7, 3), (8, 0x402), (9, 0x500)] (bytes := [(0x401, 5), (0x505, 9)]))
      [(2, 0x401), (3, 9)] (cc := some (false, false, true)) = true := by decide
theorem test_strl_hand :
    ends (placed [0xDD07, 0x8000, 0x9000] [(7, 3), (8, 0x400), (9, 0x500)] (bytes := [(0x401, 5), (0x505, 9)]))
      [(2, 0x401), (3, 9)] (cc := some (false, false, true)) = true := by decide
theorem test_trl_hand :
    ends (placed [0xDE07, 0x8000, 0x9000] [(7, 1), (8, 0x400), (9, 0x500)] (bytes := [(0x400, 3), (0x503, 0x77)]))
      [] (bytes := [(0x400, 0x77)]) = true := by decide
theorem test_sio_hand :
    ends (placed [0x5600, 0x8000] [(8, 0x400)] (msr := 0x0100) (halves := [(0x400, 0x600), (0x402, 0x2A08), (0x3A, 0x700),
        (0x700, 5)]))
      [(1, 0x104)] (halves := [(0x600, 0), (0x702, 0)]) (cc := some (false, false, true)) = true := by decide
theorem test_sio_odd_hand :
    ends (placed [0x5600, 0x8001] [(8, 0x400)] (msr := 0x0100))
      [] (halves := [(0xE, 0x900), (0x10, 0x104), (0x12, 0xE)]) = true := by decide
theorem test_excc_privilege_hand :
    ends (placed [0x2200] [])
      [] (halves := [(0xE, 0x400), (0x10, 0x102), (0x12, 0x12)]) = true := by decide
theorem test_excc_ucb_hand :
    ends (placed [0x2210] [] (msr := 0x0100))
      [] (halves := [(0xE, 0x500), (0x12, 0x1C)]) = true := by decide
theorem test_trb_ucb_hand :
    ends (placed [0x6210, 0x0000] [] (msr := 0x0100) (halves := [(0x48, 0x701)]))
      [] (halves := [(0xE, 0x900), (0x10, 0x104), (0x12, 0x1C)]) = true := by decide
theorem test_ss_ucb_hand :
    ends (placed [0x5530, 0x0000] [] (msr := 0x0100))
      [] (halves := [(0xE, 0x900), (0x10, 0x104), (0x12, 0x1C)]) = true := by decide
theorem test_iost_privilege_hand : ends (placed [0x2053] []) [] (halves := [(0xE, 0x400), (0x12, 0x12)]) = true := by decide
theorem test_stm_hand :
    ends (placed [0x9224, 0x8000] [(8, 0x400), (2, 0xAAAA), (3, 0xBBBB), (4, 0x1234)])
      [] (halves := [(0x400, 0xAAAA), (0x402, 0xBBBB), (0x404, 0x1234), (0x406, 0)]) = true := by decide
theorem test_stm_odd_hand :
    ends (placed [0x9224, 0x8001] [(8, 0x400)])
      [] (halves := [(0xE, 0x800), (0x10, 0x104), (0x12, 0xE)]) = true := by decide
theorem test_oi_hand :
    ends (placed [0xBA23, 0x0100] [(3, 0xF)] (msr := 0x8000))
      [(2, 0x10F)] (cc := some (false, false, false)) = true := by decide
theorem test_sra_hand :
    ends (placed [0x9D20, 0x0022] [(2, 0x8006)])
      [(2, 0xE001)] (cc := some (false, false, true)) = true := by decide
theorem test_srda_hand :
    ends (placed [0x9F20, 0x0021] [(2, 0x8000), (3, 3)])
      [(2, 0xC000), (3, 1)] (cc := some (false, false, true)) = true := by decide


/-- IPL with switch 1 up: the CPU's next turn loads the record the S/360 sends at 0 and starts at what it begins with (R472, R473). -/
theorem test_ipl :
    let s := ({ State.reset with panel := { Panel.reset with switches := 0x4000 } }).apply (.panelIpl [1, 0, 2, 0, 7])
    s.panel.iplLight = true ∧
      (match step s with
        | .next t => t.msr == 0x0100 && t.pc == 0x200 && t.byteAt 4 == 7 && !t.panel.stopped && !t.panel.iplLight
        | _ => false) = true := by decide

/-- A unit's store to locations 0 to 3 behind the first `n` accesses of an IPL, four stores of a byte and two loads: the bytes stored
before it and not yet loaded are the unit's (R61, R473). -/
theorem test_ipl_unitStoreInside :
    ∀ n, n = 0 ∨ n = 3 ∨ n = 4 ∨ n = 5 ∨ n = 6 → (match step { State.reset with
        panel := { Panel.reset with ipl := some [1, 0, 2, 0] }
        schedule := [{ turns := 0, event := .memoryWrite 0 [0x20, 0, 3, 0], moment := .storing n }] } with
      | .next t => t.msr == (if 1 ≤ n ∧ n ≤ 4 then 0x2000 else 0x0100) && t.pc == (if 3 ≤ n ∧ n ≤ 5 then 0x300 else 0x200)
      | _ => false) = true := by rintro n (rfl | rfl | rfl | rfl | rfl) <;> decide

/-- RESET clears what is pending and stops the machine (R471). -/
theorem test_reset :
    let s := State.reset.setUnit 5 (LocalUnit.mk true false 0 none)
    (s.unit 5).request = true ∧ ((s.apply .panelReset).unit 5).request = false ∧
      (s.apply .panelReset).panel.stopped = true := by decide

/-- IOST with 11 in the low bits of R2 writes the T register (R388). -/
theorem test_iost_writesT :
    (match step (placed [0x2023] [(2, 0x1234)] (msr := 0x0100)) with
      | .next t => t.interface.tReg == 0x1234 && t.outputs == [.interfaceT 0x1234] && t.stored 2 == 0x1234
      | _ => false) = true := by decide

/-- A unit's store between the read and the store of LZ is lost: the register has the old halfword, memory 0 (R56, R110). -/
theorem test_lz_unitStoreInside :
    (match step { placed [0x5E20, 0x8000] [(8, 0x400)] (halves := [(0x400, 5)]) with
        schedule := [{ turns := 0, event := .memoryWrite 0x400 [0x12, 0x34], moment := .storing 0 }] } with
      | .next t => t.stored 2 == 5 && t.readHalf 0x400 == 0 && t.schedule.isEmpty
      | _ => false) = true := by decide

/-- A unit's store between the two operands' reads of CLC, the fifth and the sixth of the turn: the first sees 50, the second 34 (R61). -/
theorem test_clc_unitStoreInside :
    (match step { placed [0xCF01, 0x8000, 0x8001] [(8, 0x400)] (halves := [(0x400, 0x5000)]) with
        schedule := [{ turns := 0, event := .memoryWrite 0x400 [0x12, 0x34], moment := .reading 5 }] } with
      | .next t => (t.c0, t.c1, t.c2) == (false, true, false) && t.readHalf 0x400 == 0x1234
      | _ => false) = true := by decide

/-- A unit's store to the new PC after SVC's three stores and before its loads is what the PC is loaded with; after both loads it
is not (R61, R398). -/
theorem test_svc_unitStoreInside :
    (∀ n, n = 3 ∨ n = 5 → (match step { placed [0x3105] [] (halves := [(0x0C, 0x500)]) with
        schedule := [{ turns := 0, event := .memoryWrite 0x0C [0x06, 0x00], moment := .storing n }] } with
      | .next t => t.pc == (if n = 3 then 0x600 else 0x500) && t.readHalf 0x0C == 0x600
      | _ => false) = true) := by rintro n (rfl | rfl) <;> decide

/-- XC of a string with itself: a unit's halfword that falls between the store of its first byte and the reads of its second is what the
second is computed from, and stays in the first (R61, R259). -/
theorem test_xc_unitStoreInside :
    (match step { placed [0xCB02, 0x8000, 0x8000] [(8, 0x400)] (halves := [(0x400, 0x5060)]) with
        schedule := [{ turns := 0, event := .memoryWrite 0x400 [0x12, 0x34], moment := .reading 7 }] } with
      | .next t => t.readHalf 0x400 == 0x1200 && t.c0
      | _ => false) = true := by decide

/-- PSHH copies halfword by halfword: a unit's store to the second, which its first store has just filled, is what it copies on;
one between the read and the store of a halfword copied onto itself is lost (R61, R316). -/
theorem test_pshh_unitStoreInside :
    (match step { placed [0xC604, 0x8000, 0x9000] [(8, 0x500), (9, 0x400)]
        (halves := [(0x400, 0x500), (0x402, 0x502), (0x404, 0x600), (0x500, 7), (0x502, 8)]) with
        schedule := [{ turns := 0, event := .memoryWrite 0x502 [0x00, 0x09], moment := .storing 2 }] } with
      | .next t => t.readHalf 0x502 == 9 && t.readHalf 0x504 == 9 && t.readHalf 0x400 == 0x504
      | _ => false) = true ∧
    (match step { placed [0xC602, 0x8000, 0x9000] [(8, 0x502), (9, 0x400)]
        (halves := [(0x400, 0x500), (0x404, 0x600), (0x502, 8)]) with
        schedule := [{ turns := 0, event := .memoryWrite 0x502 [0x00, 0x09], moment := .storing 1 }] } with
      | .next t => t.readHalf 0x502 == 8
      | _ => false) = true := by decide

/-- A card read that completes after the numbered reads of PSHH has stored its columns before PSHH copies them, and a unit's store due
after it comes behind it, over the first of them (R61). -/
theorem test_pshh_completionInside :
    (match step { (placed [0xC604, 0x8000, 0x9000] [(8, 0x500), (9, 0x400)]
        (halves := [(0x400, 0x600), (0x404, 0x700), (0x500, 7), (0x502, 8)])).begin 4
          { address := 0x4FE, unit := 4, op := 0xC4, modifier := 0 } .cardRead 2 with
        schedule := [{ turns := 0, event := .complete 4 [0x123, 0x456] false false, moment := .reading 9 },
          { turns := 0, event := .memoryWrite 0x500 [0x00, 0x09], moment := .storing 0 }] } with
      | .next t => t.readHalf 0x602 == 9 && t.readHalf 0x604 == 0x4560 && t.readHalf 0x500 == 9 && (t.unit 4).request
      | _ => false) = true := by decide

/-- A unit's store after CVB's first read, the turn's fifth, ends the scan: one digit is converted (R61, R174). -/
theorem test_cvb_unitStoreInside :
    (match step { placed [0x5040, 0x8000] [(8, 0x400)] (halves := [(0x400, 0xF1F2), (0x402, 0xF300)]) with
        schedule := [{ turns := 0, event := .memoryWrite 0x400 [0, 0], moment := .reading 5 }] } with
      | .next t => t.stored 4 == 1 && t.stored 2 == 0x401 && t.c2
      | _ => false) = true := by decide

/-- A test-under-mask search does not fetch its argument again: a unit's store to it after the turn's ninth read is not seen, and the
second key is found by the old mask (R61, R328). -/
theorem test_srch_unitStoreInside :
    (match step { placed [0xF900, 0x9000, 0x8000] [(2, 0x700), (3, 2), (4, 0), (8, 0x400), (9, 0x500)]
        (halves := [(0x400, 4), (0x402, 2), (0x404, 2), (0x406, 0x0A00), (0x500, 1), (0x702, 2), (0x706, 1)]) with
        schedule := [{ turns := 0, event := .memoryWrite 0x500 [0x00, 0x02], moment := .reading 9 }] } with
      | .next t => (t.c0, t.c1, t.c2) == (false, false, true) && t.stored 5 == 0x704 && t.readHalf 0x500 == 2
      | _ => false) = true := by decide

/-- A unit's store to the I/O mask after the turn's first read: the mask test has seen the old one (R61, R418). -/
theorem test_mask_unitStoreInside :
    (match step { (placed [0x3343] [(3, 9)] (msr := 0x0008)).requestInterrupt 6 0x8000 with
        schedule := [{ turns := 0, event := .memoryWrite 0x2E [0x02, 0x00], moment := .reading 1 }] } with
      | .next t => t.stored 4 == 9 && t.readHalf 0x2E == 0x0200
      | _ => false) = true := by decide

/-- A character that arrives before the last one was read sets OR, bit 7 (R431). -/
theorem test_terminalOverrun :
    let s := (State.reset.apply (.terminalInput false 0x41 false)).apply (.terminalInput false 0x42 true)
    (s.unit 6).ush = 0x4300 ∧ s.terminal.input = 0x42 := by decide

/-- A disk write takes a halfword of its buffer before it completes (R61). -/
theorem test_diskTransferEarly :
    let s : State := (placed [] [] (halves := [(0x500, 2), (0x502, 7), (0x504, 8)])).begin 2 { address := 0x500, unit := 2, op := 0xA4, modifier := 0 }
      .diskTransfer 2
    ((s.apply (.transfer 2 1 0)).writeHalf 0x504 9).bufferData
      { iocc := { address := 0x500, unit := 2, op := 0xA4, modifier := 0 }, count := 2, moved := [(1, 8)] } = [7, 8] ∧
    (((s.apply (.transfer 2 1 0)).unit 2).operation.map Operation.moved) = some [(1, 8)] := by decide

/-- A disk write that takes a halfword while MVC stores into its buffer takes the two bytes already stored, and a unit's store right
after it stays (R61). -/
theorem test_diskTransferInsideMvc :
    (match step { (placed [0xC404, 0x8000, 0x9000] [(8, 0x500), (9, 0x600)] (halves := [(0x600, 0x0102), (0x602, 0x0304)])).begin 2
          { address := 0x4FE, unit := 2, op := 0xA4, modifier := 0 } .diskTransfer 2 with
        schedule := [{ turns := 0, event := .transfer 2 0 0, moment := .reading 8 },
          { turns := 0, event := .memoryWrite 0x500 [9, 9], moment := .reading 0 }] } with
      | .next t => t.readHalf 0x500 == 0x0909 && t.readHalf 0x502 == 0x0304 &&
          (t.unit 2).operation.map Operation.moved == some [(0, 0x0102)]
      | _ => false) = true := by decide

/-- START with the dials at DISPLAY and MEMORY DATA shows the halfword and steps the counter (R477). -/
theorem test_panelDisplay :
    let s := { placed [] [] (halves := [(0x500, 0xABCD)]) with
      panel := { Panel.reset with stopped := true, displayCounter := 0x500, registerSelect := .memoryData,
                                  modeSelect := .display } }
    (s.apply .panelStart).outputs = [.panelDisplay 0xABCD] ∧ (s.apply .panelStart).panel.displayCounter = 0x502 := by decide

/-- The disk's carriage is at cylinder 0 after reset, and its status says so (R433). -/
theorem test_diskAtCylinder0 : (State.reset.unit 2).ush = 0x0800 := by decide

/-! ## For every statement with hypotheses, states that meet them, each clause at a boundary -/

/-- A state with these registers, halfwords and bytes, and nothing placed at the PC. -/
def state (regs : List (Reg × Word)) (msr : Word := 0) (halves : List (Word × Word) := [])
    (bytes : List (Word × Byte) := []) : State := placed [] regs msr halves bytes

/-- Whether an outcome is a next state. -/
def isNext (r : Result) : Bool :=
  match r with
  | .next _ => true
  | _ => false

theorem next_of_isNext {r : Result} (h : isNext r = true) : ∃ t, r = .next t := by
  cases r <;> simp_all [isNext]

theorem not_refused_of_isNext {r : Result} (h : isNext r = true) (q : Refusal) : r ≠ .refused q := by
  cases r <;> simp_all [isNext]

theorem test_witness_EncodeInvertsDecode :
    decodeBytes [0x33, 0x43, 0xFF] = .ok (.lr 4 3, 2) ∧
    decodeBytes [0x9F, 0xFF, 0xFF, 0xFF] = .ok (.srda 15 15 15 0xFFF, 4) ∧
    decodeBytes [0xC4, 0x05, 0x80, 0x10, 0x90, 0x00] = .ok (.mvc 5 8 0x010 9 0, 6) := by decide

theorem test_witness_StepKeepsInvariant :
    ∃ s t : State, Machine.Inv s ∧ step s = .next t :=
  ⟨placed [0x7220, 0x8000] [(2, 5), (8, 0x7FFE)],
    (next_of_isNext (r := step (placed [0x7220, 0x8000] [(2, 5), (8, 0x7FFE)])) (by decide)).elim fun t h =>
      ⟨t, by unfold Machine.Inv; decide, h⟩⟩

theorem test_witness_StepRunsDecodedInstruction :
    (∃ s : State, Ready s ∧ s.nsi = none ∧
      decode s.firstHalf (s.readHalf (s.fetchAddress 1)) (s.readHalf (s.fetchAddress 2)) = .ok (.st 2 0 8 0) ∧
      Instr.wellFormed (.st 2 0 8 0) = true) ∧
    (∃ s : State, Ready s ∧ s.inhibit = true ∧ s.dueUnit = some 1 ∧
      decode s.firstHalf (s.readHalf (s.fetchAddress 1)) (s.readHalf (s.fetchAddress 2)) = .ok (.mvc 5 8 0x010 9 0)) ∧
    (∃ t : State, t.panel.runMode = .run) ∧ ∃ t : State, t.panel.runMode = .step :=
  ⟨⟨placed [0x7220, 0x8000] [(2, 5), (8, 0x7FFE)], by unfold Ready Turn; decide⟩,
    ⟨{ (placed [0xC405, 0x8010, 0x9000] [] (msr := 0x0008) (halves := [(0x2E, 0x4000)]) (at_ := 0x7FFC)).setUnit 1
        { request := true, offline := false, ush := 0, operation := none } with inhibit := true },
      by unfold Ready Turn; decide⟩,
    ⟨State.reset, by decide⟩,
    ⟨{ State.reset with panel := { Panel.reset with runMode := .step } }, by decide⟩⟩

theorem test_witness_ResetAndIpl :
    (∃ s : State, s.panel.ipl = some [] ∧ ∀ d ∈ s.schedule.head?, 0 < d.turns) ∧
    (∃ s : State, s.panel.ipl = some [1, 0, 2, 0] ∧ s.panel.stopped = true ∧ s.schedule ≠ [] ∧ ∀ d ∈ s.schedule.head?, 0 < d.turns) ∧
    (∃ (s : State) (u : Fin 11), (s.unit u).offline = false) :=
  ⟨⟨{ State.reset with panel := { Panel.reset with ipl := some [] } }, by decide⟩,
    ⟨{ State.reset with
        panel := { Panel.reset with stopped := true, ipl := some [1, 0, 2, 0] }
        schedule := [{ turns := 1, event := .panelStart }] }, by decide⟩,
    ⟨State.reset, 0, by decide⟩⟩

theorem test_witness_StoppedAndWaiting :
    (∃ s : State, s.panel.stopped = true ∧ Quiet s ∧ s.schedule ≠ []) ∧
    (∃ s : State, Turn s ∧ s.waiting = true ∧ s.inhibit = true) ∧
    (∃ s : State, Turn s ∧ s.waiting = true ∧ s.interface.selection = none ∧ s.dueUnit = none) :=
  ⟨⟨{ State.reset with
        panel := { Panel.reset with stopped := true }, schedule := [{ turns := 1, event := .panelStart }] }, by decide⟩,
    ⟨{ state [] 0x0200 with inhibit := true }, by unfold Turn; decide⟩, ⟨state [] 0x0200, by unfold Turn; decide⟩⟩

theorem test_witness_RegisterAccess : (1 : Reg) ≠ 0 ∧ (15 : Reg) ≠ 0 ∧ (2 : Reg) ≠ 3 ∧ (3 : Nat) ≠ 4 ∧ (6 : Nat) ≠ 5 := by
  decide

theorem test_witness_InterruptSequence_SupervisorCalls : State.reset.inExecute = false := by decide

theorem test_witness_UnassignedCodeTakesOperationInterrupt :
    (∃ s : State, Ready s ∧ s.fetched = .error (.unassigned 0x3E) ∧ s.inExecute = false) ∧
    (∃ s : State, Ready s ∧ s.fetched = .error (.unassigned 0x94)) ∧
    [opOf 0x3E12, opOf 0xBF12, opOf 0x9412, opOf 0x5F12, opOf 0xAF12, opOf 0x8112, opOf 0xFB12, opOf 0xCF12,
      opOf 0xDF12].map Format.ofOp = [.rr, .ri, .rs, .rx, .bx, .si, .fss, .vss, .vssLong] :=
  ⟨⟨placed [0x3E12] [], by unfold Ready Turn; decide⟩, ⟨placed [0x9412, 0x8000] [], by unfold Ready Turn; decide⟩,
    by decide⟩

theorem test_witness_OddHalfwordAddressesTrap :
    (∃ s : State, odd (s.reg 2) = true ∧ odd (0x0001 : Word) = true ∧ odd (0xFFFF : Word) = true) ∧
    (∃ s : State, odd (s.eaRX 0 8 1) = true ∧ (14 : Reg) ≠ 15 ∧ s.privileged = true) ∧
    (∃ s : State, Undisturbed s ∧ odd (s.eaRX 0 8 0) = false ∧ odd (s.readHalf (s.eaRX 0 8 0)) = true) ∧
    (∃ s : State, odd (s.ea 8 1) = true) ∧
    (∃ s : State, Undisturbed s ∧ odd (s.ea 8 0) = false ∧ odd (s.readHalf (s.ea 8 0)) = true) ∧
    (∃ s : State, odd (s.ea 8 1) = true ∧ odd (s.ea 8 0) = false) ∧
    (∃ s : State, odd (s.reg 15) = true) ∧
    (∃ s : State, Undisturbed s ∧ odd (s.ea 8 0) = false ∧ odd (s.ea 9 0) = false ∧ odd (s.readHalf (s.ea 9 0)) = true) :=
  ⟨⟨state [(2, 0xFFFF)], by decide⟩, ⟨state [(8, 0x400)] 0x0100, by decide⟩,
    ⟨state [(8, 0x400)] 0 [(0x400, 1)], by decide⟩, ⟨state [(8, 0xFFFE)], by decide⟩,
    ⟨state [(8, 0x7FFE)] 0 [(0x7FFE, 0xFFFF)], by decide⟩, ⟨state [(8, 0)], by decide⟩, ⟨state [(15, 1)], by decide⟩,
    ⟨state [(8, 0x400), (9, 0x500)] 0 [(0x500, 0x601)], by decide⟩⟩

theorem test_witness_PrivilegeBitOffTraps : ∃ s : State, s.privileged = false := ⟨state [] 0xFEFF, by decide⟩

theorem test_witness_ArithmeticOverflowTraps :
    (∃ s : State, Undisturbed s ∧ s.overflowMask = true ∧ fits16 ((s.reg 2).toInt + (s.reg 3).toInt) = false ∧
      fits16 ((s.reg 2).toInt + (1 : Reg).toNat) = false ∧ fits16 ((s.reg 2).toInt + (1 : Word).toInt) = false ∧
      odd (s.eaRX 0 8 0) = false ∧ fits16 ((s.reg 3).toInt + (s.readHalf (s.eaRX 0 8 0)).toInt) = false ∧
      odd (s.ea 8 0) = false ∧ fits16 ((s.readHalf (s.ea 8 0)).toInt + (1 : Byte).toNat) = false ∧
      odd (s.ea 8 2) = false ∧ fits16 ((s.readHalf (s.ea 8 0)).toInt + (s.readHalf (s.ea 8 2)).toInt) = false) ∧
    (∃ s : State, Undisturbed s ∧ s.overflowMask = true ∧ fits16 ((s.reg 2).toInt - (s.reg 3).toInt) = false ∧
      fits16 ((s.reg 2).toInt - (1 : Reg).toNat) = false ∧ fits16 (-(s.reg 2).toInt) = false ∧
      fits16 ((s.reg 2).toInt.natAbs : Int) = false ∧ fits16 ((s.reg 2).toInt - (1 : Word).toInt) = false ∧
      odd (s.eaRX 0 8 0) = false ∧ fits16 ((s.reg 4).toInt - (s.readHalf (s.eaRX 0 8 0)).toInt) = false ∧
      fits16 (-(s.readHalf (s.eaRX 0 8 0)).toInt) = false ∧
      fits16 ((s.readHalf (s.eaRX 0 8 0)).toInt.natAbs : Int) = false ∧
      odd (s.ea 8 0) = false ∧ fits16 ((s.readHalf (s.ea 8 0)).toInt - (1 : Byte).toNat) = false ∧
      odd (s.ea 8 2) = false ∧ fits16 ((s.readHalf (s.ea 8 0)).toInt - (s.readHalf (s.ea 8 2)).toInt) = false) :=
  ⟨⟨state [(2, 0x7FFF), (3, 1), (8, 0x400)] 0x0080 [(0x400, 0x7FFF), (0x402, 1)], by decide⟩,
    ⟨state [(2, 0x8000), (3, 1), (4, 0), (8, 0x400)] 0x0080 [(0x400, 0x8000), (0x402, 1)], by decide⟩⟩

theorem test_witness_MemoryLoads :
    ∃ s : State, Undisturbed s ∧ odd (s.eaRX 0 8 0) = false ∧ odd (s.readHalf (s.eaRX 0 8 0)) = false ∧ odd (s.reg 2) = false ∧
      odd (0xFFFE : Word) = false :=
  ⟨state [(8, 0x7FFE), (2, 0xFFFE)] 0 [(0x7FFE, 0x500)], by decide⟩

theorem test_witness_LoadAndZeroAndSwaps : ∃ s : State, odd (s.eaRX 0 8 0) = false := ⟨state [(8, 0xFFFE)], by decide⟩

theorem test_witness_LoadComplementAndPositive :
    (∃ s : State, fits16 (-(s.reg 2).toInt) = true ∧ fits16 ((s.reg 2).toInt.natAbs : Int) = true ∧
      s.overflowMask = true ∧ odd (s.eaRX 0 8 0) = false ∧ fits16 (-(s.readHalf (s.eaRX 0 8 0)).toInt) = true) ∧
    (∃ s : State, fits16 (-(s.reg 2).toInt) = false ∧ s.overflowMask = false ∧ odd (s.eaRX 0 8 0) = false ∧
      fits16 (-(s.readHalf (s.eaRX 0 8 0)).toInt) = false) :=
  ⟨⟨state [(2, 0x8001), (8, 0x400)] 0x0080 [(0x400, 0x8001)], by decide⟩,
    ⟨state [(2, 0x8000), (8, 0x400)] 0 [(0x400, 0x8000)], by decide⟩⟩

theorem test_witness_LoadMultiple_StoreMultiple :
    (∃ s : State, Undisturbed s ∧ odd (s.ea 8 0) = false ∧ odd (s.readHalf (s.ea 8 0)) = false) ∧
    (0 : Nat) < ((0 : Reg) - 0).toNat + 1 ∧ 15 < ((2 : Reg) - 3).toNat + 1 :=
  ⟨⟨state [(8, 0x7FFE)] 0 [(0x7FFE, 0xFFFE)], by decide⟩, by decide⟩

theorem test_witness_StoresAndMoves :
    ∃ s : State, odd (s.reg 2) = false ∧ odd (0 : Word) = false ∧ odd (s.eaRX 0 8 0) = false ∧
      odd (s.readHalf (s.eaRX 0 8 0)) = false ∧ odd (s.ea 8 0) = false ∧ odd (s.ea 9 0) = false :=
  ⟨state [(2, 0x7FFE), (8, 0x400), (9, 0xFFFE)] 0 [(0x400, 0x7FFE)], by decide⟩

theorem test_witness_AddAndSubtractRegister :
    (∃ s : State, fits16 ((s.reg 2).toInt + (s.reg 3).toInt) = true ∧ s.overflowMask = true ∧
      odd (s.eaRX 0 8 0) = false ∧ fits16 ((s.reg 2).toInt + (s.readHalf (s.eaRX 0 8 0)).toInt) = true) ∧
    (∃ s : State, fits16 ((s.reg 2).toInt - (s.reg 3).toInt) = false ∧ s.overflowMask = false ∧
      odd (s.eaRX 0 8 0) = false ∧ fits16 ((s.reg 2).toInt - (s.readHalf (s.eaRX 0 8 0)).toInt) = false) :=
  ⟨⟨state [(2, 0x7FFE), (3, 1), (8, 0x400)] 0x0080 [(0x400, 1)], by decide⟩,
    ⟨state [(2, 0x8000), (3, 1), (8, 0x400)] 0 [(0x400, 1)], by decide⟩⟩

theorem test_witness_AddAndSubtractMemory :
    (∃ s : State, Undisturbed s ∧ odd (s.ea 8 0) = false ∧ odd (s.ea 9 0) = false ∧ s.overflowMask = true ∧
      fits16 ((s.readHalf (s.ea 8 0)).toInt + (s.readHalf (s.ea 9 0)).toInt) = true ∧
      fits16 ((s.readHalf (s.ea 8 0)).toInt + (1 : Byte).toNat) = true) ∧
    (∃ s : State, Undisturbed s ∧ odd (s.ea 8 0) = false ∧ odd (s.ea 9 1) = true ∧ s.overflowMask = false ∧
      Instr.ahi 2 8 0 ∈ ([.ahi 2 8 0, .shi 2 8 0] : List Instr) ∧
      fits16 ((s.readHalf (s.ea 8 0)).toInt + (2 : Byte).toNat) = false) :=
  ⟨⟨state [(8, 0x400), (9, 0x500)] 0x0080 [(0x400, 0x7FFE), (0x500, 1)], by decide⟩,
    ⟨state [(8, 0x400)] 0 [(0x400, 0x7FFE)], by decide⟩⟩

theorem test_witness_LogicalAddAndSubtract_Compares :
    ∃ s : State, Undisturbed s ∧ odd (s.eaRX 0 8 0) = false ∧ (!odd (s.ea 8 0)) = true ∧ (!odd (s.ea 8 0) && !odd (s.ea 9 0)) = true :=
  ⟨state [(8, 0x7FFE), (9, 0xFFFE)], by decide⟩

theorem test_witness_StringCompare :
    (∃ s : State, Undisturbed s ∧ ∀ k,
      k < (4 : Byte).toNat → s.byteAt (s.ea 8 0 + BitVec.ofNat 16 k) = s.byteAt (s.ea 9 0 + BitVec.ofNat 16 k)) ∧
    (∃ s : State, Undisturbed s ∧ (3 : Nat) < (s.reg 5).toNat ∧
      (∀ j, j < 3 → s.byteAt (s.ea 8 0 + BitVec.ofNat 16 j) = s.byteAt (s.ea 9 0 + BitVec.ofNat 16 j)) ∧
      s.byteAt (s.ea 8 0 + BitVec.ofNat 16 3) ≠ s.byteAt (s.ea 9 0 + BitVec.ofNat 16 3)) ∧
    (∀ k : Nat, k < (0 : Byte).toNat → False) :=
  ⟨⟨state [(8, 0x400), (9, 0x500)], by decide⟩, ⟨state [(5, 4), (8, 0x400), (9, 0x500)] 0 [] [(0x403, 1)], by decide⟩,
    by simp⟩

theorem test_witness_Multiply :
    (14 : Reg) ≠ 15 ∧ ∃ s : State, Undisturbed s ∧ (!odd (s.eaRX 0 8 0)) = true ∧ odd (s.ea 8 0) = false ∧ odd (s.ea 9 0) = false :=
  ⟨by decide, state [(8, 0x7FFE), (9, 0x500)], by decide⟩

theorem test_witness_Divide :
    (14 : Reg) ≠ 15 ∧ decide ((14 : Reg) ≠ 15) = true ∧ (!odd (State.reset.eaRX 0 0 0)) = true ∧
    (∃ s : State, Undisturbed s ∧ (s.reg 3).toInt = 0 ∧ odd (s.ea 8 0) = false ∧ odd (s.ea 9 0) = false ∧
      (s.readHalf (s.ea 9 0)).toInt = 0) ∧
    (∃ s : State, Undisturbed s ∧ (s.reg 3).toInt ≠ 0 ∧ fits16 ((s.reg 14 ++ s.reg 15).toInt.tdiv (s.reg 3).toInt) = true ∧
      odd (s.ea 8 0) = false ∧ odd (s.ea 9 0) = false ∧ (s.readHalf (s.ea 9 0)).toInt ≠ 0 ∧
      fits16 ((s.readHalf (s.ea 8 0) ++ s.readHalf (s.ea 8 0 + 2)).toInt.tdiv (s.readHalf (s.ea 9 0)).toInt) = true) ∧
    (∀ b : Bool, ∃ s : State, Undisturbed s ∧ s.overflowMask = b ∧ (s.reg 3).toInt ≠ 0 ∧
      fits16 ((s.reg 14 ++ s.reg 15).toInt.tdiv (s.reg 3).toInt) = false ∧
      odd (s.ea 8 0) = false ∧ odd (s.ea 9 0) = false ∧ (s.readHalf (s.ea 9 0)).toInt ≠ 0 ∧
      fits16 ((s.readHalf (s.ea 8 0) ++ s.readHalf (s.ea 8 0 + 2)).toInt.tdiv (s.readHalf (s.ea 9 0)).toInt) = false) :=
  ⟨by decide, by decide, by decide, ⟨state [(8, 0x400), (9, 0x500)], by decide⟩,
    ⟨state [(14, 0), (15, 0x7FFF), (3, 1), (8, 0x400), (9, 0x500)] 0 [(0x402, 0x8000), (0x500, 0xFFFF)], by decide⟩,
    fun b => ⟨state [(14, 0), (15, 0x8000), (3, 1), (8, 0x400), (9, 0x500)] (if b then 0x0080 else 0) [(0x402, 0x8000),
      (0x500, 1)], by
      revert b; decide⟩⟩

/-- The hypotheses of ConvertToBinary on the string. -/
abbrev isNumber (s : State) (e : Word) (blanks : Nat) (neg : Bool) (ds : List Nat) : Prop :=
  blanks < 65536 ∧ ds.length < 65536 ∧ (∀ k, k < blanks → s.byteAt (e + BitVec.ofNat 16 k) = 0x40) ∧
  s.byteAt (e + BitVec.ofNat 16 blanks) ≠ 0x40 ∧ (neg = true ↔ s.byteAt (e + BitVec.ofNat 16 blanks) = 0x60) ∧
  (∀ k, (h : k < ds.length) → ds[k] < 10 ∧
    s.byteAt ((if neg then e + BitVec.ofNat 16 blanks + 1 else e + BitVec.ofNat 16 blanks) + BitVec.ofNat 16 k) =
      BitVec.ofNat 8 (0xF0 + ds[k])) ∧
  ((s.byteAt ((if neg then e + BitVec.ofNat 16 blanks + 1 else e + BitVec.ofNat 16 blanks) +
      BitVec.ofNat 16 ds.length)).toNat < 0xF0 ∨
    0xFA ≤ (s.byteAt ((if neg then e + BitVec.ofNat 16 blanks + 1 else e + BitVec.ofNat 16 blanks) +
      BitVec.ofNat 16 ds.length)).toNat)

theorem test_witness_ConvertToBinary :
    (∃ s : State, Undisturbed s ∧ isNumber s (s.eaRX 0 8 0) 1 true [] ∧ ([] : List Nat) = []) ∧
    (∃ s : State, Undisturbed s ∧ isNumber s (s.eaRX 0 8 0) 2 false [3, 2, 7, 6, 7] ∧ fits16 32767 = true) ∧
    (∃ s : State, Undisturbed s ∧ isNumber s (s.eaRX 0 8 0) 0 true [3, 2, 7, 6, 8] ∧ fits16 (-32768) = true) ∧
    (∀ b : Bool, ∃ s : State, Undisturbed s ∧ s.overflowMask = b ∧
      isNumber s (s.eaRX 0 8 0) 0 false [3, 2, 7, 6, 8] ∧ fits16 32768 = false) :=
  ⟨⟨state [(8, 0x400)] 0 [] [(0x400, 0x40), (0x401, 0x60), (0x402, 0xFA)], by decide⟩,
    ⟨state [(8, 0x400)] 0 [(0x400, 0x4040), (0x402, 0xF3F2), (0x404, 0xF7F6), (0x406, 0xF7EF)], by decide⟩,
    ⟨state [(8, 0x400)] 0 [(0x400, 0x60F3), (0x402, 0xF2F7), (0x404, 0xF6F8)], by decide⟩,
    fun b => ⟨state [(8, 0x400)] (if b then 0x0080 else 0) [(0x400, 0xF3F2), (0x402, 0xF7F6), (0x404, 0xF8FF)],
      by revert b; decide⟩⟩

theorem test_witness_LeftAlgebraicShifts :
    (14 : Reg) ≠ 15 ∧ (0 : Nat) < (1 : Reg).toNat ∧
    (∃ s : State, (s.ea 8 0x01F).toNat % 32 = 31 ∧
      ((List.range 1).any fun k => (s.reg 14).getMsbD (k + 1) != (s.reg 14).msb) = false ∧
      ((List.range 1).any fun k => (s.reg 14 ++ s.reg 15).getMsbD (k + 1) != (s.reg 14 ++ s.reg 15).msb) = false) ∧
    (∀ b : Bool, ∃ s : State, s.overflowMask = b ∧
      ((List.range 1).any fun k => (s.reg 14).getMsbD (k + 1) != (s.reg 14).msb) = true ∧
      ((List.range 1).any fun k => (s.reg 14 ++ s.reg 15).getMsbD (k + 1) != (s.reg 14 ++ s.reg 15).msb) = true) :=
  ⟨by decide, by decide, ⟨state [(14, 0x3FFF), (8, 0xFFE0)], by decide⟩,
    fun b => ⟨state [(14, 0x4000)] (if b then 0x0080 else 0), by revert b; decide⟩⟩

theorem test_witness_OtherShifts :
    (14 : Reg) ≠ 15 ∧ (0 : Nat) < (1 : Reg).toNat ∧ 0 < (State.reset.ea 0 0xFE1).toNat % 32 := by decide

theorem test_witness_BooleanRegisterAndByte : ∃ s : State, (!odd (s.eaRX 0 8 0)) = true := ⟨state [(8, 0x7FFE)], by decide⟩

theorem test_witness_BooleanStrings :
    (∃ s : State, Undisturbed s ∧ phys (s.ea 8 0) = phys (s.ea 9 0) ∧ (s.reg 5).toNat ≤ Config.memSize) ∧
    (∃ s : State, Undisturbed s ∧ ∀ k, k < 4 → ¬ Touched (s.ea 9 0) 4 (s.ea 8 0 + BitVec.ofNat 16 k)) :=
  ⟨⟨state [(8, 0x8400), (9, 0x400), (5, 0x8000)], by decide⟩,
    ⟨state [(8, 0x400), (9, 0x404)], by unfold Touched; decide⟩⟩

theorem test_witness_MovesAndFills :
    (∃ s : State, Undisturbed s ∧ let d := (s.ea 8 0 - s.ea 9 0).toNat
      d = 4 ∧ ¬ (0 < d ∧ d < 4) ∧ ¬ (0 < d % Config.memSize ∧ d % Config.memSize < 4)) ∧
      ∃ s : State, Undisturbed s ∧ let d := (s.ea 8 0 - s.ea 9 0).toNat
        ¬ (0 < d ∧ d < 0x8000) ∧ ¬ (0 < d % Config.memSize ∧ d % Config.memSize < 0x8000) :=
  ⟨⟨state [(8, 0x404), (9, 0x400)], rfl, by decide⟩, ⟨state [(8, 0x400), (9, 0x400)], rfl, by decide⟩⟩

theorem test_witness_Translate :
    ∃ s : State, Undisturbed s ∧ 3 < (4 : Byte).toNat ∧ (4 : Byte).toNat ≤ 3 + Config.memSize ∧
      ¬ Touched (s.ea 9 0) 256 (s.ea 8 0 + BitVec.ofNat 16 3) ∧
      ¬ Touched (s.ea 8 0) 4 (s.ea 9 0 + (s.byteAt (s.ea 8 0 + BitVec.ofNat 16 3)).setWidth 16) :=
  ⟨state [(8, 0x3FC), (9, 0x400)] 0 [] [(0x3FF, 0xFF)], by
    refine ⟨rfl, by decide, by decide, ?_, by unfold Touched; decide⟩
    rintro ⟨k, hk, h⟩
    simp only [phys, Config.memSize] at h
    rw [show (state [(8, 0x3FC), (9, 0x400)] 0 [] [(0x3FF, 0xFF)]).ea 9 0 = 0x400 by decide,
      show (state [(8, 0x3FC), (9, 0x400)] 0 [] [(0x3FF, 0xFF)]).ea 8 0 = 0x3FC by decide] at h
    simp at h
    omega⟩

theorem test_witness_TableScans :
    (∃ s : State, Undisturbed s ∧ ∀ k, k < (3 : Byte).toNat →
      s.byteAt (s.ea 9 0 + (s.byteAt (s.ea 8 0 + BitVec.ofNat 16 k)).setWidth 16) = 0) ∧
    (∃ s : State, Undisturbed s ∧ 2 < (s.reg 5).toNat ∧
      (∀ j, j < 2 → s.byteAt (s.ea 9 0 + (s.byteAt (s.ea 8 0 - BitVec.ofNat 16 j)).setWidth 16) = 0) ∧
      s.byteAt (s.ea 9 0 + (s.byteAt (s.ea 8 0 - BitVec.ofNat 16 2)).setWidth 16) ≠ 0) :=
  ⟨⟨state [(8, 0x400), (9, 0x500)], by decide⟩,
    ⟨state [(5, 3), (8, 0x402), (9, 0x500)] 0 [] [(0x400, 0xFF), (0x5FF, 1)], by decide⟩⟩

theorem test_witness_CharacterScans :
    (∃ s : State, Undisturbed s ∧ ∀ k,
      k < (3 : Byte).toNat → (s.byteAt (s.ea 8 0 + BitVec.ofNat 16 k) == (s.ea 9 0x041).extractLsb' 0 8) = false) ∧
    (∃ s : State, Undisturbed s ∧ 2 < (s.reg 5).toNat ∧
      (∀ j, j < 2 → (s.byteAt (s.ea 8 0 - BitVec.ofNat 16 j) != (s.ea 0 0).extractLsb' 0 8) = false) ∧
      (s.byteAt (s.ea 8 0 - BitVec.ofNat 16 2) != (s.ea 0 0).extractLsb' 0 8) = true) :=
  ⟨⟨state [(8, 0x400)], by decide⟩, ⟨state [(5, 3), (8, 0x402)] 0 [] [(0x400, 1)], by decide⟩⟩

theorem test_witness_Pushes :
    (∃ s : State, Undisturbed s ∧ odd (s.ea 8 0) = false ∧ odd (s.readHalf (s.ea 8 0)) = false ∧
      (s.readHalf (s.ea 8 0)).toNat + 2 * (((4 : Reg) - 2).toNat + 1) ≤ (s.readHalf (s.ea 8 0 + 4)).toNat ∧
      phys (s.readHalf (s.ea 8 0) + 2 + 2 * BitVec.ofNat 16 2) ≠ phys (s.ea 8 0) ∧
      odd (s.ea 9 0) = false ∧
        (s.readHalf (s.ea 8 0)).toNat + 2 * (((6 : Byte).toNat + 1) / 2) ≤ (s.readHalf (s.ea 8 0 + 4)).toNat ∧
      ∀ j, j < 6 → ¬ Touched (s.readHalf (s.ea 8 0) + 2) 6 (s.ea 9 0 + BitVec.ofNat 16 j)) ∧
    (∀ b : Bool, ∃ s : State, Undisturbed s ∧ s.stackMask = b ∧
      odd (s.ea 9 0) = false ∧ odd (s.ea 8 0) = false ∧ odd (s.readHalf (s.ea 8 0)) = false ∧
      (s.readHalf (s.ea 8 0 + 4)).toNat < (s.readHalf (s.ea 8 0)).toNat + 2 * (((4 : Reg) - 2).toNat + 1) ∧
      (s.readHalf (s.ea 8 0 + 4)).toNat < (s.readHalf (s.ea 8 0)).toNat + 2 * (((s.reg 5).toNat + 1) / 2)) :=
  ⟨⟨state [(8, 0x400), (9, 0x500)] 0 [(0x400, 0x600), (0x404, 0x606)], by unfold Touched; decide⟩,
    fun b => ⟨state [(5, 5), (8, 0x400), (9, 0x500)] (if b then 0x0040 else 0) [(0x400, 0x600), (0x404, 0x605)],
      by revert b; decide⟩⟩

theorem test_witness_Pops :
    (∃ s : State, Undisturbed s ∧ odd (s.ea 8 0) = false ∧ odd (s.readHalf (s.ea 8 0)) = false ∧
      (s.readHalf (s.ea 8 0 + 2)).toNat + 2 * (((4 : Reg) - 2).toNat + 1) ≤ (s.readHalf (s.ea 8 0)).toNat + 2 ∧
      0 ∉ regRange 2 (((4 : Reg) - 2).toNat + 1) ∧ odd (s.ea 9 0) = false ∧
      (s.readHalf (s.ea 8 0 + 2)).toNat + 2 * (((6 : Byte).toNat + 1) / 2) ≤ (s.readHalf (s.ea 8 0)).toNat + 2 ∧
      phys (s.ea 9 0) ≠ phys (s.ea 8 0) ∧
      ∀ j, j < 6 → ¬ Touched (s.ea 9 0) 6 (s.readHalf (s.ea 8 0) - 2 * BitVec.ofNat 16 3 + 2 + BitVec.ofNat 16 j)) ∧
    ((2 : Reg) + BitVec.ofNat 4 14 = 0 ∧ 14 < ((1 : Reg) - 2).toNat + 1) ∧
    (∀ b : Bool, ∃ s : State, Undisturbed s ∧ s.stackMask = b ∧
      odd (s.ea 9 0) = false ∧ odd (s.ea 8 0) = false ∧ odd (s.readHalf (s.ea 8 0)) = false ∧
      (s.readHalf (s.ea 8 0)).toNat + 2 < (s.readHalf (s.ea 8 0 + 2)).toNat + 2 * (((4 : Reg) - 2).toNat + 1) ∧
      (s.readHalf (s.ea 8 0)).toNat + 2 < (s.readHalf (s.ea 8 0 + 2)).toNat + 2 * (((s.reg 5).toNat + 1) / 2)) :=
  ⟨⟨state [(8, 0x400), (9, 0x500)] 0 [(0x400, 0x604), (0x402, 0x600)], by unfold Touched; decide⟩, by decide,
    fun b => ⟨state [(5, 5), (8, 0x400), (9, 0x500)] (if b then 0x0040 else 0) [(0x400, 0x602), (0x402, 0x600)],
      by revert b; decide⟩⟩

/-- An entry descriptor with a key of `n` bytes. -/
def descriptor (n : Nat) (flags : Byte) : Edb := { first := 4, keyDisp := 2, keyLength := n, flags := flags }

theorem test_witness_KeyMatching :
    (∃ s : State, Undisturbed s ∧ (descriptor 2 0x07).flags &&& 0x08 = 0 ∧
      ∀ j, j < 2 → s.byteAt (0x400 + BitVec.ofNat 16 j) = s.byteAt (0x500 + BitVec.ofNat 16 j)) ∧
    (∃ s : State, Undisturbed s ∧ (descriptor 2 0x07).flags &&& 0x08 = 0 ∧
      (∀ i, i < 1 → s.byteAt (0x400 + BitVec.ofNat 16 i) = s.byteAt (0x500 + BitVec.ofNat 16 i)) ∧
      (s.byteAt (0x500 + BitVec.ofNat 16 1)).toNat < (s.byteAt (0x400 + BitVec.ofNat 16 1)).toNat ∧
      (s.byteAt (0x600 + BitVec.ofNat 16 1)).toNat < (s.byteAt (0x400 + BitVec.ofNat 16 1)).toNat) ∧
    (∃ s : State, Undisturbed s ∧ (descriptor 2 0x0F).flags &&& 0x08 ≠ 0 ∧ (descriptor 2 0x0F).keyLength ≤ 2 ∧
      (∀ j, j < 2 → s.byteAt (0x600 + BitVec.ofNat 16 j) = 0) ∧
      (∀ j, j < 2 → s.byteAt (0x600 + BitVec.ofNat 16 j) &&& s.byteAt (0x500 + BitVec.ofNat 16 j) = 0) ∧
      (∀ j,
        j < 2 → s.byteAt (0x500 + BitVec.ofNat 16 j) &&& s.byteAt (0x500 + BitVec.ofNat 16 j) = s.byteAt (0x500 + BitVec.ofNat 16 j)) ∧
      (∃ j, j < 2 ∧ s.byteAt (0x500 + BitVec.ofNat 16 j) ≠ 0) ∧
      (∃ j, j < 2 ∧ s.byteAt (0x400 + BitVec.ofNat 16 j) &&& s.byteAt (0x500 + BitVec.ofNat 16 j) ≠ 0) ∧
      ∃ j, j < 2 ∧
        s.byteAt (0x400 + BitVec.ofNat 16 j) &&& s.byteAt (0x500 + BitVec.ofNat 16 j) ≠ s.byteAt (0x500 + BitVec.ofNat 16 j)) :=
  ⟨⟨state [] 0 [(0x400, 0x1234), (0x500, 0x1234)], by decide⟩,
    ⟨state [] 0 [(0x400, 0x1235), (0x500, 0x1234)], by decide⟩,
    ⟨state [] 0 [(0x400, 0x1234), (0x500, 0x1334)], by decide⟩⟩

/-- The predecessors and the forward pointers of a list, as Search names them. -/
def predecessor (s : State) (first : Word) : Nat → Word
  | 0 => s.reg 2
  | k + 1 => s.readHalf (s.reg 4 + predecessor s first k) + first

def forward (s : State) (first : Word) (k : Nat) : Word := s.readHalf (s.reg 4 + predecessor s first k)

/-- SRCH's hit at relative address `a`, the `k`th to be tested. -/
abbrev hits (s : State) (a : Word) (k : Nat) : Bool :=
  keyMatches (s.edbAt (s.ea 8 0)) s 0 (s.reg 4 + a + (s.edbAt (s.ea 8 0)).keyDisp) (s.ea 9 0)
    (s.freeCount + 2 * ((s.reg 3).toNat - 1 - k))

/-- A table of three entries of four bytes at 700, keys 1, 2, 3 in their third and fourth bytes; the argument at 500. -/
def table (count argument : Word) : State :=
  state [(2, 0x700), (3, count), (4, 0), (8, 0x400), (9, 0x500)] 0
    [(0x400, 4), (0x402, 2), (0x404, 2), (0x406, 0x0400), (0x500, argument), (0x702, 1), (0x706, 2), (0x70A, 3)]

theorem test_witness_Search_table :
    (∀ count argument, Undisturbed (table count argument)) ∧ odd ((table 0 2).ea 8 0) = false ∧ ((table 0 2).reg 3).toNat = 0 ∧
    ((table 3 3).edbAt ((table 3 3).ea 8 0)).flags &&& 0x80 = 0 ∧
    ((∀ j, j < 2 → hits (table 3 3) (0x700 + BitVec.ofNat 16 j * 4) j = false) ∧
      hits (table 3 3) (0x700 + BitVec.ofNat 16 2 * 4) 2 = true) ∧
    hits (table 1 1) 0x700 0 = true ∧
    (∀ j, j < 3 → hits (table 3 9) (0x700 + BitVec.ofNat 16 j * 4) j = false) :=
  ⟨fun _ _ => rfl, by decide⟩

/-- A list whose base is at 700 and whose entries, keys 1 and 2, are at 710 and `second`; the last is null or `last`. -/
def chain (count argument second last : Word) : State :=
  state [(2, 0x700), (3, count), (4, 0), (8, 0x400), (9, 0x500)] 0
    [(0x400, 0), (0x402, 2), (0x404, 2), (0x406, 0x8400), (0x500, argument), (0x700, 0x710), (0x710, second), (0x712, 1),
      (0x720, last), (0x722, 2)]

/-- An entry passed on the way. -/
abbrev passes (s : State) (k : Nat) : Prop :=
  odd (s.reg 4 + predecessor s 0 k) = false ∧ forward s 0 k ≠ 0 ∧ hits s (forward s 0 k) k = false

theorem test_witness_Search_list :
    (∀ count argument second last, Undisturbed (chain count argument second last)) ∧
    (∀ (s : State) (n : Word), predecessor s n 0 = s.reg 2 ∧
      (∀ k, forward s n k = s.readHalf (s.reg 4 + predecessor s n k)) ∧
      ∀ k, predecessor s n (k + 1) = forward s n k + n) ∧
    ((chain 2 2 0x720 0).edbAt ((chain 2 2 0x720 0).ea 8 0)).first = 0 ∧
    ((chain 2 2 0x720 0).edbAt ((chain 2 2 0x720 0).ea 8 0)).flags &&& 0x80 ≠ 0 ∧
    (1 < ((chain 2 2 0x720 0).reg 3).toNat ∧ (∀ j, j < 1 → passes (chain 2 2 0x720 0) j) ∧
      odd ((chain 2 2 0x720 0).reg 4 + predecessor (chain 2 2 0x720 0) 0 1) = false ∧
      forward (chain 2 2 0x720 0) 0 1 ≠ 0 ∧ hits (chain 2 2 0x720 0) (forward (chain 2 2 0x720 0) 0 1) 1 = true) ∧
    (2 < ((chain 3 9 0x720 0).reg 3).toNat ∧ (∀ j, j < 2 → passes (chain 3 9 0x720 0) j) ∧
      odd ((chain 3 9 0x720 0).reg 4 + predecessor (chain 3 9 0x720 0) 0 2) = false ∧ forward (chain 3 9 0x720 0) 0 2 = 0) ∧
    (∀ j, j < 2 → passes (chain 2 9 0x720 0) j) ∧
    ((∀ j, j < 2 → passes (chain 3 9 0x721 0) j) ∧
      odd ((chain 3 9 0x721 0).reg 4 + predecessor (chain 3 9 0x721 0) 0 2) = true) :=
  ⟨fun _ _ _ _ => rfl, fun _ _ => ⟨rfl, fun _ => rfl, fun _ => rfl⟩, by decide⟩

theorem test_witness_EnqueueAndDequeue :
    (∃ s : State, Undisturbed s ∧ odd (s.ea 8 0) = false ∧ odd (s.eaRX 0 8 0) = false ∧ odd (s.reg 4 + s.reg 2) = true) ∧
    (∃ s : State, Undisturbed s ∧ odd (s.ea 8 0) = false ∧ odd (s.reg 4 + s.reg 2) = false ∧
      odd (s.reg 4 + s.ea 9 0 + s.readHalf (s.ea 8 0)) = false ∧
      phys (s.reg 4 + s.ea 9 0 + s.readHalf (s.ea 8 0)) ≠ phys (s.reg 4 + s.reg 2) ∧
      s.readHalf (s.reg 4 + s.reg 2) = 0) ∧
    (∃ s : State, Undisturbed s ∧ odd (s.eaRX 0 8 0) = false ∧ odd (s.reg 4 + s.reg 2) = false ∧ s.readHalf (s.reg 4 + s.reg 2) ≠ 0 ∧
      odd (s.reg 4 + s.readHalf (s.reg 4 + s.reg 2) + s.readHalf (s.eaRX 0 8 0)) = true) ∧
    (∃ s : State, Undisturbed s ∧ odd (s.eaRX 0 8 0) = false ∧ odd (s.reg 4 + s.reg 2) = false ∧ s.readHalf (s.reg 4 + s.reg 2) ≠ 0 ∧
      odd (s.reg 4 + s.readHalf (s.reg 4 + s.reg 2) + s.readHalf (s.eaRX 0 8 0)) = false) ∧
    (14 : Reg) ≠ 0 :=
  ⟨⟨state [(2, 0x701), (8, 0x400)], by decide⟩, ⟨state [(2, 0x700), (8, 0x400), (9, 0x710)], by decide⟩,
    ⟨state [(2, 0x700), (8, 0x400)] 0 [(0x700, 0x711)], by decide⟩,
    ⟨state [(2, 0x700), (8, 0x400)] 0 [(0x700, 0x710)], by decide⟩, by decide⟩

theorem test_witness_Execute :
    (∃ s : State, Undisturbed s ∧ odd (s.eaRX 0 8 0) = false ∧ (s.readHalf (s.eaRX 0 8 0) ||| s.reg 3).extractLsb' 8 8 ≠ 0x54 ∧
      decode (s.readHalf (s.eaRX 0 8 0) ||| s.reg 3) (s.readHalf (s.eaRX 0 8 0 + 2)) (s.readHalf (s.eaRX 0 8 0 + 4)) =
        .ok (.mvc 5 6 0 7 0)) ∧
    (∃ s : State, Undisturbed s ∧ odd (s.eaRX 0 8 0) = false ∧
      (s.readHalf (s.eaRX 0 8 0) ||| s.reg 3) = 0x3300 ||| ((2 : Reg).setWidth 16 <<< 4) ||| (15 : Reg).setWidth 16) ∧
    (∃ s : State, Undisturbed s ∧ odd (s.eaRX 0 8 0) = false ∧ s.readHalf (s.eaRX 0 8 0) = 0xA800 ||| ((14 : Reg).setWidth 16 <<< 4)) ∧
    (∃ s : State, Undisturbed s ∧ odd (s.eaRX 0 8 0) = false ∧ (s.readHalf (s.eaRX 0 8 0) ||| s.reg 3).extractLsb' 8 8 = 0x54) ∧
    (∃ s : State, Undisturbed s ∧ odd (s.eaRX 0 8 0) = false ∧ (s.readHalf (s.eaRX 0 8 0)).extractLsb' 8 8 ≠ 0x54 ∧
      decode (s.readHalf (s.eaRX 0 8 0)) (s.readHalf (s.eaRX 0 8 0 + 2)) (s.readHalf (s.eaRX 0 8 0 + 4)) =
        .error (.unassigned 0x3E)) :=
  ⟨⟨state [(3, 5), (8, 0x400)] 0 [(0x400, 0xC400), (0x402, 0x6000), (0x404, 0x7000)], by decide⟩,
    ⟨state [(3, 0x000F), (8, 0x7FFE)] 0 [(0x7FFE, 0x3320)], by decide⟩,
    ⟨state [(8, 0x400)] 0 [(0x400, 0xA8E0)], by decide⟩,
    ⟨state [(3, 0x4000), (8, 0x400)] 0 [(0x400, 0x1400)], by decide⟩,
    ⟨state [(8, 0x400)] 0 [(0x400, 0x3E00)], by decide⟩⟩

/-- A stack frame at 400 whose free block is at `free` and has `length` bytes. -/
def frameAt (free length : Word) : State := state [(15, 0x400)] 0 [(0x402, free), (0x500, length)]

theorem test_witness_EnterSubroutine :
    (∀ free length, Undisturbed (frameAt free length)) ∧
    ((6 : Word).toNat + 1) / 2 * 2 + 34 = 40 ∧ odd ((frameAt 0x500 0).reg 15) = false ∧
    odd ((frameAt 0x501 0).readHalf ((frameAt 0x501 0).reg 15 + 2)) = true ∧
    ([39, 40, 43, 44] : List Word).all (fun n => !odd ((frameAt 0x500 n).readHalf ((frameAt 0x500 n).reg 15 + 2)) &&
      (frameAt 0x500 n).readHalf ((frameAt 0x500 n).readHalf ((frameAt 0x500 n).reg 15 + 2)) == n) = true ∧
    (39 : Word).toNat < 40 ∧ (40 ≤ (40 : Word).toNat ∧ (43 : Word).toNat < 40 + 4) ∧ 40 + 4 ≤ (44 : Word).toNat ∧
    2 ≤ 14 ∧ 40 + 2 ≤ Config.memSize := ⟨fun _ _ => rfl, by decide⟩

/-- A stack frame at 500 entered from the frame at `back`, whose forward word is `link`; its free block is at `free`. -/
def enteredAt (back link free : Word) : State :=
  state [(15, 0x500)] 0 [(0x500, back), (0x502, free), (0x402, link)]

theorem test_witness_ReturnFromSubroutine :
    (∀ back link free, Undisturbed (enteredAt back link free)) ∧
    odd ((enteredAt 0x401 0 0).reg 15) = false ∧ odd ((enteredAt 0x401 0 0).readHalf 0x500) = true ∧
    (odd ((enteredAt 0x400 0x502 0).readHalf 0x500) = false ∧ (enteredAt 0x400 0x502 0).readHalf (0x400 + 2) ≠ 0x500) ∧
    ((enteredAt 0x400 0x500 0x601).readHalf (0x400 + 2) = 0x500 ∧
      odd ((enteredAt 0x400 0x500 0x601).readHalf (0x500 + 2)) = true) ∧
    ((enteredAt 0x400 0x500 0x600).readHalf (0x400 + 2) = 0x500 ∧
      odd ((enteredAt 0x400 0x500 0x600).readHalf (0x500 + 2)) = false) := ⟨fun _ _ _ => rfl, by decide⟩

/-- Privileged, the UCB pointer of unit `u` at `ucb`, and the unit's address in the UCB. -/
def withUcb (u : Word) (ucb unit : Word) (more : List (Word × Word) := []) : State :=
  state [(8, 0x600), (2, 0x500)] 0x0100 ([(0x30 + 2 * u, ucb), (ucb, unit)] ++ more)

/-- The second halfword of an IOCC. -/
def ioccWord (u : BitVec 4) (op : Byte) (modifier : BitVec 3) : Word :=
  (u.setWidth 16 <<< 11) ||| (op.setWidth 16 <<< 3) ||| modifier.setWidth 16

theorem test_witness_StartIo_traps :
    (∀ u ucb unit more, Undisturbed (withUcb u ucb unit more)) ∧
    ((withUcb 5 0 0).privileged = true ∧ (withUcb 5 0 0).readHalf (0x30 + 2 * 5) = 0) ∧
    odd ((withUcb 5 0x701 5).readHalf (0x30 + 2 * 5)) = true ∧
    ((withUcb 7 0x700 7).readHalf (0x30 + 2 * 7) ≠ 0 ∧ odd ((withUcb 7 0x700 7).readHalf (0x30 + 2 * 7)) = false ∧
      7 ≤ (7 : BitVec 4).toNat) ∧
    ((withUcb 6 0x700 5).readHalf (0x30 + 2 * 6) ≠ 0 ∧
      (withUcb 6 0x700 5).readHalf ((withUcb 6 0x700 5).readHalf (0x30 + 2 * 6)) ≠ (6 : BitVec 4).setWidth 16) ∧
    (!odd ((withUcb 6 0x700 5).eaRX 0 8 0)) = true ∧
    (ioccOf 0x500 (ioccWord 6 0x41 0) = { address := 0x500, unit := 6, op := 0x41, modifier := 0 }) :=
  ⟨fun _ _ _ _ => rfl, by decide⟩

theorem test_witness_StartIo_undefined :
    ∃ s : State, Undisturbed s ∧ s.privileged = true ∧ (ioccOf (s.reg 2) (s.reg 3)).unit = 6 ∧ s.readHalf (0x30 + 2 * 6) = 0x700 ∧
      s.readHalf 0x700 = 6 ∧ commandOf (ioccOf (s.reg 2) (s.reg 3)) = none := by
  by_cases h : (0x01 : Byte) = Config.ioccNop
  · have : (0x02 : Byte) ≠ Config.ioccNop := by rw [← h]; decide
    refine ⟨(withUcb 6 0x700 6).setReg 3 (ioccWord 6 0x02 0), rfl, by decide, by decide, by decide, by decide, ?_⟩
    rw [show ioccOf _ _ = Iocc.mk 0x500 6 0x02 0 from by decide]
    simpa [commandOf, opControl, opRead, opWrite] using this
  · refine ⟨(withUcb 6 0x700 6).setReg 3 (ioccWord 6 0x01 0), rfl, by decide, by decide, by decide, by decide, ?_⟩
    rw [show ioccOf _ _ = Iocc.mk 0x500 6 0x01 0 from by decide]
    simpa [commandOf, opControl, opRead, opWrite] using h

theorem test_witness_StartIo_answers :
    (∀ u ucb unit more, Undisturbed (withUcb u ucb unit more)) ∧
    ((withUcb 6 0x700 6).readHalf (0x30 + 2 * 6) = 0x700 ∧ (withUcb 6 0x700 6).readHalf 0x700 = (6 : BitVec 4).setWidth 16 ∧
      (1 ≤ (6 : BitVec 4).toNat ∧ (6 : BitVec 4).toNat ≤ 6 ∧ (6 : Fin 11).val = (6 : BitVec 4).toNat)) ∧
    (commandOf (ioccOf 0x501 (ioccWord 6 0x41 0)) = some (.terminalRead false) ∧
      Command.usesMemory (.terminalRead false) = true ∧ odd (ioccOf 0x501 (ioccWord 6 0x41 0)).address = true) ∧
    (((withUcb 6 0x700 6).setUnit 6 (LocalUnit.mk false true 0 none)).unit 6).offline = true ∧
    (((withUcb 6 0x700 6).setUnit 6 (LocalUnit.mk false false 0x0C00
      (some (Operation.mk (ioccOf 0 (ioccWord 6 0x26 0)) 0 [])))).unit 6).operation.isSome = true ∧
    (odd (ioccOf 0x500 (ioccWord 5 0x41 0)).address = false ∧ ((withUcb 5 0x700 5).unit 5).offline = false ∧
      ((withUcb 5 0x700 5).unit 5).operation = none ∧
      commandOf (ioccOf 0x500 (ioccWord 5 0x41 0)) = some .panelRead ∧ Command.begins .panelRead = false ∧
      Command.panelRead ≠ .nop ∧ phys 0x500 ≠ phys (0x700 + 2)) ∧
    (commandOf (ioccOf 0x500 (ioccWord 2 0xA4 0)) = some .diskTransfer ∧ Command.begins .diskTransfer = true ∧
      ((withUcb 2 0x700 2).unit 2).offline = false ∧ ((withUcb 2 0x700 2).unit 2).operation = none ∧
      countUnpredictable .diskTransfer
        (bufferCount .diskTransfer ((withUcb 2 0x700 2 [(0x500, 1)]).readHalf 0x500)) = false) ∧
    (commandOf (ioccOf 0x500 (ioccWord 4 0xC4 0)) = some .cardRead ∧
      countUnpredictable .cardRead (bufferCount .cardRead ((withUcb 4 0x700 4 [(0x500, 80)]).readHalf 0x500)) = false) ∧
    countUnpredictable .diskTransfer (bufferCount .diskTransfer ((withUcb 2 0x700 2).readHalf 0x500)) = true ∧
    countUnpredictable .cardRead (bufferCount .cardRead ((withUcb 4 0x700 4 [(0x500, 81)]).readHalf 0x500)) = true :=
  ⟨fun _ _ _ _ => rfl, by decide⟩

/-- The second halfwords R430 to R437 print, with unit 1's as the figures have it (conflicts C8, C12): every immediate command, on
an idle unit with its own UCB, an even address field and a UCB apart from it, and the operations that begin. -/
theorem test_witness_StartIo_commands :
    (([(1, 0x0930, .writeB), (1, 0x0A08, .readB), (1, 0x0C30, .controlB), (6, 0x3430, .terminalControl false),
        (3, 0x1C30, .terminalControl true), (6, 0x3208, .terminalRead false), (3, 0x1A08, .terminalRead true), (5, 0x2A08, .panelRead),
        (5, 0x2803, .panelWrite)] : List (Fin 11 × Word × Command)).all fun r =>
      let s := withUcb (BitVec.ofNat 16 r.1.val) 0x700 (BitVec.ofNat 16 r.1.val)
      commandOf (ioccOf 0x500 r.2.1) == some r.2.2 && !r.2.2.begins && (ioccOf 0x500 r.2.1).unit.toNat == r.1.val &&
        s.readHalf (0x30 + 2 * BitVec.ofNat 16 r.1.val) == 0x700 && s.readHalf 0x700 == BitVec.ofNat 16 r.1.val &&
        !(s.unit r.1).offline && (s.unit r.1).operation == none) = true ∧
    odd 0x500 = false ∧ odd 0x700 = false ∧ phys 0x500 ≠ phys (0x700 + 2) ∧
    (commandOf (ioccOf 0 0x1430) = some .diskStay ∧ ((withUcb 2 0x700 2).unit 2).operation = none) ∧
    ([(0x1430, .diskMove), (0x1520, .diskTransfer), (0x1620, .diskTransfer), (0x16A0, .diskTransfer), (0x2620, .cardRead),
        (0x3130, .terminalWrite false), (0x1930, .terminalWrite true)] : List (Word × Command)).all (fun r =>
      commandOf (ioccOf 0x500 r.1) == some r.2 && r.2.begins) = true := by decide

/-- An offline unit of each status layout. -/
theorem test_sensed_offline :
    ([(2, 0x2000), (3, 0x0400), (6, 0x0400), (5, 0)] : List (Fin 11 × Word)).all (fun r =>
      ((state []).setUnit r.1 (LocalUnit.mk false true 0 none)).sensed r.1 == r.2) = true := by decide

/-- Whatever the operation bits of the No Operation are (N13), there is a unit that takes them so. -/
theorem test_witness_StartIo_nop :
    ∃ (s : State) (c : Iocc) (u : Fin 11), Undisturbed s ∧ s.privileged = true ∧ ioccOf (s.reg 2) (s.reg 3) = c ∧ u.val = c.unit.toNat ∧
      1 ≤ c.unit.toNat ∧ c.unit.toNat ≤ 6 ∧ s.readHalf (0x30 + 2 * c.unit.setWidth 16) = 0x700 ∧
      s.readHalf 0x700 = c.unit.setWidth 16 ∧ commandOf c = some .nop ∧ c.modifier.getLsbD 0 = true ∧ u.val ≠ 1 := by
  have io (n : BitVec 4) (o : Byte) : ioccOf 0x500 (ioccWord n o 1) = Iocc.mk 0x500 n o 1 := by
    refine congr (congr (congrArg (Iocc.mk 0x500) ?_) ?_) ?_ <;>
      (ext i hi; simp [ioccWord, BitVec.getLsbD_setWidth]; interval_cases i <;> simp)
  by_cases h : Config.ioccNop = 0xC4
  · refine ⟨(withUcb 6 0x700 6).setReg 3 (ioccWord 6 Config.ioccNop 1), _, 6, rfl, by decide, io 6 _, rfl, by decide, by decide,
      by decide, by decide, ?_, by decide, by decide⟩
    simp [commandOf, opControl, opRead, opWrite, h]
  · refine ⟨(withUcb 4 0x700 4).setReg 3 (ioccWord 4 Config.ioccNop 1), _, 4, rfl, by decide, io 4 _, rfl, by decide, by decide,
      by decide, by decide, ?_, by decide, by decide⟩
    have h' : Config.ioccNop ≠ opInitiateRead := h
    simp [commandOf, h']

theorem test_witness_InterfaceRegisters :
    (withUcb 5 0 0).privileged = true ∧ (8 : Reg).extractLsb' 0 2 = 0 ∧ (5 : Reg).extractLsb' 0 2 = 1 ∧
    (2 : Reg).extractLsb' 0 2 = 2 ∧ (15 : Reg).extractLsb' 0 2 = 3 := by decide

/-- Wherever the status byte of the S/360 UCB stands (its offset is not known), it is no byte of the pointer to the UCB for one
of two values of that pointer. -/
theorem status_apart (o : Word) : phys (0x100 + o) ≠ 0x4C ∨ phys (0x200 + o) ≠ 0x4C := by
  simp only [phys, Config.memSize, BitVec.toNat_add, BitVec.reduceToNat]
  omega

theorem byteAt_of_cell {s : State} {b : Byte} (h : s.mem = { cells := [(0x4C, b)] }) (a : Word) (ha : phys a ≠ 0x4C) :
    s.byteAt a = 0 := by
  simp [State.byteAt, h, Memory.read, lookupCell, Ne.symm ha, Config.initialByte]

theorem test_witness_ChannelInstructions_statusZero :
    ∃ s : State, Undisturbed s ∧ s.privileged = true ∧ s.readHalf (0x46 + 2 * (3 : Reg).setWidth 16) ≠ 0 ∧
      odd (s.readHalf (0x46 + 2 * (3 : Reg).setWidth 16)) = false ∧ s.eaRX 0 0 0 = 0 ∧
      s.byteAt (s.readHalf (0x46 + 2 * (3 : Reg).setWidth 16) + Config.ucbStatus) = 0 := by
  rcases status_apart Config.ucbStatus with h | h
  · exact ⟨state [] 0x0100 [(0x4C, 0x100)], rfl, by decide, by decide, by decide, by decide,
      byteAt_of_cell (b := 1) (by decide) _ h⟩
  · exact ⟨state [] 0x0100 [(0x4C, 0x200)], rfl, by decide, by decide, by decide, by decide,
      byteAt_of_cell (b := 2) (by decide) _ h⟩

theorem test_witness_ChannelInstructions :
    (∃ s : State, Undisturbed s ∧ s.privileged = true ∧ 4 ≤ (4 : Reg).toNat) ∧
    (∃ s : State, Undisturbed s ∧ s.privileged = true ∧ (3 : Reg).toNat < 4 ∧ s.readHalf (0x46 + 2 * (3 : Reg).setWidth 16) = 0) ∧
    (∃ s : State, Undisturbed s ∧ s.privileged = true ∧ odd (s.readHalf (0x46 + 2 * (0 : Reg).setWidth 16)) = true) ∧
    (∃ s : State, Undisturbed s ∧ s.privileged = true ∧ s.readHalf (0x46 + 2 * (3 : Reg).setWidth 16) ≠ 0 ∧
      odd (s.readHalf (0x46 + 2 * (3 : Reg).setWidth 16)) = false ∧ s.eaRX 0 8 0 ≠ 0) :=
  ⟨⟨withUcb 5 0 0, by decide⟩, ⟨withUcb 5 0 0, by decide⟩, ⟨state [] 0x0100 [(0x46, 0x701)], by decide⟩,
    ⟨state [(8, 0x600)] 0x0100 [(0x4C, 0x700)], by decide⟩⟩

/-- Whether unit `v` is due, as IoInterrupt names it. -/
abbrev isDue (s : State) (v : Fin 11) : Bool :=
  ((s.unit v).request && s.ioEnabled && (s.readHalf 0x2E).getMsbD v.val) ||
    (v == 5 && ((s.parityPending && s.parityEnabled) ||
      ((s.unit 5).request && (s.unit 5).ush.getMsbD 0 && !Config.intRunGated)))

/-- Units 2 and 10 ask, both are allowed or not by `mask`, the UCB pointer of unit 2 is `ucb`. -/
def asking (msr mask ucb : Word) : State :=
  ((state [] msr [(0x2E, mask), (0x34, ucb)]).setUnit 2 (LocalUnit.mk true false 0x4000 none)).setUnit
    10 (LocalUnit.mk true false 0 none)

/-- A Parity Check is pending that MSR.P enables, MSR.I/O being off; the UCB pointer of unit 5 is `ucb`. -/
def checking (ucb : Word) : State := { state [] 0x0001 [(0x3A, ucb)] with parityPending := true }

theorem test_witness_IoInterrupt :
    (Turn (asking 0x0208 0 0) ∧ (asking 0x0208 0 0).inhibit = false ∧ (asking 0x0208 0 0).interface.selection = none ∧
      (∀ v, isDue (asking 0x0208 0 0) v = false) ∧ (asking 0x0208 0 0).waiting = true) ∧
    (∀ p : Word, (p = 0x700 ∨ p = 0 ∨ p = 0x701) → Turn (asking 0x0008 0x2020 p) ∧
      (asking 0x0008 0x2020 p).inhibit = false ∧ (asking 0x0008 0x2020 p).interface.selection = none ∧
      isDue (asking 0x0008 0x2020 p) 2 = true ∧ (∀ v, v < 2 → isDue (asking 0x0008 0x2020 p) v = false) ∧
      (asking 0x0008 0x2020 p).readHalf (0x30 + 2 * BitVec.ofNat 16 2) = p) ∧
    (∀ p : Word, (p = 0x700 ∨ p = 0) → Turn (checking p) ∧ (checking p).inhibit = false ∧
      (checking p).interface.selection = none ∧ isDue (checking p) 5 = true ∧ (∀ v, v < 5 → isDue (checking p) v = false) ∧
      (checking p).readHalf (0x30 + 2 * BitVec.ofNat 16 5) = p) := by
  refine ⟨by unfold Turn; decide, ?_, ?_⟩
  · rintro p (rfl | rfl | rfl) <;> (unfold Turn; decide)
  · rintro p (rfl | rfl) <;> (unfold Turn; decide)

/-- A selection of device `d` on a state that may run. -/
def selecting (d : BitVec 4) (msr : Word) (halves : List (Word × Word)) (command : Byte := 2) : State :=
  { state [] msr halves with interface := { Interface.reset with selection := some { device := d, command := command } } }

theorem test_witness_InitialSelection :
    (Turn (selecting 4 0 []) ∧ (selecting 4 0 []).inhibit = false ∧ (2 : Byte) ≠ 0 ∧ 4 ≤ (4 : BitVec 4).toNat) ∧
    (Turn (selecting 3 0 []) ∧ (selecting 3 0 []).selectEnabled = false ∧ (3 : BitVec 4).toNat < 4) ∧
    (Turn (selecting 3 2 []) ∧ (selecting 3 2 []).selectEnabled = true ∧
      (selecting 3 2 []).readHalf (0x46 + 2 * (3 : BitVec 4).setWidth 16) = 0) ∧
    odd ((selecting 0 2 [(0x46, 0x701)]).readHalf (0x46 + 2 * (0 : BitVec 4).setWidth 16)) = true ∧
    (Turn (selecting 3 0 [] 0) ∧ (selecting 3 0 [] 0).readHalf (0x46 + 2 * (3 : BitVec 4).setWidth 16) = 0) ∧
    (Turn (selecting 3 0 [(0x4C, 0x100)] 0) ∧
      (selecting 3 0 [(0x4C, 0x100)] 0).readHalf (0x46 + 2 * (3 : BitVec 4).setWidth 16) = 0x100) := by
  unfold Turn; decide

theorem test_witness_InitialSelection_statusZero :
    ∃ s : State, Turn s ∧ s.inhibit = false ∧ s.interface.selection = some { device := 3, command := 2 } ∧
      s.selectEnabled = true ∧ s.readHalf (0x46 + 2 * (3 : BitVec 4).setWidth 16) ≠ 0 ∧
      odd (s.readHalf (0x46 + 2 * (3 : BitVec 4).setWidth 16)) = false ∧
      s.byteAt (s.readHalf (0x46 + 2 * (3 : BitVec 4).setWidth 16) + Config.ucbStatus) = 0 := by
  rcases status_apart Config.ucbStatus with h | h
  · exact ⟨selecting 3 2 [(0x4C, 0x100)], by unfold Turn; decide, by decide, by decide, by decide, by decide, by decide,
      byteAt_of_cell (b := 1) (by decide) _ h⟩
  · exact ⟨selecting 3 2 [(0x4C, 0x200)], by unfold Turn; decide, by decide, by decide, by decide, by decide, by decide,
      byteAt_of_cell (b := 2) (by decide) _ h⟩

/-- A status is kept in the UCB, wherever its field stands. -/
theorem test_witness_InitialSelection_statusKept :
    ∃ s : State, Turn s ∧ s.inhibit = false ∧ s.interface.selection = some { device := 3, command := 2 } ∧
      s.selectEnabled = true ∧ s.readHalf (0x46 + 2 * (3 : BitVec 4).setWidth 16) ≠ 0 ∧
      odd (s.readHalf (0x46 + 2 * (3 : BitVec 4).setWidth 16)) = false ∧
      s.byteAt (s.readHalf (0x46 + 2 * (3 : BitVec 4).setWidth 16) + Config.ucbStatus) ≠ 0 := by
  have main (p : Word) (hp : p = 0x100 ∨ p = 0x200) (h0 : phys 0x4C ≠ phys (p + Config.ucbStatus))
      (h1 : phys (0x4C + 1) ≠ phys (p + Config.ucbStatus)) :
      ((selecting 3 2 [(0x4C, p)]).setByte (p + Config.ucbStatus) 1).readHalf 0x4C = p := by
    simp only [State.readHalf, State.byteAt_setByte, if_neg h0, if_neg h1]
    rcases hp with rfl | rfl <;> decide
  have pick (p : Word) (hp : p = 0x100 ∨ p = 0x200) (h0 : phys 0x4C ≠ phys (p + Config.ucbStatus))
      (h1 : phys (0x4C + 1) ≠ phys (p + Config.ucbStatus)) : ∃ s : State, Turn s ∧ s.inhibit = false ∧
      s.interface.selection = some { device := 3, command := 2 } ∧ s.selectEnabled = true ∧ s.readHalf 0x4C ≠ 0 ∧
      odd (s.readHalf 0x4C) = false ∧ s.byteAt (s.readHalf 0x4C + Config.ucbStatus) ≠ 0 := by
    refine ⟨(selecting 3 2 [(0x4C, p)]).setByte (p + Config.ucbStatus) 1, 
      ⟨by rcases hp with rfl | rfl <;> decide, by rcases hp with rfl | rfl <;> decide, by rcases hp with rfl | rfl <;> decide⟩,
      by rcases hp with rfl | rfl <;> decide, by rcases hp with rfl | rfl <;> decide, ?_, ?_, ?_, ?_⟩
    · rcases hp with rfl | rfl <;> rfl
    · rw [main p hp h0 h1]; rcases hp with rfl | rfl <;> decide
    · rw [main p hp h0 h1]; rcases hp with rfl | rfl <;> decide
    · rw [main p hp h0 h1, State.byteAt_setByte, if_pos rfl]; decide
  by_cases h : phys (0x100 + Config.ucbStatus) = 0x4C ∨ phys (0x100 + Config.ucbStatus) = 0x4D
  · refine pick 0x200 (.inr rfl) ?_ ?_ <;>
      (simp only [phys, Config.memSize, BitVec.toNat_add, BitVec.reduceToNat] at *; omega)
  · exact pick 0x100 (.inl rfl) (fun e => h (.inl (e.symm.trans (by decide)))) fun e => h (.inr (e.symm.trans (by decide)))

/-- LZ of the halfword at 400 while a unit stores 1234 there, behind the turn's first `n` accesses but the numbered ones. -/
def storing (n : Nat) : State :=
  { placed [0x5E20, 0x8000] [(8, 0x400)] (halves := [(0x400, 5)]) with
    schedule := [{ turns := 0, event := .memoryWrite 0x400 [0x12, 0x34], moment := .storing n }] }

/-- CLC of the bytes at 400 and 401 while a unit stores 1234 there, behind the turn's first `k` reads. -/
def reading (k : Nat) : State :=
  { placed [0xCF01, 0x8000, 0x8001] [(8, 0x400)] with
    schedule := [{ turns := 0, event := .memoryWrite 0x400 [0x12, 0x34], moment := .reading k }] }

/-- PSHH of the halfword at 500 onto the stack at 402, and SVC, while a unit stores behind the turn's first `n` accesses but the numbered ones. -/
def copying (n : Nat) : State :=
  { placed [0xC602, 0x8000, 0x9000] [(8, 0x500), (9, 0x400)] (halves := [(0x400, 0x402), (0x402, 0x402), (0x404, 0x600)]) with
    schedule := [{ turns := 0, event := .memoryWrite 0x500 [0x12, 0x34], moment := .storing n }] }

def calling (n : Nat) : State :=
  { placed [0x3105] [] with
    schedule := [{ turns := 0, event := .memoryWrite 0x0C [0x12, 0x34], moment := .storing n }] }

/-- Whether the answer is a next state of which `p` holds. -/
def nextWith (p : State → Bool) : Result → Bool
  | .next t => p t
  | .fault _ => false
  | .refused _ => false

theorem of_nextWith {p : State → Bool} {r : Result} (h : nextWith p r = true) : ∃ t, r = .next t ∧ p t = true := by
  cases r with
  | next t => exact ⟨t, rfl, h⟩
  | fault => cases h
  | refused => cases h

/-- The state in which a unit's store is behind the first `k` numbered accesses of the turn that begins. -/
def disturbed (s : State) (k : Nat) : State :=
  let x := { mem := s.mem, units := s.units : Snapshot }
  { s.turnTaken with
    mem := (s.writeBytes 0x400 [0x12, 0x34]).mem
    earlier := List.replicate (k - 1) x ++ List.replicate (k - (k - 1)) { x with next := [.memoryWrite 0x400 [0x12, 0x34]] } }

/-- The addresses of each access of a turn, and for each byte of a store where it is copied from. -/
def accesses (t : State) : List (List (Word × Option Word)) :=
  t.wrote.map fun w => match w with
    | .store bs => bs.map fun x => (x.addr, x.source)
    | .read bs => bs.map fun b => (b.1, none)

theorem test_witness_UnitStoreInsideInstruction :
    (∀ n, Undisturbed (storing n) ∧ Undisturbed (reading n) ∧ Undisturbed (copying n) ∧
      Undisturbed (calling n) ∧
      ∃ d, (storing n).schedule = d :: [] ∧ d.moment = .storing n ∧ ∃ e, (reading n).schedule = e :: [] ∧ e.moment = .reading n) ∧
    (∀ n, n < 3 → ∃ t, cpuTurn (storing n).turnTaken = .next t ∧ (accesses t == [[(0x400, none), (0x401, none)]]) = true) ∧
    (∃ t, cpuTurn (copying 0).turnTaken = .next t ∧
      (accesses t == [[(0x400, none), (0x401, none)], [(0x404, some 0x500), (0x405, some 0x501)], [(0x500, none), (0x501, none)]] &&
        (t.wrote.drop (3 - 1)).head? == some (.read [(0x500, 0), (0x501, 0)])) = true) ∧
    (∀ n, n < 6 → ∃ t, cpuTurn (calling n).turnTaken = .next t ∧
      (t.wrote.length == 3 && t.loaded == [(0, 0x0A), (1, 0x0C)]) = true) ∧
    (∃ s : State, s.panel.ipl = some [1, 0, 2, 0]) ∧
    (∀ k, k < 7 → ∃ t, cpuTurn (disturbed (reading k) k) = .next t ∧ (t.wrote == []) = true) ∧
    (∃ (s : State) (x : Snapshot) (a : Word) (bytes : List Byte), s.earlier = [{ x with next := [.memoryWrite a bytes] }]) ∧
    (∃ (s : State) (x y : Snapshot) (a : Word) (bytes : List Byte), s.earlier = [{ x with next := [] }, { y with next := [.memoryWrite a bytes] }]) ∧
    odd ((storing 0).eaRX 0 8 0) = false ∧ (storing 0).byteAt ((storing 0).ea 8 0) &&& 0x01 = 0 :=
  ⟨fun n => ⟨rfl, rfl, rfl, rfl, _, rfl, rfl, _, rfl, rfl⟩, fun n hn => of_nextWith (by revert n; decide),
    of_nextWith (by decide), fun n hn => of_nextWith (by revert n; decide),
    ⟨{ State.reset with panel := { Panel.reset with ipl := some [1, 0, 2, 0] } }, rfl⟩, fun k hk => of_nextWith (by revert k; decide),
    ⟨disturbed (reading 1) 1, { mem := (reading 1).mem, units := (reading 1).units }, _, _, rfl⟩,
    ⟨disturbed (reading 2) 2, { mem := (reading 2).mem, units := (reading 2).units }, { mem := (reading 2).mem, units := (reading 2).units },
      _, _, rfl⟩, by decide, by decide⟩

theorem test_witness_S360Reset :
    (∃ s : State, Quiet s ∧ s.panel.stopped = false ∧ s.interface.resetSignal = true ∧ s.waiting = true) ∧
    (∃ s : State, Quiet s ∧ s.panel.stopped = false ∧ s.interface.resetSignal = true ∧
      s.fetched = .error (.undetermined 0x86) ∧ s.waiting = false) ∧
    (∃ s : State, Quiet s ∧ s.panel.stopped = false ∧ s.interface.resetSignal = true ∧ s.waiting = false ∧
      ∃ v, runInstruction s.turnTaken = .next v ∧ (v.storedTo == [0x400, 0x401]) = true) :=
  ⟨⟨{ state [] 0x0200 with interface := { Interface.reset with resetSignal := true } }, by decide⟩,
    ⟨{ placed [0x8600] [] with interface := { Interface.reset with resetSignal := true } }, by decide, by decide, by decide,
      by decide, by decide⟩,
    ⟨{ storing 0 with schedule := [], interface := { Interface.reset with resetSignal := true } }, by decide, by decide, by decide,
      by decide, of_nextWith (by decide)⟩⟩

end Sys2Proof.Tests
end

section
/-! PROOFS. The invariant: every instruction, every turn of the CPU and every event keeps it. -/

namespace Sys2Proof.Machine

/-! ## What an instruction keeps of the invariant -/

variable {s t : State}

/-! The shared meanings, once each. -/

theorem Keeps.addToRegister (ilc r a b) : Keeps s (addToRegister ilc r a b s) :=
  .overflowProcedure _ _ _ (.refl s) ((Stays.refl s).result _ _ _)
theorem Keeps.subToRegister (ilc r a b) : Keeps s (subToRegister ilc r a b s) :=
  .overflowProcedure _ _ _ (.refl s) ((Stays.refl s).result _ _ _)
theorem Keeps.addToMemory (ilc e a b) : Keeps s (addToMemory ilc e a b s) :=
  .overflowProcedure _ _ _ (.refl s) (((Stays.refl s).setCc _).writeHalf _ _)
theorem Keeps.subToMemory (ilc e a b) : Keeps s (subToMemory ilc e a b s) :=
  .overflowProcedure _ _ _ (.refl s) (((Stays.refl s).setCc _).writeHalf _ _)
theorem Keeps.addLogical (r a b) : Keeps s (addLogical r a b s) := .next ((Stays.refl s).result _ _ _)
theorem Keeps.subLogical (r a b) : Keeps s (subLogical r a b s) := .next ((Stays.refl s).result _ _ _)
theorem Keeps.loadSigned (ilc r v w) : Keeps s (loadSigned ilc r v w s) :=
  .overflowProcedure _ _ _ (.refl s) ((Stays.refl s).result _ _ _)
theorem Keeps.multiplyRegisters (r a b) : Keeps s (multiplyRegisters r a b s) := .next ((Stays.refl s).writeWithCc _ _)
theorem Keeps.booleanToRegister (op r a b) : Keeps s (booleanToRegister op r a b s) := .next ((Stays.refl s).result _ _ _)
theorem Keeps.booleanToByte (op a b) : Keeps s (booleanToByte op a b s) :=
  .next (((Stays.refl s).setCc _).setByte _ _)
theorem Keeps.booleanStrings (op a b n) : Keeps s (booleanStrings op a b n s) :=
  .next ((((Stays.refl s).consume _).alterString _ _ _ _).setCc _)
theorem Keeps.translate (a b n) : Keeps s (translate a b n s) := .next (((Stays.refl s).consume _).alterString _ _ _ _)
theorem Keeps.moveCharacters (a b n) : Keeps s (moveCharacters a b n s) :=
  .ite (fun _ => .next (((Stays.refl s).consume _).alterString _ _ _ _)) fun _ => .next ((Stays.refl s).alterString _ _ _ _)
theorem Keeps.compareStrings (a b n) : Keeps s (compareStrings a b n s) := by
  unfold Sys2Proof.Machine.compareStrings
  split
  · exact .next (((Stays.refl s).setReg _ _).setCc _)
  · exact .next ((Stays.refl s).setCc _)
theorem Keeps.scanTable (step a b n) : Keeps s (scanTable step a b n s) := by
  unfold Sys2Proof.Machine.scanTable
  split
  · exact .next ((((Stays.refl s).setReg _ _).setReg _ _).setCc _)
  · exact .next ((Stays.refl s).setCc _)
theorem Keeps.scanCharacter (e step a c n) : Keeps s (scanCharacter e step a c n s) := by
  unfold Sys2Proof.Machine.scanCharacter
  split
  · exact .next (((Stays.refl s).setReg _ _).setCc _)
  · exact .next ((Stays.refl s).setCc _)
theorem Keeps.indexLoop (f r x d) : Keeps s (indexLoop f r x d s) :=
  .next ((((Stays.refl s).consume _).setReg _ _).branchTo _ _)
theorem Keeps.pushHalfwords (a b n) : Keeps s (pushHalfwords a b n s) :=
  .aligned _ _ (.pushChecked _ _ _ fun _ => .next ((((Stays.refl s).setCc _).copyHalves _ _ _).writeHalf _ _))
theorem Keeps.popHalfwords (a b n) : Keeps s (popHalfwords a b n s) :=
  .aligned _ _ (.popChecked _ _ _ fun _ => .next ((((Stays.refl s).setCc _).copyHalves _ _ _).writeHalf _ _))

/-! Instructions whose meaning is more than one shared operation. -/

theorem Keeps.execCvb (r x b d) : Keeps s (execCvb r x b d s) := by
  unfold Sys2Proof.Machine.execCvb
  split
  · exact .convertFound _ _ _
  · exact .fault _
theorem Keeps.execSs (r x b d) : Keeps s (execSs r x b d s) :=
  .withDevice _ _ fun _ => .ite (fun _ => .next ((Stays.refl s).setCc _)) fun _ => .next ((Stays.refl s).presentStatus _ _ _)
theorem Keeps.execIost (r q) : Keeps s (execIost r q s) := by
  unfold Sys2Proof.Machine.execIost
  refine .whenPrivileged _ ?_
  split
  all_goals exact .next ((Stays.refl s).same rfl rfl rfl)
theorem Keeps.execSrch (i b d e f) : Keeps s (execSrch i b d e f s) := by
  unfold Sys2Proof.Machine.execSrch
  refine .aligned _ _ (.ite (fun _ => .next (((Stays.refl s).setReg _ _).setCc _)) fun _ => .ite (fun _ => ?_) fun _ =>
    .next (((Stays.refl s).consume _).endSearch _))
  split
  · exact .next (((Stays.refl s).consume _).endSearch _)
  · exact .raiseProgram (.refl s) _ _
theorem Keeps.execTsl (i b d) : Keeps s (execTsl i b d s) := by
  unfold Sys2Proof.Machine.execTsl
  refine .next ?_
  split
  · exact (((Stays.refl s).setCc _).setByte _ _).indivisible
  · exact (Stays.refl s).setCc _

theorem Keeps.execRet (r q) : Keeps s (execRet r q s) := by
  unfold Sys2Proof.Machine.execRet
  refine .withHalfAt 0 _ _ fun _ => .aligned _ _ (.ite (fun _ => .raiseProgram (.refl s) _ _) fun _ => .withHalfAt 3 _ _ fun _ => .next ?_)
  have h := ((Stays.refl s).writeRegs
    ((registersFrom2 Config.retLast).zip (s.readHalves (s.reg 15 + 8) (registersFrom2 Config.retLast).length)))
  exact (((h.writeHalf _ _).writeHalf _ _).setReg _ _).setReg _ _

/-- The EX flag taken off. -/
theorem Stays.endExecute (h : s.Canonical → t.Canonical) (hd : t.disk = s.disk) : Stays s { t with inExecute := false } :=
  ⟨h, hd, fun _ => rfl⟩

/-- Every instruction but EX, alone or as the subject of one, and the Execute interrupt of an EX as a subject. -/
theorem Keeps.execSubject (i : Instr) : Keeps s (execSubject i s) := by
  have r := Stays.refl s
  cases i <;> dsimp only [Sys2Proof.Machine.execSubject]
  case lr | lx | li | lnr | lxbr | la | sa | lb | lsb | ib => exact .next (r.setReg _ _)
  case ldr | ldi | l | ln | lxb => exact .withHalf _ _ fun _ => .next (r.setReg _ _)
  case ld => exact .withHalfAt 0 _ _ fun _ => .withHalf _ _ fun _ => .next (r.setReg _ _)
  case lcr | lpr => exact .loadSigned _ _ _ _
  case lc | lp => exact .withHalf _ _ fun _ => .loadSigned _ _ _ _
  case lz => exact .withHalf _ _ fun _ => .next ((r.setReg _ _).writeHalf _ _)
  case lm => exact .aligned _ _ (.next (r.loadMultiple _ _ _))
  case lmd => exact .withHalfAt 0 _ _ fun _ => .aligned _ _ (.next (r.loadMultiple _ _ _))
  case stdr | stdi | st | mvhi | mva => exact .aligned _ _ (.next (r.writeHalf _ _))
  case std => exact .withHalf _ _ fun _ => .aligned _ _ (.next (r.writeHalf _ _))
  case mvh => exact .aligned _ _ (.withHalf _ _ fun _ => .next (r.writeHalf _ _))
  case stm => exact .aligned _ _ (.next (r.storeMultiple _ _ _))
  case stmd => exact .withHalf _ _ fun _ => .aligned _ _ (.next (r.storeMultiple _ _ _))
  case stb | mvbi => exact .next (r.setByte _ _)
  case swpr => exact .next ((r.setReg _ _).setReg _ _)
  case swp => exact .withHalf _ _ fun _ => .next ((r.writeHalf _ _).setReg _ _)
  case ar | ax | ai => exact .addToRegister _ _ _ _
  case a => exact .withHalf _ _ fun _ => .addToRegister _ _ _ _
  case sr | sx | si => exact .subToRegister _ _ _ _
  case s => exact .withHalf _ _ fun _ => .subToRegister _ _ _ _
  case ahi => exact .withHalf _ _ fun _ => .addToMemory _ _ _ _
  case ah => exact .withHalfAt 0 _ _ fun _ => .withHalf _ _ fun _ => .addToMemory _ _ _ _
  case shi => exact .withHalf _ _ fun _ => .subToMemory _ _ _ _
  case sh => exact .withHalfAt 0 _ _ fun _ => .withHalf _ _ fun _ => .subToMemory _ _ _ _
  case alr | ali => exact .addLogical _ _ _
  case al => exact .withHalf _ _ fun _ => .addLogical _ _ _
  case slr | sli => exact .subLogical _ _ _
  case sl => exact .withHalf _ _ fun _ => .subLogical _ _ _
  case cr | ci | clr | cli | clb | clbi | tmr | tmi | tmbi => exact .next (r.setCc _)
  case c | chi | cl => exact .withHalf _ _ fun _ => .next (r.setCc _)
  case ch | clh => exact .withHalfAt 0 _ _ fun _ => .withHalf _ _ fun _ => .next (r.setCc _)
  case clc | clcl => exact .compareStrings _ _ _
  case mr | mi => exact .pairRegister _ _ (.multiplyRegisters _ _ _)
  case m => exact .pairRegister _ _ (.withHalf _ _ fun _ => .multiplyRegisters _ _ _)
  case mh => exact .withHalfAt 0 _ _ fun _ => .withHalf _ _ fun _ => .next ((r.setCc _).writeHalves _ _)
  case dr => exact .pairRegister _ _ (.divide _ _ _ _ fun _ _ _ _ h => h.writeWithCc _ _)
  case di => exact .pairRegister _ _ (.pairRegister _ _ (.divide _ _ _ _ fun _ _ _ _ h => h.writeWithCc _ _))
  case d => exact .pairRegister _ _ (.withHalf _ _ fun _ => .divide _ _ _ _ fun _ _ _ _ h => h.writeWithCc _ _)
  case dh =>
    exact .withHalfAt 0 _ _ fun _ => .withHalf _ _ fun _ => .divide _ _ _ _ fun _ _ _ _ h => (h.setCc _).writeHalves _ _
  case cvb => exact .execCvb _ _ _ _
  case cvd => exact .next (((r.writeBytes _ _).setReg _ _).setReg _ _)
  case slai | sla => exact .finishLeftAlgebraic _ _ _
  case sldai | slda => exact .pairRegister _ _ (.finishLeftAlgebraic _ _ _)
  case srai | sra | slli | sll | srli | srl => exact .finishShift _ _
  case srdai | srda | sldli | sldl | srdli | srdl => exact .pairRegister _ _ (.finishShift _ _)
  case sd => exact .pairRegister _ _ (.next (r.writeWithCc _ _))
  case nr | ni | or | oi | xr | xi => exact .booleanToRegister _ _ _ _
  case n | o | x => exact .withHalf _ _ fun _ => .booleanToRegister _ _ _ _
  case nbi | obi | xbi => exact .booleanToByte _ _ _
  case nc | ncl | oc | ocl | xc | xcl => exact .booleanStrings _ _ _ _
  case mvc | mvcl => exact .moveCharacters _ _ _
  case mvcn | mvcnl | fill | filll => exact .next (r.writeBytes _ _)
  case tr | trl => exact .translate _ _ _
  case str | strl | stl | stll => exact .scanTable _ _ _ _
  case sre | srel | srne | srnel | sle | slel | slne | slnel => exact .scanCharacter _ _ _ _ _
  case pshm => exact .pushChecked _ _ _ fun _ => .next (((r.setCc _).writeHalves _ _).writeHalf _ _)
  case popm => exact .popChecked _ _ _ fun _ => .next ((r.writeWithCc _ _).writeHalf _ _)
  case pshh | pshhl => exact .pushHalfwords _ _ _
  case poph | pophl => exact .popHalfwords _ _ _
  case srch => exact .execSrch _ _ _ _ _
  case enq => exact .withHalfAt 0 _ _ fun _ => .withHalf _ _ fun _ => .aligned _ _ (.next ((r.writeHalf _ _).writeHalf _ _))
  case deq =>
    exact .withHalfAt 0 _ _ fun _ => .withHalfAt 1 _ _ fun _ => .ite (fun _ => .next ((r.consume _).result _ _ _)) fun _ =>
      .withHalf _ _ fun _ => .next (((r.consume _).result _ _ _).writeHalf _ _)
  case tbpr | tbzr | tbnmr | tbmr | tbnzr | tbnpr | bczr | bcor => exact .next (r.branchRR _ _ _)
  case tbp | tbz | tbnm | tbm | tbnz | tbnp | bcz | bco => exact .next (r.branchTo _ _)
  case balr => exact .next ((r.setReg _ _).branchRR _ _ _)
  case bal => exact .next ((r.setReg _ _).branchTo _ _)
  case bctr => exact .next (((r.consume _).setReg _ _).branchRR _ _ _)
  case bct => exact .next (((r.consume _).setReg _ _).branchTo _ _)
  case bxh | bxle => exact .indexLoop _ _ _ _
  case ex => exact .raiseProgram (.endExecute id rfl) _ _
  case svc => exact .next (r.svcInterrupt _ _)
  case svcs => exact .next ((r.setReg _ _).svcInterrupt _ _)
  case svcd => exact .next (((r.setReg _ _).setReg _ _).svcInterrupt _ _)
  case tsl => exact .execTsl _ _ _
  case ent =>
    exact .aligned _ _ (.withHalf _ _ fun _ => .ite (fun _ => .raiseProgram r _ _) fun _ =>
      .next (((((r.writeHalf _ _).writeHalves _ _).writeHalf _ _).writeHalf _ _).setReg _ _))
  case ret => exact .execRet _ _
  case sior => exact .whenPrivileged _ (.startIo _ _ _)
  case sio => exact .whenPrivileged _ (.withHalfAt 0 _ _ fun _ => .startIo _ _ _)
  case iost => exact .execIost _ _
  case excc =>
    exact .withDevice _ _ fun _ =>
      .next (((((((r.transfer _ _ _ _ _).writeHalf _ _).writeHalf _ _).recordEnding _ _).setCc _)).consume _)
  case trb => exact .withDevice _ _ fun _ => .next ((((r.transfer _ _ _ _ _).recordEnding _ _).setCc _).consume _)
  case ss => exact .execSs _ _ _ _

/-! ## What a turn of the CPU keeps of the invariant -/

/-- What runs as the subject of an EX: the flag is taken off behind it. -/
theorem Keeps.leaveExecute {r : Result} (k : Keeps t r) (h : s.Canonical → t.Canonical) (hd : t.disk = s.disk) :
    Keeps s (leaveExecute r) := by
  cases r with
  | next u => exact .next (.endExecute (fun w => (k u rfl).1 (h w)) ((k u rfl).2.1.trans hd))
  | fault f => exact .fault f
  | refused q => exact .refused q

theorem Stays.operationInterrupt (h : Stays s t) (a b c) : Stays s (t.operationInterrupt a b c) :=
  ((h.writeHalves _ _).consume _).programInterrupt _ _

/-- Snapshots taken away leave canonical ones. -/
theorem State.Canonical.drop (h : s.Canonical) (n : Nat) : ∀ x ∈ s.earlier.drop n, x.mem.wf Config.memSize = true :=
  fun x hx => h.2 x (List.mem_of_mem_drop hx)

theorem Keeps.execEx (r x b d) : Keeps s (execEx r x b d s) := by
  unfold Sys2Proof.Machine.execEx
  refine .withHalfAt 0 _ _ fun h => ?_
  have hc : s.Canonical → State.Canonical { s with inExecute := true, earlier := s.earlier.drop 3 } := fun w => ⟨w.1, w.drop 3⟩
  refine .ite (fun _ => .raiseProgram (.endExecute hc rfl) _ _) fun _ => ?_
  split
  · exact .leaveExecute (.execSubject _) hc rfl
  · exact .refused _
  · exact .leaveExecute (.next ((Stays.refl _).operationInterrupt _ _ _)) hc rfl

/-- Every instruction keeps the invariant's parts. -/
theorem Keeps.exec (i : Instr) : Keeps s (exec i s) := by
  by_cases h : ∃ r x b d, i = .ex r x b d
  · obtain ⟨r, x, b, d, rfl⟩ := h
    exact .execEx r x b d
  · rw [← execSubject_eq i s fun r x b d e => h ⟨r, x, b, d, e⟩]
    exact .execSubject i

theorem Stays.prepared (h : Stays s t) (n : Word) : Stays s (t.prepared n) :=
  ⟨fun w => ⟨(h.1 w).1, (h.1 w).drop 4⟩, h.2.1, h.2.2⟩

theorem Stays.afterInstruction (h : Stays s t) : Stays s t.afterInstruction := by
  unfold State.afterInstruction
  split
  · exact h.same rfl rfl rfl
  · exact h.setUnit _ _
  all_goals exact h

theorem Keeps.afterResult {r : Result} (h : Keeps s r) : Keeps s (afterResult r) := by
  cases r with
  | next t => exact .next (h t rfl).afterInstruction
  | fault f => exact .fault f
  | refused q => exact .refused q

theorem Keeps.of_stays {r : Result} (h : Stays s t) (k : Keeps t r) : Keeps s r := fun u e => h.trans (k u e)

theorem Keeps.runInstruction : Keeps s (runInstruction s) := by
  have p := (Stays.refl s).prepared s.nextLength
  unfold Sys2Proof.Machine.runInstruction
  dsimp only
  split
  · exact .afterResult (.of_stays p (.exec _))
  · exact .refused _
  · exact .afterResult (.next (p.operationInterrupt _ _ _))

theorem Stays.selected (h : Stays s t) (d b) : Stays s (t.selected d b) := h.same rfl rfl rfl
theorem Stays.selectInterrupt (h : Stays s t) (c) : Stays s (t.selectInterrupt c) :=
  (h.asynchronousInterrupt .s360 c).same rfl rfl rfl
theorem Stays.takeIo (h : Stays s t) (u) : Stays s (t.takeIo u) := by
  have k (v) (hv : Stays s v) (c) : Stays s
      { (State.asynchronousInterrupt v .io c).resetRequest u t.parityEnabled with nsi := none } :=
    (hv.asynchronousInterrupt _ _).same rfl rfl rfl
  unfold State.takeIo
  dsimp only
  split
  · exact k _ (h.writeHalf _ _) _
  · exact k _ h _
theorem Stays.initialLoad (h : Stays s t) (r) : Stays s (t.initialLoad r) :=
  (((h.writeBytes 0 r).loadReg 0 0).loadReg 1 2).same rfl rfl rfl

theorem Keeps.handleSelection (x) : Keeps s (handleSelection x s) := by
  have r := Stays.refl s
  unfold Sys2Proof.Machine.handleSelection
  refine .ite (fun _ => .refused _) fun _ => .ite (fun _ => .ite (fun _ => ?_) fun _ => .next (r.selected _ _)) fun _ =>
    .ite (fun _ => .next (r.selected _ _)) fun _ => .ite (fun _ => .next ((r.selected _ _).selectInterrupt _)) fun _ =>
    .ite (fun _ => .next ((r.setByte _ _).selected _ _)) fun _ => .next (((r.setByte _ _).selected _ _).selectInterrupt _)
  exact .next (((r.consume _).setByte _ _).selected _ _)

@[simp] theorem State.anyMemory_earlier (s : State) : s.anyMemory.earlier = s.earlier := by
  unfold State.anyMemory
  dsimp only
  exact s.consume_earlier _
theorem Stays.anyMemory (h : Stays s t) : Stays s t.anyMemory :=
  h.updated (t := t) (u := t.anyMemory) (fun _ => t.anyMemory_wf)
theorem Stays.freeRegisters (h : Stays s t) : Stays s t.freeRegisters := (h.consume 16).same rfl rfl rfl

/-- The S/360 reset, whichever of the two states the registers are left from. -/
theorem Stays.abort (h : Stays s t) (stored) : Stays s (s.abort t stored) := by
  have k (v) (hv : Stays s v) (n : Nat) : Stays s
      { State.consume v 1 with
        mem := abortedMemory t.mem stored n, inExecute := false, nsi := none, wrote := [], loaded := [], done := []
        freeCount := n + Config.memSize, interface := { v.interface with resetSignal := false } } :=
    ⟨fun w => ⟨abortedMemory_wf _ _ _ (h.1 w).1, (hv.1 w).2⟩, hv.2.1, fun _ => rfl⟩
  unfold State.abort
  dsimp only
  split
  · exact (k _ h _).freeRegisters.asynchronousInterrupt _ _
  · exact (k _ (.refl s) _).freeRegisters.asynchronousInterrupt _ _

theorem Keeps.takeReset : Keeps s (takeReset s) := by
  unfold Sys2Proof.Machine.takeReset
  refine .ite (fun _ => .next ((Stays.refl s).abort _)) fun _ => ?_
  split
  · next t e => exact .next ((Keeps.runInstruction t e).abort _)
  · exact .next ((Stays.refl s).abort _)
  · exact .next ((Stays.refl s).anyMemory.abort _)

/-- One turn of the CPU, whichever it is (R37). -/
theorem Keeps.cpuTurn : Keeps s (cpuTurn s) := by
  have r := Stays.refl s
  unfold Sys2Proof.Machine.cpuTurn
  split
  · exact .next (r.initialLoad _)
  · refine .ite (fun _ => .next r) fun _ => .ite (fun _ => .takeReset) fun _ => ?_
    split
    · exact .handleSelection _
    · split
      · exact .next (r.takeIo _)
      · exact .ite (fun _ => .next (r.same rfl rfl rfl)) fun _ => .runInstruction

/-! ## What the outside world's events keep of the invariant -/

/-- What the invariant says within a turn, with the turn's snapshots. -/
structure Sound (s : State) : Prop where
  canonical : s.Canonical
  cells : s.disk.cells.wf diskSize = true
  carriage : s.disk.cylinder ≤ lastCylinder
  noSubject : s.inExecute = false

theorem Stays.sound (h : Stays s t) (k : Sound s) : Sound t := by
  obtain ⟨canonical, disk, noSubject⟩ := h
  exact ⟨canonical k.canonical, disk ▸ k.cells, disk ▸ k.carriage, noSubject k.noSubject⟩

theorem Inv.sound (h : Inv s) : Sound s := by
  obtain ⟨mem, cells, carriage, noSubject, -, -, -, quiet⟩ := h
  exact ⟨⟨mem, by rw [show s.earlier = [] from quiet]; exact nofun⟩, cells, carriage, noSubject⟩

theorem Sound.settled (h : Sound s) : Inv s.settled :=
  ⟨h.canonical.1, h.cells, h.carriage, h.noSubject, rfl, rfl, rfl, rfl⟩

theorem Stays.finishUnit (h : Stays s t) (u w b) : Stays s (t.finishUnit u w b) := h.setUnit _ _

/-- The disk replaced by a sound one. -/
theorem Sound.setDisk (h : Sound s) {d : Disk} (hw : d.cells.wf diskSize = true) (hc : d.cylinder ≤ lastCylinder) :
    Sound { s with disk := d } := ⟨h.canonical, hw, hc, h.noSubject⟩

theorem Sound.carriageStops (h : Sound s) (u) {c : Nat} (e) (hc : c ≤ lastCylinder) : Sound (s.carriageStops u c e) :=
  ((Stays.refl _).finishUnit u _ true).sound (h.setDisk h.cells hc)

theorem Sound.berserk (h : Sound s) (u) : Sound (s.berserk u) := by
  have a := ((Stays.refl s).anyMemory.sound h).setDisk (d := {
      cylinder := (Config.freeWord s.anyMemory.freeCount).toNat % (lastCylinder + 1)
      cells := Memory.filled diskSize fun a => Config.freeByte (s.anyMemory.freeCount + 3 + a) })
    (Memory.filled_wf _ _) (Nat.le_of_lt_succ (Nat.mod_lt _ (Nat.succ_pos _)))
  exact (((Stays.refl _).finishUnit u _ _).consume _).sound a

/-- A movement ends on the cartridge. -/
theorem movedTo_le {c n : Nat} {lower : Bool} {k : Nat} (h : movedTo c n lower = some k) (hc : c ≤ lastCylinder) :
    k ≤ lastCylinder := by
  unfold movedTo at h
  split at h <;> split at h <;> cases h <;> omega

theorem Sound.finishMove (h : Sound s) (u c) : Sound (s.finishMove u c) := by
  have hs : Sound (s.consume 1) := ((Stays.refl s).consume 1).sound h
  unfold State.finishMove
  dsimp only
  split
  · next k e => exact h.carriageStops u false (movedTo_le e h.carriage)
  · split
    · exact hs.berserk u
    · refine hs.carriageStops u true ?_
      split
      · exact Nat.zero_le _
      · exact Nat.le_refl _

@[simp] theorem length_freeBytes (c n : Nat) : (freeBytes c n).length = n := by
  induction n generalizing c with
  | zero => rfl
  | succ n ih => simp [freeBytes, ih]

/-- A sector lies on the cartridge. -/
theorem sector_fits {c : Nat} (hc : c ≤ lastCylinder) (k : BitVec 3) : sectorStart c k.toNat + recordBytes ≤ diskSize := by
  have := k.isLt
  simp only [sectorStart, recordBytes, diskSize, sectorBytes, lastCylinder] at *
  omega

theorem Sound.finishDisk (h : Sound s) (u o b) : Sound (s.finishDisk u o b) := by
  unfold State.finishDisk
  dsimp only
  split
  · exact h.finishMove u _
  · split
    · refine ((Stays.refl _).finishUnit u _ true).sound
        ((((Stays.refl s).consume _).sound h).setDisk (Memory.writeList_wf _ h.cells ?_) h.carriage)
      have hl : (if o.tooLong = true then freeBytes s.freeCount recordBytes
          else sectorImage o.count (s.bufferData o)).length = recordBytes := by
        split
        · exact length_freeBytes _ _
        · exact length_sectorImage _ _
      rw [hl]
      exact sector_fits h.carriage _
    · split
      · refine (Stays.finishUnit ?_ u _ true).sound h
        split
        · exact ((Stays.refl s).consume _).writeBytes _ _
        · exact ((Stays.refl s).consume _).storeRest _ _ _
      · exact ((Stays.refl s).finishUnit u _ true).sound h

theorem Sound.complete (h : Sound s) (u c b l) : Sound (s.complete u c b l) := by
  unfold State.complete
  split
  · exact h
  · split
    · exact h.finishDisk _ _ _
    · split
      · exact ((((Stays.refl s).storeRest _ _ _).finishUnit _ _ _).consume _).sound h
      · exact ((Stays.refl s).finishUnit _ _ _).sound h

theorem Stays.terminalStatus (h : Stays s t) (host w f) : Stays s (t.terminalStatus host w f) := h.setUnit _ _
theorem Stays.terminalInput (h : Stays s t) (host c p) : Stays s (t.terminalInput host c p) :=
  Stays.terminalStatus ((h.setTerminal _ _)) _ _ _

theorem Stays.panelReset (h : Stays s t) : Stays s t.panelReset := h.freeRegisters.anyMemory.same rfl rfl rfl

theorem Stays.panelStop (h : Stays s t) : Stays s t.panelStop := by
  unfold State.panelStop
  split
  · exact h
  · exact (h.send .stopB).same rfl rfl rfl

theorem Stays.panelSetReg (h : Stays s t) (r v) : Stays s (t.panelSetReg r v) := by
  unfold State.panelSetReg
  dsimp only
  split
  · exact (h.setReg r v).same rfl rfl rfl
  · exact h.setReg r v

theorem Stays.panelLoad (h : Stays s t) (v) : Stays s (t.panelLoad v) := by
  unfold State.panelLoad
  split
  · exact h.panelSetReg _ _
  · exact h.panelSetReg _ _
  · split
    · exact (h.writeHalf _ _).same rfl rfl rfl
    · exact h.same rfl rfl rfl
  · exact h.same rfl rfl rfl
  · exact h.writeHalf _ _
  · exact h.panelSetReg _ _

theorem Stays.advanceCounter (h : Stays s t) : Stays s t.advanceCounter := h.same rfl rfl rfl

theorem Stays.panelStart (h : Stays s t) : Stays s t.panelStart := by
  unfold State.panelStart
  split
  · exact h
  · split
    · have l := h.panelLoad t.panel.switches
      dsimp only
      split
      · exact l.advanceCounter
      · exact l
    · have d := h.send (.panelDisplay t.display)
      dsimp only
      split
      · exact d.advanceCounter
      · exact d
    · exact h.same rfl rfl rfl

theorem Stays.panelClear (h : Stays s t) : Stays s t.panelClear := by
  unfold State.panelClear
  split
  · exact h.panelLoad _
  · exact h

theorem Stays.panelClearMemory (h : Stays s t) : Stays s t.panelClearMemory := by
  unfold State.panelClearMemory
  split
  · exact h.updated (fun _ => Memory.empty_wf _) rfl rfl rfl
  · exact h

/-- Only a completion may change the disk; every other event keeps all of the invariant's parts. -/
theorem Sound.apply (h : Sound s) (e : Event) : Sound (s.apply e) := by
  have r := Stays.refl s
  cases e with
  | complete u c b l => exact h.complete u c b l
  | request | status | terminalBreak | terminalAttention | panelInterrupt => exact (r.setUnit _ _).sound h
  | transfer u k c => exact (r.transferEarly u k c).sound h
  | terminalInput host c p => exact (r.terminalInput host c p).sound h
  | memoryWrite a bs => exact (r.writeBytes a bs).sound h
  | panelReset => exact r.panelReset.sound h
  | panelClearMemory => exact r.panelClearMemory.sound h
  | panelStop => exact r.panelStop.sound h
  | panelStart => exact r.panelStart.sound h
  | panelClear => exact r.panelClear.sound h
  | clearedByB | parityCheck | select | s360Reset | s360Online | panelIpl | panelIplFails | panelSwitches | panelRegisterSelect
  | panelModeSelect => exact ⟨h.canonical, h.cells, h.carriage, h.noSubject⟩

/-! ## Events within a turn -/

theorem Stays.foldl_undo (h : Stays s t) (l : List Access) : Stays s (l.foldl State.undo t) := by
  have e := (State.foldl_undo l t).2
  exact h.updated (State.foldl_undo_wf l t) (by rw [e]) (by rw [e]) (by rw [e])

theorem Stays.foldl_redo (h : Stays s t) (l : List Access) : Stays s (l.reverse.foldl State.redo t) := by
  obtain ⟨-, -, -, e⟩ := State.foldl_redo l t
  exact h.updated (State.foldl_redo_wf _ t) (by rw [e]) (by rw [e]) (by rw [e])

theorem Sound.behind {f : State → State} (hf : ∀ u, Sound u → Sound (f u)) (h : Sound s) (n : Nat) : Sound (s.behind n f) :=
  have undone := ((Stays.refl s).foldl_undo (s.wrote.take (s.wrote.length - n))).same
    (u := { (s.wrote.take (s.wrote.length - n)).foldl State.undo s with wrote := s.wrote.drop (s.wrote.length - n) }) rfl rfl rfl
  have redone := (Stays.refl (f _)).same (u := { f _ with wrote := s.wrote.drop (s.wrote.length - n), loaded := s.loaded })
    rfl rfl rfl
  (redone.foldl_redo _).sound (hf _ (undone.sound h))

theorem Stays.reload (h : Stays s t) (n) : Stays s (t.reload n) := by
  have e := (t.reload_spec n).1
  exact h.same (by rw [e]) (by rw [e]) (by rw [e]) (by rw [e])

theorem Sound.land (h : Sound s) (n : Nat) (e : Event) : Sound (s.land n e) := by
  unfold State.land
  split
  · exact ((Stays.refl _).reload _).sound (h.behind (fun u k => k.apply e) n)
  · exact (Stays.refl _).indivisible.sound (h.apply e)

/-- An event put behind the last snapshot changes no snapshot's memory. -/
theorem mem_attach {e : Event} {l : List Snapshot} {x : Snapshot} (h : x ∈ attach e l) : ∃ y ∈ l, x.mem = y.mem := by
  unfold attach at h
  split at h
  · exact absurd h List.not_mem_nil
  · next y hy =>
    rcases List.mem_append.1 h with h | h
    · exact ⟨x, List.mem_of_mem_dropLast h, rfl⟩
    · rw [List.mem_singleton.1 h]
      exact ⟨y, List.mem_of_getLast? hy, rfl⟩

/-- An event among the numbered accesses: the memory before it is canonical, and that after it. -/
theorem Stays.overtake (h : Stays s t) (ds : List Due) : Stays s (t.overtake ds) := by
  induction ds generalizing t with
  | nil => exact h
  | cons d ds ih =>
    unfold State.overtake
    split
    · next k _ =>
      refine ih ?_
      split
      · have m := h.move d.event
        refine ⟨fun w => ⟨(m.1 w).1, fun x hx => ?_⟩, m.2.1, m.2.2⟩
        obtain ⟨y, hy, e⟩ := mem_attach hx
        rw [e]
        rcases List.mem_append.1 hy with hy | hy
        · exact (h.1 w).2 y hy
        · rw [List.eq_of_mem_replicate hy]
          exact (h.1 w).1
      · exact h
    · exact ih h
    · exact ih h

theorem Sound.rescheduled (h : Sound s) (l) : Sound { s with schedule := l } := ⟨h.canonical, h.cells, h.carriage, h.noSubject⟩
theorem Sound.turnTaken (h : Sound s) : Sound s.turnTaken := ⟨h.canonical, h.cells, h.carriage, h.noSubject⟩

/-- Settles O6: between turns the events keep the invariant's parts, within a turn the CPU's turn and what lands in it do, and what is
left of a turn's accesses is dropped at its end. -/
theorem stepKeepsInvariant : Obligations.StepKeepsInvariant := by
  intro s t h e
  unfold step advance at e
  split at e
  · next ev rest _ =>
    cases e
    have rescheduled : Sound { s with schedule := rest } := h.sound.rescheduled rest
    exact (rescheduled.apply ev).settled
  · generalize s.schedule.takeWhile Due.lands = ds at e
    have before : Sound (s.turnTaken.overtake ds) := ((Stays.refl _).overtake ds).sound h.sound.turnTaken
    dsimp only at e
    cases hr : cpuTurn (s.turnTaken.overtake ds) with
    | next u =>
      rw [hr] at e
      cases e
      exact (State.landAll_keeps (fun _ n e k => k.land n e) ds 0 ((Keeps.cpuTurn u hr).sound before)).settled
    | fault f => rw [hr] at e; cases e
    | refused q => rw [hr] at e; cases e

end Sys2Proof.Machine
end

section
/-! PROOFS. Register operands, pairs, ranges of registers and the interface registers. -/

namespace Sys2Proof.Machine

/-! ## Registers -/

@[simp] theorem State.base_zero (s : State) : s.base 0 = 0 := if_pos rfl
theorem State.base_of_ne (s : State) {r : Reg} (h : r ≠ 0) : s.base r = s.reg r := if_neg h

/-- Register 0 as an instruction reads it is the MSR, but for the unspecified bits 4 and 5 (R27). -/
theorem State.getMsbD_reg_zero (s : State) (i : Nat) (h4 : i ≠ 4) (h5 : i ≠ 5) : (s.reg 0).getMsbD i = s.msr.getMsbD i :=
  getMsbD_withIlc _ _ _ h4 h5

/-- Settles O9, by what a register read and a register write do. -/
theorem registerAccess : Obligations.RegisterAccess :=
  ⟨fun s _ h => ⟨s.reg_of_ne h, (s.base_of_ne h).trans (s.reg_of_ne h)⟩, State.getMsbD_reg_zero, State.base_zero,
    fun s r v => ⟨s.stored_setReg_self r v, fun _ h => s.stored_setReg_ne v h⟩⟩

/-! ## Synchronous interrupts -/

/-- An interrupt whose old MSR is the MSR but for its ILC switches the class's cells (R398). -/
theorem Switched.takeInterrupt (s : State) (c : InterruptClass) (ilc : BitVec 2) (code : Word) (n : Nat) :
    Switched s ((s.takeInterrupt c (withIlc s.msr ilc) code).consume n) c code := by
  obtain ⟨old, pc, cd, newMsr, newPc, frame⟩ := s.takeInterrupt_spec c (withIlc s.msr ilc) code
  generalize s.takeInterrupt c (withIlc s.msr ilc) code = t at *
  refine ⟨fun i h4 h5 => ?_, pc, cd, newMsr, newPc, ?_⟩
  · rw [State.readHalf_consume, old, getMsbD_withIlc _ _ _ h4 h5]
  · exact (frame.trans (Frame.consume _ n)).mono (by simp) (by simp) fun _ h => h.elim id False.elim

theorem Switched.asynchronousInterrupt (s : State) (c : InterruptClass) (code : Word) :
    Switched s (s.asynchronousInterrupt c code) c code := .takeInterrupt s c _ code 1

/-- Everything an SVC or Program interrupt does (R398, R399). -/
theorem Interrupted.synchronousInterrupt (s : State) (c : InterruptClass) (ilc : BitVec 2) (code : Word) :
    Interrupted s (s.synchronousInterrupt c ilc code) c ilc code := by
  refine ⟨.takeInterrupt s c _ code 1, fun h => ?_⟩
  have old := (s.takeInterrupt_spec c (withIlc s.msr (s.causingIlc ilc)) code).1
  rw [State.synchronousInterrupt, State.readHalf_consume, old, extractLsb'_withIlc, State.causingIlc, h]
  rfl

/-- An instruction that answers a Program interrupt does nothing but take it. -/
theorem Traps.of_programInterrupt {i : Instr} {s : State} {ilc : BitVec 2} {c : ProgramCode}
    (h : exec i s = .next (s.programInterrupt ilc c)) : Traps i s ilc c :=
  ⟨_, h, .synchronousInterrupt s .program ilc c.code⟩

/-- The second pair of a DI is checked after the first, with the same interrupt. -/
theorem pairRegister_second_15 {ilc : BitVec 2} {r : Reg} {s : State} {k : Result} :
    pairRegister ilc r s (pairRegister ilc 15 s k) = .next (s.programInterrupt ilc .registerSpecification) := by
  by_cases h : r = 15
  · rw [h, pairRegister_15]
  · rw [pairRegister_of_ne h, pairRegister_15]

/-- Settles O16: each of these instructions begins with the check of its pair, which 15 fails by computation, and DI goes on with
that of its second. -/
theorem pairFromRegister15Traps : Obligations.PairFromRegister15Traps := by
  intro s r r2 r3 x2 b2 d2 i2
  simp only [List.forall_mem_cons, List.not_mem_nil, IsEmpty.forall_iff, implies_true, and_true]
  have first {i ilc} (h : exec i s = raiseProgram ilc .registerSpecification s) : Traps i s ilc .registerSpecification :=
    .of_programInterrupt h
  have di : Traps (.di r 15 i2) s 2 .registerSpecification := .of_programInterrupt pairRegister_second_15
  exact ⟨⟨first rfl, first rfl, first rfl, first rfl, first rfl, first rfl, first rfl⟩,
    first rfl, first rfl, di, first rfl, first rfl, first rfl, first rfl, first rfl, first rfl⟩

/-! ## Several registers -/

/-- A range of registers is one of at most all 16. -/
theorem rangeCount_le (r1 r3 : Reg) : rangeCount r1 r3 ≤ 16 := (r3 - r1).isLt

/-- Everything the load-multiple operation does (R119, R120). -/
theorem State.loadMultiple_spec (s : State) (r1 r3 : Reg) (a : Word) : let t := s.loadMultiple r1 r3 a
    (∀ k, k < rangeCount r1 r3 → t.stored (r1 + BitVec.ofNat 4 k) = s.readHalf (a + 2 * BitVec.ofNat 16 k)) ∧
      Frame { s with inhibit := s.inhibit || r1 == 0 } t (regRange r1 (rangeCount r1 r3)) [] noByte := by
  let n := rangeCount r1 r3
  let ws := (regRange r1 n).zip (s.readHalves a n)
  have kept (q : Reg) (h : q ∉ regRange r1 n) : (s.writeRegs ws).stored q = s.stored q :=
    s.stored_writeRegs_other ws q fun _ hw e => h (e ▸ (List.of_mem_zip hw).1)
  refine ⟨fun k hk => ?_, .intro (fun q _ h => kept q h) (fun h i _ => ?_) (MemoryKept.of_mem ?_) ?_⟩
  · have range := s.stored_writeRegs_range r1 n k (s.readHalves a n) (rangeCount_le r1 r3) hk (length_readHalves s a n)
    exact range.trans (getElem_readHalves s a n k _)
  · exact congrArg (BitVec.getMsbD · i) (kept 0 h)
  · exact s.writeRegs_mem ws
  · show State.hidden { s.writeRegs ws with inhibit := s.inhibit || r1 == 0 } = _
    rw [s.writeRegs_eq ws]
    rfl

/-- Settles O22: both instructions are the load-multiple operation at an even address. -/
theorem loadMultiple : Obligations.LoadMultiple := by
  intro s r1 r3 b2 d2
  simp only [List.forall_mem_cons, List.not_mem_nil, IsEmpty.forall_iff, implies_true, and_true]
  refine ⟨fun _ h _ => ⟨_, aligned_even h, s.loadMultiple_spec r1 r3 _⟩, fun hu h hp => ⟨_, ?_, s.loadMultiple_spec r1 r3 _⟩⟩
  have quiet : Undisturbed s := hu.resolve_left nofun
  show execLmd r1 r3 b2 d2 s = _
  rw [execLmd, withHalfAt_undisturbed quiet, withHalf_even h, aligned_even hp]

/-- Everything the store-multiple operation does (R186). -/
theorem State.storeMultiple_spec (s : State) (r1 r3 : Reg) (a : Word) : let t := s.storeMultiple r1 r3 a
    (∀ k, k < rangeCount r1 r3 → t.readHalf (a + 2 * BitVec.ofNat 16 k) = s.reg (r1 + BitVec.ofNat 4 k)) ∧
      Frame s t [] [] (Touched a (2 * rangeCount r1 r3)) := by
  have hl : ((regRange r1 (rangeCount r1 r3)).map s.reg).length = rangeCount r1 r3 := by simp
  have hn := rangeCount_le r1 r3
  refine ⟨fun k hk => ?_, hl ▸ Frame.writeHalves s a _⟩
  rw [State.storeMultiple, State.readHalf_writeHalves_inside _ _ _ k (hl.symm ▸ hk) (by simp only [hl, Config.memSize]; omega),
    List.getElem_map, getElem_regRange]

/-- Settles O23: both instructions are the store-multiple operation at an even address. -/
theorem storeMultiple : Obligations.StoreMultiple := by
  intro s r1 r3 b2 d2
  simp only [List.forall_mem_cons, List.not_mem_nil, IsEmpty.forall_iff, implies_true, and_true]
  refine ⟨fun h _ => ⟨_, aligned_even h, s.storeMultiple_spec r1 r3 _⟩, fun h hp => ⟨_, ?_, s.storeMultiple_spec r1 r3 _⟩⟩
  show execStmd r1 r3 b2 d2 s = _
  rw [execStmd, withHalf_even h, aligned_even hp]

/-! ## The interface registers -/

/-- The four meanings of IOST (R388): read S, write S, read T, write T. -/
theorem exec_iost (s : State) (r1 r2 : Reg) (hp : s.privileged = true) :
    (r2.extractLsb' 0 2 = 0 → exec (.iost r1 r2) s =
      .next (({ s.consume 1 with interface := { s.interface with sReg := s.sensedS } }).setReg r1 s.sensedS)) ∧
    (r2.extractLsb' 0 2 = 2 → exec (.iost r1 r2) s =
      .next (({ s.consume 1 with interface := { s.interface with tReg := s.sensedT } }).setReg r1 s.sensedT)) ∧
    (r2.extractLsb' 0 2 = 1 → exec (.iost r1 r2) s =
      .next (({ s with interface := { s.interface with sReg := s.reg r1 } }).send (.interfaceS (s.reg r1)))) ∧
    (r2.extractLsb' 0 2 = 3 → exec (.iost r1 r2) s =
      .next (({ s with interface := { s.interface with tReg := s.reg r1 } }).send (.interfaceT (s.reg r1)))) := by
  rw [show exec (.iost r1 r2) s = execIost r1 r2 s from rfl, execIost, whenPrivileged_on hp]
  refine ⟨fun h => ?_, fun h => ?_, fun h => ?_, fun h => ?_⟩ <;> rw [h] <;> rfl

/-- Settles O55, by the four meanings of IOST. -/
theorem interfaceRegisters : Obligations.InterfaceRegisters := by
  intro s r1 r2 hp
  obtain ⟨readS, readT, writeS, writeT⟩ := exec_iost s r1 r2 hp
  exact ⟨fun h => ⟨_, readS h, State.stored_setReg_self _ _ _, Frame.setReg _ _ _⟩,
    fun h => ⟨_, readT h, State.stored_setReg_self _ _ _, Frame.setReg _ _ _⟩,
    fun h => ⟨_, writeS h, rfl, rfl, Frame.refl _⟩, fun h => ⟨_, writeT h, rfl, rfl, Frame.refl _⟩⟩

end Sys2Proof.Machine
end

section
/-! PROOFS. Steps, interrupts between instructions, the S/360 reset, RESET and IPL. -/

namespace Sys2Proof.Machine

/-! ## Steps -/

/-- Settles O5: every field of the reset state is written out. -/
theorem resetSatisfiesInvariant : Obligations.ResetSatisfiesInvariant :=
  ⟨Memory.empty_wf _, Memory.empty_wf _, Nat.zero_le _, rfl, rfl, rfl, rfl, rfl⟩

/-- Between turns, with no event due: the step is a turn of the CPU and nothing falls within it. -/
theorem Quiet.step_next {s t : State} (h : Quiet s) (e : cpuTurn s.turnTaken = .next t) : step s = .next t.settled := by
  rw [step_of_turn s h.1, e, landing_nil_next]

/-- Where nothing is to be taken, a turn waits or runs an instruction (R37). -/
theorem Turn.cpuTurn_eq {s : State} (h : Turn s)
    (hi : s.inhibit = true ∨ (s.interface.selection = none ∧ s.dueUnit = none)) :
    cpuTurn s.turnTaken =
      if s.waiting then .next { s.turnTaken with inhibit := false } else runInstruction s.turnTaken :=
  cpuTurn_quiet s.turnTaken h.1.2.2 h.2.1 h.2.2 hi

/-- A stopped machine's turn does nothing (R478). -/
theorem cpuTurn_stopped {s : State} (h : s.panel.ipl = none) (hs : s.panel.stopped = true) : cpuTurn s = .next s := by
  unfold cpuTurn
  rw [h]
  exact if_pos hs

/-- Settles O8, by the turn of a stopped and of a waiting machine. -/
theorem stoppedAndWaiting : Obligations.StoppedAndWaiting :=
  ⟨fun _ hs hq => hq.step_next (cpuTurn_stopped hq.2.2 hs),
    fun _ ht hw hi => ht.1.step_next ((ht.cpuTurn_eq hi).trans (if_pos hw)), fun _ => rfl⟩

/-- The run of an instruction that the decoder accepts. -/
theorem runInstruction_of_ok {s : State} {i : Instr} (h : s.fetched = .ok i) :
    runInstruction s = afterResult (exec i (s.prepared s.nextLength)) := by
  unfold runInstruction
  rw [h]

/-- A step of a machine that is ready runs the decoded instruction. -/
theorem Ready.step_eq {s : State} {i : Instr} (h : Ready s)
    (hd : decode s.firstHalf (s.readHalf (s.fetchAddress 1)) (s.readHalf (s.fetchAddress 2)) = .ok i) :
    step s = landing [] (afterResult (exec i s.running)) := by
  obtain ⟨ht, hi, hw⟩ := h
  have hf : s.turnTaken.fetched = .ok i := by
    rw [← hd]
    have quiet := ht.1.2.1.turnTaken
    unfold State.fetched
    rw [quiet.fetchHalf, quiet.fetchHalf]
    rfl
  rw [step_of_turn s ht.1.1, ht.cpuTurn_eq hi, hw, if_neg (by decide), runInstruction_of_ok hf]
  rfl

/-- Settles O7: the step is the instruction's answer, and the state it runs in is written out. -/
theorem stepRunsDecodedInstruction : Obligations.StepRunsDecodedInstruction := by
  intro s i hr hd _
  have quiet : Undisturbed s := hr.1.1.2.1
  have hs := hr.step_eq hd
  refine ⟨fun t e => by rw [hs, e, landing_nil_next], fun f e => by rw [hs, e, landing_fault],
    fun q e => by rw [hs, e, landing_refused], fun _ => rfl, State.stored_setReg_self _ _ _,
    fun r h => State.stored_setReg_ne _ _ h, rfl, rfl, rfl, ?_, fun hn => ?_, fun _ => rfl, fun t h => ?_, fun t h => ?_⟩
  · show s.earlier.drop 4 = []
    rw [show s.earlier = [] from quiet, List.drop_nil]
  · unfold State.firstHalf
    rw [hn]
    exact quiet.fetchHalf 0
  · rw [afterResult, State.afterInstruction, h]
  · rw [afterResult, State.afterInstruction, h]

/-! ## I/O interrupts -/

/-- Whether a unit's interrupt is to be taken, where no unit stores before the mask is read (R417, R436). -/
theorem State.unitDue_eq {s : State} (h : Undisturbed s) (v : Fin 11) :
    s.unitDue v = (((s.unit v).request && s.ioEnabled && (s.readHalf 0x2E).getMsbD v.val) ||
      (v == 5 && ((s.parityPending && s.parityEnabled) ||
        ((s.unit 5).request && (s.unit 5).ush.getMsbD 0 && !Config.intRunGated)))) := by
  rw [State.unitDue, State.unitEnabled, State.maskAllows, h.seenAt, State.panelDue, panelBitRun_on]
  rfl

/-- No unit's interrupt is to be taken. -/
theorem State.dueUnit_none {s : State} (h : ∀ v, s.unitDue v = false) : s.dueUnit = none :=
  List.find?_eq_none.2 fun v _ => by rw [h v]; exact Bool.false_ne_true

/-- All units stand in priority order. -/
theorem allUnits_eq : allUnits = List.finRange 11 := rfl

/-- The lowest unit whose interrupt is to be taken (R419). -/
theorem State.dueUnit_some {s : State} {u : Fin 11} (h : s.unitDue u = true) (hl : ∀ v, v < u → s.unitDue v = false) :
    s.dueUnit = some u := by
  rw [State.dueUnit, allUnits_eq, List.find?_eq_some_iff_getElem]
  refine ⟨h, u.val, by simp, by simp, fun j hj => ?_⟩
  rw [List.getElem_finRange, hl _ (by simpa [Fin.lt_def] using hj)]
  rfl

/-- A turn that finds a unit's interrupt to be taken takes it (R37). -/
theorem cpuTurn_takeIo {s : State} {u : Fin 11} (ht : Turn s) (hi : s.inhibit = false) (hs : s.interface.selection = none)
    (hu : s.dueUnit = some u) : cpuTurn s.turnTaken = .next (s.turnTaken.takeIo u) := by
  obtain ⟨⟨-, -, ipl⟩, run, noReset⟩ := ht
  have hu' : s.turnTaken.dueUnit = some u := hu
  unfold cpuTurn
  rw [show s.turnTaken.panel.ipl = none from ipl]
  dsimp only
  rw [show s.turnTaken.panel.stopped = false from run, show s.turnTaken.interface.resetSignal = false from noReset,
    show s.turnTaken.inhibit = false from hi, show s.turnTaken.interface.selection = none from hs, hu']
  rfl

/-- The requests after a unit's interrupt: its own is reset, but the META 4B's, and an enabled Parity Check (R417, R437). -/
theorem State.resetRequest_spec (s : State) (u : Fin 11) (parity : Bool) : let t := s.resetRequest u parity
    (t.unit u).request = ((s.unit u).request && u.val == 1) ∧ (∀ v, v ≠ u → t.unit v = s.unit v) ∧
      t.parityPending = (s.parityPending && !(u == 5 && parity)) := by
  have set (v : Fin 11) (l : LocalUnit) := s.unit_setUnit u v l
  refine ⟨?_, fun v hv => (set v _).trans (if_neg hv), rfl⟩
  exact congrArg LocalUnit.request ((set u _).trans (if_pos rfl))

theorem ioCode_valid (u : Fin 11) : ioCode u true = BitVec.ofNat 16 u.val := BitVec.or_zero
theorem ioCode_invalid (u : Fin 11) : ioCode u false = 0x8000 ||| BitVec.ofNat 16 u.val := BitVec.or_comm _ _

/-- What is left of a unit's I/O interrupt, its status stored in `v` or nowhere: the interrupt, the request reset, and no halfword
read ahead (R417). -/
def State.ioTaken (s v : State) (u : Fin 11) (code : Word) : State :=
  { (v.asynchronousInterrupt .io code).resetRequest u s.parityEnabled with nsi := none }

/-- The I/O interrupt of a unit with a valid UCB pointer, and of one without (R417). -/
theorem State.takeIo_valid {s : State} {u : Fin 11} {p : Word} (hp : s.readHalf (0x30 + 2 * BitVec.ofNat 16 u.val) = p)
    (h0 : p ≠ 0) (ho : odd p = false) :
    s.takeIo u = s.ioTaken (s.writeHalf (p + 2) (s.sensed u)) u (BitVec.ofNat 16 u.val) := by
  have hv : ucbValid p = true := by rw [ucbValid, ho, bne_iff_ne.2 h0]; rfl
  unfold State.takeIo
  dsimp only
  rw [hp, hv, if_pos rfl, ioCode_valid]
  rfl

theorem State.takeIo_invalid {s : State} {u : Fin 11} {p : Word} (hp : s.readHalf (0x30 + 2 * BitVec.ofNat 16 u.val) = p)
    (h : p = 0 ∨ odd p = true) : s.takeIo u = s.ioTaken s u (0x8000 ||| BitVec.ofNat 16 u.val) := by
  have hv : ucbValid p = false := by
    rcases h with h | h
    · rw [h]; rfl
    · rw [ucbValid, h, Bool.not_true, Bool.and_false]
  unfold State.takeIo
  dsimp only
  rw [hp, hv, if_neg Bool.false_ne_true, ioCode_invalid]
  rfl

/-- `Switched` speaks of registers, memory and what a frame keeps besides. -/
theorem Switched.congr {s s' t t' : State} {c : InterruptClass} {code : Word} (h : Switched s t c code)
    (hs : s'.regs = s.regs ∧ s'.mem = s.mem) (ht : t'.regs = t.regs ∧ t'.mem = t.mem) (hh : t'.hidden = s'.hidden) :
    Switched s' t' c code := by
  have regs (r : Reg) : s'.stored r = s.stored r ∧ t'.stored r = t.stored r :=
    ⟨State.stored_congr hs.1 r, State.stored_congr ht.1 r⟩
  have bytes (a : Word) : s'.byteAt a = s.byteAt a ∧ t'.byteAt a = t.byteAt a :=
    ⟨congrArg (Memory.read · (phys a)) hs.2, congrArg (Memory.read · (phys a)) ht.2⟩
  have halves (a : Word) : s'.readHalf a = s.readHalf a ∧ t'.readHalf a = t.readHalf a :=
    ⟨State.readHalf_congr (bytes a).1 (bytes (a + 1)).1, State.readHalf_congr (bytes a).2 (bytes (a + 1)).2⟩
  obtain ⟨old, pc, cd, newMsr, newPc, kept, bits, mem, -⟩ := h
  simp only [Switched, Frame, RegistersKept, MsrKept, MemoryKept, State.msr, State.pc, regs, bytes, halves]
  exact ⟨old, pc, cd, newMsr, newPc, kept, bits, mem, hh⟩

/-- Beside the units, the Parity Check and the halfword read ahead an I/O interrupt is the interrupt sequence. -/
theorem Switched.ioTaken (s v : State) (u : Fin 11) (code : Word) : Switched v { s.ioTaken v u code with
    units := v.units, parityPending := v.parityPending, nsi := v.nsi } .io code :=
  (Switched.asynchronousInterrupt v .io code).congr ⟨rfl, rfl⟩ ⟨rfl, rfl⟩ rfl

/-- Units read alike where they are alike. -/
theorem State.unit_congr {s t : State} (h : s.units = t.units) (u : Fin 11) : s.unit u = t.unit u := by
  simp [State.unit, h]

/-- The requests it leaves. -/
theorem State.ioTaken_requests (s : State) {v w : State} (u : Fin 11) (code : Word) (hu : v.units = w.units)
    (hp : v.parityPending = w.parityPending) : let t := (s.ioTaken v u code).settled
    (t.unit u).request = ((w.unit u).request && u.val == 1) ∧ (∀ x, x ≠ u → t.unit x = w.unit x) ∧
      t.parityPending = (w.parityPending && !(u == 5 && s.parityEnabled)) := by
  obtain ⟨own, others, parity⟩ := (v.asynchronousInterrupt .io code).resetRequest_spec u s.parityEnabled
  simp only [← State.unit_congr hu, ← hp]
  exact ⟨own, others, parity⟩

/-- Settles O57: the turn takes the interrupt of the lowest unit that is due, or waits on. -/
theorem ioInterrupt : Obligations.IoInterrupt := by
  intro s u ht hi hs due p beside after
  have quiet : Undisturbed s := ht.1.2.1
  have hdue (v : Fin 11) : s.unitDue v = due v := s.unitDue_eq quiet v
  refine ⟨fun none hw => ?_, fun hu hl => ?_⟩
  · have he := (ht.cpuTurn_eq (.inr ⟨hs, s.dueUnit_none fun v => (hdue v).trans (none v)⟩)).trans (if_pos hw)
    rw [ht.1.step_next he]
    exact congrArg (fun b => Host.Outcome.next { s.turnTaken.settled with inhibit := b }) hi.symm
  · have hstep := ht.1.step_next (cpuTurn_takeIo ht hi hs
      (s.dueUnit_some ((hdue u).trans hu) fun v hv => (hdue v).trans (hl v hv)))
    refine ⟨fun h0 ho => ⟨_, hstep, ?_⟩, fun h => ⟨_, hstep, ?_⟩⟩
    · rw [State.takeIo_valid (s := s.turnTaken) (p := p) rfl h0 ho]
      exact ⟨(Switched.ioTaken s.turnTaken (s.turnTaken.writeHalf (p + 2) (s.sensed u)) u _).congr ⟨rfl, rfl⟩ ⟨rfl, rfl⟩ rfl,
        s.turnTaken.ioTaken_requests u _ rfl rfl⟩
    · rw [State.takeIo_invalid (s := s.turnTaken) (p := p) rfl h]
      exact ⟨(Switched.ioTaken s.turnTaken s.turnTaken u _).congr ⟨rfl, rfl⟩ ⟨rfl, rfl⟩ rfl,
        s.turnTaken.ioTaken_requests u _ rfl rfl⟩

/-! ## The S/360 reset -/

/-- A turn that finds an S/360 reset signalled takes it, whatever else there is to take (R37, R427). -/
theorem cpuTurn_takeReset {s : State} (h0 : s.panel.ipl = none) (h1 : s.panel.stopped = false)
    (h2 : s.interface.resetSignal = true) : cpuTurn s = takeReset s := by
  unfold cpuTurn
  rw [h0]
  dsimp only
  rw [h1, if_neg Bool.false_ne_true, if_pos h2]

/-- What an aborted instruction did not store to is as it left it. -/
theorem read_abortedMemory (after : Memory) (stored : List Word) (n c : Nat) (h : ∀ a ∈ stored, c ≠ phys a) :
    (abortedMemory after stored n).read c = after.read c := by
  unfold abortedMemory
  induction stored generalizing after with
  | nil => rfl
  | cons a l ih =>
    rw [List.foldl_cons, ih _ fun b hb => h b (List.mem_cons_of_mem _ hb), Memory.read_write,
      if_neg (h a (List.mem_cons_self ..))]

/-- The state in which the reset's interrupt is taken: memory as the instruction left it but for its stores, and the signal off. -/
theorem State.abort_eq (s after : State) (stored : List Word) : ∃ (u : State) (n : Nat),
    s.abort after stored = u.asynchronousInterrupt .s360 2 ∧ u.mem = abortedMemory after.mem stored n ∧
      u.interface.resetSignal = false := ⟨_, _, rfl, rfl, rfl⟩

/-- The S/360 reset is an S/360 interrupt with code 2 from what the aborted instruction left (R427). -/
theorem State.abort_spec (s after : State) (stored : List Word) : let t := (s.abort after stored).settled
    t.readHalf 0x26 = 2 ∧ t.msr = t.readHalf 0x28 ∧ t.pc = t.readHalf 0x2A ∧ t.interface.resetSignal = false ∧
      MemoryKept after t (either (Touched 0x22 6) fun a => ∃ b ∈ stored, phys a = phys b) := by
  obtain ⟨u, n, e, hm, hi⟩ := s.abort_eq after stored
  obtain ⟨-, -, code, newMsr, newPc, frame⟩ := Switched.asynchronousInterrupt u .s360 2
  have signal : (u.asynchronousInterrupt .s360 2).interface.resetSignal = false := hi
  rw [e]
  generalize u.asynchronousInterrupt .s360 2 = t at *
  have kept (a : Word) (h : ¬ Touched 0x22 6 a) : t.byteAt a = u.byteAt a := frame.2.2.1 a h
  have half (b : Word) (h0 : ¬ Touched 0x22 6 b) (h1 : ¬ Touched 0x22 6 (b + 1)) : t.readHalf b = u.readHalf b :=
    State.readHalf_congr (kept b h0) (kept (b + 1) h1)
  have apart : ∀ k : Fin 4, ¬ Touched 0x22 6 (0x28 + BitVec.ofNat 16 k.val) := by
    simp only [touched_iff]
    decide
  refine ⟨code, newMsr.trans (half 0x28 (apart 0) (apart 1)).symm, newPc.trans (half 0x2A (apart 2) (apart 3)).symm, signal,
    fun a h => (kept a fun x => h (.inl x)).trans ?_⟩
  rw [State.byteAt, hm, read_abortedMemory _ _ _ _ fun b hb x => h (.inr ⟨b, hb, x⟩)]
  rfl

/-- The reset is taken in every case: from the wait state, or from what the turn's instruction would have led to. -/
theorem takeReset_eq (s : State) : ∃ after stored, takeReset s = .next (s.abort after stored) ∧
    (s.waiting = true → after = s ∧ stored = []) ∧
      ∀ v, s.waiting = false → runInstruction s = .next v → after = v ∧ stored = v.storedTo := by
  unfold takeReset
  split
  · next hw => exact ⟨s, [], rfl, fun _ => ⟨rfl, rfl⟩, fun _ h => Bool.noConfusion (hw.symm.trans h)⟩
  · next hw =>
    split
    · next t e =>
      exact ⟨t, t.storedTo, rfl, fun h => absurd h hw, fun v _ k => by
        obtain rfl : t = v := Host.Outcome.next.inj (e.symm.trans k)
        exact ⟨rfl, rfl⟩⟩
    · next f e => exact ⟨s, [], rfl, fun h => absurd h hw, fun _ _ k => nomatch e.symm.trans k⟩
    · next q e => exact ⟨s.anyMemory, [], rfl, fun h => absurd h hw, fun _ _ k => nomatch e.symm.trans k⟩

/-- Settles O58: the turn is the reset, and its interrupt comes behind what the aborted instruction left. -/
theorem s360Reset : Obligations.S360Reset := by
  intro s hq hr hs
  obtain ⟨after, stored, e, waits, runs⟩ := takeReset_eq s.turnTaken
  obtain ⟨code, newMsr, newPc, signal, kept⟩ := s.turnTaken.abort_spec after stored
  have hstep := hq.step_next ((cpuTurn_takeReset (s := s.turnTaken) hq.2.2 hr hs).trans e)
  refine ⟨_, hstep, code, newMsr, newPc, signal, fun hw => ?_, fun v hw hv => ?_⟩
  · obtain ⟨rfl, rfl⟩ := waits hw
    exact fun a h => kept a fun x => x.elim h fun ⟨_, hb, _⟩ => List.not_mem_nil hb
  · obtain ⟨rfl, rfl⟩ := runs v hw hv
    exact kept

/-! ## RESET and IPL -/

/-- A step of the CPU while an IPL is under way loads its record (R473). -/
theorem step_ipl {s : State} {record : List Byte} (h : s.panel.ipl = some record) (hq : ∀ d ∈ s.schedule.head?, 0 < d.turns) :
    step s = .next (s.turnTaken.initialLoad record).settled := by
  rw [step_of_turn s hq, cpuTurn_ipl s.turnTaken record h, landing_nil_next]

/-- What an IPL's turn leaves (R473). -/
theorem State.iplTurn_spec (s : State) (record : List Byte) : let t := (s.turnTaken.initialLoad record).settled
    BytesAt t 0 record ∧ MemoryKept s t (Touched 0 record.length) ∧ t.msr = t.readHalf 0 ∧ t.pc = t.readHalf 2 ∧
      RegistersKept s t [1] ∧ t.inhibit = false ∧ t.panel.stopped = false ∧ t.panel.iplLight = false ∧ t.panel.ipl = none := by
  obtain ⟨bytes, msr, pc, regs, -⟩ := s.turnTaken.initialLoad_spec record
  refine ⟨fun k hk hl => (bytes _).trans (State.byteAt_writeBytes_inside _ 0 record k hk hl),
    fun a h => (bytes a).trans (State.byteAt_writeBytes_outside _ 0 a record h), msr, pc, fun r h0 h1 => regs r h0 ?_,
    rfl, rfl, rfl, rfl⟩
  exact fun e => h1 (List.mem_singleton.2 e)

/-- The units after RESET (R471). -/
theorem State.panelReset_unit (s : State) (u : Fin 11) :
    s.panelReset.unit u = s.freeRegisters.anyMemory.resetUnit u := Vector.getElem_ofFn _

/-- No request is left, and an online unit has nothing in progress. -/
theorem State.resetUnit_idle (s : State) (u : Fin 11) :
    (s.resetUnit u).request = false ∧ ((s.unit u).offline = false → (s.resetUnit u).operation = none) := by
  unfold State.resetUnit
  dsimp only
  split
  · next h => exact ⟨rfl, fun k => Bool.noConfusion (h.symm.trans k)⟩
  · exact ⟨rfl, fun _ => rfl⟩

@[simp] theorem State.anyMemory_units (s : State) : s.anyMemory.units = s.units := by
  unfold State.anyMemory
  dsimp only
  exact s.consume_units _

@[simp] theorem State.freeRegisters_units (s : State) : s.freeRegisters.units = s.units := by
  simp only [State.freeRegisters, State.consume_units]

/-- Settles O4, by the IPL button, the turn that loads the record, RESET, and the reset state as it is written out. -/
theorem resetAndIpl : Obligations.ResetAndIpl := by
  refine ⟨fun _ _ => ⟨rfl, rfl, rfl, rfl⟩,
    fun s record h hq => ⟨_, step_ipl h hq, s.iplTurn_spec record⟩,
    fun s => ⟨fun u => ?_, rfl, rfl, rfl, rfl, rfl⟩, rfl, rfl, rfl, fun u => ?_, rfl, rfl⟩
  · rw [show s.apply .panelReset = s.panelReset from rfl, State.panelReset_unit]
    have same := State.unit_congr (s.freeRegisters.anyMemory_units.trans s.freeRegisters_units) u
    rw [← same]
    exact State.resetUnit_idle _ u
  · exact congrArg LocalUnit.request (Vector.getElem_ofFn u.isLt)

end Sys2Proof.Machine
end

section
/-! PROOFS. Memory: what reads see after stores, odd halfword addresses, moves and fills. -/

namespace Sys2Proof.Machine

/-! ## Reads and stores -/

/-- Half the addresses on, an address names the same byte (R47). -/
theorem phys_add_memSize (a : Word) : phys (a + 0x8000) = phys a := by
  simp only [phys, Config.memSize, BitVec.toNat_add, show (0x8000 : Word).toNat = 32768 from rfl]
  omega

/-- The high-order byte of a stored halfword stands first (R49). -/
theorem State.byteAt_writeHalf_first (s : State) (a w : Word) : (s.writeHalf a w).byteAt a = w.extractLsb' 8 8 := by
  rw [State.byteAt_writeHalf, State.writeBytes, State.writeBytes, State.writeBytes, State.byteAt_setByte,
    if_neg (phys_succ_ne a).symm, State.byteAt_setByte, if_pos rfl]

/-- Settles O10: an address counts by the byte it names, and a store's frame is that byte, or its two. -/
theorem memoryAccess : Obligations.MemoryAccess :=
  ⟨fun s a => congrArg s.mem.read (phys_add_memSize a), fun s a c b => s.byteAt_setByte a c b, fun _ _ => rfl,
    fun s a w => ⟨s.readHalf_writeHalf a w, s.byteAt_writeHalf_first a w, fun c h => s.byteAt_writeHalf_outside a w c h⟩⟩

/-! ## Odd halfword addresses -/

/-- A check before a check that takes the Alignment interrupt takes the same, or goes on to it. -/
theorem aligned_then_odd {ilc : BitVec 2} {a : Word} {s : State} {k : Result}
    (h : k = .next (s.programInterrupt ilc .alignment)) :
    aligned ilc a s k = .next (s.programInterrupt ilc .alignment) := by
  by_cases ha : odd a = true
  · exact aligned_odd ha
  · rw [aligned_even (Bool.eq_false_iff.2 ha), h]

/-- An instruction whose first check is of an odd address does nothing but take the Alignment interrupt. -/
theorem Traps.of_odd {i : Instr} {s : State} {ilc : BitVec 2} {a : Word} {k : Result} (h : odd a = true)
    (e : exec i s = aligned ilc a s k) : Traps i s ilc .alignment :=
  .of_programInterrupt (e.trans (aligned_odd h))

/-- The same of its second check, whatever the first finds. -/
theorem Traps.of_second_odd {i : Instr} {s : State} {ilc : BitVec 2} {a b : Word} {k : Result} (h : odd b = true)
    (e : exec i s = aligned ilc a s (aligned ilc b s k)) : Traps i s ilc .alignment :=
  .of_programInterrupt (e.trans (aligned_then_odd (aligned_odd h)))

/-- The same of its third. -/
theorem Traps.of_third_odd {i : Instr} {s : State} {ilc : BitVec 2} {a b c : Word} {k : Result} (h : odd c = true)
    (e : exec i s = aligned ilc a s (aligned ilc b s (aligned ilc c s k))) : Traps i s ilc .alignment :=
  .of_programInterrupt (e.trans (aligned_then_odd (aligned_then_odd (aligned_odd h))))

/-- A pointer that is a turn's numbered read is odd where memory's is, if no unit stores among the reads (log 50). -/
theorem Undisturbed.odd_seenAt {s : State} (h : Undisturbed s) {a : Word} (ho : odd (s.readHalf a) = true) (i : Nat) :
    odd ((s.seenAt i).readHalf a) = true := by rwa [h.seenAt]

/-- Settles O14: each instruction begins with the checks of its operands' addresses, of the pointers read there, and of a stack's
top, in the order in which it is written; the privileged SIO and the pairs of M and D have their own check before. -/
theorem oddHalfwordAddressesTrap : Obligations.OddHalfwordAddressesTrap := by
  unfold Obligations.OddHalfwordAddressesTrap
  simp only [List.forall_mem_cons, List.not_mem_nil, IsEmpty.forall_iff, implies_true, and_true]
  refine ⟨?registers, ?immediates, ?indexed, ?deferred, ?multiple, ?immediateBytes, ?twoAddresses, ?stackLong, ?frames⟩
  case registers => exact fun s r1 r2 h => ⟨.of_odd h rfl, .of_odd h rfl⟩
  case immediates => exact fun s r1 r2 i2 h => ⟨.of_odd h rfl, .of_odd h rfl⟩
  case indexed =>
    intro s r1 x2 b2 d2 h
    refine ⟨?_, fun h15 => ⟨.of_odd h (pairRegister_of_ne h15), .of_odd h (pairRegister_of_ne h15)⟩,
      fun hp => .of_odd h (whenPrivileged_on hp)⟩
    and_intros <;> exact .of_odd h rfl
  case deferred =>
    exact fun s r1 x2 b2 d2 hu _ hp => ⟨.of_second_odd (hu.odd_seenAt hp 0) rfl, .of_second_odd hp rfl⟩
  case multiple =>
    refine fun s r1 r3 b2 d2 => ⟨fun h => ?_, fun hu _ hp => ?_⟩
    · and_intros <;> exact .of_odd h rfl
    · have top := hu.odd_seenAt hp 0
      exact ⟨.of_second_odd top rfl, .of_second_odd hp rfl, .of_second_odd top rfl, .of_second_odd top rfl⟩
  case immediateBytes =>
    intro s i2 b1 d1 h
    and_intros <;> exact .of_odd h rfl
  case twoAddresses =>
    refine fun s i3 b1 d1 b2 d2 => ⟨fun h => ?_, fun h => ⟨.of_odd h rfl, .of_odd h rfl⟩, fun h => .of_odd h rfl,
      fun hu _ _ hp => ⟨.of_third_odd (hu.odd_seenAt hp 0) rfl, .of_third_odd (hu.odd_seenAt hp 0) rfl⟩⟩
    rcases h with h | h
    · and_intros <;> exact .of_odd h rfl
    · and_intros <;> exact .of_second_odd h rfl
  case stackLong =>
    rintro s u rl b1 d1 b2 d2 (h | h | ⟨hu, hp⟩)
    · exact ⟨.of_odd h rfl, .of_odd h rfl⟩
    · exact ⟨.of_second_odd h rfl, .of_second_odd h rfl⟩
    · exact ⟨.of_third_odd (hu.odd_seenAt hp 0) rfl, .of_third_odd (hu.odd_seenAt hp 0) rfl⟩
  case frames => exact fun s r1 r2 i2 h => ⟨.of_odd h rfl, .of_odd h rfl⟩

/-! ## Moves and fills -/

/-- Where Operand 1 starts inside Operand 2 and above its start, in numbers (R232, R47). -/
theorem destructive_eq_false {e f : Word} {n : Nat} (h : ¬ (0 < (e - f).toNat ∧ (e - f).toNat < n))
    (h' : ¬ (0 < (e - f).toNat % Config.memSize ∧ (e - f).toNat % Config.memSize < n)) : destructive e f n = false :=
  Bool.or_eq_false_iff.2 ⟨decide_eq_false h, decide_eq_false h'⟩

/-- MVC and MVCL where the copy is not destructive and no unit comes: Operand 1 gets what Operand 2 held. -/
theorem BytesStored.of_moveCharacters {i : Instr} {s : State} {e f : Word} {n : Nat} (hi : exec i s = moveCharacters e f n s)
    (hu : Undisturbed s) (hd : destructive e f n = false) : BytesStored i s e (s.readBytes f n) := by
  let move := fun (j : Nat) (t _ : State) => t.byteAt (f + BitVec.ofNat 16 j)
  have moved : (s.alterString 1 move e n).2 = s.readBytes f n := hu.moved e f n hd
  have safe : ¬ destructive e f n = true := Bool.eq_false_iff.1 hd
  refine ⟨(s.alterString 1 move e n).1, hi.trans (if_neg safe), moved ▸ hu.bytesAt_alterString 1 move e n, ?_⟩
  · rw [length_readBytes]; exact hu.frame_alterString 1 move e n

/-- MVC and MVCL complete whatever the overlap, and keep the registers; where no unit comes they store to Operand 1 only. -/
theorem Completes.of_moveCharacters {i : Instr} {s : State} {e f : Word} {n : Nat} (hi : exec i s = moveCharacters e f n s) :
    Completes i s fun t => t.regs = s.regs ∧ (Undisturbed s → Frame s t [] [] (Touched e n)) := by
  have kept (t : State) (v : Nat → State → State → Byte) : (t.alterString 1 v e n).1.regs = t.regs := by
    rw [(t.alterString_eq 1 v e n).2]
  by_cases hd : destructive e f n = true
  · refine ⟨_, hi.trans (if_pos hd), kept _ _, fun hu => ?_⟩
    have free : Undisturbed (s.consume n) := hu
    exact ((Frame.consume s n).trans (free.frame_alterString 1 _ e n)).mono (by simp) (by simp) fun _ h => h.elim False.elim id
  · exact ⟨_, hi.trans (if_neg hd), kept _ _, fun hu => hu.frame_alterString 1 _ e n⟩

/-- Settles O40: MVCN and the fills are stores of bytes, MVC a string replaced byte by byte. -/
theorem movesAndFills : Obligations.MovesAndFills := by
  intro s l u rl b1 d1 b2 d2 e f d
  simp only [List.forall_mem_cons, List.not_mem_nil, IsEmpty.forall_iff, implies_true, and_true]
  refine ⟨⟨.of_writeBytes rfl, .of_writeBytes rfl⟩, ⟨⟨fun hu h h' => ?_, .of_moveCharacters rfl⟩, fun hu h h' => ?_,
    .of_moveCharacters rfl⟩, ⟨.of_writeBytes rfl, .of_writeBytes rfl⟩, fun i step n => ⟨length_readEach s i step f n,
    fun k hk => getElem_readEach s i step f n k hk, fun hu => hu.readEach i step f n⟩⟩
  · exact .of_moveCharacters rfl hu (destructive_eq_false h h')
  · exact .of_moveCharacters rfl hu (destructive_eq_false h h')

end Sys2Proof.Machine
end

section
/-! PROOFS. A unit's store within a turn. -/

namespace Sys2Proof.Machine

/-! ## The turn -/

/-- A byte that two memories hold alike is the same in both after the same bytes are stored. -/
theorem State.byteAt_writeBytes_congr {s t : State} {c : Word} (h : s.byteAt c = t.byteAt c) (a : Word) (bs : List Byte) :
    (s.writeBytes a bs).byteAt c = (t.writeBytes a bs).byteAt c := by
  induction bs generalizing s t a with
  | nil => exact h
  | cons b bs ih =>
    refine ih (s := s.setByte a b) (t := t.setByte a b) ?_ (a + 1)
    rw [State.byteAt_setByte, State.byteAt_setByte, h]

/-- What a store of bytes leaves in memory rests on memory alone. -/
theorem State.writeBytes_mem_congr {s t : State} (h : s.mem = t.mem) (a : Word) (bs : List Byte) :
    (s.writeBytes a bs).mem = (t.writeBytes a bs).mem := by
  induction bs generalizing s t a with
  | nil => exact h
  | cons b bs ih => exact ih (congrArg (fun m : Memory => m.write (phys a) b) h) (a + 1)

/-- A step in which one event falls, within the coming turn. -/
theorem step_of_one_event {s : State} {d : Due} {rest : List Due} (hs : s.schedule = d :: rest) (hd : d.lands = true)
    (hr : ∀ x ∈ rest.head?, x.lands = false) : step s = landing [d] (cpuTurn (s.turnTaken.overtake [d])) := by
  have one : s.schedule.takeWhile Due.lands = [d] := by
    rw [hs, List.takeWhile_cons, hd, takeWhile_lands rest hr]
    rfl
  have between : ∀ x ∈ s.schedule.head?, x.turns = 0 → x.moment ≠ .between := by
    rw [hs]
    rintro x hx - hm
    obtain rfl : d = x := Option.some.inj hx
    rw [Due.lands, hm, Bool.and_eq_true] at hd
    exact Bool.false_ne_true hd.2
  have landed := step_eq_landing s between
  rwa [one] at landed

/-! ## After the numbered accesses -/

/-- A step with one unit's access after the numbered ones: the turn runs as without it, and it lands behind. -/
theorem step_storing {s t : State} {n : Nat} {e : Event} {rest : List Due}
    (hs : s.schedule = { turns := 0, event := e, moment := .storing n } :: rest) (hr : ∀ d ∈ rest.head?, d.lands = false)
    (ht : cpuTurn s.turnTaken = .next t) : step s = .next (t.land n e).settled := by
  rw [step_of_one_event hs rfl hr]
  show landing _ (cpuTurn s.turnTaken) = _
  rw [ht]
  show Host.Outcome.next (t.land (0 + n) e).settled = _
  rw [Nat.zero_add]

/-- What a unit's store leaves that falls behind `n` accesses of the turn that led to `t`. -/
theorem State.land_memoryWrite_spec (t : State) (n : Nat) (a : Word) (bytes : List Byte) :
    let later := t.wrote.take (t.wrote.length - n)
    let last := (t.wrote.drop (t.wrote.length - n)).head?
    let loads := t.loaded.drop (n - t.wrote.length)
    let u := (t.land n (.memoryWrite a bytes)).settled
    (∀ c, lastAt later c = none → u.byteAt c = (t.writeBytes a bytes).byteAt c) ∧
      (∀ c x, lastAt later c = some x → (x.source = none → u.byteAt c = x.new) ∧
        ∀ b, x.source = some b → lastAt later b = none → (∀ bs, last ≠ some (.read bs)) →
          u.byteAt c = (t.writeBytes a bytes).byteAt b ||| x.ored) ∧
      (∀ c x b v bs, lastAt later c = some x → lastAt later.dropLast c = none → x.source = some b → last = some (.read bs) →
        bs.lookup b = some v → u.byteAt c = v ||| x.ored) ∧
      (∀ r, (∀ l ∈ loads, l.1 ≠ r) → u.stored r = t.stored r) ∧
      (∀ r b l1 l2, loads = l1 ++ (r, b) :: l2 → (∀ l ∈ l2, l.1 ≠ r) → u.stored r = u.readHalf b) := by
  intro later last loads u
  obtain ⟨before, eq, bytesKept, again, latched, regsKept, loaded, -⟩ := t.land_spec n (.memoryWrite a bytes) rfl
  have first : before.wrote = t.wrote.drop (t.wrote.length - n) := (congrArg State.wrote eq :)
  have regs : (before.writeBytes a bytes).regs = t.regs :=
    (before.writeBytes_regs a bytes).trans (congrArg State.regs eq :)
  have found {c : Word} (h : lastAt later c = none) :
      (before.writeBytes a bytes).byteAt c = (t.writeBytes a bytes).byteAt c :=
    State.byteAt_writeBytes_congr (bytesKept c (lastAt_none.1 h)).1 a bytes
  rw [first] at again latched
  refine ⟨fun c h => (bytesKept c (lastAt_none.1 h)).2.trans (found h), fun c x hx => ⟨(again c x hx).1, fun b hb hn hl => ?_⟩,
    fun c x b v bs hx hn => latched c x b v bs hx (lastAt_none.1 hn), fun r h => ?_, loaded⟩
  · exact ((again c x hx).2 b hb (lastAt_none.1 hn) hl).trans (congrArg (· ||| x.ored) (found hn))
  · exact (regsKept r h).trans (State.stored_congr regs r)

/-! ## Among the numbered accesses -/

/-- An event behind `k` equal snapshots comes behind the last of them. -/
theorem attach_replicate (e : Event) (m : Memory) (us : Vector LocalUnit 11) (k : Nat) :
    attach e (List.replicate k { mem := m, units := us }) =
      List.replicate (k - 1) { mem := m, units := us } ++
        List.replicate (k - (k - 1)) { mem := m, units := us, next := [e] } := by
  cases k with
  | zero => rfl
  | succ k =>
    have one : k + 1 - k = 1 := by omega
    rw [attach, List.getLast?_replicate, if_neg k.succ_ne_zero, List.dropLast_replicate, Nat.add_sub_cancel, one]
    rfl

/-- The state that a turn begins in which a unit's store falls behind `k` of its numbered accesses. -/
def State.storedAmong (s : State) (k : Nat) (a : Word) (bytes : List Byte) : State :=
  { s.turnTaken with
    mem := (s.writeBytes a bytes).mem
    earlier := List.replicate (k - 1) { mem := s.mem, units := s.units } ++
      List.replicate (k - (k - 1)) { mem := s.mem, units := s.units, next := [.memoryWrite a bytes] } }

/-- A turn before which a unit's store falls, with the snapshots of the accesses that it falls behind. -/
theorem State.overtake_memoryWrite {s : State} (hu : Undisturbed s) (k : Nat) (a : Word) (bytes : List Byte) :
    s.turnTaken.overtake [{ turns := 0, event := .memoryWrite a bytes, moment := .reading k }] = s.storedAmong k a bytes := by
  have quiet : s.turnTaken.earlier = [] := hu
  have stored : (s.turnTaken.writeBytes a bytes).mem = (s.writeBytes a bytes).mem :=
    State.writeBytes_mem_congr (s := s.turnTaken) (t := s) rfl a bytes
  simp only [State.overtake, Event.onlyMoves, if_pos, State.move, quiet, List.nil_append, attach_replicate]
  rw [State.writeBytes_eq, stored]
  rfl

/-- A step in which a unit's store falls among the numbered accesses: the turn begins with it in memory, behind what the reads
before it see. -/
theorem step_reading {s t : State} (hu : Undisturbed s) {k : Nat} {a : Word} {bytes : List Byte} {rest : List Due}
    (hs : s.schedule = { turns := 0, event := .memoryWrite a bytes, moment := .reading k } :: rest)
    (hr : ∀ d ∈ rest.head?, d.lands = false) (ht : cpuTurn (s.storedAmong k a bytes) = .next t) :
    step s = .next t.settled := by
  rw [step_of_one_event hs rfl hr, State.overtake_memoryWrite hu, ht]
  rfl

/-- The reads before the store see memory as it was, the others as it is (R61). -/
theorem State.seenAt_storedAmong (s : State) (k : Nat) (a : Word) (bytes : List Byte) (i : Nat) :
    ((s.storedAmong k a bytes).seenAt i).mem = if i < k then s.mem else (s.writeBytes a bytes).mem := by
  have listed : (s.storedAmong k a bytes).earlier.map Snapshot.mem = List.replicate k s.mem := by
    have split : k - 1 + (k - (k - 1)) = k := by omega
    simp only [State.storedAmong, List.map_append, List.map_replicate, List.replicate_append_replicate, split]
  rw [State.seenAt_mem, ← List.getElem?_map, listed, List.getElem?_replicate]
  split <;> rfl

/-- What the turn's read number `i` finds at an address, before the store. -/
theorem State.readHalf_storedAmong {s : State} (hu : Undisturbed s) {k i : Nat} (h : i < k) (a : Word) (bytes : List Byte)
    (b : Word) : ((s.storedAmong k a bytes).seenAt i).readHalf b = (s.seenAt i).readHalf b := by
  have same : ((s.storedAmong k a bytes).seenAt i).mem = s.mem := (s.seenAt_storedAmong k a bytes i).trans (if_pos h)
  have bytes (c : Word) : ((s.storedAmong k a bytes).seenAt i).byteAt c = s.byteAt c := congrArg (Memory.read · (phys c)) same
  rw [hu.seenAt]
  exact State.readHalf_congr (bytes b) (bytes (b + 1))

/-- CLC of one byte: two reads, and the condition code of their comparison (R225). -/
theorem Completes.clc_one (s : State) (b1 : Reg) (d1 : Disp) (b2 : Reg) (d2 : Disp) :
    let x := (s.seenAt 0).byteAt (s.ea b1 d1)
    let y := (s.seenAt 1).byteAt (s.ea b2 d2)
    Completes (.clc 1 b1 d1 b2 d2) s fun t =>
      Condition t (x == y) (decide (y.toNat < x.toNat)) (decide (x.toNat < y.toNat)) := by
  intro x y
  have meaning : exec (.clc 1 b1 d1 b2 d2) s = match (if x = y then none else some (s.ea b1 d1, x, y)) with
      | some (a, x, y) => .next ((s.setReg 2 a).setCc (compareLogical x y))
      | none => .next (s.setCc (.all true false false)) := rfl
  by_cases h : x = y
  · rw [if_pos h] at meaning
    refine ⟨_, meaning, ?_⟩
    simpa [h] using condition_setCc s true false false
  · rw [if_neg h] at meaning
    refine ⟨_, meaning, ?_⟩
    rw [compareLogical_eq]
    have equal : (x == y) = decide (x.toNat = y.toNat) := by rw [Bool.eq_iff_iff]; simp [BitVec.toNat_inj]
    rw [equal]
    exact condition_setCc _ _ _ _

/-- A copy of one byte is not destructive (R232). -/
theorem destructive_one (e f : Word) : destructive e f 1 = false :=
  Bool.or_eq_false_iff.2 ⟨decide_eq_false (by omega), decide_eq_false (by omega)⟩

/-- MVC of one byte is the replacement of that byte. -/
theorem exec_mvc_one (s : State) (b1 : Reg) (d1 : Disp) (b2 : Reg) (d2 : Disp) : exec (.mvc 1 b1 d1 b2 d2) s =
    .next (s.alterString 1 (fun j t _ => t.byteAt (s.ea b2 d2 + BitVec.ofNat 16 j)) (s.ea b1 d1) 1).1 := by
  have safe : ¬ destructive (s.ea b1 d1) (s.ea b2 d2) 1 = true := Bool.eq_false_iff.1 (destructive_one _ _)
  exact if_neg safe

/-- MVC of one byte: its read, its store, and behind each of them the units' accesses that fall there (log 50). -/
theorem Completes.mvc_one (s : State) (b1 : Reg) (d1 : Disp) (b2 : Reg) (d2 : Disp) :
    let e := s.ea b1 d1
    let t := (((s.rewound.fire 0).setByte e (s.rewound.byteAt (s.ea b2 d2))).fire 1).fireFrom 2 (s.earlier.length - 2)
    Completes (.mvc 1 b1 d1 b2 d2) s fun r => r.done = t.storedTo ∧ r.mem = t.mem := by
  have zero (a : Word) : a + BitVec.ofNat 16 0 = a := BitVec.add_zero a
  refine ⟨_, exec_mvc_one s b1 d1 b2 d2, ?_⟩
  simp only [State.alterString, State.alterBytes, zero]
  exact ⟨rfl, rfl⟩

/-- The state with memory and units as a numbered access finds them. -/
def State.asFound (s : State) (x : Snapshot) : State := { s with mem := x.mem, units := x.units }

/-- What a unit's store among the numbered accesses leaves: the turn's list of accesses does not hold it. -/
def State.storedByUnit (s : State) (a : Word) (bytes : List Byte) : State := { s.writeBytes a bytes with wrote := s.wrote }

/-- Rewound, memory and units are as the first numbered access finds them. -/
theorem State.rewound_cons {s : State} {x : Snapshot} {xs : List Snapshot} (h : s.earlier = x :: xs) :
    s.rewound = s.asFound x := by
  unfold State.rewound
  split
  · next h' => exact nomatch h'.symm.trans h
  · next h' => obtain ⟨rfl, -⟩ := List.cons.inj (h'.symm.trans h); rfl

/-- A unit's store that falls behind the numbered access `i`. -/
theorem State.fire_memoryWrite {s : State} {i : Nat} {x : Snapshot} {a : Word} {bytes : List Byte} (h : s.earlier[i]? = some x)
    (hn : x.next = [.memoryWrite a bytes]) : s.fire i = s.storedByUnit a bytes := by
  unfold State.fire
  rw [h, Option.map_some, Option.getD_some, hn]
  rfl

/-- Where no event falls behind an access, nothing changes. -/
theorem State.fire_nothing {s : State} {i : Nat} (h : ∀ x ∈ s.earlier[i]?, x.next = []) : s.fire i = s := by
  unfold State.fire
  cases hx : s.earlier[i]? with
  | none => rfl
  | some x => rw [Option.map_some, Option.getD_some, h x hx]; rfl

/-- A unit's store is none of the turn's, and does not change what falls behind the numbered accesses. -/
@[simp] theorem State.storedByUnit_storedTo (s : State) (a : Word) (bytes : List Byte) :
    (s.storedByUnit a bytes).storedTo = s.storedTo :=
  congrArg ((s.wrote.flatMap Access.stored).map Stored.addr ++ ·) (s.writeBytes_done a bytes)

@[simp] theorem State.storedByUnit_earlier (s : State) (a : Word) (bytes : List Byte) :
    (s.storedByUnit a bytes).earlier = s.earlier := s.writeBytes_earlier a bytes

section
variable {s : State} {x y : Snapshot} {a : Word} {bytes : List Byte} (b1 : Reg) (d1 : Disp) (b2 : Reg) (d2 : Disp)

/-- MVC of one byte where a unit stores behind its read, and so before its store (log 50). -/
theorem Completes.mvc_one_storeBefore (h : s.earlier = [x]) (hx : x.next = [.memoryWrite a bytes]) :
    let e := s.ea b1 d1
    Completes (.mvc 1 b1 d1 b2 d2) s fun t => t.done = e :: s.storedTo ∧
      t.mem = ((({ s with mem := x.mem } : State).writeBytes a bytes).setByte e (x.mem.read (phys (s.ea b2 d2)))).mem := by
  intro e
  obtain ⟨t, ht, done, mem⟩ := Completes.mvc_one s b1 d1 b2 d2
  have behindRead : (s.asFound x).fire 0 = (s.asFound x).storedByUnit a bytes :=
    State.fire_memoryWrite (by rw [show (s.asFound x).earlier = [x] from h]; rfl) hx
  have behindStore (b : Byte) : (((s.asFound x).storedByUnit a bytes).setByte e b).fire 1 =
      ((s.asFound x).storedByUnit a bytes).setByte e b :=
    State.fire_nothing fun z hz => by
      rw [State.setByte_earlier, State.storedByUnit_earlier, show (s.asFound x).earlier = [x] from h] at hz
      cases hz
  rw [State.rewound_cons h, behindRead, behindStore, h] at done mem
  refine ⟨t, ht, done.trans ?_, mem.trans ?_⟩
  · exact congrArg (e :: ·) ((s.asFound x).storedByUnit_storedTo a bytes)
  · exact congrArg (Memory.write · (phys e) _) (State.writeBytes_mem_congr (by rfl) a bytes)

/-- The same where it stores behind MVC's store. -/
theorem Completes.mvc_one_storeBehind (h : s.earlier = [x, y]) (hx : x.next = []) (hy : y.next = [.memoryWrite a bytes]) :
    let e := s.ea b1 d1
    Completes (.mvc 1 b1 d1 b2 d2) s fun t => t.done = e :: s.storedTo ∧
      t.mem = ((({ s with mem := x.mem } : State).setByte e (x.mem.read (phys (s.ea b2 d2)))).writeBytes a bytes).mem := by
  intro e
  obtain ⟨t, ht, done, mem⟩ := Completes.mvc_one s b1 d1 b2 d2
  have behindRead : (s.asFound x).fire 0 = s.asFound x :=
    State.fire_nothing fun z hz => by
      rw [show (s.asFound x).earlier = [x, y] from h] at hz
      obtain rfl : x = z := Option.some.inj hz
      exact hx
  have behindStore (b : Byte) : ((s.asFound x).setByte e b).fire 1 = ((s.asFound x).setByte e b).storedByUnit a bytes :=
    State.fire_memoryWrite (by rw [show ((s.asFound x).setByte e b).earlier = [x, y] from h]; rfl) hy
  rw [State.rewound_cons h, behindRead, behindStore, h] at done mem
  exact ⟨t, ht, done.trans (State.storedByUnit_storedTo _ a bytes), mem.trans (State.writeBytes_mem_congr (by rfl) a bytes)⟩

end

/-! ## Accesses that a unit may come before -/

/-- SVC loads the MSR and the PC from its class's cells, behind its stores (R398). -/
theorem Completes.svc_loaded (s : State) (i : Byte) :
    Completes (.svc i) s fun t => t.loaded = s.loaded ++ [(0, 0x0A), (1, 0x0C)] :=
  ⟨_, rfl, List.append_assoc s.loaded [(0, 0x0A)] [(1, 0x0C)]⟩

/-- TSL that finds zeros leaves nothing for a unit to come before (R374). -/
theorem Completes.tsl_indivisible {s : State} {i : Byte} {b : Reg} {d : Disp} (h : s.byteAt (s.ea b d) &&& i = 0) :
    Completes (.tsl i b d) s fun t => t.wrote = [] :=
  ⟨_, congrArg Host.Outcome.next (if_pos h), rfl⟩

/-- Settles O60: after the numbered accesses by what landing behind some of a turn's accesses does, among them by what each read of
the turn finds, and of the instructions named by the accesses that their meanings list. -/
theorem unitStoreInsideInstruction : Obligations.UnitStoreInsideInstruction := by
  refine ⟨fun s t n a bytes rest _ hs hr ht => ?storing, Completes.svc_loaded, fun s record h => ?ipl,
    fun s k a bytes rest hu hs hr => ?reading, Completes.clc_one,
    fun s x y b1 d1 b2 d2 a bytes => ⟨fun h => ?before, fun h => ?behind⟩, fun s r1 x2 b2 d2 he => ?halves,
    fun s i b d h => .tsl_indivisible h⟩
  case storing => exact ⟨_, step_storing hs hr ht, rfl, t.land_memoryWrite_spec n a bytes⟩
  case ipl =>
    obtain ⟨-, -, -, -, wrote, loaded, -⟩ := s.initialLoad_spec record
    exact ⟨_, cpuTurn_ipl s record h, wrote, loaded⟩
  case reading =>
    exact ⟨fun t ht => step_reading hu hs hr ht, s.seenAt_storedAmong k a bytes,
      fun h u => congrArg (BitVec.getMsbD · u.val) (State.readHalf_storedAmong hu h a bytes 0x2E),
      fun j h => State.readHalf_storedAmong hu h a bytes (s.fetchAddress (BitVec.ofNat 16 j))⟩
  case before =>
    obtain ⟨t, ht, done, mem⟩ := Completes.mvc_one_storeBefore b1 d1 b2 d2 h rfl
    exact ⟨t, ht, done, fun c => congrArg (Memory.read · (phys c)) mem⟩
  case behind =>
    obtain ⟨t, ht, done, mem⟩ := Completes.mvc_one_storeBehind b1 d1 b2 d2 h rfl rfl
    exact ⟨t, ht, done, fun c => congrArg (Memory.read · (phys c)) mem⟩
  case halves =>
    simp only [List.forall_mem_cons, List.not_mem_nil, IsEmpty.forall_iff, implies_true, and_true]
    exact ⟨⟨_, aligned_even he, rfl⟩, _, aligned_even he, rfl⟩

end Sys2Proof.Machine
end

section
/-! PROOFS. The decoder and the encoder are inverse to each other. -/

namespace Sys2Proof.Machine

/-! ## From instructions to bytes and back -/

/-- The halfwords of an encoding are read back from its bytes, before those of the bytes that follow. -/
theorem halfwordsOf_flatMap_bytesOf (hs : List Word) (rest : List Byte) :
    halfwordsOf (hs.flatMap bytesOf ++ rest) = hs ++ halfwordsOf rest := by
  induction hs with
  | nil => rfl
  | cons h hs ih => rw [List.flatMap_cons, List.append_assoc, halfwordsOf_bytesOf, ih, List.cons_append]

/-- An encoding has two bytes for each halfword. -/
theorem length_flatMap_bytesOf (hs : List Word) : (hs.flatMap bytesOf).length = 2 * hs.length := by
  induction hs with
  | nil => rfl
  | cons h hs ih =>
    rw [List.flatMap_cons, List.length_append, ih, List.length_cons]
    show 2 + 2 * hs.length = 2 * (hs.length + 1)
    omega

/-- The bytes of the instruction decode to it, whatever bytes follow. -/
def DecodesBack (i : Instr) : Prop :=
  ∀ rest : List Byte, decodeBytes (encodeBytes i ++ rest) = .ok (i, (encodeBytes i).length)

/-- An instruction decodes back where its format has as many halfwords as its encoding and these, whatever halfwords follow, have
its fields. -/
theorem DecodesBack.of_decodeFields {i : Instr} {h0 : Word} {tail : List Word} (he : encode i = h0 :: tail)
    (hn : (Format.ofOp (opOf h0)).halfwords = tail.length + 1)
    (hd : ∀ more : List Word, decodeFields h0 ((tail ++ more).getD 0 0) ((tail ++ more).getD 1 0) = some i) :
    DecodesBack i := by
  intro rest
  have bytes : encodeBytes i = (h0 :: tail).flatMap bytesOf := congrArg (List.flatMap bytesOf) he
  have enough : ¬ (tail ++ halfwordsOf rest).length + 1 < tail.length + 1 := by rw [List.length_append]; omega
  simp only [decodeBytes, bytes, halfwordsOf_flatMap_bytesOf, List.cons_append, hn, if_neg enough, decode, hd,
    length_flatMap_bytesOf, List.length_cons]

/-- Each format's fields are found where its encoding puts them (R74 to R82). -/
theorem DecodesBack.rr {i : Instr} {op : Byte} {r1 r2 : Reg} (he : encode i = [head44 op r1 r2]) (hf : Format.ofOp op = .rr)
    (hd : ∀ b, decodeRR op b r1 r2 = some i) : DecodesBack i :=
  .of_decodeFields he (by rw [opOf_head44, hf]; rfl) fun _ => by
    simp only [decodeFields, opOf_head44, hf, field1_head44, field2_head44, hd]

theorem DecodesBack.svc (i1 : Byte) : DecodesBack (.svc i1) :=
  .of_decodeFields (h0 := head8 0x31 i1) (tail := []) rfl (by rw [opOf_head8]; rfl) fun _ => by
    simp only [decodeFields, opOf_head8, byteField_head8]
    rfl

theorem DecodesBack.rx {i : Instr} {op : Byte} {r1 x2 b2 : Reg} {d2 : Disp} (he : encode i = encodeRX op r1 x2 b2 d2)
    (hf : Format.ofOp op = .rx) (hd : decodeRX op r1 x2 b2 d2 = some i) : DecodesBack i :=
  .of_decodeFields he (by rw [opOf_head44, hf]; rfl) fun _ => by
    simp only [decodeFields, opOf_head44, hf, field1_head44, field2_head44, List.cons_append, List.getD_cons_zero,
      baseField_addrHalf, dispField_addrHalf, hd]

theorem DecodesBack.rs {i : Instr} {op : Byte} {r1 r3 b2 : Reg} {d2 : Disp} (he : encode i = encodeRX op r1 r3 b2 d2)
    (hf : Format.ofOp op = .rs) (hd : decodeRS op r1 r3 b2 d2 = some i) : DecodesBack i :=
  .of_decodeFields he (by rw [opOf_head44, hf]; rfl) fun _ => by
    simp only [decodeFields, opOf_head44, hf, field1_head44, field2_head44, List.cons_append, List.getD_cons_zero,
      baseField_addrHalf, dispField_addrHalf, hd]

theorem DecodesBack.si {i : Instr} {op i2 : Byte} {b1 : Reg} {d1 : Disp} (he : encode i = encodeSI op i2 b1 d1)
    (hf : Format.ofOp op = .si) (hd : decodeSI op i2 b1 d1 = some i) : DecodesBack i :=
  .of_decodeFields he (by rw [opOf_head8, hf]; rfl) fun _ => by
    simp only [decodeFields, opOf_head8, hf, byteField_head8, List.cons_append, List.getD_cons_zero,
      baseField_addrHalf, dispField_addrHalf, hd]

theorem DecodesBack.bx {i : Instr} {op : Byte} {r1 x2 : Reg} {d2 : Word} (he : encode i = encodeBX op r1 x2 d2)
    (hf : Format.ofOp op = .bx) (hd : decodeBX op r1 x2 d2 = some i) : DecodesBack i :=
  .of_decodeFields he (by rw [opOf_head44, hf]; rfl) fun _ => by
    simp only [decodeFields, opOf_head44, hf, field1_head44, field2_head44, List.cons_append, List.getD_cons_zero, hd]

theorem DecodesBack.ri {i : Instr} {op : Byte} {r1s r1f : Reg} {i2 : Word} (he : encode i = encodeBX op r1s r1f i2)
    (hf : Format.ofOp op = .ri) (hd : decodeRI op r1s r1f i2 = some i) : DecodesBack i :=
  .of_decodeFields he (by rw [opOf_head44, hf]; rfl) fun _ => by
    simp only [decodeFields, opOf_head44, hf, field1_head44, field2_head44, List.cons_append, List.getD_cons_zero, hd]

theorem DecodesBack.vss {i : Instr} {op len : Byte} {b1 b2 : Reg} {d1 d2 : Disp}
    (he : encode i = encodeSS (head8 op len) b1 d1 b2 d2) (hf : Format.ofOp op = .vss)
    (hd : decodeVSS op len b1 d1 b2 d2 = some i) : DecodesBack i :=
  .of_decodeFields he (by rw [opOf_head8, hf]; rfl) fun _ => by
    simp only [decodeFields, opOf_head8, hf, byteField_head8, List.cons_append, List.getD_cons_zero, List.getD_cons_succ,
      baseField_addrHalf, dispField_addrHalf, hd]

theorem DecodesBack.fss {i : Instr} {op i3 : Byte} {b1 b2 : Reg} {d1 d2 : Disp}
    (he : encode i = encodeSS (head8 op i3) b1 d1 b2 d2) (hf : Format.ofOp op = .fss)
    (hd : decodeFSS op i3 b1 d1 b2 d2 = some i) : DecodesBack i :=
  .of_decodeFields he (by rw [opOf_head8, hf]; rfl) fun _ => by
    simp only [decodeFields, opOf_head8, hf, byteField_head8, List.cons_append, List.getD_cons_zero, List.getD_cons_succ,
      baseField_addrHalf, dispField_addrHalf, hd]

theorem DecodesBack.vssLong {i : Instr} {op : Byte} {u rl b1 b2 : Reg} {d1 d2 : Disp}
    (he : encode i = encodeSS (head44 op u rl) b1 d1 b2 d2) (hf : Format.ofOp op = .vssLong)
    (hd : decodeVSSLong op u rl b1 d1 b2 d2 = some i) : DecodesBack i :=
  .of_decodeFields he (by rw [opOf_head44, hf]; rfl) fun _ => by
    simp only [decodeFields, opOf_head44, hf, field1_head44, field2_head44, List.cons_append, List.getD_cons_zero,
      List.getD_cons_succ, baseField_addrHalf, dispField_addrHalf, hd]

/-- Settles O2, by the format of each instruction: its table of codes gives the instruction back. -/
theorem decodeInvertsEncode : Obligations.DecodeInvertsEncode := by
  intro i
  show DecodesBack i
  cases i
  case svc i1 => exact .svc i1
  case ret | lpr | lnr | lcr | lxbr | stdr | ldr | sior | sd | slli | srli | sldli | srdli | slai | srai | sldai | srdai | iost
      | excc | lx | ax | sx | bczr | bcor | balr | tbpr | tbzr | tbnmr | tbmr | tbnzr | tbnpr | bctr | cr | tmr | lr | ar | sr
      | mr | dr | swpr | nr | or | xr | alr | slr | clr => exact .rr rfl rfl fun _ => rfl
  case deq | lp | ln | lc | lxb | cvb | cvd | std | ld | ex | ss | sio | ib | stb | lb | lsb | sa | la | lz | clb | trb | c | st
      | l | a | s | m | d | swp | n | o | x | al | sl | cl => exact .rx rfl rfl rfl
  case chi | svcs | tmbi | mvhi | ahi | shi | tsl | nbi | obi | xbi | mvbi | clbi => exact .si rfl rfl rfl
  case stmd | lmd | stm | lm | pshm | popm | sll | srl | sldl | srdl | sla | sra | slda | srda => exact .rs rfl rfl rfl
  case bxh | bxle | bcz | bco | bal | tbp | tbz | tbnm | tbm | tbnz | tbnp | bct => exact .bx rfl rfl rfl
  case ci | stdi | tmi | li | ai | si | mi | di | ldi | ni | oi | xi | ali | sli | ent | cli => exact .ri rfl rfl rfl
  case sle | sre | slne | srne | mvc | mvcn | pshh | poph | fill | nc | oc | xc | stl | str | tr | clc =>
    exact .vss rfl rfl rfl
  case slel | srel | slnel | srnel | mvcl | mvcnl | pshhl | pophl | filll | ncl | ocl | xcl | stll | strl | trl | clcl =>
    exact .vssLong rfl rfl rfl
  case ch | svcd | mva | mvh | ah | sh | mh | dh | enq | srch | clh => exact .fss rfl rfl rfl

/-! ## From bytes to instructions and back -/

/-- Halfwords that decode are those of the instruction, as many as its format has. -/
theorem encode_of_decodeFields {h0 h1 h2 : Word} {i : Instr} (h : decodeFields h0 h1 h2 = some i) :
    encode i = [h0, h1, h2].take (Format.ofOp (opOf h0)).halfwords := by
  unfold decodeFields at h
  split at h
  case h_1 f =>
    rw [decodeRR_encode _ _ _ _ ((head8_fields h0).trans (head44_fields h0).symm) i h, f, head44_fields]; rfl
  case h_2 f => rw [decodeRX_encode _ _ _ _ _ i h, f, head44_fields, addrHalf_fields]; rfl
  case h_3 f => rw [decodeSI_encode _ _ _ _ i h, f, head8_fields, addrHalf_fields]; rfl
  case h_4 f => rw [decodeRS_encode _ _ _ _ _ i h, f, head44_fields, addrHalf_fields]; rfl
  case h_5 f => rw [decodeBX_encode _ _ _ _ i h, f, head44_fields]; rfl
  case h_6 f => rw [decodeRI_encode _ _ _ _ i h, f, head44_fields]; rfl
  case h_7 f => rw [decodeVSS_encode _ _ _ _ _ _ i h, f, head8_fields, addrHalf_fields, addrHalf_fields]; rfl
  case h_8 f => rw [decodeVSSLong_encode _ _ _ _ _ _ _ i h, f, head44_fields, addrHalf_fields, addrHalf_fields]; rfl
  case h_9 f => rw [decodeFSS_encode _ _ _ _ _ _ i h, f, head8_fields, addrHalf_fields, addrHalf_fields]; rfl

/-- A format has one, two or three halfwords. -/
theorem Format.halfwords_le (f : Format) : f.halfwords ≤ 3 := by cases f <;> decide

/-- The decoder over bytes looks at the halfwords of the instruction only. -/
theorem take_getD (h0 : Word) (rest : List Word) (n : Nat) (hn : n ≤ 3) (hr : n ≤ rest.length + 1) :
    [h0, rest.getD 0 0, rest.getD 1 0].take n = (h0 :: rest).take n := by
  obtain _ | ⟨a, _ | ⟨b, rest⟩⟩ := rest <;> interval_cases n <;> simp at hr ⊢

/-- What the decoder over bytes accepts: whole halfwords, as many as the format has, and their fields. -/
theorem decodeBytes_eq_ok {bs : List Byte} {i : Instr} {n : Nat} (h : decodeBytes bs = .ok (i, n)) :
    ∃ h0 rest, halfwordsOf bs = h0 :: rest ∧ n = 2 * (Format.ofOp (opOf h0)).halfwords ∧
      (Format.ofOp (opOf h0)).halfwords ≤ rest.length + 1 ∧
      decodeFields h0 (rest.getD 0 0) (rest.getD 1 0) = some i := by
  unfold decodeBytes at h
  split at h
  · cases h
  next h0 rest hb =>
    dsimp only at h
    split at h
    · cases h
    next enough =>
      split at h
      next j hd =>
        cases h
        refine ⟨h0, rest, hb, rfl, Nat.le_of_not_lt enough, ?_⟩
        unfold decode at hd
        split at hd
        · next hf => cases hd; exact hf
        · cases hd
      next => cases h

/-- Settles O3: the halfwords that a format's table accepts are those it encodes to. -/
theorem encodeInvertsDecode : Obligations.EncodeInvertsDecode := by
  intro bs i n h
  obtain ⟨h0, rest, hb, rfl, enough, hd⟩ := decodeBytes_eq_ok h
  have whole : (Format.ofOp (opOf h0)).halfwords ≤ (halfwordsOf bs).length := by rw [hb]; exact enough
  obtain ⟨bytes, long⟩ := flatMap_bytesOf bs _ whole
  refine ⟨long, ?_⟩
  rw [← bytes, hb, encodeBytes, encode_of_decodeFields hd, take_getD h0 rest _ (Format.halfwords_le _) enough]

/-- Settles O1: the words are written out, and the decoder computes. -/
theorem exampleWordsDecode : Obligations.ExampleWordsDecode := by
  unfold Obligations.ExampleWordsDecode
  and_intros <;> rfl

end Sys2Proof.Machine
end

section
/-! PROOFS. The Operation interrupt of an unassigned code. -/

namespace Sys2Proof.Machine

/-! ## The step -/

/-- The run of an unassigned operation code (R92, R404). -/
theorem runInstruction_of_unassigned {s : State} {op : Byte} (h : s.fetched = .error (.unassigned op)) :
    runInstruction s = .next ((s.prepared s.nextLength).operationInterrupt s.firstHalf (s.fetchHalf 1)
      (s.fetchHalf 2)).afterInstruction := by
  unfold runInstruction
  rw [h]
  rfl

/-- A step of a machine that is ready and finds an unassigned code takes the Operation interrupt. -/
theorem Ready.step_of_unassigned {s : State} {op : Byte} (h : Ready s) (hd : s.fetched = .error (.unassigned op)) :
    step s = .next (s.running.operationInterrupt s.firstHalf (s.readHalf (s.fetchAddress 1))
      (s.readHalf (s.fetchAddress 2))).afterInstruction.settled := by
  obtain ⟨ht, hi, hw⟩ := h
  have quiet := ht.1.2.1.turnTaken
  have hf : s.turnTaken.fetched = .error (.unassigned op) := hd
  refine ht.1.step_next ?_
  rw [ht.cpuTurn_eq hi, hw, if_neg (by decide), runInstruction_of_unassigned hf, quiet.fetchHalf, quiet.fetchHalf]
  rfl

/-! ## The scan-out area -/

@[simp] theorem length_scanOut (s : State) (blank : Nat → Word) (h0 h1 h2 : Word) :
    (scanOut s blank h0 h1 h2).length = 5 := by
  unfold scanOut
  split <;> rfl

/-- The state in which the Operation interrupt is taken: the scan-out area is written (R404). -/
def State.scannedOut (s : State) (h0 h1 h2 : Word) : State :=
  (s.writeHalves 0x52 (scanOut s (fun k => Config.freeWord (s.freeCount + k)) h0 h1 h2)).consume 2

/-- The Operation interrupt is a Program interrupt of that state, with the length of the code's format (R73, R404). -/
theorem Interrupted.operationInterrupt (s : State) (h0 h1 h2 : Word) :
    Interrupted (s.scannedOut h0 h1 h2) (s.operationInterrupt h0 h1 h2) .program (Format.ilc (Format.ofOp (opOf h0))) 2 :=
  .synchronousInterrupt ..

theorem Frame.scannedOut (s : State) (h0 h1 h2 : Word) : Frame s (s.scannedOut h0 h1 h2) [] [] (Touched 0x52 10) := by
  have stored := Frame.writeHalves s 0x52 (scanOut s (fun k => Config.freeWord (s.freeCount + k)) h0 h1 h2)
  rw [length_scanOut] at stored
  exact (stored.trans (.consume _ 2)).mono (by simp) (by simp) fun _ h => h.elim id False.elim

theorem State.stored_scannedOut (s : State) (h0 h1 h2 : Word) (r : Reg) : (s.scannedOut h0 h1 h2).stored r = s.stored r := by
  rw [State.scannedOut, State.stored_consume, State.stored_writeHalves]

@[simp] theorem State.scannedOut_inExecute (s : State) (h0 h1 h2 : Word) : (s.scannedOut h0 h1 h2).inExecute = s.inExecute := by
  rw [State.scannedOut, State.consume_inExecute, State.writeHalves_inExecute]

/-- A halfword that no byte of a frame falls on is as before. -/
theorem Frame.readHalf_eq {s t : State} {rs : List Reg} {bits : List Nat} {stored : Word → Prop} (h : Frame s t rs bits stored)
    {a : Word} (h0 : ¬ stored a) (h1 : ¬ stored (a + 1)) : t.readHalf a = s.readHalf a :=
  State.readHalf_congr (h.2.2.1 a h0) (h.2.2.1 (a + 1) h1)

/-- The area from 52 to 5B and the Program class's cells are different bytes of memory. -/
theorem scanOut_apart :
    (∀ k : Fin 5, ∀ j : Fin 2, ¬ Touched 0x0E 6 (0x52 + 2 * BitVec.ofNat 16 k.val + BitVec.ofNat 16 j.val)) ∧
    ∀ k : Fin 4, ¬ Touched 0x52 10 (0x14 + BitVec.ofNat 16 k.val) := by
  simp only [touched_iff]
  decide

/-- The area holds its five halfwords when the interrupt has been taken. -/
theorem State.readHalves_operationInterrupt (s : State) (h0 h1 h2 : Word) :
    (s.operationInterrupt h0 h1 h2).readHalves 0x52 5 =
      scanOut s (fun k => Config.freeWord (s.freeCount + k)) h0 h1 h2 := by
  obtain ⟨⟨-, -, -, -, -, frame⟩, -⟩ := Interrupted.operationInterrupt s h0 h1 h2
  refine List.ext_getElem (by simp) fun k hk hk' => ?_
  have five : k < 5 := by rwa [length_scanOut] at hk'
  have apart := scanOut_apart.1 ⟨k, five⟩
  have first : ¬ Touched 0x0E 6 (0x52 + 2 * BitVec.ofNat 16 k) := by simpa using apart 0
  rw [getElem_readHalves, frame.readHalf_eq first (apart 1), State.scannedOut, State.readHalf_consume]
  exact State.readHalf_writeHalves_inside s 0x52 _ k hk' (by rw [length_scanOut]; decide)

/-- Five halfwords of the area, cell by cell. -/
theorem State.readHalves_scanOut_eq {t : State} {a b c d e : Word} (h : t.readHalves 0x52 5 = [a, b, c, d, e]) :
    t.readHalf 0x52 = a ∧ t.readHalf 0x54 = b ∧ t.readHalf 0x56 = c ∧ t.readHalf 0x58 = d ∧ t.readHalf 0x5A = e := by
  simpa [State.readHalves] using h

/-- Settles O13: the step takes the Operation interrupt; the area holds what each format has there, and the rest is the Program
interrupt. -/
theorem unassignedCodeTakesOperationInterrupt : Obligations.UnassignedCodeTakesOperationInterrupt := by
  refine ⟨fun s op hr hd => hr.step_of_unassigned hd, ?_⟩
  intro s h0 h1 h2 t
  obtain ⟨⟨oldMsr, oldPc, code, newMsr, newPc, frame⟩, ilc⟩ := Interrupted.operationInterrupt s h0 h1 h2
  have area := Frame.scannedOut s h0 h1 h2
  have regs := s.stored_scannedOut h0 h1 h2
  have apart := scanOut_apart.2
  have cells := s.readHalves_operationInterrupt h0 h1 h2
  rw [← and_assoc]
  refine ⟨?format, fun i h4 h5 => ?_, fun h => ilc ((s.scannedOut_inExecute ..).trans h),
    oldPc.trans (regs 1), code, ?_, ?_, ?_⟩
  case format =>
    cases f : Format.ofOp (opOf h0)
    all_goals
      rw [scanOut, f] at cells
      obtain ⟨c52, c54, c56, c58, c5A⟩ := State.readHalves_scanOut_eq cells
      refine ⟨c52, ?_⟩
    case rr | rs | rx | bx | fss => exact ⟨c56, c58⟩
    case ri | si => exact ⟨c56, c5A⟩
    case vss | vssLong => exact ⟨c54, c56, c58⟩
  · rw [← show _ = s.msr from regs 0]; exact oldMsr i h4 h5
  · exact newMsr.trans (area.readHalf_eq (apart 0) (apart 1))
  · exact newPc.trans (area.readHalf_eq (apart 2) (apart 3))
  · exact (area.trans frame).mono (by simp) (by simp) fun _ h => h

end Sys2Proof.Machine
end

section
/-! PROOFS. Strings and scans: compare, Boolean operations, translate, scan using table and for a character. -/

namespace Sys2Proof.Machine

/-! ## Condition-code bits -/

@[simp] theorem State.c0_setCc_c0Only (s : State) (b : Bool) : (s.setCc (.c0Only b)).c0 = b := by
  rw [State.c0, State.msr_setCc, CcWrite.c0Only_bit]

@[simp] theorem State.c2_setCc_c2Only (s : State) (b : Bool) : (s.setCc (.c2Only b)).c2 = b := by
  rw [State.c2, State.msr_setCc, CcWrite.c2Only_bit]

theorem Frame.setCc_c0Only (s : State) (b : Bool) : Frame s (s.setCc (.c0Only b)) [] [0] noByte :=
  .setCc s _ [0] (.inr (by simp)) (.inl rfl) (.inl rfl)

theorem Frame.setCc_c2Only (s : State) (b : Bool) : Frame s (s.setCc (.c2Only b)) [] [2] noByte :=
  .setCc s _ [2] (.inl rfl) (.inl rfl) (.inr (by simp))

/-! ## String compare -/

/-- The two outcomes of a string compare (R225). -/
theorem compareStrings_spec {i : Instr} {s : State} {e f : Word} {n : Nat} (hi : exec i s = compareStrings e f n s)
    (hu : Undisturbed s) :
    let x := fun k : Nat => s.byteAt (e + BitVec.ofNat 16 k)
    let y := fun k : Nat => s.byteAt (f + BitVec.ofNat 16 k)
    ((∀ k, k < n → x k = y k) → Compared i s true false false) ∧
      (∀ k, k < n → (∀ j, j < k → x j = y j) → x k ≠ y k →
        Completes i s fun t => t.stored 2 = e + BitVec.ofNat 16 k ∧
          Condition t false (decide ((y k).toNat < (x k).toNat)) (decide ((x k).toNat < (y k).toNat)) ∧
          Frame s t [2] [0, 1, 2] noByte) := by
  intro x y
  obtain ⟨nowhere, found⟩ := firstUnequal_eq s hu 0 e f n
  refine ⟨fun h => ?_, fun k hk hj hne => ?_⟩
  · have equal := nowhere h
    exact .of_setCc (by rw [hi, compareStrings, equal])
  · have unequal : decide ((x k).toNat = (y k).toNat) = false := decide_eq_false fun h => hne (BitVec.eq_of_toNat_eq h)
    have meaning : exec i s = .next ((s.setReg 2 (e + BitVec.ofNat 16 k)).setCc (compareLogical (x k) (y k))) := by
      rw [hi, compareStrings, found k hk hj hne]
    rw [compareLogical_eq, unequal] at meaning
    refine ⟨_, meaning, ?_, condition_setCc _ _ _ _, ?_⟩
    · rw [State.stored_setCc, if_neg (by decide), State.stored_setReg_self]
    · exact ((Frame.setReg s 2 _).trans (Frame.setCcAll _ _ _ _)).mono (by simp) (by simp) fun _ h => h.elim id id

/-- Settles O30: CLC and CLCL are the string compare. -/
theorem stringCompare : Obligations.StringCompare := by
  intro s l u rl b1 d1 b2 d2 hu x y
  simp only [List.forall_mem_cons, List.not_mem_nil, IsEmpty.forall_iff, implies_true, and_true]
  exact ⟨compareStrings_spec rfl hu, compareStrings_spec rfl hu⟩

/-! ## AND, OR and exclusive OR of strings -/

@[simp] theorem State.readBytes_consume (s : State) (m : Nat) (a : Word) (n : Nat) :
    (s.consume m).readBytes a n = s.readBytes a n :=
  List.ext_getElem (by simp) fun k hk hk' => by rw [getElem_readBytes, getElem_readBytes, State.byteAt_consume]

/-- Bytes that stand in memory are read there, where the field is no longer than memory (R47). -/
theorem BytesAt.readBytes_eq {t : State} {e : Word} {bs : List Byte} (h : BytesAt t e bs) (hl : bs.length ≤ Config.memSize) :
    t.readBytes e bs.length = bs :=
  List.ext_getElem (by simp) fun k hk hk' => by rw [getElem_readBytes, h k hk' (by omega)]

/-- Everything a string Boolean operation does (R259), where `op` keeps the byte that it makes of a byte and itself. -/
theorem booleanStrings_spec {i : Instr} {s : State} {op : Byte → Byte → Byte} {e f : Word} {n : Nat}
    (hi : exec i s = booleanStrings op e f n s) (hop : ∀ x, op (op x x) (op x x) = op x x) :
    Completes i s fun t =>
      (Undisturbed s → phys e = phys f ∨ (∀ k, k < n → ¬ Touched f n (e + BitVec.ofNat 16 k)) →
        BytesAt t e (List.zipWith op (s.readBytes e n) (s.readBytes f n)) ∧
        t.c0 = (List.zipWith op (s.readBytes e n) (s.readBytes f n)).all (fun b => b == 0)) ∧
      RegistersKept s t [] ∧ MsrKept s t [0] ∧
      (Undisturbed s → (n ≤ Config.memSize → t.c0 = (t.readBytes e n).all (fun b => b == 0)) ∧
        Frame s t [] [0] (Touched e n)) := by
  obtain ⟨length, altered⟩ := (s.consume n).alterString_eq 2 (booleanByte op e f n s.freeCount) e n
  have combined (hu : Undisturbed (s.consume n)) := hu.combined op hop e f n s.freeCount
  have stands (hu : Undisturbed (s.consume n)) := hu.bytesAt_alterString 2 (booleanByte op e f n s.freeCount) e n
  have frame (hu : Undisturbed (s.consume n)) :=
    (Frame.consume s n).trans (hu.frame_alterString 2 (booleanByte op e f n s.freeCount) e n)
  refine ⟨_, hi, ?_⟩
  generalize (s.consume n).alterString 2 (booleanByte op e f n s.freeCount) e n = r at *
  have regs : r.1.regs = s.regs := (congrArg State.regs altered :)
  have cc := Frame.setCc_c0Only r.1 (r.2.all fun b => b == 0)
  refine ⟨fun hu h => ?_, fun q h0 h => ?_, fun j hj => ?_, fun hu => ⟨fun hl => ?_, ?_⟩⟩
  · have bytes := combined hu h
    rw [State.readBytes_consume, State.readBytes_consume] at bytes
    rw [← bytes]
    exact ⟨stands hu, State.c0_setCc_c0Only _ _⟩
  · exact (cc.1 q h0 h).trans (State.stored_congr regs q)
  · exact (cc.2.1 (by simp) j hj).trans (congrArg (BitVec.getMsbD · j) (State.msr_congr regs))
  · have there : BytesAt (r.1.setCc (.c0Only (r.2.all fun b => b == 0))) e r.2 := stands hu
    rw [State.c0_setCc_c0Only, ← length, there.readBytes_eq (length ▸ hl)]
  · exact ((frame hu).trans cc).mono (by simp) (by simp) fun _ h => h.elim (·.elim False.elim id) False.elim

/-- Settles O38: the six instructions are the string Boolean operation with AND, OR and exclusive OR (the plain
name is the model's, for that operation). -/
theorem Strings.booleanStrings : Obligations.BooleanStrings := by
  intro s l u rl b1 d1 b2 d2 e f
  simp only [List.forall_mem_cons, List.not_mem_nil, IsEmpty.forall_iff, implies_true, and_true]
  have andTwice (x : Byte) : x &&& x &&& (x &&& x) = x &&& x := BitVec.and_self
  have orTwice (x : Byte) : x ||| x ||| (x ||| x) = x ||| x := BitVec.or_self
  have xorTwice (x : Byte) : x ^^^ x ^^^ (x ^^^ x) = x ^^^ x := by simp
  exact ⟨booleanStrings_spec rfl andTwice, booleanStrings_spec rfl orTwice, booleanStrings_spec rfl xorTwice,
    booleanStrings_spec rfl andTwice, booleanStrings_spec rfl orTwice, booleanStrings_spec rfl xorTwice⟩

/-! ## Translate -/

/-- Everything the translate operation does (R280). -/
theorem translate_spec {i : Instr} {s : State} {e f : Word} {n : Nat} (hi : exec i s = translate e f n s) :
    Completes i s fun t =>
      (Undisturbed s → ∀ k, k < n → n ≤ k + Config.memSize → let a := e + BitVec.ofNat 16 k
        let r := f + (s.byteAt a).setWidth 16
        ¬ Touched f 256 a → ¬ Touched e n r → t.byteAt a = s.byteAt r) ∧
      t.regs = s.regs ∧ (Undisturbed s → Frame s t [] [] (Touched e n)) := by
  let v := translatedByte e f n s.freeCount
  obtain ⟨length, altered⟩ := (s.consume n).alterString_eq 2 v e n
  refine ⟨_, hi, fun hu k hk hl h1 h2 => ?_, (congrArg State.regs altered :), fun hu => ?_⟩
  · have quiet : Undisturbed (s.consume n) := hu
    have inside : k < ((s.consume n).alterString 2 v e n).2.length := by rwa [length]
    rw [quiet.bytesAt_alterString 2 v e n k inside (by rwa [length])]
    exact quiet.translated e f n s.freeCount k inside h1 h2
  · have quiet : Undisturbed (s.consume n) := hu
    exact ((Frame.consume s n).trans (quiet.frame_alterString 2 v e n)).mono (by simp) (by simp) fun _ h => h.elim False.elim id

/-- Settles O41: TR and TRL are the translate operation, which has the plain name. -/
theorem Strings.translate : Obligations.Translate := by
  intro s l u rl b1 d1 b2 d2 e f
  simp only [List.forall_mem_cons, List.not_mem_nil, IsEmpty.forall_iff, implies_true, and_true]
  exact ⟨translate_spec rfl, translate_spec rfl⟩

/-! ## Scans -/

/-- The two outcomes of a scan using a table (R290), whose argument `k` is at `pos k`. -/
theorem scanTable_spec {i : Instr} {s : State} {step e f : Word} {n : Nat} {pos : Nat → Word}
    (hi : exec i s = scanTable step e f n s) (hu : Undisturbed s) (hp : ∀ k, pos k = e + BitVec.ofNat 16 k * step) :
    let entry := fun a : Word => s.byteAt (f + (s.byteAt a).setWidth 16)
    ((∀ k, k < n → entry (pos k) = 0) → Completes i s fun t => t.c2 = false ∧ Frame s t [] [2] noByte) ∧
      (∀ k, k < n → (∀ j, j < k → entry (pos j) = 0) → entry (pos k) ≠ 0 →
        Completes i s fun t => t.stored 3 = (entry (pos k)).setWidth 16 ∧ t.stored 2 = pos k ∧ t.c2 = true ∧
          Frame s t [2, 3] [2] noByte) := by
  intro entry
  obtain ⟨nowhere, found⟩ := firstHit_eq s hu (fun t b => t.byteAt (tableAddress f b) != 0) step pos 0 e n hp
  refine ⟨fun h => ?_, fun k hk hj hne => ?_⟩
  · have noHit := nowhere fun k hk => bne_eq_false_iff_eq.2 (h k hk)
    exact ⟨s.setCc (.c2Only false), by rw [hi, scanTable, noHit], s.c2_setCc_c2Only false, .setCc_c2Only s false⟩
  · have hit := found k hk (fun j hjk => bne_eq_false_iff_eq.2 (hj j hjk)) (bne_iff_ne.2 hne)
    have meaning : exec i s =
        .next (((s.setReg 3 ((entry (pos k)).setWidth 16)).setReg 2 (pos k)).setCc (.c2Only true)) := by
      rw [hi, scanTable, hit]
      simp only [hu.seenAt]
      rfl
    refine ⟨_, meaning, ?_, ?_, State.c2_setCc_c2Only _ true, ?_⟩
    · rw [State.stored_setCc, if_neg (by decide), State.stored_setReg_ne _ _ (by decide), State.stored_setReg_self]
    · rw [State.stored_setCc, if_neg (by decide), State.stored_setReg_self]
    · exact (((Frame.setReg s 3 _).trans (Frame.setReg _ 2 _)).trans (Frame.setCc_c2Only _ true)).mono (by simp) (by simp)
        fun _ h => h.elim (·.elim id id) id

/-- Settles O42: the four instructions are the scan using a table, by steps of 1 or -1. -/
theorem tableScans : Obligations.TableScans := by
  intro s l u rl b1 d1 b2 d2 hu e n right left entry
  simp only [List.forall_mem_cons, List.not_mem_nil, IsEmpty.forall_iff, implies_true, and_true]
  exact ⟨scanTable_spec rfl hu (rightward_pos e), scanTable_spec rfl hu (rightward_pos e),
    scanTable_spec rfl hu (leftward_pos e), scanTable_spec rfl hu (leftward_pos e)⟩

/-- The two outcomes of a scan for a character (R296), of which `hit` says whether a byte is looked for. -/
theorem scanCharacter_spec {i : Instr} {s : State} {equal : Bool} {step e : Word} {c : Byte} {n : Nat} {pos : Nat → Word}
    {hit : Word → Bool} (hi : exec i s = scanCharacter equal step e c n s) (hu : Undisturbed s)
    (hp : ∀ k, pos k = e + BitVec.ofNat 16 k * step) (hh : ∀ a, hit a = ((s.byteAt a == c) == equal)) :
    ((∀ k, k < n → hit (pos k) = false) → Completes i s fun t => t.c2 = false ∧ Frame s t [] [2] noByte) ∧
      (∀ k, k < n → (∀ j, j < k → hit (pos j) = false) → hit (pos k) = true →
        Completes i s fun t => t.stored 2 = pos k ∧ t.c2 = true ∧ Frame s t [2] [2] noByte) := by
  obtain ⟨nowhere, found⟩ := firstHit_eq s hu (fun _ b => (b == c) == equal) step pos 0 e n hp
  simp only [hh]
  refine ⟨fun h => ?_, fun k hk hj hk' => ?_⟩
  · exact ⟨s.setCc (.c2Only false), by rw [hi, scanCharacter, nowhere h], s.c2_setCc_c2Only false, .setCc_c2Only s false⟩
  · have meaning : exec i s = .next ((s.setReg 2 (pos k)).setCc (.c2Only true)) := by
      rw [hi, scanCharacter, found k hk hj hk']
    refine ⟨_, meaning, ?_, State.c2_setCc_c2Only _ true, ?_⟩
    · rw [State.stored_setCc, if_neg (by decide), State.stored_setReg_self]
    · exact ((Frame.setReg s 2 _).trans (Frame.setCc_c2Only _ true)).mono (by simp) (by simp) fun _ h => h.elim id id

/-- Settles O43: the eight instructions are the scan for a character, equal or not, by steps of 1 or -1. -/
theorem characterScans : Obligations.CharacterScans := by
  intro s l u rl b1 d1 b2 d2 hu e n right left eq ne
  simp only [List.forall_mem_cons, List.not_mem_nil, IsEmpty.forall_iff, implies_true, and_true]
  have equal (a : Word) : eq a = (eq a == true) := (beq_true _).symm
  have unequal (a : Word) : ne a = (eq a == false) := (beq_false _).symm
  have right : ∀ k, right k = e + BitVec.ofNat 16 k * rightward := rightward_pos e
  have left : ∀ k, left k = e + BitVec.ofNat 16 k * leftward := leftward_pos e
  exact ⟨scanCharacter_spec rfl hu right equal, scanCharacter_spec rfl hu right equal,
    scanCharacter_spec rfl hu right unequal, scanCharacter_spec rfl hu right unequal,
    scanCharacter_spec rfl hu left equal, scanCharacter_spec rfl hu left equal,
    scanCharacter_spec rfl hu left unequal, scanCharacter_spec rfl hu left unequal⟩

end Sys2Proof.Machine
end

section
/-! PROOFS. The stack instructions: pushes and pops. -/

namespace Sys2Proof.Machine

/-! ## The checks -/

/-- The Stack Overflow and Underflow checks where no unit stores among their reads: the stack's top goes on, or the check fails. -/
theorem pushChecked_fits {ilc : BitVec 2} {sdb : Word} {m : Nat} {s : State} {k : Word → Result} (hu : Undisturbed s)
    (he : odd sdb = false) (ht : odd (s.readHalf sdb) = false)
    (h : (s.readHalf sdb).toNat + 2 * m ≤ (s.readHalf (sdb + 4)).toNat) :
    pushChecked ilc sdb m s k = k (s.readHalf sdb) := by
  rw [pushChecked, withHalfAt_undisturbed hu, withHalf_even he, aligned_even ht, hu.seenAt, pushExceeds,
    decide_eq_false (Nat.not_lt.2 h), if_neg (by decide)]

theorem pushChecked_exceeds {ilc : BitVec 2} {sdb : Word} {m : Nat} {s : State} {k : Word → Result} (hu : Undisturbed s)
    (he : odd sdb = false) (ht : odd (s.readHalf sdb) = false)
    (h : (s.readHalf (sdb + 4)).toNat < (s.readHalf sdb).toNat + 2 * m) :
    pushChecked ilc sdb m s k = stackCheckFails ilc .stackOverflow s := by
  rw [pushChecked, withHalfAt_undisturbed hu, withHalf_even he, aligned_even ht, hu.seenAt, pushExceeds,
    decide_eq_true h, if_pos rfl]

theorem popChecked_fits {ilc : BitVec 2} {sdb : Word} {m : Nat} {s : State} {k : Word → Result} (hu : Undisturbed s)
    (he : odd sdb = false) (ht : odd (s.readHalf sdb) = false)
    (h : (s.readHalf (sdb + 2)).toNat + 2 * m ≤ (s.readHalf sdb).toNat + 2) :
    popChecked ilc sdb m s k = k (s.readHalf sdb) := by
  rw [popChecked, withHalfAt_undisturbed hu, withHalf_even he, aligned_even ht, hu.seenAt, popExceeds,
    decide_eq_false (Nat.not_lt.2 h), if_neg (by decide)]

theorem popChecked_exceeds {ilc : BitVec 2} {sdb : Word} {m : Nat} {s : State} {k : Word → Result} (hu : Undisturbed s)
    (he : odd sdb = false) (ht : odd (s.readHalf sdb) = false)
    (h : (s.readHalf sdb).toNat + 2 < (s.readHalf (sdb + 2)).toNat + 2 * m) :
    popChecked ilc sdb m s k = stackCheckFails ilc .stackUnderflow s := by
  rw [popChecked, withHalfAt_undisturbed hu, withHalf_even he, aligned_even ht, hu.seenAt, popExceeds,
    decide_eq_true h, if_pos rfl]

/-! ## What a stack instruction leaves -/

@[simp] theorem State.c1_setCc_c1Only (s : State) (b : Bool) : (s.setCc (.c1Only b)).c1 = b := by
  rw [State.c1, State.msr_setCc, CcWrite.c1Only_bit]

theorem Frame.setCc_c1Only (s : State) (b : Bool) : Frame s (s.setCc (.c1Only b)) [] [1] noByte :=
  .setCc s _ [1] (.inl rfl) (.inr (by simp)) (.inl rfl)

/-- A check that fails sets C1, and MSR.S decides on the interrupt (R312, R317). -/
theorem stackCheckFails_spec {i : Instr} {s : State} {ilc : BitVec 2} {code : ProgramCode}
    (h : exec i s = stackCheckFails ilc code s) :
    (s.stackMask = false → Completes i s fun t => t.c1 = true ∧ Frame s t [] [1] noByte) ∧
      (s.stackMask = true → Completes i s fun t => Interrupted (s.setCc (.c1Only true)) t .program ilc code.code) := by
  refine ⟨fun hs => ⟨s.setCc (.c1Only true), ?_, s.c1_setCc_c1Only true, .setCc_c1Only s true⟩,
    fun hs => ⟨_, ?_, .synchronousInterrupt (s.setCc (.c1Only true)) .program ilc code.code⟩⟩
  · rw [h, stackCheckFails, hs]; rfl
  · rw [h, stackCheckFails, hs]; rfl

/-- C1 off, halfwords stored to `stored`, and then the new top pointer: the halfwords at even addresses other than the pointer's are
as they were before it, and this is all that changes. -/
theorem State.storePointer_spec {s u : State} {stored : Word → Prop} (h : Frame (s.setCc (.c1Only false)) u [] [] stored)
    {sdb : Word} (he : odd sdb = false) (top : Word) : let t := u.writeHalf sdb top
    (∀ a, odd a = false → phys a ≠ phys sdb → t.readHalf a = u.readHalf a) ∧ t.readHalf sdb = top ∧ t.c1 = false ∧
      Frame s t [] [1] (either stored (Touched sdb 2)) := by
  refine ⟨fun a ha hp => u.readHalf_writeHalf_even a sdb top ha he hp, u.readHalf_writeHalf sdb top, ?_, ?_⟩
  · exact (h.2.1 (by simp) 1 (by simp)).trans (s.c1_setCc_c1Only false)
  · exact (((Frame.setCc_c1Only s false).trans h).trans (Frame.writeHalf u sdb top)).mono (by simp) (by simp)
      fun _ ha => ha.imp_left (·.elim False.elim id)

/-- The halfwords above an even top stand at even addresses. -/
theorem odd_above_top {top : Word} (h : odd top = false) (k : Nat) : odd (top + 2 + 2 * BitVec.ofNat 16 k) = false :=
  odd_add_halfwords _ k ((odd_add_two top).trans h)

/-! ## Pushes -/

/-- What PSHM's stores leave: the registers from R1 to R3 above the top (R313). -/
theorem State.pushRegisters_spec (s u : State) (r1 r3 : Reg) (a : Word) :
    let t := u.writeHalves a ((regRange r1 (rangeCount r1 r3)).map s.reg)
    (∀ k, k < rangeCount r1 r3 → t.readHalf (a + 2 * BitVec.ofNat 16 k) = s.reg (r1 + BitVec.ofNat 4 k)) ∧
      Frame u t [] [] (Touched a (2 * rangeCount r1 r3)) := by
  have length : ((regRange r1 (rangeCount r1 r3)).map s.reg).length = rangeCount r1 r3 := by simp
  have few := rangeCount_le r1 r3
  have frame := Frame.writeHalves u a ((regRange r1 (rangeCount r1 r3)).map s.reg)
  rw [length] at frame
  refine ⟨fun k hk => ?_, frame⟩
  rw [State.readHalf_writeHalves_inside _ _ _ k (length.symm ▸ hk) (by simp only [length, Config.memSize]; omega),
    List.getElem_map, getElem_regRange]

/-- PSHM begins with the check of the stack (R313). -/
theorem exec_pshm (s : State) (r1 r3 b2 : Reg) (d2 : Disp) : exec (.pshm r1 r3 b2 d2) s =
    pushChecked 2 (s.ea b2 d2) (rangeCount r1 r3) s fun top =>
      .next (((s.setCc (.c1Only false)).writeHalves (top + 2) ((regRange r1 (rangeCount r1 r3)).map s.reg)).writeHalf
        (s.ea b2 d2) (raisedTop top (rangeCount r1 r3))) := rfl

/-- PSHM where the registers fit (R313). -/
theorem Completes.pshm {s : State} {r1 r3 b2 : Reg} {d2 : Disp} (hu : Undisturbed s) : let sdb := s.ea b2 d2
    let top := s.readHalf sdb
    let m := rangeCount r1 r3
    odd sdb = false → odd top = false → top.toNat + 2 * m ≤ (s.readHalf (sdb + 4)).toNat →
    Completes (.pshm r1 r3 b2 d2) s fun t =>
      (∀ k, k < m → let a := top + 2 + 2 * BitVec.ofNat 16 k
        phys a ≠ phys sdb → t.readHalf a = s.reg (r1 + BitVec.ofNat 4 k)) ∧
      t.readHalf sdb = top + 2 * BitVec.ofNat 16 m ∧ t.c1 = false ∧
      Frame s t [] [1] (either (Touched (top + 2) (2 * m)) (Touched sdb 2)) := by
  intro sdb top m he ht h
  obtain ⟨pushed, frame⟩ := s.pushRegisters_spec (s.setCc (.c1Only false)) r1 r3 (top + 2)
  obtain ⟨others, pointer, c1, all⟩ := State.storePointer_spec frame he (raisedTop top m)
  exact ⟨_, (exec_pshm s r1 r3 b2 d2).trans (pushChecked_fits hu he ht h),
    fun k hk hp => (others _ (odd_above_top ht k) hp).trans (pushed k hk), pointer, c1, all⟩

/-- The push-halfwords operation where the halfwords fit, and where they do not (R316). -/
theorem pushHalfwords_spec {i : Instr} {s : State} {e sdb : Word} {len : Nat} (hi : exec i s = pushHalfwords e sdb len s)
    (hu : Undisturbed s) : let top := s.readHalf sdb
    let m := halfwordCount len
    odd e = false → odd sdb = false → odd top = false →
    (top.toNat + 2 * m ≤ (s.readHalf (sdb + 4)).toNat → Completes i s fun t =>
      ((∀ j, j < 2 * m → ¬ Touched (top + 2) (2 * m) (e + BitVec.ofNat 16 j)) →
        ∀ k, k < m → let a := top + 2 + 2 * BitVec.ofNat 16 k
          phys a ≠ phys sdb → t.readHalf a = s.readHalf (e + 2 * BitVec.ofNat 16 k)) ∧
      t.readHalf sdb = top + 2 * BitVec.ofNat 16 m ∧ t.c1 = false ∧
      Frame s t [] [1] (either (Touched (top + 2) (2 * m)) (Touched sdb 2))) ∧
    ((s.readHalf (sdb + 4)).toNat < top.toNat + 2 * m →
      (s.stackMask = false → Completes i s fun t => t.c1 = true ∧ Frame s t [] [1] noByte) ∧
      (s.stackMask = true → Completes i s fun t => Interrupted (s.setCc (.c1Only true)) t .program 3 0x14)) := by
  intro top m ha he ht
  rw [pushHalfwords, aligned_even ha] at hi
  refine ⟨fun h => ?_, fun h => stackCheckFails_spec (hi.trans (pushChecked_exceeds hu he ht h))⟩
  obtain ⟨frame, copied⟩ := (s.setCc (.c1Only false)).copyHalves_spec (top + 2) e m
  obtain ⟨others, pointer, c1, all⟩ := State.storePointer_spec frame he (raisedTop top m)
  exact ⟨_, hi.trans (pushChecked_fits hu he ht h),
    fun apart k hk hp => (others _ (odd_above_top ht k) hp).trans (copied apart k hk), pointer, c1, all⟩

/-- Settles O44: the halfwords are stored above the top, then the pointer; or the check fails. -/
theorem pushes : Obligations.Pushes := by
  refine ⟨?registers, ?halfwords⟩
  case registers =>
    intro s r1 r3 b2 d2 hu sdb top m he ht
    exact ⟨.pshm hu he ht, fun h => stackCheckFails_spec ((exec_pshm ..).trans (pushChecked_exceeds hu he ht h))⟩
  case halfwords =>
    intro s l u rl b1 d1 b2 d2 hu e sdb top ha he ht
    simp only [List.forall_mem_cons, List.not_mem_nil, IsEmpty.forall_iff, implies_true, and_true]
    exact ⟨pushHalfwords_spec rfl hu ha he ht, pushHalfwords_spec rfl hu ha he ht⟩

/-! ## Pops -/

/-- What POPM's register writes leave, whatever is written: each word in its register, C1 off, but where register 0 is among them
(U2). -/
theorem State.popRegisters_spec (s : State) (r1 r3 : Reg) (ws : List Word) (hl : ws.length = rangeCount r1 r3) :
    let t := s.writeWithCc ((regRange r1 (rangeCount r1 r3)).zip ws) (.c1Only false)
    (∀ k, (hk : k < rangeCount r1 r3) → Holds t (r1 + BitVec.ofNat 4 k) ws[k] [1] ∧
      (r1 + BitVec.ofNat 4 k = 0 → Flag t 1 false 0 ws[k])) ∧
    (0 ∉ regRange r1 (rangeCount r1 r3) → t.c1 = false) ∧
    Frame s t (regRange r1 (rangeCount r1 r3)) [1] noByte := by
  intro t
  let zipped := (regRange r1 (rangeCount r1 r3)).zip ws
  have inRange : ∀ w ∈ zipped, w.1 ∈ regRange r1 (rangeCount r1 r3) := fun w hw => (List.of_mem_zip hw).1
  refine ⟨fun k hk => ?_, fun h0 => ?_, .writeWithCc s zipped _ _ _ inRange (.inl rfl) (.inr (by simp)) (.inl rfl)⟩
  · have written := s.stored_writeRegs_range r1 (rangeCount r1 r3) k ws (rangeCount_le r1 r3) hk hl
    have named : ∃ w ∈ zipped, w.1 = r1 + BitVec.ofNat 4 k :=
      ⟨_, List.getElem_mem (l := zipped) (n := k) (by simp [zipped, hl, hk]), by simp [zipped, getElem_regRange]⟩
    refine ⟨holds_writeWithCc s zipped _ _ _ [1] written (fun h => h ▸ named) (.inl rfl) (.inr (by simp)) (.inl rfl),
      fun h => ?_⟩
    rw [h] at written
    exact flag_writeWithCc s zipped _ 1 false 0 _ (CcWrite.c1Only_bit false) (.inr ⟨rfl, written⟩)
  · have others : ∀ w ∈ zipped, w.1 ≠ 0 := fun w hw e => h0 (e ▸ inRange w hw)
    rw [State.c1, (s.msr_writeWithCc zipped _).1 others, CcWrite.c1Only_bit]

/-- POPM begins with the check of the stack (R318). -/
theorem exec_popm (s : State) (r1 r3 b2 : Reg) (d2 : Disp) : exec (.popm r1 r3 b2 d2) s =
    popChecked 2 (s.ea b2 d2) (rangeCount r1 r3) s fun top =>
      .next ((s.writeWithCc ((regRange r1 (rangeCount r1 r3)).zip
        (s.readHalves (loweredTop top (rangeCount r1 r3) + 2) (rangeCount r1 r3))) (.c1Only false)).writeHalf
          (s.ea b2 d2) (loweredTop top (rangeCount r1 r3))) := rfl

/-- POPM where enough halfwords stand on the stack (R318). -/
theorem Completes.popm {s : State} {r1 r3 b2 : Reg} {d2 : Disp} (hu : Undisturbed s) : let sdb := s.ea b2 d2
    let top := s.readHalf sdb
    let m := rangeCount r1 r3
    let v := fun k : Nat => s.readHalf (top - 2 * BitVec.ofNat 16 m + 2 + 2 * BitVec.ofNat 16 k)
    odd sdb = false → odd top = false → (s.readHalf (sdb + 2)).toNat + 2 * m ≤ top.toNat + 2 →
    Completes (.popm r1 r3 b2 d2) s fun t =>
      (∀ k, k < m → Holds t (r1 + BitVec.ofNat 4 k) (v k) [1] ∧
        (r1 + BitVec.ofNat 4 k = 0 → Flag t 1 false 0 (v k))) ∧
      (0 ∉ regRange r1 m → t.c1 = false) ∧ t.readHalf sdb = top - 2 * BitVec.ofNat 16 m ∧
      Frame s t (regRange r1 m) [1] (Touched sdb 2) := by
  intro sdb top m v he ht h
  obtain ⟨loaded, c1, frame⟩ := s.popRegisters_spec r1 r3 (s.readHalves (loweredTop top m + 2) m) (by simp [m])
  refine ⟨_, (exec_popm s r1 r3 b2 d2).trans (popChecked_fits hu he ht h), fun k hk => ?_, c1,
    State.readHalf_writeHalf _ _ _, ?_⟩
  · have word := loaded k hk
    rw [getElem_readHalves] at word
    exact word
  · exact (frame.trans (Frame.writeHalf _ sdb (loweredTop top m))).mono (by simp [m]) (by simp) fun _ h => h.elim False.elim id

/-- The pop-halfwords operation where enough halfwords stand on the stack, and where not (R321). -/
theorem popHalfwords_spec {i : Instr} {s : State} {e sdb : Word} {len : Nat} (hi : exec i s = popHalfwords e sdb len s)
    (hu : Undisturbed s) : let top := s.readHalf sdb
    let m := halfwordCount len
    let from_ := top - 2 * BitVec.ofNat 16 m + 2
    odd e = false → odd sdb = false → odd top = false →
    ((s.readHalf (sdb + 2)).toNat + 2 * m ≤ top.toNat + 2 → Completes i s fun t =>
      ((∀ j, j < 2 * m → ¬ Touched e (2 * m) (from_ + BitVec.ofNat 16 j)) →
        ∀ k, k < m → let a := e + 2 * BitVec.ofNat 16 k
          phys a ≠ phys sdb → t.readHalf a = s.readHalf (from_ + 2 * BitVec.ofNat 16 k)) ∧
      t.readHalf sdb = top - 2 * BitVec.ofNat 16 m ∧ t.c1 = false ∧
      Frame s t [] [1] (either (Touched e (2 * m)) (Touched sdb 2))) ∧
    (top.toNat + 2 < (s.readHalf (sdb + 2)).toNat + 2 * m →
      (s.stackMask = false → Completes i s fun t => t.c1 = true ∧ Frame s t [] [1] noByte) ∧
      (s.stackMask = true → Completes i s fun t => Interrupted (s.setCc (.c1Only true)) t .program 3 0x16)) := by
  intro top m from_ ha he ht
  rw [popHalfwords, aligned_even ha] at hi
  refine ⟨fun h => ?_, fun h => stackCheckFails_spec (hi.trans (popChecked_exceeds hu he ht h))⟩
  obtain ⟨frame, copied⟩ := (s.setCc (.c1Only false)).copyHalves_spec e from_ m
  obtain ⟨others, pointer, c1, all⟩ := State.storePointer_spec frame he (loweredTop top m)
  exact ⟨_, hi.trans (popChecked_fits hu he ht h),
    fun apart k hk hp => (others _ (odd_add_halfwords e k ha) hp).trans (copied apart k hk), pointer, c1, all⟩

/-- Settles O45: the halfwords above the lowered top are loaded or copied, then the pointer is stored; or the check fails. -/
theorem pops : Obligations.Pops := by
  refine ⟨?registers, ?halfwords⟩
  case registers =>
    intro s r1 r3 b2 d2 hu sdb top m v he ht
    exact ⟨.popm hu he ht, fun h => stackCheckFails_spec ((exec_popm ..).trans (popChecked_exceeds hu he ht h))⟩
  case halfwords =>
    intro s l u rl b1 d1 b2 d2 hu e sdb top ha he ht
    simp only [List.forall_mem_cons, List.not_mem_nil, IsEmpty.forall_iff, implies_true, and_true]
    exact ⟨popHalfwords_spec rfl hu ha he ht, popHalfwords_spec rfl hu ha he ht⟩

end Sys2Proof.Machine
end

section
/-! PROOFS. Loads into registers, and exchanges of a register with memory or another. -/

namespace Sys2Proof.Machine

/-- Bits 0 to 7 of a halfword kept before another byte (R267). -/
theorem highByte_append (w : Word) (b : Byte) : highByte w ++ b = (w &&& 0xFF00) ||| b.setWidth 16 := by
  unfold highByte
  ext i hi
  simp only [BitVec.getElem_append, BitVec.getElem_or]
  interval_cases i <;> simp

/-- Settles O18: each instruction is one register write, of a word computed from registers and fields. -/
theorem registerAndImmediateLoads : Obligations.RegisterAndImmediateLoads := by
  intro s r1 r2 x2 b2 d2 i2
  simp only [List.forall_mem_cons, List.not_mem_nil, IsEmpty.forall_iff, implies_true, and_true]
  exact ⟨.of_setReg rfl, .of_setReg rfl, .of_setReg rfl, negative_eq _ ▸ .of_setReg rfl, swapBytes_eq _ ▸ .of_setReg rfl,
    .of_setReg rfl, .of_setReg rfl⟩

/-- A register written with what a function makes of the halfword at an even address. -/
theorem RegisterResult.of_withHalf {i : Instr} {s : State} {ilc : BitVec 2} {a : Word} {r : Reg} {f : Word → Word}
    (he : odd a = false) (h : exec i s = withHalf ilc a s fun v => .next (s.setReg r (f v))) :
    RegisterResult i s r (f (s.readHalf a)) :=
  .of_setReg (h.trans (withHalf_even he))

/-- LD's address is a halfword read before, which memory still holds where no unit stores in between (R108, log 50). -/
theorem exec_ld {s : State} {r1 x2 b2 : Reg} {d2 : Disp} (hu : Undisturbed s) (h : odd (s.eaRX x2 b2 d2) = false) :
    exec (.ld r1 x2 b2 d2) s = withHalf 2 (s.readHalf (s.eaRX x2 b2 d2)) s fun v => .next (s.setReg r1 v) := by
  show execLd r1 x2 b2 d2 s = _
  rw [execLd, withHalfAt_undisturbed hu, withHalf_even h]

/-- Settles O19: each instruction is one register write, of a word made of the byte or halfword read. -/
theorem memoryLoads : Obligations.MemoryLoads := by
  intro s r1 r2 x2 b2 d2 i2 e
  simp only [List.forall_mem_cons, List.not_mem_nil, IsEmpty.forall_iff, implies_true, and_true]
  exact ⟨fun he => ⟨.of_withHalf (f := id) he rfl, negative_eq _ ▸ .of_withHalf he rfl,
      swapBytes_eq _ ▸ .of_withHalf he rfl⟩,
    fun hu he hp => .of_withHalf (f := id) hp (exec_ld hu he), fun h => .of_withHalf (f := id) h rfl,
    fun h => .of_withHalf (f := id) h rfl, .of_setReg rfl, .of_setReg rfl, highByte_append _ _ ▸ .of_setReg rfl⟩

/-- The frame of a register write and a halfword store. -/
theorem Frame.setReg_writeHalf (s : State) (r : Reg) (v a w : Word) :
    Frame s ((s.setReg r v).writeHalf a w) [r] [] (Touched a 2) :=
  ((Frame.setReg s r v).trans (.writeHalf _ a w)).mono (by simp) (by simp) fun _ h => h.elim False.elim id

/-- LZ at an even address: the halfword goes to R1 and zero takes its place (R110). -/
theorem exec_lz {s : State} {r1 x2 b2 : Reg} {d2 : Disp} (h : odd (s.eaRX x2 b2 d2) = false) : exec (.lz r1 x2 b2 d2) s =
    .next ((s.setReg r1 (s.readHalf (s.eaRX x2 b2 d2))).writeHalf (s.eaRX x2 b2 d2) 0) := by
  show execLz r1 x2 b2 d2 s = _
  rw [execLz, withHalf_even h]

/-- SWP at an even address: R1 as it was takes the halfword's place (R192). -/
theorem exec_swp {s : State} {r1 x2 b2 : Reg} {d2 : Disp} (h : odd (s.eaRX x2 b2 d2) = false) : exec (.swp r1 x2 b2 d2) s =
    .next ((s.writeHalf (s.eaRX x2 b2 d2) (s.reg r1)).setReg r1 (s.readHalf (s.eaRX x2 b2 d2))) := by
  show execSwp r1 x2 b2 d2 s = _
  rw [execSwp, withHalf_even h]

/-- Settles O20: a register write with a halfword store, in either order, or two register writes, each of what was there
before. -/
theorem loadAndZeroAndSwaps : Obligations.LoadAndZeroAndSwaps := by
  intro s r1 r2 x2 b2 d2 e
  refine ⟨fun he => ⟨⟨_, exec_lz he, ?lz⟩, ⟨_, exec_swp he, ?swp⟩⟩, ⟨_, rfl, ?swpr⟩⟩
  case lz =>
    exact ⟨State.stored_setReg_self s r1 _, State.readHalf_writeHalf _ e 0, .setReg_writeHalf s r1 _ e 0⟩
  case swp =>
    exact ⟨State.stored_setReg_self _ r1 _, State.readHalf_writeHalf s e _, .setReg_writeHalf s r1 _ e _⟩
  case swpr =>
    refine ⟨?_, State.stored_setReg_self _ r2 _, ?_⟩
    · by_cases h : r1 = r2
      · rw [h, State.stored_setReg_self]
      · rw [State.stored_setReg_ne _ _ h, State.stored_setReg_self]
    · exact ((Frame.setReg s r1 _).trans (.setReg _ r2 _)).mono (by simp) (by simp) fun _ h => h.elim id id

end Sys2Proof.Machine
end

section
/-! PROOFS. Add, subtract, load complement and load positive, with the Arithmetic Overflow interrupt. -/

namespace Sys2Proof.Machine

/-! ## An exact number as result -/

/-- The end of an instruction whose exact result is `n`, into a register: C1 is whether `n` does not fit a halfword, and `n` is
narrowed to one and stored, or the interrupt is taken (R121, R126). -/
def exactToRegister (ilc : BitVec 2) (r : Reg) (n : Int) (s : State) : Result :=
  overflowProcedure ilc (!fits16 n) (.c1Only (!fits16 n)) s (s.result r (BitVec.ofInt 16 n) (.c1Only (!fits16 n)))

/-- The same, into a halfword of memory (R154). -/
def exactToMemory (ilc : BitVec 2) (a : Word) (n : Int) (s : State) : Result :=
  overflowProcedure ilc (!fits16 n) (.c1Only (!fits16 n)) s
    ((s.setCc (.c1Only (!fits16 n))).writeHalf a (BitVec.ofInt 16 n))

/-! The shared meanings are these, by the exact sum, difference, complement or absolute value. -/

theorem addToRegister_eq (ilc : BitVec 2) (r : Reg) (a b : Word) (s : State) :
    addToRegister ilc r a b s = exactToRegister ilc r (a.toInt + b.toInt) s := by
  rw [addToRegister, add_eq]; rfl

theorem subToRegister_eq (ilc : BitVec 2) (r : Reg) (a b : Word) (s : State) :
    subToRegister ilc r a b s = exactToRegister ilc r (a.toInt - b.toInt) s := by
  rw [subToRegister, sub_eq]; rfl

theorem addToMemory_eq (ilc : BitVec 2) (e a b : Word) (s : State) :
    addToMemory ilc e a b s = exactToMemory ilc e (a.toInt + b.toInt) s := by
  rw [addToMemory, add_eq]; rfl

theorem subToMemory_eq (ilc : BitVec 2) (e a b : Word) (s : State) :
    subToMemory ilc e a b s = exactToMemory ilc e (a.toInt - b.toInt) s := by
  rw [subToMemory, sub_eq]; rfl

theorem loadSigned_complement (ilc : BitVec 2) (r : Reg) (v : Word) (s : State) :
    loadSigned ilc r v (complement v) s = exactToRegister ilc r (-v.toInt) s := by
  rw [loadSigned, complement_eq, complementOverflows_eq]; rfl

theorem loadSigned_positive (ilc : BitVec 2) (r : Reg) (v : Word) (s : State) :
    loadSigned ilc r v (positive v) s = exactToRegister ilc r (v.toInt.natAbs : Int) s := by
  rw [loadSigned, positive_eq, complementOverflows_eq_abs]; rfl

/-- A number that does not fit takes the interrupt where the overflow mask is on, before anything but C1 is written (R121). -/
theorem Completes.of_overflow {i : Instr} {s t : State} {ilc : BitVec 2} {n : Int}
    (h : exec i s = overflowProcedure ilc (!fits16 n) (.c1Only (!fits16 n)) s t) (ho : s.overflowMask = true)
    (hn : fits16 n = false) :
    Completes i s fun t => Interrupted (s.setCc (.c1Only true)) t .program ilc 0x08 := by
  rw [hn] at h
  exact ⟨_, h.trans (overflowProcedure_traps rfl ho), .synchronousInterrupt _ .program ilc 0x08⟩

/-- A number that fits, or whose overflow is masked, is stored (R121). -/
theorem overflowProcedure_fits {ilc : BitVec 2} {n : Int} {c : CcWrite} {s t : State}
    (h : fits16 n = true ∨ s.overflowMask = false) : overflowProcedure ilc (!fits16 n) c s t = .next t :=
  overflowProcedure_stores (h.imp_left fun hn => by rw [hn]; rfl)

/-- Where no overflow traps, an exact number into a register is a result with C1. -/
theorem FlaggedResult.of_exactToRegister {i : Instr} {s : State} {ilc : BitVec 2} {r : Reg} {n : Int}
    (h : exec i s = exactToRegister ilc r n s) (hn : fits16 n = true ∨ s.overflowMask = false) :
    FlaggedResult i s r (BitVec.ofInt 16 n) 1 (!fits16 n) :=
  .of_result (k := 0) (h.trans (overflowProcedure_fits hn)) (CcWrite.c1Only_bit _) (.inl rfl) (.inr rfl) (.inl rfl)

/-- The same into memory: the halfword and C1 are all that is written. -/
theorem Completes.of_exactToMemory {i : Instr} {s : State} {ilc : BitVec 2} {e : Word} {n : Int}
    (h : exec i s = exactToMemory ilc e n s) (hn : fits16 n = true ∨ s.overflowMask = false) :
    Completes i s fun t =>
      t.readHalf e = BitVec.ofInt 16 n ∧ t.c1 = !fits16 n ∧ Frame s t [] [1] (Touched e 2) := by
  refine ⟨_, h.trans (overflowProcedure_fits hn), State.readHalf_writeHalf _ e _, s.c1_setCc_c1Only _, ?_⟩
  exact ((Frame.setCc_c1Only s _).trans (.writeHalf _ e _)).mono (by simp) (by simp) fun _ h => h.elim False.elim id

/-! ## The instructions

Each by its exact number. The memory operands are at even addresses; AH and SH read twice, and see memory as it is where no unit
stores in between (log 50). -/

section
variable (s : State) (r1 r2 x2 b1 b2 : Reg) (d1 d2 : Disp) (i2 : Word) (i : Byte)

theorem exec_ar : exec (.ar r1 r2) s = exactToRegister 1 r1 ((s.reg r1).toInt + (s.reg r2).toInt) s :=
  addToRegister_eq ..

theorem exec_sr : exec (.sr r1 r2) s = exactToRegister 1 r1 ((s.reg r1).toInt - (s.reg r2).toInt) s :=
  subToRegister_eq ..

theorem exec_ax : exec (.ax r1 r2) s = exactToRegister 1 r1 ((s.reg r1).toInt + r2.toNat) s :=
  toInt_digit r2 ▸ addToRegister_eq ..

theorem exec_sx : exec (.sx r1 r2) s = exactToRegister 1 r1 ((s.reg r1).toInt - r2.toNat) s :=
  toInt_digit r2 ▸ subToRegister_eq ..

theorem exec_ai : exec (.ai r1 r2 i2) s = exactToRegister 2 r1 ((s.reg r2).toInt + i2.toInt) s :=
  addToRegister_eq ..

theorem exec_si : exec (.si r1 r2 i2) s = exactToRegister 2 r1 ((s.reg r2).toInt - i2.toInt) s :=
  subToRegister_eq ..

theorem exec_lcr : exec (.lcr r1 r2) s = exactToRegister 1 r1 (-(s.reg r2).toInt) s :=
  loadSigned_complement ..

theorem exec_lpr : exec (.lpr r1 r2) s = exactToRegister 1 r1 ((s.reg r2).toInt.natAbs : Int) s :=
  loadSigned_positive ..

variable {s x2 b1 b2 d1 d2}

theorem exec_a (h : odd (s.eaRX x2 b2 d2) = false) : exec (.a r1 x2 b2 d2) s =
    exactToRegister 2 r1 ((s.reg r1).toInt + (s.readHalf (s.eaRX x2 b2 d2)).toInt) s := by
  show execA r1 x2 b2 d2 s = _
  rw [execA, withHalf_even h, addToRegister_eq]

theorem exec_s (h : odd (s.eaRX x2 b2 d2) = false) : exec (.s r1 x2 b2 d2) s =
    exactToRegister 2 r1 ((s.reg r1).toInt - (s.readHalf (s.eaRX x2 b2 d2)).toInt) s := by
  show execS r1 x2 b2 d2 s = _
  rw [execS, withHalf_even h, subToRegister_eq]

theorem exec_lc (h : odd (s.eaRX x2 b2 d2) = false) : exec (.lc r1 x2 b2 d2) s =
    exactToRegister 2 r1 (-(s.readHalf (s.eaRX x2 b2 d2)).toInt) s := by
  show execLc r1 x2 b2 d2 s = _
  rw [execLc, withHalf_even h, loadSigned_complement]

theorem exec_lp (h : odd (s.eaRX x2 b2 d2) = false) : exec (.lp r1 x2 b2 d2) s =
    exactToRegister 2 r1 ((s.readHalf (s.eaRX x2 b2 d2)).toInt.natAbs : Int) s := by
  show execLp r1 x2 b2 d2 s = _
  rw [execLp, withHalf_even h, loadSigned_positive]

theorem exec_ahi (h : odd (s.ea b1 d1) = false) : exec (.ahi i b1 d1) s =
    exactToMemory 2 (s.ea b1 d1) ((s.readHalf (s.ea b1 d1)).toInt + i.toNat) s := by
  show execAhi i b1 d1 s = _
  rw [execAhi, withHalf_even h, addToMemory_eq, toInt_zeroExtended]

theorem exec_shi (h : odd (s.ea b1 d1) = false) : exec (.shi i b1 d1) s =
    exactToMemory 2 (s.ea b1 d1) ((s.readHalf (s.ea b1 d1)).toInt - i.toNat) s := by
  show execShi i b1 d1 s = _
  rw [execShi, withHalf_even h, subToMemory_eq, toInt_zeroExtended]

theorem exec_ah (hu : Undisturbed s) (h1 : odd (s.ea b1 d1) = false) (h2 : odd (s.ea b2 d2) = false) :
    exec (.ah i b1 d1 b2 d2) s = exactToMemory 3 (s.ea b1 d1)
      ((s.readHalf (s.ea b1 d1)).toInt + (s.readHalf (s.ea b2 d2)).toInt) s := by
  show execAh i b1 d1 b2 d2 s = _
  rw [execAh, withHalfAt_undisturbed hu, withHalf_even h1, withHalf_even h2, addToMemory_eq]

theorem exec_sh (hu : Undisturbed s) (h1 : odd (s.ea b1 d1) = false) (h2 : odd (s.ea b2 d2) = false) :
    exec (.sh i b1 d1 b2 d2) s = exactToMemory 3 (s.ea b1 d1)
      ((s.readHalf (s.ea b1 d1)).toInt - (s.readHalf (s.ea b2 d2)).toInt) s := by
  show execSh i b1 d1 b2 d2 s = _
  rw [execSh, withHalfAt_undisturbed hu, withHalf_even h1, withHalf_even h2, subToMemory_eq]

end

/-! ## The statements -/

/-- Settles O17: each of these instructions ends in the overflow procedure of its exact result. -/
theorem arithmeticOverflowTraps : Obligations.ArithmeticOverflowTraps := by
  intro s ho
  simp only [List.forall_mem_cons, List.not_mem_nil, IsEmpty.forall_iff, implies_true, and_true]
  refine ⟨?registers, ?immediates, ?indexed, ?immediateBytes, ?twoAddresses⟩
  case registers =>
    exact fun r1 r2 => ⟨.of_overflow (exec_ar s r1 r2) ho, .of_overflow (exec_ax s r1 r2) ho,
      .of_overflow (exec_sr s r1 r2) ho, .of_overflow (exec_sx s r1 r2) ho, .of_overflow (exec_lcr s r1 r2) ho,
      .of_overflow (exec_lpr s r1 r2) ho⟩
  case immediates =>
    exact fun r1 r2 i2 => ⟨.of_overflow (exec_ai s r1 r2 i2) ho, .of_overflow (exec_si s r1 r2 i2) ho⟩
  case indexed =>
    exact fun r1 x2 b2 d2 h => ⟨.of_overflow (exec_a r1 h) ho, .of_overflow (exec_s r1 h) ho,
      .of_overflow (exec_lc r1 h) ho, .of_overflow (exec_lp r1 h) ho⟩
  case immediateBytes =>
    exact fun i b1 d1 h => ⟨.of_overflow (exec_ahi i h) ho, .of_overflow (exec_shi i h) ho⟩
  case twoAddresses =>
    exact fun i b1 d1 b2 d2 hu h1 h2 => ⟨.of_overflow (exec_ah i hu h1 h2) ho, .of_overflow (exec_sh i hu h1 h2) ho⟩

/-- Settles O21: both put an exact number into a register. -/
theorem loadComplementAndPositive : Obligations.LoadComplementAndPositive := by
  unfold Obligations.LoadComplementAndPositive
  simp only [List.forall_mem_cons, List.not_mem_nil, IsEmpty.forall_iff, implies_true, and_true]
  exact ⟨fun s r1 r2 => ⟨.of_exactToRegister (exec_lcr s r1 r2), .of_exactToRegister (exec_lpr s r1 r2)⟩,
    fun s r1 x2 b2 d2 h => ⟨.of_exactToRegister (exec_lc r1 h), .of_exactToRegister (exec_lp r1 h)⟩⟩

/-- Settles O25: each of these instructions puts an exact number into a register. -/
theorem addAndSubtractRegister : Obligations.AddAndSubtractRegister := by
  unfold Obligations.AddAndSubtractRegister
  simp only [List.forall_mem_cons, List.not_mem_nil, IsEmpty.forall_iff, implies_true, and_true]
  exact ⟨fun s r1 r2 i2 => ⟨.of_exactToRegister (exec_ar s r1 r2), .of_exactToRegister (exec_ax s r1 r2),
      .of_exactToRegister (exec_ai s r1 r2 i2), .of_exactToRegister (exec_sr s r1 r2), .of_exactToRegister (exec_sx s r1 r2),
      .of_exactToRegister (exec_si s r1 r2 i2)⟩,
    fun s r1 x2 b2 d2 h => ⟨.of_exactToRegister (exec_a r1 h), .of_exactToRegister (exec_s r1 h)⟩⟩

/-- Settles O26: each of these instructions puts an exact number into memory; AH and SH are not of the immediate forms, so their
second address is even and no unit stores among their reads. -/
theorem addAndSubtractMemory : Obligations.AddAndSubtractMemory := by
  intro s i b1 d1 b2 d2 h1
  simp only [List.forall_mem_cons, List.not_mem_nil, IsEmpty.forall_iff, implies_true, and_true]
  refine ⟨fun _ => .of_exactToMemory (exec_ahi i h1), fun _ => .of_exactToMemory (exec_shi i h1), fun hm => ?ah,
    fun hm => ?sh⟩
  case ah =>
    obtain ⟨h2, hu⟩ := hm.resolve_right (by simp)
    exact .of_exactToMemory (exec_ah i hu h1 h2)
  case sh =>
    obtain ⟨h2, hu⟩ := hm.resolve_right (by simp)
    exact .of_exactToMemory (exec_sh i hu h1 h2)

end Sys2Proof.Machine
end

section
/-! PROOFS. Logical add and subtract, and the algebraic compares. -/

namespace Sys2Proof.Machine

/-! ## Logical add and subtract -/

section
variable {i : Instr} {s : State} {r : Reg} {a b : Word}

/-- A logical sum is always stored, with C1 as its carry: the overflow procedure has no part in it (R152). -/
theorem FlaggedResult.of_addLogical (h : exec i s = addLogical r a b s) :
    FlaggedResult i s r (a + b) 1 (decide (65536 ≤ a.toNat + b.toNat)) :=
  .of_result (k := 0) h (CcWrite.c1Only_bit _) (.inl rfl) (.inr rfl) (.inl rfl)

/-- The same of a logical difference, with C1 as the complement of its borrow (R152). -/
theorem FlaggedResult.of_subLogical (h : exec i s = subLogical r a b s) :
    FlaggedResult i s r (a - b) 1 (decide (b.toNat ≤ a.toNat)) :=
  .of_result (k := 0) h (CcWrite.c1Only_bit _) (.inl rfl) (.inr rfl) (.inl rfl)

end

section
variable {s : State} {r1 x2 b2 : Reg} {d2 : Disp}

theorem exec_al (h : odd (s.eaRX x2 b2 d2) = false) : exec (.al r1 x2 b2 d2) s =
    addLogical r1 (s.reg r1) (s.readHalf (s.eaRX x2 b2 d2)) s := by
  show execAl r1 x2 b2 d2 s = _
  rw [execAl, withHalf_even h]

theorem exec_sl (h : odd (s.eaRX x2 b2 d2) = false) : exec (.sl r1 x2 b2 d2) s =
    subLogical r1 (s.reg r1) (s.readHalf (s.eaRX x2 b2 d2)) s := by
  show execSl r1 x2 b2 d2 s = _
  rw [execSl, withHalf_even h]

end

/-- Settles O27: each of these instructions is the logical sum or difference of two halfwords, into a register. -/
theorem logicalAddAndSubtract : Obligations.LogicalAddAndSubtract := by
  unfold Obligations.LogicalAddAndSubtract
  simp only [List.forall_mem_cons, List.not_mem_nil, IsEmpty.forall_iff, implies_true, and_true]
  refine ⟨fun s r1 r2 i2 => ⟨?alr, ?ali, ?slr, ?sli⟩, fun s r1 x2 b2 d2 he => ⟨?al, ?sl⟩⟩
  case alr => exact .of_addLogical rfl
  case ali => exact .of_addLogical rfl
  case slr => exact .of_subLogical rfl
  case sli => exact .of_subLogical rfl
  case al => exact .of_addLogical (exec_al he)
  case sl => exact .of_subLogical (exec_sl he)

/-! ## Algebraic compare -/

/-- A signed comparison writes the three bits of its order and nothing else (R146). -/
theorem Compared.of_compareSigned {i : Instr} {s : State} {a b : Word} (h : exec i s = .next (s.setCc (compareSigned a b))) :
    Compared i s (decide (a.toInt = b.toInt)) (decide (b.toInt < a.toInt)) (decide (a.toInt < b.toInt)) :=
  .of_setCc (h.trans (by rw [compareSigned_eq]))

section
variable {s : State} {r1 x2 b1 b2 : Reg} {d1 d2 : Disp} {i : Byte}

theorem exec_c (h : odd (s.eaRX x2 b2 d2) = false) : exec (.c r1 x2 b2 d2) s =
    .next (s.setCc (compareSigned (s.reg r1) (s.readHalf (s.eaRX x2 b2 d2)))) := by
  show execC r1 x2 b2 d2 s = _
  rw [execC, withHalf_even h]

/-- CHI's immediate is a signed byte, unlike AHI's and SHI's (R150). -/
theorem exec_chi (h : odd (s.ea b1 d1) = false) : exec (.chi i b1 d1) s =
    .next (s.setCc (compareSigned (s.readHalf (s.ea b1 d1)) (i.signExtend 16))) := by
  show execChi i b1 d1 s = _
  rw [execChi, withHalf_even h, signExtended]

/-- CH's first read sees memory as it is where no unit stores before the second (R151, log 50). -/
theorem exec_ch (hu : Undisturbed s) (h1 : odd (s.ea b1 d1) = false) (h2 : odd (s.ea b2 d2) = false) :
    exec (.ch i b1 d1 b2 d2) s =
      .next (s.setCc (compareSigned (s.readHalf (s.ea b1 d1)) (s.readHalf (s.ea b2 d2)))) := by
  show execCh i b1 d1 b2 d2 s = _
  rw [execCh, withHalfAt_undisturbed hu, withHalf_even h1, withHalf_even h2]

end

/-- Settles O28: each of these instructions is the signed comparison of two halfwords; those read from memory stand at even
addresses, and no unit stores between CH's two reads. -/
theorem algebraicCompare : Obligations.AlgebraicCompare := by
  intro s r1 r2 x2 b1 b2 d1 d2 i2 i
  simp only [List.forall_mem_cons, List.not_mem_nil, IsEmpty.forall_iff, implies_true, true_implies, and_true, Bool.and_eq_true,
    Bool.not_eq_true']
  refine ⟨?cr, ?ci, ?c, ?chi, ?ch⟩
  case cr => exact fun _ => .of_compareSigned rfl
  case ci => exact fun _ => .of_compareSigned rfl
  case c => exact fun he _ => .of_compareSigned (exec_c he)
  case chi => exact fun he _ => .of_compareSigned (exec_chi he)
  case ch => exact fun ⟨h1, h2⟩ hu => .of_compareSigned (exec_ch hu h1 h2)

end Sys2Proof.Machine
end

section
/-! PROOFS. Multiply and divide, and the conversions between binary numbers and decimal characters. -/

namespace Sys2Proof.Machine

/-! ## Pairs of results -/

/-- A register pair and C1 written, perhaps with free values consumed: what is written, and nothing else. -/
theorem storePair_spec (s : State) (k : Nat) {r : Reg} (hr : r ≠ 15) (hi lo : Word) (b : Bool) :
    let t := storePair r hi lo (.c1Only b) (s.consume k)
    Holds t r hi [1] ∧ t.stored (r + 1) = lo ∧ Flag t 1 b r hi ∧ Frame s t [r, r + 1] [1] noByte :=
  ⟨holds_pair _ r hi lo _ [1] (.inl rfl) (.inr (by simp)) (.inl rfl), stored_pair _ r hi lo _ hr,
    flag_pair _ r hi lo _ 1 b hr (CcWrite.c1Only_bit b), frame_pair s k r hi lo _ [1] (.inl rfl) (.inr (by simp)) (.inl rfl)⟩

/-- The same of two halfwords of memory. -/
theorem storeHalves_spec (s : State) (k : Nat) (e hi lo : Word) (b : Bool) :
    let t := storeHalves e hi lo (.c1Only b) (s.consume k)
    t.readHalf e = hi ∧ t.readHalf (e + 2) = lo ∧ t.c1 = b ∧ Frame s t [] [1] (Touched e 4) := by
  obtain ⟨first, second⟩ := ((s.consume k).setCc (.c1Only b)).readHalf_writeHalves_pair e hi lo
  refine ⟨first, second, ?_, ?_⟩
  · exact (State.c1_setCc_c1Only (s.consume k) b :)
  · exact (((Frame.consume s k).trans (.setCc_c1Only _ b)).trans (.writeHalves _ e [hi, lo])).mono (by simp) (by simp)
      fun _ h => h.elim (·.elim False.elim False.elim) id

/-! ## Multiply -/

/-- A product into a register and the following one (R161). -/
theorem FlaggedPair.of_multiplyRegisters {i : Instr} {s : State} {r : Reg} {a b : Word} (hr : r ≠ 15)
    (h : exec i s = multiplyRegisters r a b s) :
    FlaggedPair i s r (BitVec.ofInt 32 (a.toInt * b.toInt)) 1 (!fits16 (a.toInt * b.toInt)) :=
  ⟨_, h, storePair_spec s 0 hr _ _ _⟩

section
variable {s : State} {r1 r2 x2 b1 b2 : Reg} {d1 d2 : Disp} {i2 : Word} {i : Byte}

theorem exec_mr (h : r1 ≠ 15) : exec (.mr r1 r2) s = multiplyRegisters r1 (s.reg r1) (s.reg r2) s :=
  pairRegister_of_ne h

theorem exec_mi (h : r1 ≠ 15) : exec (.mi r1 r2 i2) s = multiplyRegisters r1 (s.reg r2) i2 s :=
  pairRegister_of_ne h

theorem exec_m (h : r1 ≠ 15) (he : odd (s.eaRX x2 b2 d2) = false) : exec (.m r1 x2 b2 d2) s =
    multiplyRegisters r1 (s.reg r1) (s.readHalf (s.eaRX x2 b2 d2)) s := by
  show execM r1 x2 b2 d2 s = _
  rw [execM, pairRegister_of_ne h, withHalf_even he]

/-- MH stores its product as DH stores quotient and remainder (R166, R172). -/
theorem exec_mh (hu : Undisturbed s) (h1 : odd (s.ea b1 d1) = false) (h2 : odd (s.ea b2 d2) = false) :
    exec (.mh i b1 d1 b2 d2) s =
      let v := product (s.readHalf (s.ea b1 d1)) (s.readHalf (s.ea b2 d2))
      .next (storeHalves (s.ea b1 d1) (highHalf v) (lowHalf v)
        (.c1Only (productLarge (s.readHalf (s.ea b1 d1)) (s.readHalf (s.ea b2 d2)))) s) := by
  show execMh i b1 d1 b2 d2 s = _
  rw [execMh, withHalfAt_undisturbed hu, withHalf_even h1, withHalf_even h2]
  rfl

end

/-- Settles O31: each register form is the product of two halfwords into a pair, and MH that into two halfwords of memory. -/
theorem multiply : Obligations.Multiply := by
  refine ⟨fun s r1 r2 x2 b2 d2 i2 h15 => ?registers, fun s i b1 d1 b2 d2 hu h1 h2 => ?memory⟩
  case registers =>
    simp only [List.forall_mem_cons, List.not_mem_nil, IsEmpty.forall_iff, implies_true, true_implies, and_true,
      Bool.not_eq_true']
    exact ⟨.of_multiplyRegisters h15 (exec_mr h15), .of_multiplyRegisters h15 (exec_mi h15),
      fun he => .of_multiplyRegisters h15 (exec_m h15 he)⟩
  case memory => exact ⟨_, exec_mh hu h1 h2, storeHalves_spec s 0 _ _ _ _⟩

/-! ## Divide -/

section
variable {ilc : BitVec 2} {v : BitVec 32} {w : Word} {s : State} {store : Word → Word → CcWrite → State → State}

theorem divide_by_zero (h : w = 0) : divide ilc v w s store = raiseProgram ilc .divisionBy0 s := if_pos h

theorem divide_fits (h : w ≠ 0) (hf : fits16 (quotient v w) = true) : divide ilc v w s store =
    .next (store (BitVec.ofInt 16 (quotient v w)) (BitVec.ofInt 16 (remainder v w)) (.c1Only false) s) := by
  rw [divide, if_neg h, hf]
  exact overflowProcedure_stores (.inl rfl)

theorem divide_masked (h : w ≠ 0) (hf : fits16 (quotient v w) = false) (ho : s.overflowMask = false) :
    divide ilc v w s store =
      .next (store (Config.freeWord s.freeCount) (Config.freeWord (s.freeCount + 1)) (.c1Only true) (s.consume 2)) := by
  rw [divide, if_neg h, hf]
  exact overflowProcedure_stores (.inr ho)

theorem divide_traps (h : w ≠ 0) (hf : fits16 (quotient v w) = false) (ho : s.overflowMask = true) :
    divide ilc v w s store = raiseProgram ilc .arithmeticOverflow (s.setCc (.c1Only true)) := by
  rw [divide, if_neg h, hf]
  exact overflowProcedure_traps rfl ho

end

/-- The four outcomes of a divide (R167), by what its store of quotient and remainder leaves: of a quotient that fits, and of
free values where the overflow is masked. -/
theorem divide_spec {i : Instr} {s : State} {ilc : BitVec 2} {v : BitVec 32} {w : Word}
    {store : Word → Word → CcWrite → State → State} {Exact Lost : State → Prop} (h : exec i s = divide ilc v w s store)
    (exactly : Exact (store (BitVec.ofInt 16 (quotient v w)) (BitVec.ofInt 16 (remainder v w)) (.c1Only false) s))
    (lost : ∀ q r, Lost (store q r (.c1Only true) (s.consume 2))) :
    let n := v.toInt
    let d := w.toInt
    (d = 0 → Traps i s ilc .divisionBy0) ∧
      (d ≠ 0 → fits16 (n.tdiv d) = true → Completes i s Exact) ∧
      (d ≠ 0 → fits16 (n.tdiv d) = false → s.overflowMask = false → Completes i s Lost) ∧
      (d ≠ 0 → fits16 (n.tdiv d) = false → s.overflowMask = true →
        Completes i s fun t => Interrupted (s.setCc (.c1Only true)) t .program ilc 0x08) := by
  intro n d
  have nonzero (hd : d ≠ 0) : w ≠ 0 := fun hw => hd (congrArg BitVec.toInt hw)
  refine ⟨fun hd => ?zero, fun hd hf => ?fits, fun hd hf ho => ?masked, fun hd hf ho => ?traps⟩
  case zero =>
    have hw : w = 0 := BitVec.eq_of_toInt_eq hd
    exact .of_programInterrupt (h.trans (divide_by_zero hw))
  case fits => exact ⟨_, h.trans (divide_fits (nonzero hd) hf), exactly⟩
  case masked => exact ⟨_, h.trans (divide_masked (nonzero hd) hf ho), lost _ _⟩
  case traps => exact ⟨_, h.trans (divide_traps (nonzero hd) hf ho), .synchronousInterrupt _ .program ilc 0x08⟩

section
variable {s : State} {r1 r2 x2 b1 b2 : Reg} {d1 d2 : Disp} {i2 : Word} {i : Byte}

theorem exec_dr (h : r1 ≠ 15) : exec (.dr r1 r2) s = divide 1 (s.pairAt r1) (s.reg r2) s (storePair r1) :=
  pairRegister_of_ne h

theorem exec_di (h : r1 ≠ 15) (h' : r2 ≠ 15) :
    exec (.di r1 r2 i2) s = divide 2 (s.pairAt r2) i2 s (storePair r1) :=
  (pairRegister_of_ne h).trans (pairRegister_of_ne h')

theorem exec_d (h : r1 ≠ 15) (he : odd (s.eaRX x2 b2 d2) = false) : exec (.d r1 x2 b2 d2) s =
    divide 2 (s.pairAt r1) (s.readHalf (s.eaRX x2 b2 d2)) s (storePair r1) := by
  show execD r1 x2 b2 d2 s = _
  rw [execD, pairRegister_of_ne h, withHalf_even he]

theorem exec_dh (hu : Undisturbed s) (h1 : odd (s.ea b1 d1) = false) (h2 : odd (s.ea b2 d2) = false) :
    exec (.dh i b1 d1 b2 d2) s =
      divide 3 (pair (s.readHalf (s.ea b1 d1)) (s.readHalf (s.ea b1 d1 + 2))) (s.readHalf (s.ea b2 d2)) s
        (storeHalves (s.ea b1 d1)) := by
  show execDh i b1 d1 b2 d2 s = _
  rw [execDh, withHalfAt_undisturbed hu, withHalf_even h1, withHalf_even h2, hu.seenAt]

end

/-- Of a pair that an overflow leaves unspecified, C1 and the frame are still known (R167). -/
theorem storePair_lost (s : State) {r : Reg} (hr : r ≠ 15) (hi lo : Word) :
    let t := storePair r hi lo (.c1Only true) (s.consume 2)
    (r ≠ 0 → t.c1 = true) ∧ Frame s t [r, r + 1] [1] noByte := by
  obtain ⟨-, -, flag, frame⟩ := storePair_spec s 2 hr hi lo true
  exact ⟨fun h0 => flag.resolve_right fun h => h0 h.1, frame⟩

/-- The same of two halfwords of memory. -/
theorem storeHalves_lost (s : State) (e hi lo : Word) : let t := storeHalves e hi lo (.c1Only true) (s.consume 2)
    t.c1 = true ∧ Frame s t [] [1] (Touched e 4) := by
  obtain ⟨-, -, flag, frame⟩ := storeHalves_spec s 2 e hi lo true
  exact ⟨flag, frame⟩

/-- Settles O32: each register form is a divide into a pair, and DH one into two halfwords of memory. -/
theorem MulDiv.divide : Obligations.Divide := by
  refine ⟨fun s r1 r2 x2 b2 d2 i2 h15 => ?registers, fun s i b1 d1 b2 d2 hu h1 h2 => ?memory⟩
  case registers =>
    simp only [List.forall_mem_cons, List.not_mem_nil, IsEmpty.forall_iff, implies_true, true_implies, and_true,
      Bool.not_eq_true', decide_eq_true_eq]
    exact ⟨divide_spec (exec_dr h15) (storePair_spec s 0 h15 _ _ _) (storePair_lost s h15),
      fun h15' => divide_spec (exec_di h15 h15') (storePair_spec s 0 h15 _ _ _) (storePair_lost s h15),
      fun he => divide_spec (exec_d h15 he) (storePair_spec s 0 h15 _ _ _) (storePair_lost s h15)⟩
  case memory =>
    exact divide_spec (exec_dh hu h1 h2) (storeHalves_spec s 0 _ _ _ _) (storeHalves_lost s _)

end Sys2Proof.Machine
end

section
/-! PROOFS. Convert to binary and convert to decimal. -/

namespace Sys2Proof.Machine

/-! ## Convert to binary -/

/-- CVB's scan of blanks, perhaps a minus sign, digits and a byte that ends them, where no unit stores among its reads (R174). -/
theorem scanNumber_eq {s : State} (hu : Undisturbed s) {p : Word} {blanks : Nat} {neg : Bool} {ds : List Nat}
    (hb : blanks < 65536) (hl : ds.length < 65536) :
    let q := p + BitVec.ofNat 16 blanks
    let f := if neg then q + 1 else q
    let stop := f + BitVec.ofNat 16 ds.length
    (∀ k, k < blanks → s.byteAt (p + BitVec.ofNat 16 k) = 0x40) → s.byteAt q ≠ 0x40 → (neg = true ↔ s.byteAt q = 0x60) →
    (∀ k, (h : k < ds.length) → ds[k] < 10 ∧ s.byteAt (f + BitVec.ofNat 16 k) = BitVec.ofNat 8 (0xF0 + ds[k])) →
    (s.byteAt stop).toNat < 0xF0 ∨ 0xFA ≤ (s.byteAt stop).toNat →
    scanNumber s p = some (neg, ⟨stop, ds.foldl (fun n d => n * 10 + d) 0, ds.length⟩) := by
  intro q f stop blank nonblank sign digits ending
  have bound : 65536 ≤ scanBound s := Nat.le_add_left _ _
  have signed (i : Nat) : ((s.seenAt i).byteAt q == Config.chMinus) = neg := by
    rw [hu.seenAt, Bool.eq_iff_iff, beq_iff_eq]; exact sign.symm
  rw [scanNumber, skipBlanks_eq s hu 0 blanks (scanBound s) p (by omega) blank nonblank]
  dsimp only
  rw [signed, scanDigits_eq s hu _ ds (scanBound s) f 0 0 (by omega) digits ending, Nat.zero_add]
  rfl

/-- Each of the three bits of a write of all three. -/
theorem CcWrite.all_bit0 (a b c : Bool) (m : Word) : ((CcWrite.all a b c).apply m).getMsbD 0 = a := by
  rw [CcWrite.getMsbD_apply]; rfl

theorem CcWrite.all_bit1 (a b c : Bool) (m : Word) : ((CcWrite.all a b c).apply m).getMsbD 1 = b := by
  rw [CcWrite.getMsbD_apply]; rfl

theorem CcWrite.all_bit2 (a b c : Bool) (m : Word) : ((CcWrite.all a b c).apply m).getMsbD 2 = c := by
  rw [CcWrite.getMsbD_apply]; rfl

/-- The address in register 2, a result in R1 and all three condition-code bits: R1 of 0 leaves the bits open (U2), R1 of 2 the
address (U8). -/
theorem State.writeConverted_spec (s : State) (r : Reg) (stop v : Word) (a b c : Bool) :
    let t := (s.consume 1).writeWithCc [(2, stop), (r, v)] (.all a b c)
    (r ≠ 0 → Condition t a b c) ∧ (r ≠ 2 → t.stored 2 = stop) ∧ Frame s t [2, r] [0, 1, 2] noByte := by
  refine ⟨fun h0 => ?_, fun h2 => ?_, ?_⟩
  · have others : ∀ w ∈ [((2 : Reg), stop), (r, v)], w.1 ≠ 0 := by simpa using h0
    have written := ((s.consume 1).msr_writeWithCc [(2, stop), (r, v)] (.all a b c)).1 others
    exact ⟨by rw [State.c0, written, CcWrite.all_bit0], by rw [State.c1, written, CcWrite.all_bit1],
      by rw [State.c2, written, CcWrite.all_bit2]⟩
  · rw [State.stored_writeWithCc _ _ _ _ (by decide)]
    exact (State.stored_setReg_ne _ v h2.symm).trans (State.stored_setReg_self _ 2 stop)
  · exact ((Frame.consume s 1).trans (.writeWithCc _ [(2, stop), (r, v)] _ [2, r] [0, 1, 2] (by simp) (.inr (by simp))
      (.inr (by simp)) (.inr (by simp)))).mono (by simp) (by simp) fun _ h => h.elim id id

/-- The number in R1, whatever the three bits do to register 0 (U2). -/
theorem holds_writeConverted (s : State) {r : Reg} (stop : Word) {v u : Word} (c : CcWrite) (hv : v = u) :
    Holds (s.writeWithCc [(2, stop), (r, v)] c) r u [0, 1, 2] :=
  holds_writeWithCc s _ c r u [0, 1, 2] ((State.stored_setReg_self _ r v).trans hv) (fun h => ⟨(r, v), by simp, h⟩)
    (.inr (by simp)) (.inr (by simp)) (.inr (by simp))

/-- A bit of a conversion that found a number, which goes to R1 of 0 whole. -/
theorem flag_writeConverted (s : State) {r : Reg} (stop : Word) {v u : Word} (c : CcWrite) (n : Nat) (b : Bool)
    (hv : r = 0 → v = u) (hc : ∀ m : Word, (c.apply m).getMsbD n = b) : Flag (s.writeWithCc [(2, stop), (r, v)] c) n b r u := by
  refine flag_writeWithCc s _ c n b r u hc ?_
  by_cases h0 : r = 0
  · subst h0
    exact .inr ⟨rfl, (State.msr_setReg_zero _ v).trans (hv rfl)⟩
  · exact .inl (by simpa using h0)

section
variable {r1 : Reg} {neg : Bool} {f : Scanned} {s : State}

theorem convertFound_noDigit (h : f.digits = 0) : convertFound r1 neg f s =
    .next ((s.consume 1).writeWithCc [(2, f.stop), (r1, Config.freeWord s.freeCount)] (.all true false false)) :=
  if_pos h

theorem convertFound_fits (h : f.digits ≠ 0) (hf : fits16 (signedValue neg f.value) = true) : convertFound r1 neg f s =
    .next ((s.consume 1).writeWithCc
      [(2, f.stop), (r1, if r1 = 2 then Config.freeWord s.freeCount else BitVec.ofInt 16 (signedValue neg f.value))]
      (.all false false true)) :=
  (if_neg h).trans (if_pos hf)

theorem convertFound_masked (h : f.digits ≠ 0) (hf : fits16 (signedValue neg f.value) = false) (ho : s.overflowMask = false) :
    convertFound r1 neg f s =
      .next ((s.consume 1).writeWithCc [(2, f.stop), (r1, Config.freeWord s.freeCount)] (.all false true false)) := by
  simp [convertFound, h, hf, ho]

theorem convertFound_traps (h : f.digits ≠ 0) (hf : fits16 (signedValue neg f.value) = false) (ho : s.overflowMask = true) :
    convertFound r1 neg f s = raiseProgram 2 .conversionOverflow ((s.setReg 2 f.stop).setCc (.all false true false)) := by
  simp [convertFound, h, hf, ho]

end

theorem exec_cvb {s : State} {r1 x2 b2 : Reg} {d2 : Disp} {neg : Bool} {f : Scanned}
    (h : scanNumber s (s.eaRX x2 b2 d2) = some (neg, f)) : exec (.cvb r1 x2 b2 d2) s = convertFound r1 neg f s := by
  show execCvb r1 x2 b2 d2 s = _
  rw [execCvb, h]

/-- Settles O33: the scan finds the string, and what was found is converted, by its four outcomes. -/
theorem convertToBinary : Obligations.ConvertToBinary := by
  intro s r1 x2 b2 d2 blanks neg ds q f stop m v hu hb hl blank nonblank sign digits ending
  have found : exec (.cvb r1 x2 b2 d2) s = convertFound r1 neg ⟨stop, m, ds.length⟩ s :=
    exec_cvb (scanNumber_eq hu hb hl blank nonblank sign digits ending)
  have some_digit (h : ds ≠ []) : ds.length ≠ 0 := mt List.length_eq_zero_iff.1 h
  refine ⟨fun h => ?noDigit, fun h hf => ?fits, fun h hf ho => ?masked, fun h hf ho => ?traps⟩
  case noDigit =>
    exact ⟨_, found.trans (convertFound_noDigit (List.length_eq_zero_iff.2 h)), s.writeConverted_spec r1 stop _ _ _ _⟩
  case fits =>
    have number (h2 : r1 ≠ 2) (free : Word) : (if r1 = 2 then free else BitVec.ofInt 16 v) = BitVec.ofInt 16 v := if_neg h2
    have zero (h0 : r1 = 0) : r1 ≠ 2 := h0 ▸ by decide
    obtain ⟨-, address, frame⟩ := s.writeConverted_spec r1 stop
      (if r1 = 2 then Config.freeWord s.freeCount else BitVec.ofInt 16 v) false false true
    refine ⟨_, found.trans (convertFound_fits (some_digit h) hf), ?_, ?_, ?_, fun h2 => ⟨?_, address h2⟩, frame⟩
    · exact flag_writeConverted _ _ _ 0 false (fun h0 => number (zero h0) _) (CcWrite.all_bit0 _ _ _)
    · exact flag_writeConverted _ _ _ 1 false (fun h0 => number (zero h0) _) (CcWrite.all_bit1 _ _ _)
    · exact flag_writeConverted _ _ _ 2 true (fun h0 => number (zero h0) _) (CcWrite.all_bit2 _ _ _)
    · exact holds_writeConverted _ _ _ (number h2 _)
  case masked =>
    exact ⟨_, found.trans (convertFound_masked (some_digit h) hf ho), s.writeConverted_spec r1 stop _ _ _ _⟩
  case traps =>
    exact ⟨_, found.trans (convertFound_traps (some_digit h) hf ho), .synchronousInterrupt _ .program 2 0x0A⟩

/-! ## Convert to decimal -/

/-- The digits CVD writes of a number below 100000, as numbers. -/
def significantDigits (m : Nat) : List Nat :=
  [m / 10000 % 10, m / 1000 % 10, m / 100 % 10, m / 10 % 10].dropWhile (fun d => d == 0) ++ [m % 10]

theorem decimalDigits_eq (m : Nat) : decimalDigits m = (significantDigits m).map fun d => BitVec.ofNat 8 (0xF0 + d) := rfl

theorem significantDigits_lt_ten {m d : Nat} (h : d ∈ significantDigits m) : d < 10 := by
  rcases List.mem_append.1 h with h | h
  · have := (List.dropWhile_sublist _).subset h
    simp only [List.mem_cons, List.not_mem_nil, or_false] at this
    omega
  · rw [List.mem_singleton.1 h]; omega

theorem length_significantDigits_le (m : Nat) : (significantDigits m).length ≤ 5 := by
  rw [significantDigits, List.length_append]
  exact Nat.add_le_add_right (List.dropWhile_sublist _).length_le 1

/-- No zero leads, but the digit of 0 itself. -/
theorem significantDigits_of_head?_zero {m : Nat} (h : (significantDigits m).head? = some 0) : significantDigits m = [0] := by
  unfold significantDigits at h ⊢
  generalize [m / 10000 % 10, m / 1000 % 10, m / 100 % 10, m / 10 % 10] = l at h ⊢
  cases hd : l.dropWhile (fun d => d == 0) with
  | nil => simpa [hd] using h
  | cons d _ =>
    have leading := List.head?_dropWhile_not (fun d : Nat => d == 0) l
    simp only [hd, List.head?_cons, List.cons_append, Option.some.injEq] at h leading
    simp [h] at leading

/-- Leading zeros add nothing to a number. -/
theorem foldl_dropWhile_zero (l : List Nat) :
    (l.dropWhile fun d => d == 0).foldl (fun n d => n * 10 + d) 0 = l.foldl (fun n d => n * 10 + d) 0 := by
  induction l with
  | nil => rfl
  | cons d l ih =>
    by_cases h : d = 0
    · simpa [h] using ih
    · simp [h]

theorem foldl_significantDigits {m : Nat} (h : m < 100000) :
    (significantDigits m).foldl (fun n d => n * 10 + d) 0 = m := by
  rw [significantDigits, List.foldl_append, foldl_dropWhile_zero]
  simp only [List.foldl_cons, List.foldl_nil]
  omega

theorem length_decimalString_le (v : Word) : (decimalString v).length ≤ 6 := by
  have digits := length_significantDigits_le v.toInt.natAbs
  rw [decimalString, decimalDigits_eq, List.length_append, List.length_map]
  split
  · exact Nat.add_le_add_left digits 1
  · simp only [List.length_nil]; omega

theorem length_decimalField (v : Word) : (decimalField v).length = 6 := by
  have := length_decimalString_le v
  rw [decimalField, List.length_append, List.length_replicate]
  omega

/-- A store of bytes leaves them where it stores them. -/
theorem State.bytesAt_writeBytes (s : State) (e : Word) (bs : List Byte) : BytesAt (s.writeBytes e bs) e bs :=
  fun k hk hl => s.byteAt_writeBytes_inside e bs k hk hl

theorem BytesAt.setReg {s : State} {e : Word} {bs : List Byte} (h : BytesAt s e bs) (r : Reg) (v : Word) :
    BytesAt (s.setReg r v) e bs :=
  fun k hk hl => (s.byteAt_setReg r v _).trans (h k hk hl)

/-- Settles O34: the digits are the significant digits of the number's magnitude, which is at most 32768. -/
theorem convertToDecimal : Obligations.ConvertToDecimal := by
  intro s r1 x2 b2 d2 e
  have bounds := toInt_bounds (s.reg r1)
  have stored := Frame.writeBytes s e (decimalField (s.reg r1))
  rw [length_decimalField] at stored
  refine ⟨_, rfl, significantDigits (s.reg r1).toInt.natAbs, by simp [significantDigits], fun _ => significantDigits_lt_ten,
    significantDigits_of_head?_zero, foldl_significantDigits (by omega), length_decimalString_le (s.reg r1), ?bytes, ?address,
    ?length, ?frame⟩
  case bytes => exact ((s.bytesAt_writeBytes e (decimalField (s.reg r1))).setReg 2 _).setReg 3 _
  case address => exact (State.stored_setReg_ne _ _ (by decide)).trans (State.stored_setReg_self _ 2 _)
  case length => exact State.stored_setReg_self _ 3 _
  case frame =>
    exact ((stored.trans (.setReg _ 2 _)).trans (.setReg _ 3 _)).mono (by simp) (by simp)
      fun _ h => h.elim (·.elim id False.elim) False.elim

end Sys2Proof.Machine
end

section
/-! PROOFS. Stores and moves of a halfword and of a byte. -/

namespace Sys2Proof.Machine

/-- A halfword store behind the check of its address completes where the address is even (R52). -/
theorem HalfStored.of_aligned {i : Instr} {s : State} {ilc : BitVec 2} {e v : Word} (he : odd e = false)
    (h : exec i s = aligned ilc e s (.next (s.writeHalf e v))) : HalfStored i s e v :=
  .of_writeHalf (h.trans (aligned_even he))

/-- STD's address is the pointer read at an even address (R185). -/
theorem exec_std {s : State} {r1 x2 b2 : Reg} {d2 : Disp} (h : odd (s.eaRX x2 b2 d2) = false) :
    exec (.std r1 x2 b2 d2) s = aligned 2 (s.readHalf (s.eaRX x2 b2 d2)) s
      (.next (s.writeHalf (s.readHalf (s.eaRX x2 b2 d2)) (s.reg r1))) := by
  show execStd r1 x2 b2 d2 s = _
  rw [execStd, withHalf_even h]

/-- MVH stores the halfword at an even second address, behind the check of the first (R190). -/
theorem exec_mvh {s : State} {i : Byte} {b1 b2 : Reg} {d1 d2 : Disp} (h : odd (s.ea b2 d2) = false) :
    exec (.mvh i b1 d1 b2 d2) s =
      aligned 3 (s.ea b1 d1) s (.next (s.writeHalf (s.ea b1 d1) (s.readHalf (s.ea b2 d2)))) := by
  show execMvh i b1 d1 b2 d2 s = _
  rw [execMvh, withHalf_even h]

/-- A byte store is the store of a field of one byte. -/
theorem BytesStored.of_setByte {i : Instr} {s : State} {e : Word} {b : Byte} (h : exec i s = .next (s.setByte e b)) :
    BytesStored i s e [b] :=
  .of_writeBytes h

/-- Settles O24: past the alignment checks each instruction is one halfword store, of a word computed from registers, fields or
the halfword read; the two byte instructions are one byte store with no check. -/
theorem storesAndMoves : Obligations.StoresAndMoves := by
  intro s r1 r2 x2 b1 b2 d1 d2 i2 i e
  refine ⟨?stdr, ?stdi, ?st, ?std, ?mvhi, ?mvh, ?mva, ?stb, ?mvbi⟩
  case stdr => exact fun h => .of_aligned h rfl
  case stdi => exact fun h => .of_aligned h rfl
  case st => exact fun h => .of_aligned h rfl
  case std => exact fun he hp => .of_aligned hp (exec_std he)
  case mvhi => exact fun h => .of_aligned h rfl
  case mvh => exact fun h1 h2 => .of_aligned h1 (exec_mvh h2)
  case mva => exact fun h => .of_aligned h rfl
  case stb => exact .of_setByte rfl
  case mvbi => exact .of_setByte rfl

end Sys2Proof.Machine
end

section
/-! PROOFS. The algebraic and the logical shifts, and SD. -/

namespace Sys2Proof.Machine

/-! ## Counts, and the last bit shifted out -/

/-- A shift count is the address modulo 32 (R201). -/
theorem State.rsCount_eq (s : State) (b2 : Reg) (d2 : Disp) : s.rsCount b2 d2 = (s.ea b2 d2).toNat % 32 := by
  simp [State.rsCount, BitVec.extractLsb'_toNat]

/-- C2 is free only where the count is 0 (U9). -/
theorem shiftedOut_of_pos {out : Option Bool} {n : Nat} {b : Bool} (s : State) (h : out = if n = 0 then none else some b)
    (hn : 0 < n) : shiftedOut out s = b := by
  rw [h, if_neg hn.ne']
  rfl

/-! ## Frames and pairs of results -/

/-- The frame of a result and condition code. -/
theorem frame_result (s : State) (k : Nat) (r : Reg) (v : Word) (c : CcWrite) (bits : List Nat) (h0 : c.c0 = none ∨ 0 ∈ bits)
    (h1 : c.c1 = none ∨ 1 ∈ bits) (h2 : c.c2 = none ∨ 2 ∈ bits) : Frame s ((s.consume k).result r v c) [r] bits noByte :=
  ((Frame.consume s k).trans (.writeWithCc _ [(r, v)] c [r] bits (by simp) h0 h1 h2)).mono (by simp) (by simp)
    fun _ h => h.elim id id

/-- A pair and C2 written, perhaps with free values consumed: what is written, and nothing else. -/
theorem doubleResult_c2Only_spec (s : State) (k : Nat) {r : Reg} (hr : r ≠ 15) (v : BitVec 32) (b : Bool) :
    let t := (s.consume k).writeWithCc (doubleResult r v) (.c2Only b)
    Holds t r (highHalf v) [2] ∧ t.stored (r + 1) = lowHalf v ∧ Flag t 2 b r (highHalf v) ∧
      Frame s t [r, r + 1] [2] noByte :=
  ⟨holds_pair _ r _ _ _ [2] (.inl rfl) (.inl rfl) (.inr (by simp)), stored_pair _ r _ _ _ hr,
    flag_pair _ r _ _ _ 2 b hr (CcWrite.c2Only_bit b), frame_pair s k r _ _ _ [2] (.inl rfl) (.inl rfl) (.inr (by simp))⟩

/-! ## Left algebraic shifts -/

/-- Whether a bit unlike the sign leaves bit position 1 within `n` shifts: the overflow (R197). -/
def losesSignificance {w : Nat} (v : BitVec w) (n : Nat) : Bool :=
  (List.range n).any fun k => v.getMsbD (k + 1) != v.msb

section
variable {w : Nat} (hw : 0 < w) (v : BitVec w) (n : Nat)
include hw

theorem shiftLeftAlgebraic_overflow : (shiftLeftAlgebraic (unshifted v) n).overflow = losesSignificance v n :=
  (shiftLeftAlgebraic_spec hw (unshifted v) n).2.1

theorem shiftLeftAlgebraic_out :
    (shiftLeftAlgebraic (unshifted v) n).out = if n = 0 then none else some (v.getMsbD n) :=
  (shiftLeftAlgebraic_spec hw (unshifted v) n).2.2

end

/-- No shift, no overflow. -/
theorem pos_of_losesSignificance {w : Nat} {v : BitVec w} {n : Nat} (h : losesSignificance v n = true) : 0 < n := by
  obtain ⟨k, hk, -⟩ := List.any_eq_true.1 h
  exact Nat.zero_lt_of_lt (List.mem_range.1 hk)

/-- Free values consumed before an interrupt make no difference to what it leaves. -/
theorem Interrupted.of_consume {s t : State} {k : Nat} {cc : CcWrite} {c : InterruptClass} {ilc : BitVec 2} {code : Word}
    (h : Interrupted ((s.consume k).setCc cc) t c ilc code) : Interrupted (s.setCc cc) t c ilc code := h

/-- The two outcomes of a left algebraic shift (R197), by what its results and condition code leave where they are stored. -/
theorem finishLeftAlgebraic_spec {i : Instr} {s : State} {w n : Nat} {ilc : BitVec 2} {ws : BitVec w → List (Reg × Word)}
    {v : BitVec w} {Stored : State → Prop} (hw : 0 < w)
    (h : exec i s = finishLeftAlgebraic ilc ws (shiftLeftAlgebraic (unshifted v) n) s)
    (stored : ∀ c2, (0 < n → c2 = v.getMsbD n) → Stored ((s.consume 1).writeWithCc
      (ws (shiftLeftAlgebraic (unshifted v) n).value) (.c1c2 (losesSignificance v n) c2))) :
    (losesSignificance v n = false ∨ s.overflowMask = false → Completes i s Stored) ∧
      (losesSignificance v n = true → s.overflowMask = true →
        Completes i s fun t => Interrupted (s.setCc (.c1c2 true (v.getMsbD n))) t .program ilc 0x08) := by
  have last := shiftedOut_of_pos s (shiftLeftAlgebraic_out hw v n)
  rw [finishLeftAlgebraic, shiftLeftAlgebraic_overflow hw] at h
  refine ⟨fun hs => ?stores, fun hl ho => ?traps⟩
  case stores => exact ⟨_, h.trans (overflowProcedure_stores hs), stored _ last⟩
  case traps =>
    rw [last (pos_of_losesSignificance hl), hl] at h
    exact ⟨_, h.trans (overflowProcedure_traps rfl ho), .of_consume (.synchronousInterrupt _ .program ilc 0x08)⟩

/-- What a left algebraic shift leaves in a register and the condition code (R202, R203). -/
theorem singleLeftAlgebraic_stored (s : State) (r : Reg) (v : Word) (n : Nat) (c2 : Bool) (last : 0 < n → c2 = v.getMsbD n) :
    let u := ((v <<< n) &&& 0x7FFF) ||| (v &&& 0x8000)
    let t := (s.consume 1).writeWithCc (singleResult r (shiftLeftAlgebraic (unshifted v) n).value)
      (.c1c2 (losesSignificance v n) c2)
    Holds t r u [1, 2] ∧ Flag t 1 (losesSignificance v n) r u ∧ (0 < n → Flag t 2 (v.getMsbD n) r u) ∧
      Frame s t [r] [1, 2] noByte := by
  rw [shiftLeftAlgebraic_value16]
  refine ⟨?_, flag_result _ r _ _ 1 _ (CcWrite.c1c2_bit1 _ c2), fun hn => ?_, ?_⟩
  · exact holds_result _ r _ _ [1, 2] (.inl rfl) (.inr (by simp)) (.inr (by simp))
  · exact last hn ▸ flag_result _ r _ _ 2 c2 (CcWrite.c1c2_bit2 _ c2)
  · exact frame_result s 1 r _ _ [1, 2] (.inl rfl) (.inr (by simp)) (.inr (by simp))

/-- The same in a pair (R206, R207). -/
theorem doubleLeftAlgebraic_stored (s : State) {r : Reg} (hr : r ≠ 15) (v : BitVec 32) (n : Nat) (c2 : Bool)
    (last : 0 < n → c2 = v.getMsbD n) :
    let u := ((v <<< n) &&& 0x7FFFFFFF) ||| (v &&& 0x80000000)
    let t := (s.consume 1).writeWithCc (doubleResult r (shiftLeftAlgebraic (unshifted v) n).value)
      (.c1c2 (losesSignificance v n) c2)
    Holds t r (highHalf u) [1, 2] ∧ t.stored (r + 1) = lowHalf u ∧ Flag t 1 (losesSignificance v n) r (highHalf u) ∧
      (0 < n → Flag t 2 (v.getMsbD n) r (highHalf u)) ∧ Frame s t [r, r + 1] [1, 2] noByte := by
  rw [shiftLeftAlgebraic_value32]
  refine ⟨?_, stored_pair _ r _ _ _ hr, flag_pair _ r _ _ _ 1 _ hr (CcWrite.c1c2_bit1 _ c2), fun hn => ?_, ?_⟩
  · exact holds_pair _ r _ _ _ [1, 2] (.inl rfl) (.inr (by simp)) (.inr (by simp))
  · exact last hn ▸ flag_pair _ r _ _ _ 2 c2 hr (CcWrite.c1c2_bit2 _ c2)
  · exact frame_pair s 1 r _ _ _ [1, 2] (.inl rfl) (.inr (by simp)) (.inr (by simp))

/-- Settles O35: each instruction is a left algebraic shift of a register or of a pair, by a digit or by an address. -/
theorem leftAlgebraicShifts : Obligations.LeftAlgebraicShifts := by
  unfold Obligations.LeftAlgebraicShifts
  simp only [← State.rsCount_eq, List.forall_mem_cons, List.not_mem_nil, IsEmpty.forall_iff, implies_true, and_true]
  refine ⟨fun s r1 r2 r3 b2 d2 => ⟨?slai, ?sla⟩, fun s r1 r2 r3 b2 d2 h15 => ⟨?sldai, ?slda⟩⟩
  case slai => exact finishLeftAlgebraic_spec (by decide) rfl (singleLeftAlgebraic_stored s r1 _ _)
  case sla => exact finishLeftAlgebraic_spec (by decide) rfl (singleLeftAlgebraic_stored s r1 _ _)
  case sldai =>
    exact finishLeftAlgebraic_spec (by decide) (pairRegister_of_ne h15) (doubleLeftAlgebraic_stored s h15 _ _)
  case slda =>
    exact finishLeftAlgebraic_spec (by decide) (pairRegister_of_ne h15) (doubleLeftAlgebraic_stored s h15 _ _)

/-! ## The other shifts -/

/-- A right algebraic or a logical shift of a register, by what the shift leaves (R198, R301). -/
theorem Completes.of_finishShift_single {i : Instr} {s : State} {r : Reg} {n : Nat} {f : Shifted 16} {u : Word} {b : Bool}
    (h : exec i s = finishShift (singleResult r) f s) (spec : f.value = u ∧ f.out = if n = 0 then none else some b) :
    Completes i s fun t => Holds t r u [2] ∧ (0 < n → Flag t 2 b r u) ∧ Frame s t [r] [2] noByte := by
  obtain ⟨rfl, out⟩ := spec
  refine ⟨_, h, ?_, fun hn => ?_, ?_⟩
  · exact holds_result _ r _ _ [2] (.inl rfl) (.inl rfl) (.inr (by simp))
  · exact shiftedOut_of_pos s out hn ▸ flag_result _ r _ _ 2 _ (CcWrite.c2Only_bit _)
  · exact frame_result s 1 r _ _ [2] (.inl rfl) (.inl rfl) (.inr (by simp))

/-- The same of a pair. -/
theorem Completes.of_finishShift_double {i : Instr} {s : State} {r : Reg} {n : Nat} {f : Shifted 32} {u : BitVec 32} {b : Bool}
    (hr : r ≠ 15) (h : exec i s = finishShift (doubleResult r) f s)
    (spec : f.value = u ∧ f.out = if n = 0 then none else some b) :
    Completes i s fun t => Holds t r (highHalf u) [2] ∧ t.stored (r + 1) = lowHalf u ∧
      (0 < n → Flag t 2 b r (highHalf u)) ∧ Frame s t [r, r + 1] [2] noByte := by
  obtain ⟨rfl, out⟩ := spec
  obtain ⟨holds, low, flag, frame⟩ := doubleResult_c2Only_spec s 1 hr f.value (shiftedOut f.out s)
  exact ⟨_, h, holds, low, fun hn => shiftedOut_of_pos s out hn ▸ flag, frame⟩

/-- SD extends the sign into the pair, and C2 is the sign of what the second register held (R213). -/
theorem FlaggedPair.sd (s : State) {r1 : Reg} (r2 : Reg) (h15 : r1 ≠ 15) :
    FlaggedPair (.sd r1 r2) s r1 ((s.reg r1).signExtend 32) 2 (s.reg (r1 + 1)).msb :=
  ⟨_, pairRegister_of_ne h15, doubleResult_c2Only_spec s 0 h15 _ _⟩

/-- Settles O36: each instruction but SD is a shift of a register or of a pair, by a digit or by an address. -/
theorem otherShifts : Obligations.OtherShifts := by
  unfold Obligations.OtherShifts
  simp only [← State.rsCount_eq, List.forall_mem_cons, List.not_mem_nil, IsEmpty.forall_iff, implies_true, and_true]
  refine ⟨fun s r1 r2 r3 b2 d2 => ⟨?srai, ?sra, ?slli, ?sll, ?srli, ?srl⟩,
    fun s r1 r2 r3 b2 d2 h15 => ⟨?srdai, ?srda, ?sldli, ?sldl, ?srdli, ?srdl⟩, fun s r1 r2 h15 => .sd s r2 h15⟩
  case srai | sra => exact .of_finishShift_single rfl (shiftRightAlgebraic_spec _ _)
  case slli | sll => exact .of_finishShift_single rfl (shiftLeftLogical_spec _ _)
  case srli | srl => exact .of_finishShift_single rfl (shiftRightLogical_spec _ _)
  case srdai | srda => exact .of_finishShift_double h15 (pairRegister_of_ne h15) (shiftRightAlgebraic_spec _ _)
  case sldli | sldl => exact .of_finishShift_double h15 (pairRegister_of_ne h15) (shiftLeftLogical_spec _ _)
  case srdli | srdl => exact .of_finishShift_double h15 (pairRegister_of_ne h15) (shiftRightLogical_spec _ _)

end Sys2Proof.Machine
end

section
/-! PROOFS. Logical compare, the Boolean operations into a register or a byte, test under mask, and TSL. -/

namespace Sys2Proof.Machine

/-! ## Logical compare -/

/-- A logical comparison writes the three bits of the unsigned order and nothing else (R216). -/
theorem Compared.of_compareLogical {i : Instr} {s : State} {w : Nat} {a b : BitVec w}
    (h : exec i s = .next (s.setCc (compareLogical a b))) :
    Compared i s (decide (a.toNat = b.toNat)) (decide (b.toNat < a.toNat)) (decide (a.toNat < b.toNat)) :=
  .of_setCc (h.trans (by rw [compareLogical_eq]))

theorem toNat_lowByte (v : Word) : (lowByte v).toNat = v.toNat % 256 := by
  simp [lowByte, BitVec.extractLsb'_toNat]

theorem exec_cl {s : State} {r1 x2 b2 : Reg} {d2 : Disp} (h : odd (s.eaRX x2 b2 d2) = false) : exec (.cl r1 x2 b2 d2) s =
    .next (s.setCc (compareLogical (s.reg r1) (s.readHalf (s.eaRX x2 b2 d2)))) := by
  show execCl r1 x2 b2 d2 s = _
  rw [execCl, withHalf_even h]

/-- CLH's first read sees memory as it is where no unit stores before the second (R222, log 50). -/
theorem exec_clh {s : State} {i : Byte} {b1 b2 : Reg} {d1 d2 : Disp} (hu : Undisturbed s) (h1 : odd (s.ea b1 d1) = false)
    (h2 : odd (s.ea b2 d2) = false) : exec (.clh i b1 d1 b2 d2) s =
      .next (s.setCc (compareLogical (s.readHalf (s.ea b1 d1)) (s.readHalf (s.ea b2 d2)))) := by
  show execClh i b1 d1 b2 d2 s = _
  rw [execClh, withHalfAt_undisturbed hu, withHalf_even h1, withHalf_even h2]

/-- Settles O29: each of these instructions is the logical comparison of two halfwords or of two bytes; halfwords in memory
stand at even addresses, and no unit stores between CLH's two reads. -/
theorem logicalCompare : Obligations.LogicalCompare := by
  intro s r1 r2 x2 b1 b2 d1 d2 i2 i
  simp only [List.forall_mem_cons, List.not_mem_nil, IsEmpty.forall_iff, implies_true, true_implies, and_true, Bool.and_eq_true,
    Bool.not_eq_true', ← toNat_lowByte]
  refine ⟨?clr, ?cli, ?cl, ?clb, ?clbi, ?clh⟩
  case clr => exact fun _ => .of_compareLogical rfl
  case cli => exact fun _ => .of_compareLogical rfl
  case cl => exact fun he _ => .of_compareLogical (exec_cl he)
  case clb => exact fun _ => .of_compareLogical rfl
  case clbi => exact fun _ => .of_compareLogical rfl
  case clh => exact fun ⟨h1, h2⟩ hu => .of_compareLogical (exec_clh hu h1 h2)

/-! ## AND, OR and exclusive OR -/

/-- A Boolean operation into a register writes its result, and in C0 whether that is all zeros (R240). -/
theorem FlaggedResult.of_booleanToRegister {i : Instr} {s : State} {r : Reg} {a b : Word} (op : Word → Word → Word)
    (h : exec i s = booleanToRegister op r a b s) : FlaggedResult i s r (op a b) 0 (op a b == 0) :=
  .of_result (k := 0) h (CcWrite.c0Only_bit _) (.inr rfl) (.inl rfl) (.inl rfl)

/-- The same where the second operand is the halfword at an even address. -/
theorem FlaggedResult.of_withHalf_booleanToRegister {i : Instr} {s : State} {ilc : BitVec 2} {a : Word} {r : Reg} {v : Word}
    (op : Word → Word → Word) (he : odd a = false)
    (h : exec i s = withHalf ilc a s fun m => booleanToRegister op r v m s) :
    FlaggedResult i s r (op v (s.readHalf a)) 0 (op v (s.readHalf a) == 0) :=
  .of_booleanToRegister op (h.trans (withHalf_even he))

/-- A byte store after a condition-code write changes what the two change. -/
theorem Frame.trans_setByte {s t : State} {bits : List Nat} (h : Frame s t [] bits noByte) (a : Word) (b : Byte) :
    Frame s (t.setByte a b) [] bits (Touched a 1) :=
  (h.trans (.setByte t a b)).mono (by simp) (by simp) fun _ h => h.elim False.elim id

theorem State.byteAt_setByte_self (s : State) (a : Word) (b : Byte) : (s.setByte a b).byteAt a = b := by
  rw [State.byteAt_setByte, if_pos rfl]

/-- A Boolean operation on a byte of memory writes that byte and C0, and nothing else (R240, R244). -/
theorem Completes.of_booleanToByte {i : Instr} {s : State} {e : Word} {b : Byte} (op : Byte → Byte → Byte)
    (h : exec i s = booleanToByte op e b s) :
    Completes i s fun t => t.byteAt e = op (s.byteAt e) b ∧ t.c0 = (op (s.byteAt e) b == 0) ∧
      Frame s t [] [0] (Touched e 1) :=
  ⟨_, h, State.byteAt_setByte_self _ e _, s.c0_setCc_c0Only _, (Frame.setCc_c0Only s _).trans_setByte e _⟩

/-- Settles O37: each instruction is AND, OR or exclusive OR, into a register or on a byte; halfwords in memory stand at even
addresses. -/
theorem booleanRegisterAndByte : Obligations.BooleanRegisterAndByte := by
  unfold Obligations.BooleanRegisterAndByte
  simp only [List.forall_mem_cons, List.not_mem_nil, IsEmpty.forall_iff, implies_true, true_implies, and_true,
    Bool.not_eq_true']
  refine ⟨fun s r1 r2 x2 b2 d2 i2 => ⟨?nr, ?ni, ?n, ?or, ?oi, ?o, ?xr, ?xi, ?x⟩, fun s i b1 d1 => ⟨?nbi, ?obi, ?xbi⟩⟩
  case nr | ni => exact .of_booleanToRegister opAnd rfl
  case or | oi => exact .of_booleanToRegister opOr rfl
  case xr | xi => exact .of_booleanToRegister opXor rfl
  case n => exact fun he => .of_withHalf_booleanToRegister opAnd he rfl
  case o => exact fun he => .of_withHalf_booleanToRegister opOr he rfl
  case x => exact fun he => .of_withHalf_booleanToRegister opXor he rfl
  case nbi => exact .of_booleanToByte opAnd rfl
  case obi => exact .of_booleanToByte opOr rfl
  case xbi => exact .of_booleanToByte opXor rfl

/-! ## Test under mask, and TSL -/

/-- The test under mask as a condition-code write: the three bits of its outcome and nothing else (R260). -/
theorem setCc_testUnderMask (s : State) {w : Nat} (a m : BitVec w) : let t := s.setCc (testUnderMask a m)
    Condition t (a &&& m == 0) (a &&& m != 0 && a &&& m == m) (a &&& m != 0 && a &&& m != m) ∧
      Frame s t [] [0, 1, 2] noByte := by
  rw [testUnderMask_eq]
  exact ⟨condition_setCc s _ _ _, .setCcAll s _ _ _⟩

/-- An instruction that only tests under mask is that write. -/
theorem Compared.of_testUnderMask {i : Instr} {s : State} {w : Nat} {a m : BitVec w}
    (h : exec i s = .next (s.setCc (testUnderMask a m))) :
    Compared i s (a &&& m == 0) (a &&& m != 0 && a &&& m == m) (a &&& m != 0 && a &&& m != m) :=
  ⟨_, h, setCc_testUnderMask s a m⟩

section
variable {s : State} {i : Byte} {b1 : Reg} {d1 : Disp}

/-- TSL where the test finds zeros: the mask goes into the byte, and no unit comes between the read and the store (R374). -/
theorem exec_tsl_zeros (h : s.byteAt (s.ea b1 d1) &&& i = 0) : exec (.tsl i b1 d1) s =
    .next (((s.setCc (testUnderMask (s.byteAt (s.ea b1 d1)) i)).setByte (s.ea b1 d1)
      (s.byteAt (s.ea b1 d1) ||| i)).indivisible) := by
  show execTsl i b1 d1 s = _
  rw [execTsl, if_pos h]

/-- TSL where a selected bit is 1 is the test alone (R374). -/
theorem exec_tsl_unchanged (h : s.byteAt (s.ea b1 d1) &&& i ≠ 0) : exec (.tsl i b1 d1) s =
    .next (s.setCc (testUnderMask (s.byteAt (s.ea b1 d1)) i)) := by
  show execTsl i b1 d1 s = _
  rw [execTsl, if_neg h]

end

/-- TSL is the test under mask of a byte, which gets the mask put on where all selected bits are 0 (R374). -/
theorem Completes.tsl (s : State) (i : Byte) (b1 : Reg) (d1 : Disp) : let e := s.ea b1 d1
    let t := s.byteAt e &&& i
    Completes (.tsl i b1 d1) s fun q =>
      Condition q (t == 0) (t != 0 && t == i) (t != 0 && t != i) ∧
        q.byteAt e = (if t = 0 then s.byteAt e ||| i else s.byteAt e) ∧ Frame s q [] [0, 1, 2] (Touched e 1) := by
  intro e t
  obtain ⟨condition, frame⟩ := setCc_testUnderMask s (s.byteAt e) i
  by_cases h : t = 0
  · refine ⟨_, exec_tsl_zeros h, condition, ?_, frame.trans_setByte e _⟩
    rw [State.byteAt_indivisible, State.byteAt_setByte_self, if_pos h]
  · refine ⟨_, exec_tsl_unchanged h, condition, ?_, frame.mono (by simp) (by simp) fun _ => False.elim⟩
    rw [State.byteAt_setCc, if_neg h]

/-- Settles O39: TMR, TMI and TMBI are the test under mask, and so is TSL but for the byte it stores (the plain name is the
model's, for the test). -/
theorem Masks.testUnderMask : Obligations.TestUnderMask := by
  unfold Obligations.TestUnderMask
  simp only [List.forall_mem_cons, List.not_mem_nil, IsEmpty.forall_iff, implies_true, and_true]
  refine ⟨fun s r1 r2 i2 => ⟨?tmr, ?tmi⟩, fun s i b1 d1 => ⟨?tmbi, ?tsl⟩⟩
  case tmr | tmi | tmbi => exact .of_testUnderMask rfl
  case tsl => exact .tsl s i b1 d1

end Sys2Proof.Machine
end

section
/-! PROOFS. The list instructions: matching a key, the search of a table or a list, enqueue and dequeue. -/

namespace Sys2Proof.Machine

/-! ## Whether a key matches -/

/-- A flag-byte bit that is off, and one that is on (R323). -/
theorem Edb.flag_off {e : Edb} {bit : Byte} (h : e.flags &&& bit = 0) : e.flag bit = false := bne_eq_false_iff_eq.2 h

theorem Edb.flag_on {e : Edb} {bit : Byte} (h : e.flags &&& bit ≠ 0) : e.flag bit = true := bne_iff_ne.2 h

/-- Whether CCC selects an outcome (R328). -/
def Edb.selects (e : Edb) : KeyOutcome → Bool
  | .c0 => e.flags &&& 0x04 != 0
  | .c1 => e.flags &&& 0x02 != 0
  | .c2 => e.flags &&& 0x01 != 0

section
variable {e : Edb} {s : State} {i : Nat} {k a1 : Word} {len n j : Nat} {o : KeyOutcome}

/-- With the T bit off a key matches where CCC selects the outcome of the compare, with it on that of the test. -/
theorem keyMatches_of_compareKey (h : e.flags &&& 0x08 = 0) (ho : compareKey s i k a1 e.keyLength = o) :
    keyMatches e s i k a1 n = e.selects o := by
  have compares : e.flag Config.edbT = false := Edb.flag_off h
  rw [keyMatches, compares, if_neg (by decide), ho]
  cases o <;> rfl

theorem keyMatches_of_testKey (h : e.flags &&& 0x08 ≠ 0) (ho : testKey s i k a1 e.keyLength n = o) :
    keyMatches e s i k a1 n = e.selects o := by
  have tests : e.flag Config.edbT = true := Edb.flag_on h
  rw [keyMatches, tests, if_pos rfl, ho]
  cases o <;> rfl

theorem compareKey_equal (hu : Undisturbed s)
    (h : ∀ j, j < len → s.byteAt (k + BitVec.ofNat 16 j) = s.byteAt (a1 + BitVec.ofNat 16 j)) :
    compareKey s i k a1 len = .c0 := by
  rw [compareKey, (firstUnequal_eq s hu i k a1 len).1 h]

/-- Where the key and the argument first differ, their bytes there decide (R328). -/
theorem compareKey_unequal (hu : Undisturbed s) (hj : j < len)
    (h : ∀ m, m < j → s.byteAt (k + BitVec.ofNat 16 m) = s.byteAt (a1 + BitVec.ofNat 16 m))
    (hne : s.byteAt (k + BitVec.ofNat 16 j) ≠ s.byteAt (a1 + BitVec.ofNat 16 j)) :
    compareKey s i k a1 len =
      if (s.byteAt (a1 + BitVec.ofNat 16 j)).toNat < (s.byteAt (k + BitVec.ofNat 16 j)).toNat then .c1 else .c2 := by
  rw [compareKey, (firstUnequal_eq s hu i k a1 len).2 j hj h hne]
  simp [Config.srchKeyFirst]

/-- Bytes in memory, by their places. -/
theorem State.readBytes_eq_map (s : State) (a : Word) (n : Nat) :
    s.readBytes a n = (List.range n).map fun j => s.byteAt (a + BitVec.ofNat 16 j) :=
  List.ext_getElem (by simp) fun j _ _ => by rw [getElem_readBytes, List.getElem_map, List.getElem_range]

/-- The test under mask of a key, byte by byte (R328, U13). -/
theorem testKey_eq (hu : Undisturbed s) :
    let x := fun j : Nat => s.byteAt (k + BitVec.ofNat 16 j)
    let y := fun j : Nat => s.byteAt (a1 + BitVec.ofNat 16 j)
    testKey s i k a1 len n =
      if ∀ j, j < len → y j = 0 then .c0 else if 2 < len then freeOutcome n
      else if ∀ j, j < len → x j &&& y j = 0 then .c0 else if ∀ j, j < len → x j &&& y j = y j then .c1 else .c2 := by
  simp [testKey, hu.seenAt, State.readBytes_eq_map, List.zipWith_map, List.zipWith_self, Function.comp_def]

end

/-- Settles O46: the compare comes out by the first unequal pair of bytes, the test by the selected bits of all bytes. -/
theorem keyMatching : Obligations.KeyMatching := by
  intro s e i k a1 n hu x y
  refine ⟨fun hT => ⟨fun h => ?equal, fun j hj h hlt => ?above, fun j hj h hlt => ?below⟩,
    fun hT => ⟨fun h => ?noMask, fun hl h => ?zeros, fun hl h ⟨j, hj, hy⟩ => ?ones, fun hl ⟨j, hj, hx⟩ ⟨m, hm, hy⟩ => ?mixed⟩⟩
  case equal => exact keyMatches_of_compareKey hT (compareKey_equal hu h)
  case above =>
    have unequal : x j ≠ y j := fun heq => absurd hlt (by rw [heq]; exact Nat.lt_irrefl _)
    exact keyMatches_of_compareKey hT ((compareKey_unequal hu hj h unequal).trans (if_pos hlt))
  case below =>
    have unequal : x j ≠ y j := fun heq => absurd hlt (by rw [heq]; exact Nat.lt_irrefl _)
    exact keyMatches_of_compareKey hT ((compareKey_unequal hu hj h unequal).trans (if_neg (Nat.not_lt.2 hlt.le)))
  case noMask => exact keyMatches_of_testKey hT ((testKey_eq hu).trans (if_pos h))
  case zeros =>
    refine keyMatches_of_testKey (o := .c0) hT ((testKey_eq hu).trans ?_)
    rw [if_neg (Nat.not_lt.2 hl), if_pos h, ite_self]
  case ones =>
    have someBit : x j &&& y j ≠ 0 := (h j hj).trans_ne hy
    refine keyMatches_of_testKey (o := .c1) hT ((testKey_eq hu).trans ?_)
    rw [if_neg fun h0 => hy (h0 j hj), if_neg (Nat.not_lt.2 hl), if_neg fun h0 => someBit (h0 j hj), if_pos h]
  case mixed =>
    have masked : y j ≠ 0 := fun h0 => hx (by rw [h0]; exact BitVec.and_zero)
    refine keyMatches_of_testKey (o := .c2) hT ((testKey_eq hu).trans ?_)
    rw [if_neg fun h0 => masked (h0 j hj), if_neg (Nat.not_lt.2 hl), if_neg fun h0 => hx (h0 j hj),
      if_neg fun h1 => hy (h1 m hm)]

/-! ## Search -/

/-- The block at an address, where no unit stores among its reads (R323). -/
theorem Undisturbed.edbAt {s : State} (hu : Undisturbed s) (a : Word) : s.edbAt a =
    { first := s.readHalf a, keyDisp := s.readHalf (a + 2), keyLength := (s.readHalf (a + 4)).toNat,
      flags := s.byteAt (a + 6) } := by
  simp only [State.edbAt, hu.seenAt]

/-- What the end of a search leaves (R325). -/
theorem State.endSearch_spec (s : State) (m : Nat) (r2 r3 r5 : Word) (a b c : Bool) :
    let t := (s.consume m).endSearch ⟨r2, r3, r5, .all a b c⟩
    t.stored 5 = r5 ∧ t.stored 2 = r2 ∧ t.stored 3 = r3 ∧ Condition t a b c ∧ Frame s t [2, 3, 5] [0, 1, 2] noByte := by
  refine ⟨?_, ?_, ?_, condition_setCc _ a b c, ?_⟩
  · rw [State.endSearch, State.stored_setCc, if_neg (by decide), State.stored_setReg_self]
  · rw [State.endSearch, State.stored_setCc, if_neg (by decide), State.stored_setReg_ne _ _ (by decide),
      State.stored_setReg_ne _ _ (by decide), State.stored_setReg_self]
  · rw [State.endSearch, State.stored_setCc, if_neg (by decide), State.stored_setReg_ne _ _ (by decide),
      State.stored_setReg_self]
  · exact (((((Frame.consume s m).trans (.setReg _ 2 r2)).trans (.setReg _ 3 r3)).trans (.setReg _ 5 r5)).trans
      (.setCcAll _ a b c)).mono (by simp) (by simp) fun _ h => by simpa [either] using h

section
variable {s : State} {i3 : Byte} {b1 : Reg} {d1 : Disp} {b2 : Reg} {d2 : Disp}

/-- A search with the count 0 (R325). -/
theorem exec_srch_nothing (he : odd (s.ea b2 d2) = false) (h : (s.reg 3).toNat = 0) :
    exec (.srch i3 b1 d1 b2 d2) s = .next ((s.setReg 5 (s.reg 2)).setCc ccCount) :=
  (aligned_even he).trans (if_pos h)

/-- The search of a table (R326). -/
theorem exec_srch_table (he : odd (s.ea b2 d2) = false) (h : (s.reg 3).toNat ≠ 0)
    (hf : (s.edbAt (s.ea b2 d2)).flags &&& 0x80 = 0) :
    exec (.srch i3 b1 d1 b2 d2) s = .next ((s.consume (2 * (s.reg 3).toNat)).endSearch
      (searchTable (s.edbAt (s.ea b2 d2)) s (argumentRead + 1) (s.ea b1 d1) (s.reg 2) (s.reg 2) (s.reg 3).toNat)) := by
  have table : (s.edbAt (s.ea b2 d2)).flag Config.edbList = false := Edb.flag_off hf
  exact (aligned_even he).trans ((if_neg h).trans (if_neg (Bool.eq_false_iff.1 table)))

/-- The search of a list that comes to an end (R327). -/
theorem exec_srch_list (he : odd (s.ea b2 d2) = false) (h : (s.reg 3).toNat ≠ 0)
    (hf : (s.edbAt (s.ea b2 d2)).flags &&& 0x80 ≠ 0) {found : SearchEnd}
    (hs : searchList (s.edbAt (s.ea b2 d2)) s (argumentRead + 1) (s.ea b1 d1) (s.reg 2) (s.reg 2) (s.reg 2) (s.reg 3).toNat =
      some found) :
    exec (.srch i3 b1 d1 b2 d2) s = .next ((s.consume (2 * (s.reg 3).toNat)).endSearch found) := by
  refine (aligned_even he).trans ((if_neg h).trans ((if_pos (Edb.flag_on hf)).trans ?_))
  rw [hs]

/-- The search of a list that meets a forward pointer at an odd address (R327). -/
theorem exec_srch_oddPointer (he : odd (s.ea b2 d2) = false) (h : (s.reg 3).toNat ≠ 0)
    (hf : (s.edbAt (s.ea b2 d2)).flags &&& 0x80 ≠ 0)
    (hs : searchList (s.edbAt (s.ea b2 d2)) s (argumentRead + 1) (s.ea b1 d1) (s.reg 2) (s.reg 2) (s.reg 2) (s.reg 3).toNat =
      none) :
    exec (.srch i3 b1 d1 b2 d2) s = .next (s.programInterrupt 3 .alignment) := by
  refine (aligned_even he).trans ((if_neg h).trans ((if_pos (Edb.flag_on hf)).trans ?_))
  rw [hs]; rfl

end

/-- Settles O47: the instruction is the search of a table or of a list, and leaves where that ends. -/
theorem search : Obligations.Search := by
  refine ⟨fun s a hu => ?block, ?outcomes⟩
  case block => rw [hu.edbAt]; exact ⟨rfl, rfl, rfl, rfl⟩
  intro s i3 b1 d1 b2 d2 hu he i e n hit cur
  refine ⟨fun h => ?nothing, fun hf => ?table, ?list⟩
  case nothing =>
    refine ⟨_, exec_srch_nothing he h, ?_, condition_setCc _ false true false, ?_⟩
    · rw [State.stored_setCc, if_neg (by decide), State.stored_setReg_self]
    · exact ((Frame.setReg s 5 _).trans (.setCcAll _ _ _ _)).mono (by simp) (by simp) fun _ h => h.elim id id
  case table =>
    obtain ⟨hits, misses⟩ := searchTable_spec e s hu (argumentRead + 1) (s.ea b1 d1) n (s.reg 2) (s.reg 2)
    have previous (k : Nat) : (if k = 0 then s.reg 2 else cur (k - 1)) = cur (k - 1) := by
      split
      · next h => simp [cur, h]
      · rfl
    refine ⟨fun k hk hj hh => ⟨_, exec_srch_table he (by omega) hf, ?_⟩,
      fun hn hj => ⟨_, exec_srch_table he (by omega) hf, ?_⟩⟩
    · rw [hits k hk hj hh, ← previous k]
      exact s.endSearch_spec _ _ _ _ _ _ _
    · rw [misses hj, ← previous n]
      exact s.endSearch_spec _ _ _ _ _ _ _
  case list =>
    intro hf p f p0 hfk hpk passed
    obtain ⟨hits, nulls, misses, odds⟩ :=
      searchList_spec e s hu (argumentRead + 1) (s.ea b1 d1) n (s.reg 2) (s.reg 2) p f hfk hpk
    rw [p0] at hits nulls misses odds
    refine ⟨fun k hk hj ho h0 hh => ?_, fun k hk hj ho h0 => ?_, fun hn hj => ?_, fun k hk hj ho => ?_⟩
    · exact ⟨_, exec_srch_list he (by omega) hf (hits k hk hj ho h0 hh), s.endSearch_spec _ _ _ _ _ _ _⟩
    · have previous : p (k - 1) = if k = 0 then s.reg 2 else p (k - 1) := by
        split
        · next h => rw [h, p0]
        · rfl
      rw [previous]
      exact ⟨_, exec_srch_list he (by omega) hf (nulls k hk hj ho h0), s.endSearch_spec _ _ _ _ _ _ _⟩
    · have ending := misses hj
      rw [if_neg (by omega), if_neg (by omega)] at ending
      exact ⟨_, exec_srch_list he (by omega) hf ending, s.endSearch_spec _ _ _ _ _ _ _⟩
    · exact .of_programInterrupt (exec_srch_oddPointer he (by omega) hf (odds k hk hj ho))

/-! ## Enqueue and dequeue -/

/-- ENQ's checks and its two stores, where no unit stores among its reads (R330). -/
theorem exec_enq {s : State} (hu : Undisturbed s) (i3 : Byte) (b1 : Reg) (d1 : Disp) (b2 : Reg) (d2 : Disp) :
    let pa := s.reg 4 + s.reg 2
    let na := s.reg 4 + s.ea b1 d1 + s.readHalf (s.ea b2 d2)
    exec (.enq i3 b1 d1 b2 d2) s = aligned 3 (s.ea b2 d2) s (aligned 3 pa s (aligned 3 na s
      (.next ((s.writeHalf na (s.readHalf pa)).writeHalf pa (s.ea b1 d1))))) := by
  show execEnq i3 b1 d1 b2 d2 s = _
  rw [execEnq, withHalfAt_undisturbed hu]
  rfl

/-- DEQ's checks, and what it does with a null forward pointer and with another (R331). -/
theorem exec_deq {s : State} (hu : Undisturbed s) (r1 x2 b2 : Reg) (d2 : Disp) :
    let pa := s.reg 4 + s.reg 2
    let f := s.readHalf pa
    let next := s.reg 4 + f + s.readHalf (s.eaRX x2 b2 d2)
    let t := fun isLast => (s.consume 1).result r1 (Config.freeWord s.freeCount) (.c0Only isLast)
    exec (.deq r1 x2 b2 d2) s = aligned 2 (s.eaRX x2 b2 d2) s (aligned 2 pa s
      (if f = 0 then .next (t true) else aligned 2 next s (.next ((t false).writeHalf pa (s.readHalf next))))) := by
  show execDeq r1 x2 b2 d2 s = _
  rw [execDeq, withHalfAt_undisturbed hu]
  simp only [withHalfAt_undisturbed hu]
  rfl

/-- What DEQ leaves in a register other than 0 and in C0 (U15). -/
theorem State.dequeued_spec (s : State) (r : Reg) (v : Word) (b : Bool) :
    let t := (s.consume 1).result r v (.c0Only b)
    (r ≠ 0 → t.c0 = b) ∧ Frame s t [r] [0] noByte := by
  intro t
  refine ⟨fun hr => ?_, frame_result s 1 r v _ [0] (.inr (by simp)) (.inl rfl) (.inl rfl)⟩
  have flag : Flag t 0 b r v := flag_result _ r v _ 0 b (CcWrite.c0Only_bit b)
  exact flag.resolve_right fun h => hr h.1

/-- Settles O48: the alignment checks in their order, then the stores of the pointers, or C0. -/
theorem enqueueAndDequeue : Obligations.EnqueueAndDequeue := by
  refine ⟨?enq, ?deq⟩
  case enq =>
    intro s i3 b1 d1 b2 d2 hu pa na he
    have checks := exec_enq hu i3 b1 d1 b2 d2
    refine ⟨fun h => ?odd, fun hp hn => ?links⟩
    case odd =>
      rcases h with hp | hn
      · exact .of_second_odd hp checks
      · exact .of_third_odd hn checks
    case links =>
      refine ⟨_, checks.trans ((aligned_even he).trans ((aligned_even hp).trans (aligned_even hn))),
        State.readHalf_writeHalf _ pa _, fun apart => ?_, (Frame.writeHalf s na _).trans (.writeHalf _ pa _)⟩
      rw [State.readHalf_writeHalf_even _ na pa _ hn hp apart, State.readHalf_writeHalf]
  case deq =>
    intro s r1 x2 b2 d2 hu pa f next he
    have checks := exec_deq hu r1 x2 b2 d2
    refine ⟨fun hp => .of_second_odd hp checks, fun hp h0 => ?null, fun hp h0 hn => ?odd, fun hp h0 hn => ?unlinks⟩
    all_goals have passed := checks.trans ((aligned_even he).trans (aligned_even hp))
    case null => exact ⟨_, passed.trans (if_pos h0), s.dequeued_spec r1 _ true⟩
    case odd => exact .of_odd hn (passed.trans (if_neg h0))
    case unlinks =>
      obtain ⟨c0, frame⟩ := s.dequeued_spec r1 (Config.freeWord s.freeCount) false
      refine ⟨_, passed.trans ((if_neg h0).trans (aligned_even hn)), State.readHalf_writeHalf _ pa _, c0, ?_⟩
      exact (frame.trans (.writeHalf _ pa _)).mono (by simp) (by simp) fun _ h => h.elim False.elim id

end Sys2Proof.Machine
end

section
/-! PROOFS. The branches: on a test, on condition, with a link, on count, and the index loops. -/

namespace Sys2Proof.Machine

/-! ## Conditional branches -/

/-- A branch writes the PC where it is taken, and nothing else (R336). -/
theorem State.branchTo_spec (s : State) (taken : Bool) (target : Word) : let t := s.branchTo taken target
    t.pc = (if taken = true then target else s.pc) ∧ Frame s t [1] [] noByte := by
  cases taken
  case false => exact ⟨rfl, (Frame.refl s).mono (by simp) (by simp) fun _ => id⟩
  case true => exact ⟨s.stored_setReg_self 1 target, .setReg s 1 target⟩

/-- An instruction that is an RR branch under a condition (R338). -/
theorem Completes.of_branchRR {i : Instr} {s : State} {taken c : Bool} {r2 : Reg}
    (h : exec i s = .next (s.branchRR taken r2 (s.reg r2))) (hc : taken = c) :
    Completes i s fun t => t.pc = (if c = true ∧ r2 ≠ 0 then s.reg r2 else s.pc) ∧ Frame s t [1] [] noByte := by
  subst hc
  obtain ⟨pc, frame⟩ := s.branchTo_spec (taken && r2 != 0) (s.reg r2)
  exact ⟨_, h, pc.trans (by simp), frame⟩

/-- An instruction that is a BX branch under a condition (R86). -/
theorem Completes.of_branchTo {i : Instr} {s : State} {taken c : Bool} {x2 : Reg} {d2 : Word}
    (h : exec i s = .next (s.branchTo taken (s.branchBX x2 d2))) (hc : taken = c) :
    Completes i s fun t => t.pc = (if c = true then s.pc + d2 + (if x2 = 0 then 0 else s.reg x2) else s.pc) ∧
      Frame s t [1] [] noByte :=
  hc ▸ ⟨_, h, s.branchTo_spec taken (s.branchBX x2 d2)⟩

/-- Settles O49: each instruction is a branch of its form under its condition, and the sign classes are comparisons with 0. -/
theorem conditionalBranches : Obligations.ConditionalBranches := by
  intro s r1 r2 x2 d2 v sel
  simp only [List.forall_mem_cons, List.not_mem_nil, IsEmpty.forall_iff, implies_true, and_true]
  exact ⟨⟨.of_branchRR rfl rfl, .of_branchRR rfl (not_isPositive _), .of_branchRR rfl (isZero_eq _),
      .of_branchRR rfl (not_isZero _), .of_branchRR rfl (isMinus_eq _), .of_branchRR rfl (not_isMinus _),
      .of_branchRR rfl rfl, .of_branchRR rfl rfl⟩,
    .of_branchTo rfl rfl, .of_branchTo rfl (not_isPositive _), .of_branchTo rfl (isZero_eq _),
    .of_branchTo rfl (not_isZero _), .of_branchTo rfl (isMinus_eq _), .of_branchTo rfl (not_isMinus _),
    .of_branchTo rfl rfl, .of_branchTo rfl rfl⟩

/-! ## Branches after a register write -/

/-- Everything a register write and a branch after it do: the branch comes last where both write the PC. -/
theorem State.setReg_branchTo_spec (s : State) (k : Nat) (r : Reg) (v target : Word) (taken : Bool) :
    let t := ((s.consume k).setReg r v).branchTo taken target
    (taken = true → t.pc = target ∧ (r ≠ 1 → t.stored r = v)) ∧
      (taken = false → t.stored r = v ∧ (r ≠ 1 → t.pc = s.pc)) ∧ Frame s t [r, 1] [] noByte := by
  refine ⟨?_, ?_, .setReg_branchTo s k r v taken target⟩
  · rintro rfl
    exact ⟨s.pc_branchTo k r v target, s.stored_branchTo k r v target true⟩
  · rintro rfl
    exact s.branchTo_false k r v target

/-- A register that gets the PC, without a branch: the PC is as before even where it is that register (R357). -/
theorem State.pc_setReg_pc (s : State) (r : Reg) : (s.setReg r s.pc).pc = s.pc := by
  by_cases h : r = 1
  · subst h; exact s.stored_setReg_self 1 _
  · exact s.stored_setReg_ne _ (Ne.symm h)

/-- A count of 0 or less does not branch (R359). -/
theorem isPositive_eq_false {v : Word} (h : v.toInt ≤ 0) : isPositive v = false := decide_eq_false (Int.not_lt.mpr h)

/-- A word in one of two readings, the second only where `p` holds, is the first or, where `p` holds, the second (U16, U17). -/
theorem reading_cases {c : Bool} {p : Prop} (h : c = true → p) (second first : Word) :
    (if c = true then second else first) = first ∨ (p ∧ (if c = true then second else first) = second) := by
  cases c
  case false => exact .inl rfl
  case true => exact .inr ⟨h rfl, rfl⟩

/-- The left side of a test that holds. -/
theorem of_decide_and {p : Prop} [Decidable p] {b : Bool} (h : (decide p && b) = true) : p :=
  of_decide_eq_true (Bool.and_eq_true_iff.mp h).1

/-- BALR: where R2 is register 0 there is no branch, and the link is stored all the same (R338, R357). -/
theorem completes_balr (s : State) (r1 r2 : Reg) : Completes (.balr r1 r2) s fun t =>
    t.pc = (if r2 = 0 then s.pc else s.reg r2) ∧ (r1 ≠ 1 → t.stored r1 = s.pc) ∧ Frame s t [r1, 1] [] noByte := by
  obtain ⟨taken, passed, frame⟩ := s.setReg_branchTo_spec 0 r1 s.pc (s.reg r2) (r2 != 0)
  refine ⟨_, rfl, ?_⟩
  by_cases h : r2 = 0
  · subst h
    exact ⟨s.pc_setReg_pc r1, fun _ => (passed rfl).1, frame⟩
  · obtain ⟨pc, link⟩ := taken (bne_iff_ne.mpr h)
    exact ⟨pc.trans (if_neg h).symm, link, frame⟩

/-- BAL always branches (R358). -/
theorem completes_bal (s : State) (r1 x2 : Reg) (d2 : Word) : Completes (.bal r1 x2 d2) s fun t =>
    t.pc = s.branchBX x2 d2 ∧ (r1 ≠ 1 → t.stored r1 = s.pc) ∧ Frame s t [r1, 1] [] noByte := by
  obtain ⟨taken, -, frame⟩ := s.setReg_branchTo_spec 0 r1 s.pc (s.branchBX x2 d2) true
  obtain ⟨pc, link⟩ := taken rfl
  exact ⟨_, rfl, pc, link, frame⟩

/-- BCTR: the target is R2's contents, or the decremented count where R1 is R2 (R359, U16). -/
theorem completes_bctr (s : State) (r1 r2 : Reg) : let v := s.reg r1 - 1
    Completes (.bctr r1 r2) s fun t =>
      (0 < v.toInt ∧ r2 ≠ 0 → (t.pc = s.reg r2 ∨ (r1 = r2 ∧ t.pc = v)) ∧ (r1 ≠ 1 → t.stored r1 = v)) ∧
      (v.toInt ≤ 0 ∨ r2 = 0 → t.stored r1 = v ∧ (r1 ≠ 1 → t.pc = s.pc)) ∧ Frame s t [r1, 1] [] noByte := by
  intro v
  obtain ⟨target, start, reading⟩ : ∃ target, exec (.bctr r1 r2) s =
      .next (((s.consume 1).setReg r1 v).branchRR (isPositive v) r2 target) ∧ (target = s.reg r2 ∨ (r1 = r2 ∧ target = v)) :=
    ⟨_, rfl, reading_cases of_decide_and v (s.reg r2)⟩
  obtain ⟨taken, passed, frame⟩ := s.setReg_branchTo_spec 1 r1 v target (isPositive v && r2 != 0)
  refine ⟨_, start, fun ⟨positive, h⟩ => ?_, fun h => passed ?_, frame⟩
  · obtain ⟨pc, count⟩ := taken (Bool.and_eq_true_iff.mpr ⟨decide_eq_true positive, bne_iff_ne.mpr h⟩)
    exact ⟨reading.imp pc.trans fun ⟨same, h⟩ => ⟨same, pc.trans h⟩, count⟩
  · rcases h with h | rfl
    · rw [isPositive_eq_false h, Bool.false_and]
    · exact Bool.and_false _

/-- BCT: the index is X2's contents, or the decremented count where R1 is X2 (R360, U16). -/
theorem completes_bct (s : State) (r1 x2 : Reg) (d2 : Word) : let v := s.reg r1 - 1
    Completes (.bct r1 x2 d2) s fun t =>
      (0 < v.toInt → (t.pc = s.branchBX x2 d2 ∨ (r1 = x2 ∧ x2 ≠ 0 ∧ t.pc = s.pc + d2 + v)) ∧
        (r1 ≠ 1 → t.stored r1 = v)) ∧
      (v.toInt ≤ 0 → t.stored r1 = v ∧ (r1 ≠ 1 → t.pc = s.pc)) ∧ Frame s t [r1, 1] [] noByte := by
  intro v
  have indexed {b : Bool} (h : (decide (r1 = x2) && x2 != 0 && b) = true) : r1 = x2 ∧ x2 ≠ 0 := by
    obtain ⟨same, index⟩ := Bool.and_eq_true_iff.mp (Bool.and_eq_true_iff.mp h).1
    exact ⟨of_decide_eq_true same, bne_iff_ne.mp index⟩
  obtain ⟨target, start, reading⟩ : ∃ target, exec (.bct r1 x2 d2) s =
      .next (((s.consume 1).setReg r1 v).branchTo (isPositive v) target) ∧
        (target = s.branchBX x2 d2 ∨ ((r1 = x2 ∧ x2 ≠ 0) ∧ target = s.pc + d2 + v)) :=
    ⟨_, rfl, reading_cases indexed (s.pc + d2 + v) (s.branchBX x2 d2)⟩
  obtain ⟨taken, passed, frame⟩ := s.setReg_branchTo_spec 1 r1 v target (isPositive v)
  refine ⟨_, start, fun positive => ?_, fun h => passed (isPositive_eq_false h), frame⟩
  obtain ⟨pc, count⟩ := taken (decide_eq_true positive)
  exact ⟨reading.imp pc.trans fun ⟨⟨same, index⟩, h⟩ => ⟨same, index, pc.trans h⟩, count⟩

/-! ## Index loops -/

/-- The two readings of the increment (U17). -/
theorem loopIncrement_readings (x2 : Reg) (s : State) :
    loopIncrement x2 s = s.reg x2 ∨ (x2 = 0 ∧ loopIncrement x2 s = 0) :=
  reading_cases of_decide_and 0 (s.reg x2)

/-- The two readings of the comparand (U17). -/
theorem loopComparand_readings (r1 x2 : Reg) (v : Word) (s : State) :
    loopComparand r1 x2 v s = (if x2.getLsbD 0 then s.reg x2 else s.reg (x2 + 1)) ∨
      (x2.getLsbD 0 = false ∧ r1 = x2 + 1 ∧ loopComparand r1 x2 v s = v) := by
  unfold loopComparand
  split
  next => exact .inl rfl
  next even => exact (reading_cases of_decide_and v _).imp id (.intro (Bool.eq_false_of_not_eq_true even))

/-- Both index loops, by the comparison that branches (R361). -/
theorem completes_indexLoop {i : Instr} {s : State} (takes : Int → Int → Bool) {r1 x2 : Reg} {d2 : Word}
    (h : exec i s = indexLoop takes r1 x2 d2 s) :
    ∃ inc cmp : Word, (inc = s.reg x2 ∨ (x2 = 0 ∧ inc = 0)) ∧
      (cmp = (if x2.getLsbD 0 then s.reg x2 else s.reg (x2 + 1)) ∨
        (x2.getLsbD 0 = false ∧ r1 = x2 + 1 ∧ cmp = s.reg r1 + inc)) ∧
      Completes i s fun t =>
        (takes (s.reg r1 + inc).toInt cmp.toInt = true → t.pc = s.pc + d2 ∧ (r1 ≠ 1 → t.stored r1 = s.reg r1 + inc)) ∧
        (takes (s.reg r1 + inc).toInt cmp.toInt = false → t.stored r1 = s.reg r1 + inc ∧ (r1 ≠ 1 → t.pc = s.pc)) ∧
        Frame s t [r1, 1] [] noByte :=
  ⟨loopIncrement x2 s, loopComparand r1 x2 (s.reg r1 + loopIncrement x2 s) s, loopIncrement_readings x2 s,
    loopComparand_readings r1 x2 _ s, _, h, s.setReg_branchTo_spec 2 r1 _ _ _⟩

/-- Settles O50: a register write and a branch after it, with the target or the operands in one of the readings left open. -/
theorem linkCountAndIndexBranches : Obligations.LinkCountAndIndexBranches := by
  intro s r1 r2 x2 d2 target v
  refine ⟨completes_balr s r1 r2, completes_bal s r1 x2 d2, completes_bctr s r1 r2, completes_bct s r1 x2 d2, ?_⟩
  simp only [List.forall_mem_cons, List.not_mem_nil, IsEmpty.forall_iff, implies_true, and_true]
  exact ⟨completes_indexLoop (fun v c => decide (c < v)) rfl, completes_indexLoop (fun v c => decide (v ≤ c)) rfl⟩

end Sys2Proof.Machine
end

section
/-! PROOFS. EX and its subject. -/

namespace Sys2Proof.Machine

/-! ## What EX makes of its operand -/

/-- Where no unit stores among the reads, dropping those of the EX leaves nothing to be dropped (log 50). -/
theorem Undisturbed.executing {s : State} (hu : Undisturbed s) (b : Bool) :
    ({ s with inExecute := b, earlier := s.earlier.drop 3 } : State) = { s with inExecute := b } := by
  rw [show s.earlier = [] from hu]
  rfl

/-- The three outcomes of EX at an even address, by the halfword after the OR: the Execute interrupt, the subject's own meaning,
the Operation interrupt (R362, R404, R446). -/
theorem exec_ex {s : State} {r1 x2 b2 : Reg} {d2 : Disp} (hu : Undisturbed s) (he : odd (s.eaRX x2 b2 d2) = false) :
    let e := s.eaRX x2 b2 d2
    let h0 := subjectHalf r1 (s.readHalf e) s
    let h1 := s.readHalf (e + 2)
    let h2 := s.readHalf (e + 4)
    let i := Instr.ex r1 x2 b2 d2
    let subject := { s with inExecute := true }
    (opOf h0 = 0x54 → exec i s = .next (State.programInterrupt { s with inExecute := false } 2 .execute)) ∧
    (∀ j, opOf h0 ≠ 0x54 → decode h0 h1 h2 = .ok j → exec i s = leaveExecute (exec j subject)) ∧
    (∀ op, opOf h0 ≠ 0x54 → decode h0 h1 h2 = .error (.unassigned op) →
      exec i s = leaveExecute (.next (subject.operationInterrupt h0 h1 h2))) := by
  dsimp only
  have start : exec (.ex r1 x2 b2 d2) s = execEx r1 x2 b2 d2 s := rfl
  simp only [start, execEx, withHalfAt_undisturbed hu, withHalf_even he, hu.seenAt, hu.executing]
  refine ⟨fun h => if_pos h, fun j h hd => ?_, fun op h hd => ?_⟩
  · have alone : execSubject j = exec j := funext fun t => execSubject_eq j t fun _ _ _ _ ex => h (decode_ex (ex ▸ hd))
    rw [if_neg h, hd, ← alone]
  · rw [if_neg h, hd]

/-- What the subject keeps, the EX keeps. -/
theorem Frame.leaveExecute {s t : State} {rs : List Reg} {bits : List Nat} {stored : Word → Prop}
    (h : Frame { s with inExecute := true } t rs bits stored) :
    Frame { s with inExecute := false } { t with inExecute := false } rs bits stored := by
  obtain ⟨regs, msr, mem, hidden⟩ := h
  exact ⟨regs, msr, mem, congrArg (fun u : State => { u with inExecute := false }) hidden⟩

/-- An EX completes where its subject does. -/
theorem Completes.of_subject {i j : Instr} {s : State} {P Q : State → Prop}
    (h : exec i s = leaveExecute (exec j { s with inExecute := true }))
    (run : Completes j { s with inExecute := true } P) (hq : ∀ t, P t → Q { t with inExecute := false }) :
    Completes i s Q := by
  obtain ⟨t, ht, hp⟩ := run
  exact ⟨_, h.trans (congrArg leaveExecute ht), hq t hp⟩

/-! ## The subjects written out -/

/-- A halfword put together by shifts and ORs is made of its fields. -/
theorem head44_eq_or (op : Byte) (a b : Reg) :
    (op.setWidth 16 <<< 8) ||| (a.setWidth 16 <<< 4) ||| b.setWidth 16 = head44 op a b := by
  refine BitVec.eq_of_getLsbD_eq fun i hi => ?_
  simp only [head44, BitVec.getLsbD_append, BitVec.getLsbD_or, BitVec.getLsbD_shiftLeft, BitVec.getLsbD_setWidth]
  interval_cases i <;> simp

theorem decode_lr (a b : Reg) (h1 h2 : Word) : decode (head44 0x33 a b) h1 h2 = .ok (.lr a b) := by
  have rr : Format.ofOp 0x33 = .rr := rfl
  simp only [decode, decodeFields, opOf_head44, rr, field1_head44, field2_head44]
  rfl

theorem decode_bal (a x : Reg) (h1 h2 : Word) : decode (head44 0xA8 a x) h1 h2 = .ok (.bal a x h1) := by
  have bx : Format.ofOp 0xA8 = .bx := rfl
  simp only [decode, decodeFields, opOf_head44, bx, field1_head44, field2_head44]
  rfl

/-- Settles O51: the three outcomes of EX; LR and BAL as subjects do what they do alone, and an unassigned code's interrupt is
that of O13. -/
theorem execute : Obligations.Execute := by
  intro s r1 x2 b2 d2 e hu he h0 i subject
  obtain ⟨trap, run, unassigned⟩ := exec_ex (r1 := r1) hu he
  have decoded {j : Instr} (op : Byte) (a b : Reg) (hop : op ≠ 0x54) (hh : h0 = head44 op a b)
      (hd : decode (head44 op a b) (s.readHalf (e + 2)) (s.readHalf (e + 4)) = .ok j) :
      exec i s = leaveExecute (exec j subject) :=
    run j (fun h => hop ((opOf_head44 op a b).symm.trans (hh ▸ h))) ((congrArg (decode · _ _) hh).trans hd)
  refine ⟨run, fun a b hh => ?lr, fun a hh => ?bal, fun h => ?ex, fun op h hd => ?operation⟩
  case lr =>
    have alone : RegisterResult (.lr a b) subject a (s.reg b) := .of_setReg rfl
    exact .of_subject (decoded 0x33 a b (by decide) (hh.trans (head44_eq_or 0x33 a b)) (decode_lr ..)) alone
      fun t ⟨result, frame⟩ => ⟨result, frame.leaveExecute⟩
  case bal =>
    have head : h0 = head44 0xA8 a 0 := hh.trans (by simpa using head44_eq_or 0xA8 a 0)
    exact .of_subject (decoded 0xA8 a 0 (by decide) head (decode_bal ..)) (completes_bal subject a 0 _)
      fun t ⟨pc, link, frame⟩ => ⟨pc.trans (BitVec.add_zero (s.pc + s.readHalf (e + 2))), link, frame.leaveExecute⟩
  case ex => exact ⟨_, trap h, .synchronousInterrupt ..⟩
  case operation =>
    have run : exec i s = leaveExecute (.next (subject.operationInterrupt h0 (s.readHalf (e + 2)) (s.readHalf (e + 4)))) :=
      unassigned op h hd
    have interrupt := unassignedCodeTakesOperationInterrupt.2 subject h0 (s.readHalf (e + 2)) (s.readHalf (e + 4))
    generalize subject.operationInterrupt h0 _ _ = t at run interrupt
    obtain ⟨code, -, -, -, oldPc, number, newMsr, newPc, frame⟩ := interrupt
    exact ⟨_, run, code, number, oldPc, newMsr, newPc, frame.leaveExecute⟩

end Sys2Proof.Machine
end

section
/-! PROOFS. Status switching: the interrupt sequence, supervisor calls, the privileged instructions, ENT and RET. -/

namespace Sys2Proof.Machine

/-! ## Interrupts -/

/-- Settles O11: the cells by computation, the sequence by what synchronous and asynchronous interrupts do. -/
theorem interruptSequence : Obligations.InterruptSequence :=
  ⟨rfl, rfl, rfl, rfl, Interrupted.synchronousInterrupt, Switched.asynchronousInterrupt⟩

/-- Settles O12: each supervisor call is its register writes, if any, and then the SVC interrupt. -/
theorem supervisorCalls : Obligations.SupervisorCalls := fun s _ b1 d1 b2 d2 =>
  ⟨⟨_, rfl, .synchronousInterrupt s .svc 1 _⟩, ⟨_, rfl, .synchronousInterrupt (s.setReg 2 (s.ea b1 d1)) .svc 2 _⟩,
    ⟨_, rfl, .synchronousInterrupt ((s.setReg 2 (s.ea b1 d1)).setReg 3 (s.ea b2 d2)) .svc 3 _⟩⟩

/-- An instruction that begins with the privilege check does nothing but take the Privilege interrupt where MSR.PR is off. -/
theorem Traps.of_unprivileged {i : Instr} {s : State} {ilc : BitVec 2} {k : Result} (h : s.privileged = false)
    (e : exec i s = whenPrivileged ilc s k) : Traps i s ilc .privilege :=
  .of_programInterrupt (e.trans (whenPrivileged_off h))

/-- Settles O15: each of the six begins with the privilege check. -/
theorem privilegeBitOffTraps : Obligations.PrivilegeBitOffTraps := by
  intro s r1 r2 x2 b2 d2 h
  simp only [List.forall_mem_cons, List.not_mem_nil, IsEmpty.forall_iff, implies_true, and_true]
  exact ⟨⟨.of_unprivileged h rfl, .of_unprivileged h rfl, .of_unprivileged h rfl⟩,
    .of_unprivileged h rfl, .of_unprivileged h rfl, .of_unprivileged h rfl⟩

/-! ## Entering a subroutine -/

/-- Different halfwords of a block that fits in memory begin at different bytes (R47). -/
theorem phys_halfwords_ne (a : Word) {i j : Nat} (hi : i < 16384) (hj : j < 16384) (h : i ≠ j) :
    phys (a + 2 * BitVec.ofNat 16 i) ≠ phys (a + 2 * BitVec.ofNat 16 j) := by
  simp only [phys, Config.memSize, BitVec.toNat_add, BitVec.toNat_mul, BitVec.toNat_ofNat, show (2 : Word).toNat = 2 from rfl]
  omega

/-- A store into one halfword of a block at an even address leaves the other halfwords (R47). -/
theorem State.readHalf_writeHalf_block (s : State) {a : Word} (ha : odd a = false) (w : Word) {i j : Nat} (hi : i < 16384)
    (hj : j < 16384) (h : i ≠ j) :
    (s.writeHalf (a + 2 * BitVec.ofNat 16 j) w).readHalf (a + 2 * BitVec.ofNat 16 i) =
      s.readHalf (a + 2 * BitVec.ofNat 16 i) :=
  s.readHalf_writeHalf_even _ _ w (odd_add_halfwords a i ha) (odd_add_halfwords a j ha) (phys_halfwords_ne a hi hj h)

/-- The two pointers at the head of a block are read back, and the halfwords behind them stay. -/
theorem State.writePointers_spec (s : State) {a : Word} (ha : odd a = false) (v w : Word) :
    let t := (s.writeHalf a v).writeHalf (a + 2) w
    t.readHalf a = v ∧ t.readHalf (a + 2) = w ∧
      ∀ k, 2 ≤ k → k < 16384 → t.readHalf (a + 2 * BitVec.ofNat 16 k) = s.readHalf (a + 2 * BitVec.ofNat 16 k) := by
  have block (u : State) (x : Word) {i j : Nat} := u.readHalf_writeHalf_block ha x (i := i) (j := j)
  have first : a + 2 * BitVec.ofNat 16 0 = a := BitVec.add_zero a
  have second : a + 2 * BitVec.ofNat 16 1 = a + 2 := rfl
  refine ⟨?_, State.readHalf_writeHalf _ _ _, fun k hk hl => ?_⟩
  · have apart := block (s.writeHalf a v) w (i := 0) (j := 1) (by omega) (by omega) (by omega)
    rw [first, second] at apart
    rw [apart, State.readHalf_writeHalf]
  · have outer := block (s.writeHalf a v) w (j := 1) hl (by omega) (by omega)
    have inner := block s v (j := 0) hl (by omega) (by omega)
    rw [second] at outer
    rw [first] at inner
    rw [outer, inner]

/-- ENT's stores: the rest of the free space, the save area, the two pointers, and the SFP (R376, R377). -/
def State.frameEntered (s : State) (sfp la rest next : Word) : State :=
  ((((s.writeHalf next rest).writeHalves (la + 4) s.saveArea).writeHalf la sfp).writeHalf (la + 2) next).setReg 15 la

/-- ENT's checks in their order, and its stores, where no unit stores among its reads (R376). -/
theorem exec_ent {s : State} (hu : Undisturbed s) (r1 r2 : Reg) (i2 : Word) :
    let sfp := s.reg 15
    let la := s.readHalf (sfp + 2)
    let length := s.readHalf la
    let need := BitVec.ofNat 16 (frameNeed i2)
    exec (.ent r1 r2 i2) s = aligned 2 sfp s (aligned 2 la s
      (if frameOverflows (frameNeed i2) length.toNat then raiseProgram 2 .stackFrameOverflow s
       else .next (s.frameEntered sfp la (length - need) (la + need)))) := by
  show execEnt r1 r2 i2 s = _
  rw [execEnt, hu.seenAt]
  rfl

/-- The save area: MSR, register 14, and registers 2 to 14 in their places (R376, R377). -/
theorem State.getElem_saveArea (s : State) (k : Nat) (h : k < s.saveArea.length) :
    s.saveArea[k] = s.reg (if k = 0 then 0 else if k = 1 then 14 else BitVec.ofNat 4 k) := by
  replace h : k < 15 := h
  interval_cases k <;> rfl

/-- A store of halfwords leaves a halfword behind it in a block that fits in memory. -/
theorem State.readHalf_writeHalves_block (s : State) (a : Word) (ws : List Word) (i j : Nat) (hi : i + ws.length ≤ j)
    (hj : j < 16384) : (s.writeHalves (a + 2 * BitVec.ofNat 16 i) ws).readHalf (a + 2 * BitVec.ofNat 16 j) =
      s.readHalf (a + 2 * BitVec.ofNat 16 j) := by
  have outside : ∀ b, b < 2 → ¬ Touched (a + 2 * BitVec.ofNat 16 i) (2 * ws.length)
      (a + 2 * BitVec.ofNat 16 j + BitVec.ofNat 16 b) := by
    intro b hb
    rw [touched_iff, offsetIn]
    have distance : a + 2 * BitVec.ofNat 16 j + BitVec.ofNat 16 b - (a + 2 * BitVec.ofNat 16 i) =
        BitVec.ofNat 16 (2 * (j - i) + b) := by
      bv_omega
    rw [distance, BitVec.toNat_ofNat, Config.memSize]
    omega
  exact State.readHalf_congr (State.byteAt_writeHalves_outside _ _ _ _ (by simpa using outside 0 (by omega)))
    (State.byteAt_writeHalves_outside _ _ _ _ (outside 1 (by omega)))

/-- A field within another: a longer one, or one that begins before it. -/
theorem Touched.mono {e a : Word} {n m : Nat} (h : Touched e n a) (hm : n ≤ m) : Touched e m a := by
  obtain ⟨j, hj, ha⟩ := h
  exact ⟨j, hj.trans_le hm, ha⟩

theorem Touched.within {e d a : Word} {k n m : Nat} (h : Touched (e + d) n a) (hd : d = BitVec.ofNat 16 k) (hm : k + n ≤ m) :
    Touched e m a := by
  obtain ⟨j, hj, ha⟩ := h
  exact ⟨k + j, by omega, by rw [ha, hd, BitVec.ofNat_add, BitVec.add_assoc]⟩

/-- What ENT's stores leave, where the need is a whole number of halfwords, the pointers and the save area among them. -/
theorem State.frameEntered_spec (s : State) (sfp rest : Word) {la : Word} (ha : odd la = false) {need : Nat}
    (even : need % 2 = 0) (hn : 34 ≤ need) : let next := la + BitVec.ofNat 16 need
    let t := s.frameEntered sfp la rest next
    t.stored 15 = la ∧ t.readHalf la = sfp ∧ t.readHalf (la + 2) = next ∧
      t.readHalf (la + 4) = s.reg 0 ∧ t.readHalf (la + 6) = s.reg 14 ∧
      (∀ k, 2 ≤ k → k ≤ 14 → t.readHalf (la + 4 + 2 * BitVec.ofNat 16 k) = s.reg (BitVec.ofNat 4 k)) ∧
      (need + 2 ≤ Config.memSize → t.readHalf next = rest) ∧
      Frame s t [15] [] (either (Touched la 34) (Touched next 2)) := by
  intro next t
  obtain ⟨m, rfl⟩ : ∃ m, need = 2 * m := ⟨need / 2, by omega⟩
  have place : next = la + 2 * BitVec.ofNat 16 m := congrArg (la + ·) (BitVec.ofNat_mul 2 m)
  let u := s.writeHalf next rest
  let v := u.writeHalves (la + 4) s.saveArea
  obtain ⟨back, forward, behind⟩ := v.writePointers_spec ha sfp next
  have size : s.saveArea.length = 15 := rfl
  have saved (k : Nat) (hk : k < s.saveArea.length) : t.readHalf (la + 4 + 2 * BitVec.ofNat 16 k) = s.saveArea[k] := by
    have third : la + 4 + 2 * BitVec.ofNat 16 k = la + 2 * BitVec.ofNat 16 (2 + k) := by
      rw [BitVec.ofNat_add, BitVec.mul_add, ← BitVec.add_assoc]
      rfl
    rw [← u.readHalf_writeHalves_inside (la + 4) s.saveArea k hk (by rw [size, Config.memSize]; omega), third]
    exact behind (2 + k) (by omega) (by omega)
  refine ⟨State.stored_setReg_self _ _ _, back, forward, ?_, ?_, fun k h2 h14 => ?_, fun hl => ?_, ?_⟩
  · have first : la + 4 + 2 * BitVec.ofNat 16 0 = la + 4 := BitVec.add_zero _
    rw [← first, saved 0 (by omega), s.getElem_saveArea, if_pos rfl]
  · have second : la + 4 + 2 * BitVec.ofNat 16 1 = la + 6 := BitVec.add_assoc la 4 2
    rw [← second, saved 1 (by omega), s.getElem_saveArea, if_neg (by omega), if_pos rfl]
  · rw [saved k (by omega), s.getElem_saveArea, if_neg (by omega), if_neg (by omega)]
  · rw [Config.memSize] at hl
    have pointers : t.readHalf next = v.readHalf next := place ▸ behind m (by omega) (by omega)
    have save : v.readHalf next = u.readHalf next :=
      place ▸ u.readHalf_writeHalves_block la s.saveArea 2 m (by rw [size]; omega) (by omega)
    rw [pointers, save, State.readHalf_writeHalf]
  · refine (((((Frame.writeHalf s next rest).trans (.writeHalves u (la + 4) s.saveArea)).trans
      (.writeHalf v la sfp)).trans (.writeHalf _ (la + 2) next)).trans (.setReg _ 15 la)).mono (by simp) (by simp) ?_
    rintro a ((((rest | saved) | back) | forward) | none)
    · exact .inr rest
    · exact .inl (saved.within (k := 4) rfl (by rw [size]))
    · exact .inl (back.mono (by omega))
    · exact .inl (forward.within (k := 2) rfl (by omega))
    · exact none.elim

/-- ENT's need is a whole number of halfwords, and holds the pointers and the save area (R376). -/
theorem frameNeed_spec (i2 : Word) : frameNeed i2 % 2 = 0 ∧ 34 ≤ frameNeed i2 := by
  rw [frameNeed]
  omega

/-- Whether ENT overflows is the machine's own choice only where just the new free-space header would not fit (U18). -/
theorem frameOverflows_of_lt {need length : Nat} (h : length < need) : frameOverflows need length = true := by
  rw [frameOverflows, decide_eq_true h, Bool.true_or]

theorem frameOverflows_of_le {need length : Nat} (h : need + 4 ≤ length) : frameOverflows need length = false := by
  rw [frameOverflows, decide_eq_false (by omega), decide_eq_false (by omega)]
  rfl

/-- Settles O52: ENT's checks in their order, and what its stores leave. -/
theorem enterSubroutine : Obligations.EnterSubroutine := by
  intro s r1 r2 i2 sfp la length need i allocates hu he
  have checks := exec_ent hu r1 r2 i2
  have overflows (ho : odd la = false) (h : frameOverflows need length.toNat = true) : Traps i s 2 .stackFrameOverflow :=
    .of_programInterrupt (checks.trans ((aligned_even he).trans ((aligned_even ho).trans (if_pos h))))
  have enters (ho : odd la = false) (h : frameOverflows need length.toNat = false) : allocates := by
    obtain ⟨even, large⟩ := frameNeed_spec i2
    exact ⟨_, checks.trans ((aligned_even he).trans ((aligned_even ho).trans (if_neg (Bool.eq_false_iff.1 h)))),
      s.frameEntered_spec sfp (length - BitVec.ofNat 16 need) ho even large⟩
  refine ⟨fun ho => .of_second_odd ho checks, fun ho hl => overflows ho (frameOverflows_of_lt hl), fun ho _ _ => ?_,
    fun ho hl => enters ho (frameOverflows_of_le hl)⟩
  cases h : frameOverflows need length.toNat with
  | false => exact .inr (enters ho h)
  | true => exact .inl (overflows ho h)

/-! ## Returning from a subroutine -/

/-- RET's stores: registers 2 to 13, the freed block's header, the SFP and the PC (R378). -/
def State.frameLeft (s : State) (sfp bp length : Word) : State :=
  let rs := registersFrom2 Config.retLast
  let u := ((s.writeRegs (rs.zip (s.readHalves (sfp + 8) rs.length))).writeHalf sfp length).writeHalf (sfp + 2) 0
  (u.setReg 15 bp).setReg 1 (u.stored Config.retLast)

/-- RET's checks in their order, and its stores, where no unit stores among its reads (R378). -/
theorem exec_ret {s : State} (hu : Undisturbed s) (r1 r2 : Reg) :
    let sfp := s.reg 15
    let bp := s.readHalf sfp
    let la := s.readHalf (sfp + 2)
    exec (.ret r1 r2) s = aligned 1 sfp s (aligned 1 bp s
      (if s.readHalf (bp + 2) ≠ sfp then raiseProgram 1 .stackFrameUnderflow s
       else aligned 1 la s (.next (s.frameLeft sfp bp (s.readHalf la + (la - sfp)))))) := by
  show execRet r1 r2 s = _
  rw [execRet, withHalfAt_undisturbed hu]
  simp only [withHalfAt_undisturbed hu, hu.seenAt]
  rfl

/-- The frame of several register writes. -/
theorem Frame.writeRegs (s : State) (ws : List (Reg × Word)) (rs : List Reg) (h : ∀ w ∈ ws, w.1 ∈ rs) :
    Frame s (s.writeRegs ws) rs [] noByte := by
  have kept (q : Reg) (hq : q ∉ rs) : (s.writeRegs ws).stored q = s.stored q :=
    s.stored_writeRegs_other ws q fun w hw e => hq (e ▸ h w hw)
  exact .intro (fun q _ => kept q) (fun hz i _ => congrArg (BitVec.getMsbD · i) (kept 0 hz)) (MemoryKept.of_mem (by simp))
    (by simp)

/-- What RET's stores leave (R378). -/
theorem State.frameLeft_spec (s : State) {sfp : Word} (he : odd sfp = false) (bp length : Word) :
    let t := s.frameLeft sfp bp length
    (∀ k, 2 ≤ k → k ≤ 13 → t.stored (BitVec.ofNat 4 k) = s.readHalf (sfp + 4 + 2 * BitVec.ofNat 16 k)) ∧
      t.stored 15 = bp ∧ t.pc = s.readHalf (sfp + 30) ∧ t.readHalf sfp = length ∧ t.readHalf (sfp + 2) = 0 ∧
      Frame s t [1, 2, 3, 4, 5, 6, 7, 8, 9, 10, 11, 12, 13, 15] [] (Touched sfp 4) := by
  intro t
  let ws := (regRange 2 12).zip (s.readHalves (sfp + 8) 12)
  let v := s.writeRegs ws
  let u := (v.writeHalf sfp length).writeHalf (sfp + 2) 0
  have left : t = (u.setReg 15 bp).setReg 1 (u.stored 13) := rfl
  obtain ⟨header, zero, -⟩ := v.writePointers_spec he length 0
  have reloaded (k : Nat) (hk : k < 12) : u.stored (2 + BitVec.ofNat 4 k) = s.readHalf (sfp + 8 + 2 * BitVec.ofNat 16 k) := by
    rw [State.stored_writeHalf, State.stored_writeHalf, s.stored_writeRegs_range 2 12 k _ (by omega) hk (length_readHalves ..),
      getElem_readHalves]
  rw [left]
  refine ⟨fun k h2 h13 => ?_, ?_, ?_, ?_, ?_, ?_⟩
  · obtain ⟨j, rfl⟩ := Nat.exists_eq_add_of_le h2
    have place : sfp + 4 + 2 * BitVec.ofNat 16 (2 + j) = sfp + 8 + 2 * BitVec.ofNat 16 j := by
      bv_omega
    rw [State.stored_setReg_ne _ _ (by bv_omega), State.stored_setReg_ne _ _ (by bv_omega), place, BitVec.ofNat_add]
    exact reloaded j (by omega)
  · rw [State.stored_setReg_ne _ _ (by decide), State.stored_setReg_self]
  · have last : sfp + 8 + 2 * BitVec.ofNat 16 11 = sfp + 30 := BitVec.add_assoc sfp 8 22
    rw [State.pc, State.stored_setReg_self, ← last]
    exact reloaded 11 (by omega)
  · rw [State.readHalf_setReg, State.readHalf_setReg]
    exact header
  · rw [State.readHalf_setReg, State.readHalf_setReg]
    exact zero
  · have range : ∀ w ∈ ws, w.1 ∈ regRange 2 12 := fun w hw => (List.of_mem_zip hw).1
    refine (((((Frame.writeRegs s ws _ range).trans (.writeHalf v sfp length)).trans (.writeHalf _ (sfp + 2) 0)).trans
      (.setReg u 15 bp)).trans (.setReg _ 1 (u.stored 13))).mono (by decide) (by simp) ?_
    rintro a ((((none | header) | zero) | none) | none)
    · exact none.elim
    · exact header.mono (by omega)
    · exact zero.within (k := 2) rfl (by omega)
    · exact none.elim
    · exact none.elim

/-- Settles O53: RET's checks in their order, and what its stores leave. -/
theorem returnFromSubroutine : Obligations.ReturnFromSubroutine := by
  intro s r1 r2 sfp bp la i hu he
  have checks := exec_ret hu r1 r2
  refine ⟨fun hb => .of_second_odd hb checks, fun hb hf => ?underflow, fun hb hf hl => ?odd, fun hb hf hl => ?returns⟩
  all_goals have passed := checks.trans ((aligned_even he).trans (aligned_even hb))
  case underflow => exact .of_programInterrupt (passed.trans (if_pos hf))
  case odd => exact .of_odd hl (passed.trans (if_neg (not_not_intro hf)))
  case returns =>
    exact ⟨_, passed.trans ((if_neg (not_not_intro hf)).trans (aligned_even hl)), s.frameLeft_spec he bp _⟩

end Sys2Proof.Machine
end

section
/-! PROOFS. The S/360 interface: the answer to an initial selection, and EXCC, TRB and SS. -/

namespace Sys2Proof.Machine

/-! ## UCB pointers -/

/-- A UCB pointer is valid when it is even and not zero (R412). -/
theorem ucbValid_of_even {p : Word} (h0 : p ≠ 0) (ho : odd p = false) : ucbValid p = true := by
  rw [ucbValid, ho, bne_iff_ne.2 h0]
  rfl

theorem ucbValid_eq_false {p : Word} (h : p = 0 ∨ odd p = true) : ucbValid p = false := by
  rcases h with h | h
  · rw [h]; rfl
  · rw [ucbValid, h, Bool.not_true, Bool.and_false]

/-! ## Initial selection -/

/-- A step that finds an initial selection answers it, before anything else but a reset (R37, R424). -/
theorem Turn.step_select {s : State} {x : Selection} (ht : Turn s) (hi : s.inhibit = false)
    (hs : s.interface.selection = some x) : step s = landing [] (handleSelection x s.turnTaken) := by
  obtain ⟨⟨later, -, ipl⟩, run, noReset⟩ := ht
  rw [step_of_turn s later, cpuTurn, show s.turnTaken.panel.ipl = none from ipl]
  dsimp only
  rw [show s.turnTaken.panel.stopped = false from run, show s.turnTaken.interface.resetSignal = false from noReset,
    show s.turnTaken.inhibit = false from hi, show s.turnTaken.interface.selection = some x from hs]
  rfl

/-- The answers to a selection, where no unit stores among the reads (R424): a device that is not defined, Test I/O, Busy, Unit
Exception, a status kept, and the command taken. -/
theorem handleSelection_spec {s : State} (hu : Undisturbed s) (d : Reg) (command : Byte) :
    let p := s.readHalf (0x46 + 2 * d.setWidth 16)
    let field := p + Config.ucbStatus
    let status := s.byteAt field
    let answer := handleSelection { device := d, command := command } s
    (4 ≤ d.toNat → answer = .refused (.undefinedDevice d)) ∧
    (d.toNat < 4 →
      (command = 0 → ucbValid p = true → answer = .next (((s.consume 1).setByte field
        (if Config.freeBit s.freeCount then status &&& Config.statusBusy else 0)).selected d status)) ∧
      ((command = 0 ∧ ucbValid p = false) ∨ (command ≠ 0 ∧ s.selectEnabled = false) →
        answer = .next (s.selected d Config.statusBusy)) ∧
      (command ≠ 0 → s.selectEnabled = true →
        (ucbValid p = false → answer = .next
          ((s.selected d Config.statusUnitException).selectInterrupt (0x8000 ||| d.setWidth 16))) ∧
        (ucbValid p = true → status ≠ 0 → answer = .next
          ((s.setByte field 0).selected d (status ||| Config.statusBusy))) ∧
        (ucbValid p = true → status = 0 → answer = .next (((s.setByte (p + Config.ucbCommand) command).selected d
          (s.byteAt (p + Config.ucbStatusTable + command.setWidth 16))).selectInterrupt (0x2000 ||| d.setWidth 16))))) := by
  intro p field status answer
  have table : (s.seenAt 0).readHalf (channelEntry d) = p := by rw [hu.seenAt]; rfl
  have kept : (s.seenAt 1).byteAt (p + Config.ucbStatus) = status := by rw [hu.seenAt]
  simp only [answer, handleSelection, table, kept]
  refine ⟨fun h => if_pos h, fun hd => ?_⟩
  rw [if_neg (Nat.not_le.2 hd)]
  refine ⟨fun hc hv => by rw [if_pos hc, if_pos hv], ?_, fun hc he => ⟨fun hv => ?_, fun hv hst => ?_, fun hv hst => ?_⟩⟩
  · rintro (⟨hc, hv⟩ | ⟨hc, he⟩)
    · rw [if_pos hc, hv, if_neg Bool.false_ne_true]
    · rw [if_neg hc, he, Bool.not_false, if_pos rfl]
  all_goals rw [if_neg hc, he, hv, Bool.not_true, if_neg Bool.false_ne_true]
  · rw [Bool.not_false, if_pos rfl]; rfl
  · rw [if_pos hst]; rfl
  · rw [if_neg (not_not_intro hst)]; rfl

/-- Beside what is sent, the selection and the halfword read ahead, a selection's interrupt is the interrupt sequence. -/
theorem Switched.selectInterrupt (v : State) (d : Reg) (status : Byte) (code : Word) :
    Switched v { ((v.selected d status).selectInterrupt code) with
      outputs := v.outputs, interface := v.interface, nsi := v.nsi } .s360 code :=
  (Switched.asynchronousInterrupt (v.selected d status) .s360 code).congr ⟨rfl, rfl⟩ ⟨rfl, rfl⟩ rfl

/-- A frame speaks of registers, memory and what it keeps besides. -/
theorem Frame.congr {s t t' : State} {rs : List Reg} {bits : List Nat} {stored : Word → Prop} (h : Frame s t rs bits stored)
    (hr : t'.regs = t.regs) (hm : t'.mem = t.mem) (hh : t'.hidden = t.hidden) : Frame s t' rs bits stored := by
  obtain ⟨regs, msr, mem, hidden⟩ := h
  refine .intro (fun r h0 hn => ?_) (fun hz i hi => ?_) (fun a ha => ?_) (hh.trans hidden)
  · rw [State.stored_congr hr, regs r h0 hn]
  · rw [State.msr_congr hr, msr hz i hi]
  · rw [State.byteAt, hm, ← State.byteAt, mem a ha]

/-- Settles O59: the step is the firmware's answer, which by the command, the mask, the pointer and the status is one of five. -/
theorem initialSelection : Obligations.InitialSelection := by
  intro s d command ht hi hs p field status sent beside
  have quiet : Undisturbed s.turnTaken := ht.1.2.1
  have answer := ht.step_select hi hs
  have next {t : State} (e : handleSelection { device := d, command := command } s.turnTaken = .next t) :
      step s = .next t.settled := by rw [answer, e, landing_nil_next]
  obtain ⟨undefined, defined⟩ := handleSelection_spec quiet d command
  refine ⟨fun h => ?_, fun hd hc h0 ho => ?test, fun hd h => ?busy, fun hd hc he hp => ?exception,
    fun hd hc he h0 ho hst => ?kept, fun hd hc he h0 ho hst => ?taken⟩
  · rw [answer, undefined h, landing_refused]
  all_goals obtain ⟨test, busy, enabled⟩ := defined hd
  case test =>
    let left := if Config.freeBit s.freeCount then status &&& Config.statusBusy else 0
    refine ⟨_, next (test hc (ucbValid_of_even h0 ho)), ⟨rfl, rfl⟩, ?_, (Frame.setByte s field left).congr rfl rfl rfl⟩
    have stored : (s.setByte field left).byteAt field = left := (s.byteAt_setByte ..).trans (if_pos rfl)
    by_cases free : Config.freeBit s.freeCount = true
    · exact .inr (stored.trans (if_pos free))
    · exact .inl (stored.trans (if_neg free))
  case busy =>
    have unanswered := h.imp_left fun ⟨hc, hp⟩ => And.intro hc (ucbValid_eq_false hp)
    exact ⟨_, next (busy unanswered), ⟨rfl, rfl⟩, (Frame.refl s).congr rfl rfl rfl⟩
  all_goals obtain ⟨exception, kept, taken⟩ := enabled hc he
  case exception =>
    refine ⟨_, next (exception (ucbValid_eq_false hp)), ⟨rfl, rfl⟩, ?_⟩
    exact (Switched.selectInterrupt s.turnTaken d Config.statusUnitException _).congr ⟨rfl, rfl⟩ ⟨rfl, rfl⟩ rfl
  case kept =>
    refine ⟨_, next (kept (ucbValid_of_even h0 ho) hst), ⟨rfl, rfl⟩, ?_, (Frame.setByte s field 0).congr rfl rfl rfl⟩
    exact (State.byteAt_setByte ..).trans (if_pos rfl)
  case taken =>
    refine ⟨_, next (taken (ucbValid_of_even h0 ho) hst), ⟨rfl, rfl⟩, ?_⟩
    let stored := s.turnTaken.setByte (p + Config.ucbCommand) command
    exact (Switched.selectInterrupt stored d (s.byteAt (p + Config.ucbStatusTable + command.setWidth 16)) _).congr
      ⟨rfl, rfl⟩ ⟨rfl, rfl⟩ rfl

/-! ## Transfers -/

theorem Frame.memoryKept {s t : State} {rs : List Reg} {bits : List Nat} {stored : Word → Prop} (h : Frame s t rs bits stored) :
    MemoryKept s t stored := h.2.2.1

/-- A halfword that lies outside the bytes an instruction stores to is as before. -/
theorem MemoryKept.readHalf {s t : State} {stored : Word → Prop} (h : MemoryKept s t stored) {a : Word}
    (ha : ∀ x, Touched a 2 x → ¬ stored x) : t.readHalf a = s.readHalf a :=
  State.readHalf_congr (h a (ha a ⟨0, by omega, by simp⟩)) (h (a + 1) (ha (a + 1) ⟨1, by omega, rfl⟩))

/-- The end of a transfer of `n` bytes: a Bus-Out Check recorded, the condition code set (R385). -/
def State.transferEnded (s : State) (p : Word) (e : Ending) (n : Nat) : State :=
  ((s.recordEnding p e).setCc e.cc).consume (n + 1)

/-- What the end of a transfer leaves (R385). -/
theorem State.transferEnded_spec (s : State) (p : Word) (e : Ending) (n : Nat) :
    let t := s.transferEnded p e n
    let endFields := either (Touched (p + Config.ucbSense) 1) (Touched (p + Config.ucbStatus) 1)
    (Condition t true false false ∨ Condition t false true false ∨ Condition t false false true) ∧
      (t.c0 = true → e = .successful ∨ ((t.byteAt (p + Config.ucbSense)).getMsbD 2 = true ∧
        (t.byteAt (p + Config.ucbStatus)).getMsbD 6 = true)) ∧
      (t.c0 = false → MemoryKept s t noByte) ∧ t.outputs = s.outputs ∧ Frame s t [] [0, 1, 2] endFields := by
  intro t endFields
  obtain ⟨one, outputs, frame, unchecked⟩ := Ending.cc_spec (s.recordEnding p e) (n + 1) e
  have recorded := s.recordEnding_frame p e
  refine ⟨one, fun h => ?_, fun h a _ => ?_, outputs.trans (s.recordEnding_outputs p e),
    (recorded.trans frame).mono (by simp) (by simp) fun _ h => h.elim id False.elim⟩
  · refine (Ending.of_c0 _ _ _ h).imp_right fun check => ?_
    subst check
    exact s.recordEnding_checked p
  · have same : s.recordEnding p e = s := if_neg (unchecked h)
    rw [show t.byteAt a = (s.recordEnding p e).byteAt a from rfl, same]

/-- EXCC's transfer of `n` bytes, and what it stores of it in the UCB at `p` (R385). -/
def State.exccTransferred (s : State) (d : Reg) (p : Word) (n : Nat) : State :=
  let a := s.readHalf (p + Config.ucbDataAddress)
  ((s.transfer 4 d (s.byteAt (p + Config.ucbCommand)) a n).writeHalf (p + Config.ucbFinalAddress)
    (finalAddress a n s.freeCount)).writeHalf (p + Config.ucbResidual)
      (s.readHalf (p + Config.ucbCount) - BitVec.ofNat 16 n)

/-- The three instructions begin with the checks of privilege, device and UCB pointer (R385 to R387). -/
theorem exec_excc (s : State) (d r2 : Reg) : ∃ k, exec (.excc d r2) s = withDevice 1 d s k :=
  ⟨_, show execExcc d r2 s = _ from rfl⟩
theorem exec_trb (s : State) (d x2 b2 : Reg) (d2 : Disp) : ∃ k, exec (.trb d x2 b2 d2) s = withDevice 2 d s k :=
  ⟨_, show execTrb d x2 b2 d2 s = _ from rfl⟩
theorem exec_ss (s : State) (d x2 b2 : Reg) (d2 : Disp) : ∃ k, exec (.ss d x2 b2 d2) s = withDevice 2 d s k :=
  ⟨_, show execSs d x2 b2 d2 s = _ from rfl⟩

/-- The three instructions on a defined device with a valid UCB pointer, where no unit stores among the reads (R385 to R387). -/
theorem exec_channel {s : State} {d : Reg} (hu : Undisturbed s) (hp : s.privileged = true) (hd : d.toNat < 4)
    (h0 : s.readHalf (0x46 + 2 * d.setWidth 16) ≠ 0) (ho : odd (s.readHalf (0x46 + 2 * d.setWidth 16)) = false)
    (r2 x2 b2 : Reg) (d2 : Disp) :
    let p := s.readHalf (0x46 + 2 * d.setWidth 16)
    let a := s.eaRX x2 b2 d2
    let e := endingOf s.freeCount
    let n := fun count => transferLength e count s.freeCount
    let all := n (s.readHalf (p + Config.ucbCount)).toNat
    let status := if a = 0 then s.byteAt (p + Config.ucbStatus) else lowByte a
    exec (.excc d r2) s = .next ((s.exccTransferred d p all).transferEnded p e all) ∧
    exec (.trb d x2 b2 d2) s =
      .next ((s.transfer 2 d (s.byteAt (p + Config.ucbCommand)) a (n 1)).transferEnded p e (n 1)) ∧
    exec (.ss d x2 b2 d2) s =
      if a = 0 ∧ status = 0 then .next (s.setCc (.all true false false)) else .next (s.presentStatus d p status) := by
  refine ⟨?_, ?_, ?_⟩
  · show execExcc d r2 s = _
    rw [execExcc, withDevice_valid _ _ _ _ hu hp hd h0 ho, hu.seenAt, hu.seenAt, hu.seenAt]
    rfl
  · show execTrb d x2 b2 d2 s = _
    rw [execTrb, withDevice_valid _ _ _ _ hu hp hd h0 ho, hu.seenAt]
    rfl
  · show execSs d x2 b2 d2 s = _
    rw [execSs, withDevice_valid _ _ _ _ hu hp hd h0 ho]
    simp only [ne_eq, ite_not]

/-- What EXCC's transfer leaves: what is sent, the fields where they do not overlap, and all it stores to (R385). -/
theorem State.exccTransferred_spec {s : State} (hu : Undisturbed s) (d : Reg) (p : Word) (n : Nat) :
    let t := s.exccTransferred d p n
    let a := s.readHalf (p + Config.ucbDataAddress)
    let inward := (s.byteAt (p + Config.ucbCommand)).getLsbD 0
    let final := Touched (p + Config.ucbFinalAddress) 2
    let residual := Touched (p + Config.ucbResidual) 2
    t.readHalf (p + Config.ucbResidual) = s.readHalf (p + Config.ucbCount) - BitVec.ofNat 16 n ∧
      ((∀ x, final x → ¬ residual x) → n ≠ 0 → t.readHalf (p + Config.ucbFinalAddress) = a + BitVec.ofNat 16 n) ∧
      t.outputs = (if inward then s.outputs else s.outputs ++ (s.readBytes a n).map (Output.channelData d)) ∧
      Frame { s with outputs := t.outputs } t [] []
        (either (if inward then Touched a n else noByte) (either final residual)) := by
  intro t a inward final residual
  let moved := s.transfer 4 d (s.byteAt (p + Config.ucbCommand)) a n
  let addressed := moved.writeHalf (p + Config.ucbFinalAddress) (finalAddress a n s.freeCount)
  obtain ⟨outputs, frame⟩ := s.transfer_spec 4 d (s.byteAt (p + Config.ucbCommand)) a n
  rw [hu.readEach] at outputs
  refine ⟨State.readHalf_writeHalf _ _ _, fun apart hn => ?_, outputs, ?_⟩
  · have kept : t.readHalf (p + Config.ucbFinalAddress) = addressed.readHalf (p + Config.ucbFinalAddress) :=
      (Frame.writeHalf addressed (p + Config.ucbResidual) _).memoryKept.readHalf apart
    rw [kept, State.readHalf_writeHalf, finalAddress, if_neg hn]
  · have same : t.outputs = moved.outputs := rfl
    rw [same]
    exact ((frame.trans (.writeHalf moved (p + Config.ucbFinalAddress) _)).trans
      (.writeHalf addressed (p + Config.ucbResidual) _)).mono (by simp) (by simp) fun _ h => or_assoc.1 h

/-- Settles O56: the device, then the pointer; then what a transfer and its end leave, and how the channel answers a status. -/
theorem channelInstructions : Obligations.ChannelInstructions := by
  intro s d r2 x2 b2 d2 hu hp p a status one inward final residual endFields checked
  obtain ⟨_, excc⟩ := exec_excc s d r2
  obtain ⟨_, trb⟩ := exec_trb s d x2 b2 d2
  obtain ⟨_, ss⟩ := exec_ss s d x2 b2 d2
  refine ⟨fun h => ?undefined, fun hd h => ?invalid, fun hd h0 ho => ?valid⟩
  case undefined =>
    have refused {i ilc k} (e : exec i s = withDevice ilc d s k) := e.trans (withDevice_undefined ilc d s k hp h)
    simp only [List.forall_mem_cons, List.not_mem_nil, IsEmpty.forall_iff, implies_true, and_true]
    exact ⟨refused excc, refused trb, refused ss⟩
  case invalid =>
    have trapped {i ilc k} (e : exec i s = withDevice ilc d s k) : Traps i s ilc .invalidUcbAddress :=
      .of_programInterrupt (e.trans (withDevice_invalid ilc d s k hu hp hd h))
    exact ⟨trapped excc, trapped trb, trapped ss⟩
  case valid =>
    let e := endingOf s.freeCount
    let n := transferLength e (s.readHalf (p + Config.ucbCount)).toNat s.freeCount
    let k := transferLength e 1 s.freeCount
    obtain ⟨excc, trb, ss⟩ := exec_channel hu hp hd h0 ho r2 x2 b2 d2
    refine ⟨⟨_, excc, ?excc⟩, ⟨_, trb, ?trb⟩, fun ha hst => ?accepted, fun h => ?presented⟩
    case excc =>
      obtain ⟨one, ended, kept, sent, frame⟩ := (s.exccTransferred d p n).transferEnded_spec p e n
      obtain ⟨remaining, following, outputs, moved⟩ := State.exccTransferred_spec hu d p n
      refine ⟨one, n, transferLength_le _ _ _, fun h => (ended h).imp_left fun h => congrArg (transferLength · _ _) h,
        fun h => ?_, fun apart hn => ?_, sent.trans outputs, ?_⟩
      · refine Eq.trans ?_ remaining
        rcases h with h | h
        · exact (kept h).readHalf fun _ _ h => h
        · exact frame.memoryKept.readHalf h
      · exact (frame.memoryKept.readHalf fun x hx => (apart x hx).1).trans (following (fun x hx => (apart x hx).2) hn)
      · rw [sent]
        exact (moved.trans frame).mono (by simp) (by simp) fun _ h => or_assoc.1 h
    case trb =>
      obtain ⟨one, ended, -, sent, frame⟩ := (s.transfer 2 d (s.byteAt (p + Config.ucbCommand)) a k).transferEnded_spec p e k
      obtain ⟨outputs, moved⟩ := s.transfer_spec 2 d (s.byteAt (p + Config.ucbCommand)) a k
      rw [hu.readEach] at outputs
      refine ⟨one, k, transferLength_le _ _ _, fun h => (ended h).imp_left fun h => congrArg (transferLength · _ _) h,
        sent.trans outputs, ?_⟩
      rw [sent]
      exact (moved.trans frame).mono (by simp) (by simp) fun _ h => h
    case accepted => exact .of_setCc (ss.trans (if_pos ⟨ha, (if_pos ha).trans hst⟩))
    case presented =>
      have kept : ¬ (a = 0 ∧ (if a = 0 then status else lowByte a) = 0) := fun ⟨ha, hst⟩ =>
        h.elim (· ha) (· ((if_pos ha).symm.trans hst))
      obtain ⟨one, sent, stacked, frame⟩ := s.presentStatus_spec d p (if a = 0 then status else lowByte a)
      refine ⟨_, ss.trans (if_neg kept), one, sent, stacked, ?_⟩
      rw [sent]
      exact frame

end Sys2Proof.Machine
end

section
/-! PROOFS. The local input and output: the IOCC, the commands, and SIO and SIOR. -/

namespace Sys2Proof.Machine

/-! ## The IOCC and the commands -/

/-- A field of the IOCC's second halfword, by the manual's bit numbers (R384). -/
theorem getMsbD_field (w : Word) (a n i : Nat) (ha : a + n ≤ 16) (hi : i < n) :
    (w.extractLsb' a n).getMsbD i = w.getMsbD (16 - a - n + i) := by
  rw [BitVec.getMsbD_eq_getLsbD, BitVec.getMsbD_eq_getLsbD, BitVec.getLsbD_extractLsb', decide_eq_true hi,
    decide_eq_true (show n - 1 - i < n by omega), decide_eq_true (show 16 - a - n + i < 16 by omega), Bool.true_and,
    Bool.true_and, Bool.true_and, show a + (n - 1 - i) = 16 - 1 - (16 - a - n + i) by omega]

/-- Which commands use the address field as a memory address, and which begin an operation (R384, R430 to R437). -/
theorem Command.usesMemory_iff (k : Command) : k.usesMemory = true ↔
    k ∈ ([.readB, .terminalRead true, .terminalRead false, .panelRead, .panelWrite, .diskTransfer, .cardRead] :
      List Command) := by
  cases k <;> simp [Command.usesMemory]

theorem Command.begins_iff (k : Command) : k.begins = true ↔
    k ∈ ([.diskMove, .diskTransfer, .cardRead, .terminalWrite true, .terminalWrite false] : List Command) := by
  cases k <;> simp [Command.begins]

/-- The count of a card is the low seven bits of its count halfword, any other all of it (R430, R433). -/
theorem bufferCount_eq (k : Command) (w : Word) : bufferCount k w = if k = .cardRead then w.toNat % 128 else w.toNat := by
  cases k <;> simp [bufferCount]

theorem countUnpredictable_iff (k : Command) (n : Nat) :
    countUnpredictable k n = true ↔ (k = .diskTransfer ∧ n = 0) ∨ (k = .cardRead ∧ 80 < n) := by
  cases k <;> simp [countUnpredictable]

/-- The status sensed of a unit: its own, with the bits of an offline one (R430, R431, R433). -/
theorem State.sensed_eq (s : State) (u : Fin 11) : s.sensed u = (s.unit u).ush ||| if (s.unit u).offline = false then 0
    else if u.val = 2 then 0x2000 else if u.val = 3 ∨ u.val = 6 then 0x0400
    else if u.val = 4 then CardFlag.offline.bit else 0 := by
  rw [State.sensed]
  congr 1
  cases (s.unit u).offline
  · rfl
  · fin_cases u <;> rfl

/-! ## What a command does at once -/

/-- A unit replaced by itself. -/
theorem State.units_set_self (s : State) (u : Fin 11) : s.units.set u.val (s.unit u) u.isLt = s.units :=
  Vector.set_getElem_self u.isLt

/-- Of two states of one unit the later stays. -/
theorem State.setUnit_setUnit (s : State) (u : Fin 11) (l m : LocalUnit) : (s.setUnit u l).setUnit u m = s.setUnit u m :=
  congrArg (fun units => { s with units := units }) (Vector.set_set l u.isLt)

/-- The No Operation (R420): bit 31 clears a request but the META 4B's, and with unit 5's a pending Parity Check. -/
theorem State.perform_nop (s : State) (u : Fin 11) (c : Iocc) : let clears := c.modifier.getLsbD 0 && u.val != 1
    s.perform u c .nop = { s with
      units := s.units.set u.val { s.unit u with request := (s.unit u).request && !clears } u.isLt
      parityPending := s.parityPending && !(clears && u.val == 5) } := by
  intro clears
  show (if clears = true then s.clearRequest u else s) = _
  cases clears
  · simp only [Bool.not_false, Bool.false_and, Bool.and_true, s.units_set_self, if_neg Bool.false_ne_true]
  · simp only [Bool.not_true, Bool.true_and, Bool.and_false, if_pos]
    rfl

/-- The Control of the META 4B (R437): the bits are cleared and sent, and a status of zero clears the request. -/
theorem State.perform_controlB (s : State) (u : Fin 11) (c : Iocc) : let ush := (s.unit u).ush &&& ~~~c.address
    s.perform u c .controlB = { s with
      units := s.units.set u.val { s.unit u with ush := ush, request := (s.unit u).request && ush != 0 } u.isLt
      outputs := s.outputs ++ [.clearB c.address] } := by
  intro ush
  let t := (s.clearStatus u c.address).send (.clearB c.address)
  have own : t.unit u = { s.unit u with ush := ush } := (State.unit_setUnit s u u _).trans (if_pos rfl)
  rw [State.perform]
  dsimp only
  by_cases h : ush = 0
  · rw [if_pos (by rw [own]; exact h), own, h]
    simp only [bne_self_eq_false, Bool.and_false]
    exact (s.send (.clearB c.address)).setUnit_setUnit u _ _
  · rw [if_neg (by rw [own]; exact h), bne_iff_ne.2 h, Bool.and_true]
    rfl

/-- The bit of the status codes that transmits a BREAK is bit 2 (R432). -/
theorem codeBreak_on (w : Word) : (w &&& codeBreak != 0) = w.getMsbD 2 := by
  rw [show codeBreak = BitVec.twoPow 16 13 from rfl, BitVec.and_twoPow, show w.getMsbD 2 = w.getLsbD 13 from rfl]
  cases w.getLsbD 13 <;> rfl

/-- The Control of a terminal (R431, R432): the codes are kept and sent, and the /360's may send a BREAK. -/
theorem State.perform_terminalControl (s : State) (u : Fin 11) (c : Iocc) (h : Bool) :
    s.perform u c (.terminalControl h) = { s with
      hostTerminal := if h then { s.hostTerminal with codes := c.address } else s.hostTerminal
      terminal := if h then s.terminal else { s.terminal with codes := c.address }
      outputs := s.outputs ++ [.terminalControl h c.address] ++ if h && c.address.getMsbD 2 then [.hostBreak] else [] } := by
  rw [State.perform]
  dsimp only
  rw [codeBreak_on]
  cases h with
  | false =>
    simp only [Bool.false_and, if_neg Bool.false_ne_true, List.append_nil]
    rfl
  | true =>
    cases c.address.getMsbD 2
    · simp only [Bool.true_and, if_neg Bool.false_ne_true, List.append_nil]
      rfl
    · rfl

/-- The Read of a terminal (R431): the last character is stored, and Input Ready is off. -/
theorem State.perform_terminalRead (s : State) (u : Fin 11) (c : Iocc) (h : Bool) : s.perform u c (.terminalRead h) =
    State.writeHalf { s with units := s.units.set u.val { s.unit u with ush := (s.unit u).ush &&& 0xBFFF } u.isLt } c.address
      (if h then s.hostTerminal.input else s.terminal.input) := by
  cases h <;> rfl

/-! ## What a unit does with a command -/

/-- An operation begun (R430, R431, R433): the unit is busy, and a terminal's character is sent. -/
theorem State.begin_eq (s : State) (u : Fin 11) (c : Iocc) (k : Command) (n : Nat) : let l := s.unit u
    s.begin u c k n = { s with
      units := s.units.set u.val { l with
        operation := some { iocc := c, count := n, moved := [] }
        ush := if u.val = 2 then (l.ush &&& 0x0803) ||| 0x3000
          else if u.val = 4 then CardFlag.busy.bit ||| CardFlag.offline.bit else (l.ush &&& 0x7FFF) ||| 0x0C00 } u.isLt
      outputs := s.outputs ++ if k = .terminalWrite true then [.terminalWrite true c.address]
        else if k = .terminalWrite false then [.terminalWrite false c.address] else [] } := by
  intro l
  have status : (l.ush &&& keptBits u.val) ||| busyBits u.val = if u.val = 2 then (l.ush &&& 0x0803) ||| 0x3000
      else if u.val = 4 then CardFlag.busy.bit ||| CardFlag.offline.bit else (l.ush &&& 0x7FFF) ||| 0x0C00 := by
    by_cases disk : u.val = 2
    · simp [keptBits, busyBits, unitDisk, disk]
    · by_cases card : u.val = 4
      · simp [keptBits, busyBits, unitDisk, unitCard, card]
      · simp [keptBits, busyBits, unitDisk, unitCard, disk, card]
  rw [← status]
  cases k with
  | terminalWrite host => cases host <;> rfl
  | _ => simp [State.begin, State.setUnit, l]

/-- A unit's response (R384): C0 where it is busy or offline, C2 where the command completes at once, and else C1 or the refusal of
an unpredictable count. -/
theorem respond_spec (u : Fin 11) (p : Word) (c : Iocc) (k : Command) (s : State) : let l := s.unit u
    let n := bufferCount k (s.readHalf c.address)
    (k ≠ .nop → l.offline = true ∨ l.operation.isSome = true → respond u p c k s = .next (s.answer u p ccBusy)) ∧
    (k = .nop ∨ (l.offline = false ∧ l.operation = none ∧ k.begins = false) →
      respond u p c k s = .next ((s.perform u c k).answer u p ccComplete)) ∧
    (l.offline = false → l.operation = none → k.begins = true →
      (countUnpredictable k n = true → respond u p c k s = .refused .unpredictableTransfer) ∧
      (countUnpredictable k n = false → respond u p c k s = .next ((s.begin u c k n).answer u p ccOperating))) := by
  intro l n
  have idle (h : l.offline = false) (ho : l.operation = none) : ¬ (l.offline || l.operation.isSome) = true := by
    rw [h, ho]
    decide
  rw [respond]
  refine ⟨fun hk h => ?busy, fun h => ?complete, fun h ho hb => ?begins⟩
  case busy => rw [if_neg hk, if_pos (Bool.or_eq_true_iff.2 h)]
  case complete =>
    by_cases hk : k = .nop
    · rw [if_pos hk]
    · obtain ⟨h, ho, hb⟩ := h.resolve_left hk
      rw [if_neg hk, if_neg (idle h ho), hb, if_neg Bool.false_ne_true]
  case begins =>
    have hk : k ≠ .nop := fun e => by rw [e] at hb; exact Bool.false_ne_true hb
    rw [if_neg hk, if_neg (idle h ho), if_pos hb]
    exact ⟨fun hn => if_pos hn, fun hn => if_neg (Bool.eq_false_iff.1 hn)⟩

/-! ## SIO and SIOR -/

/-- The SIO operation's checks in their order, where no unit stores among its reads (R384, R412, R414, R421). -/
theorem startIo_spec {s : State} (hu : Undisturbed s) (ilc : BitVec 2) (w0 w1 : Word) : let c := ioccOf w0 w1
    let p := s.readHalf (0x30 + 2 * c.unit.setWidth 16)
    (ucbValid p = false → startIo ilc w0 w1 s = raiseProgram ilc .invalidUcbAddress s) ∧
    (ucbValid p = true → installedUnit c.unit = none ∨ s.readHalf p ≠ c.unit.setWidth 16 →
      startIo ilc w0 w1 s = raiseInvalidUnit ilc c.unit s) ∧
    (∀ u, ucbValid p = true → installedUnit c.unit = some u → s.readHalf p = c.unit.setWidth 16 →
      (commandOf c = none → startIo ilc w0 w1 s = .refused .undefinedIocc) ∧
      ∀ k, commandOf c = some k → startIo ilc w0 w1 s =
        if k.usesMemory && odd c.address then raiseProgram ilc .alignment s else respond u p c k s) := by
  intro c p
  have checks : startIo ilc w0 w1 s = if !ucbValid p then raiseProgram ilc .invalidUcbAddress s else
      match installedUnit c.unit with
      | none => raiseInvalidUnit ilc c.unit s
      | some u => if s.readHalf p ≠ c.unit.setWidth 16 then raiseInvalidUnit ilc c.unit s else
        match commandOf c with
        | none => .refused .undefinedIocc
        | some k => if k.usesMemory && odd c.address then raiseProgram ilc .alignment s else respond u p c k s := by
    rw [startIo, hu.seenAt, hu.seenAt]
    rfl
  rw [checks]
  refine ⟨fun hv => by rw [hv]; rfl, fun hv h => ?_, fun u hv hi hm => ?_⟩
  · rw [hv, Bool.not_true, if_neg Bool.false_ne_true]
    split
    · rfl
    · next u hi => exact if_pos (h.resolve_left fun hn => nomatch hi.symm.trans hn)
  · rw [hv, Bool.not_true, if_neg Bool.false_ne_true, hi]
    dsimp only
    rw [if_neg (not_not_intro hm)]
    exact ⟨fun hk => by rw [hk], fun k hk => by rw [hk]⟩

/-- The answer's frame where the command itself stored nothing into memory (R384). -/
theorem Frame.answer_noByte {s t : State} (h : Frame s t [] [] noByte) (u : Fin 11) (p : Word) (a b c : Bool) :
    Frame s (t.answer u p (.all a b c)) [] [0, 1, 2] (Touched (p + 2) 2) :=
  (h.trans (t.answer_frame u p a b c)).mono (by simp) (by simp) fun _ h => h.elim False.elim id

/-- A command that stores a halfword at an even address (R431, R436, R437): what its answer leaves, and the halfword where the
status halfword does not fall on it. -/
theorem State.answer_stored {s v : State} {e w : Word} (h : v = s.writeHalf e w) (he : odd e = false) {p : Word}
    (ho : odd p = false) (u : Fin 11) (a b c : Bool) : let t := v.answer u p (.all a b c)
    Frame s t [] [0, 1, 2] (either (Touched e 2) (Touched (p + 2) 2)) ∧ (phys e ≠ phys (p + 2) → t.readHalf e = w) := by
  subst h
  obtain ⟨-, -, others, frame⟩ := State.answer_spec (Frame.writeHalf s e w) u p a b c
  exact ⟨frame, fun apart => (others e he ho apart).trans (s.readHalf_writeHalf e w)⟩

/-- SIO and SIOR are the SIO operation on the IOCC in memory and in two registers (R381, R382). -/
theorem exec_sior {s : State} (hp : s.privileged = true) (r1 r2 : Reg) :
    exec (.sior r1 r2) s = startIo 1 (s.reg r1) (s.reg r2) s := whenPrivileged_on hp

theorem exec_sio {s : State} (hu : Undisturbed s) (hp : s.privileged = true) (r1 x2 b2 : Reg) (d2 : Disp)
    (he : odd (s.eaRX x2 b2 d2) = false) : exec (.sio r1 x2 b2 d2) s =
      startIo 2 (s.readHalf (s.eaRX x2 b2 d2)) (s.readHalf (s.eaRX x2 b2 d2 + 2)) s := by
  show execSio r1 x2 b2 d2 s = _
  rw [execSio, whenPrivileged_on hp, withHalfAt_even he, hu.seenAt, hu.seenAt]

/-- Settles O54: the fields, the tables of commands, and then SIO's checks in their order, the unit's response, and what the command
has done when it is answered. -/
theorem LocalIo.startIo : Obligations.StartIo := by
  refine ⟨fun w0 w1 => ⟨rfl, fun i hi => ?_, fun i hi => ?_, fun i hi => ?_⟩, fun c => ?table,
    fun k => ⟨k.usesMemory_iff, k.begins_iff, bufferCount_eq k, countUnpredictable_iff k⟩, State.sensed_eq, ?io⟩
  · exact getMsbD_field w1 11 4 i (by omega) hi
  · exact getMsbD_field w1 3 8 i (by omega) hi
  · exact getMsbD_field w1 0 3 i (by omega) hi
  case table =>
    obtain ⟨address, unit, op, modifier⟩ := c
    simp only [List.forall_mem_cons, List.not_mem_nil, IsEmpty.forall_iff, implies_true, and_true]
    refine ⟨?_, fun h => ?_⟩
    · and_intros <;> (rintro rfl rfl; rfl)
    · obtain ⟨n, rfl⟩ : ∃ n : Fin 16, unit = BitVec.ofFin n := ⟨unit.toFin, rfl⟩
      rw [commandOf]
      -- Unit by unit: the operation is none of its own, so only the No Operation is left.
      fin_cases n <;> simp at h <;>
        simp [h, opWrite, opRead, opControl, opInitiateWrite, opInitiateRead, opReadCheck, opPanelWrite]
  intro s r1 r2 x2 b2 d2 hu hp a p hmem hpe c ucb answered both apart
  have run : exec p.1 s = Machine.startIo p.2.1 p.2.2.1 p.2.2.2.1 s := by
    rcases List.mem_pair.1 hmem with rfl | rfl
    · exact exec_sior hp r1 r2
    · exact exec_sio hu hp r1 x2 b2 d2 ((Bool.not_eq_true' _).mp hpe)
  obtain ⟨invalid, wrongUnit, command⟩ := startIo_spec hu p.2.1 p.2.2.1 p.2.2.2.1
  refine ⟨fun h => ?ucb, fun h0 ho h => ?unit, fun u h0 ho h1 h6 hn hm => ?command⟩
  case ucb => exact .of_programInterrupt (run.trans (invalid (ucbValid_eq_false h)))
  case unit =>
    refine ⟨_, run.trans (wrongUnit (ucbValid_of_even h0 ho) ?_), .synchronousInterrupt (s.writeHalf 0x50 _) .program _ _⟩
    rcases h with h | h | h
    · exact .inl (installedUnit_none _ (.inl h))
    · exact .inl (installedUnit_none _ (.inr h))
    · exact .inr h
  case command =>
    obtain ⟨undefined, defined⟩ := command u (ucbValid_of_even h0 ho) (installedUnit_some c.unit u h1 h6 hn) hm
    refine ⟨fun hk => run.trans (undefined hk), fun k hk hmem hodd => ?odd, fun k hk hodd => ?respond⟩
    case odd => exact .of_programInterrupt ((run.trans (defined k hk)).trans (if_pos (by rw [hmem, hodd]; rfl)))
    case respond =>
      have even : ¬ (k.usesMemory && odd c.address) = true := fun h =>
        have ⟨mem, odd⟩ := Bool.and_eq_true_iff.1 h
        Bool.false_ne_true ((hodd mem).symm.trans odd)
      have response := (run.trans (defined k hk)).trans (if_neg even)
      obtain ⟨busy, complete, begins⟩ := respond_spec u ucb c k s
      refine ⟨fun hk hb => ⟨_, response.trans (busy hk hb), ?busy⟩, fun h => ⟨_, response.trans (complete h), ?complete⟩,
        fun hl hi hb => ?begins⟩
      case busy =>
        exact ⟨condition_setCc _ _ _ _, State.readHalf_writeHalf s _ _, s.answer_frame u ucb _ _ _⟩
      case complete =>
        refine ⟨condition_setCc _ _ _ _, State.readHalf_writeHalf _ _ _, fun hc => ?nop, fun hc => ?writeB, fun hc => ?readB,
          fun hc => ?controlB, fun h hc => ?terminalControl, fun h hc => ?terminalRead, fun hc => ?panelRead,
          fun hc => ?panelWrite, fun hc => ?diskStay⟩
        all_goals subst hc
        case nop =>
          rw [s.perform_nop]
          exact (Frame.refl _).answer_noByte u ucb _ _ _
        case writeB =>
          exact Frame.answer_noByte (.consume { s with
            ownUsh := Config.freeWord s.freeCount, outputs := s.outputs ++ [.interruptB c.address] } 1) u ucb _ _ _
        case readB => exact State.answer_stored rfl (hodd rfl) ho u _ _ _
        case controlB =>
          rw [s.perform_controlB]
          exact (Frame.refl _).answer_noByte u ucb _ _ _
        case terminalControl =>
          rw [s.perform_terminalControl]
          exact (Frame.refl _).answer_noByte u ucb _ _ _
        case terminalRead =>
          rw [s.perform_terminalRead]
          exact State.answer_stored rfl (hodd rfl) ho u _ _ _
        case panelRead => exact State.answer_stored rfl (hodd rfl) ho u _ _ _
        case panelWrite => exact (Frame.refl _).answer_noByte u ucb _ _ _
        case diskStay => exact (Frame.refl s).answer_noByte u ucb _ _ _
      case begins =>
        obtain ⟨refused, begun⟩ := begins hl hi hb
        refine ⟨fun hn => response.trans (refused hn), fun hn => ⟨_, response.trans (begun hn), ?_⟩⟩
        rw [s.begin_eq]
        exact ⟨condition_setCc _ _ _ _, State.readHalf_writeHalf _ _ _, (Frame.refl _).answer_noByte u ucb _ _ _⟩
end Sys2Proof.Machine
end
